-- ==== Sys2Proof/Word.lean ====
section
/-! DEFINITION. The widths of the block (R8): a byte, a command word, a 64-bit quantity, a pool index; and the
two views of a byte and a 64-bit word as bits in stream order, most significant first (R40, R41). -/

namespace Sys2Proof

/-- A byte is 8 bits everywhere (R35). -/
abbrev Byte := BitVec 8

/-- One command word of format C16 (R53). -/
abbrev CmdWord := BitVec 16

/-- A 64-bit unsigned quantity: ARG0, RES, SRC_LEN, RD_BASE, a frequency, a code value (R6). -/
abbrev Word64 := BitVec 64

/-- A 9-bit pool index (R25, R26). -/
abbrev PoolIx := BitVec 9

end Sys2Proof
end

