-- ==== Sys2Proof/Config.lean ====
section
/-! DEFINITION. What an implementation fixes: the document's fixed parameters (R6), the parameters it leaves open with
the values the spec decides (R7), and the free values, which nothing constrains (U7, U8). -/

namespace Sys2Proof.Config

/-- NSYM: the number of symbols (R6). -/
abbrev nSym : Nat := 256

/-- POOL_N: the capacity of the node pool, 2 * NSYM - 1 (R6). -/
abbrev poolN : Nat := 511

/-- CODE_W: the width of the code value field, which is also the longest code (R6, R29). -/
abbrev codeW : Nat := 64

/-- DEPTH_MAX: the largest possible depth of a leaf (R6, R27). -/
abbrev depthMax : Nat := 255

/-- FRAME1_LEN: the length in bytes of the single-symbol frame (R6, R61). -/
abbrev frame1Len : Nat := 10

/-- MARKER: byte 0 of the single-symbol frame (R6, R61). -/
abbrev marker : Byte := 0x80

/-- TRAILER_MAX: the largest count that is packed into the last payload byte (R6, R65). -/
abbrev trailerMax : Nat := 5

/-- CHILD_ORDER: which of the two merged trees becomes the left child (R7, R92). -/
inductive ChildOrder
  | tailLeft
  | tailRight
  deriving DecidableEq, Repr

/-- COUNT_ENDIAN: the byte order of the 64-bit count of the single-symbol frame (R7, R42). -/
inductive CountEndian
  | little
  | big
  deriving DecidableEq, Repr

/-- TIE: where a re-inserted node goes among elements of equal frequency (R7, R93, C1). -/
inductive Tie
  | newestFirst
  | newestLast
  deriving DecidableEq, Repr

/-- The parameters R7 leaves open. They are fixed when the block is built, not at run time (R149): State carries
them and no step changes them. -/
structure Params where
  /-- BUF_SIZE, an integer at least 1. -/
  bufSize     : Nat
  childOrder  : ChildOrder
  countEndian : CountEndian
  tie         : Tie
  deriving DecidableEq, Repr

/-- The values R7 decides. BUF_SIZE is open there: 511 is the one size the document mentions
(DESIGN CHOICE, log entry 8; R160: no result depends on it). -/
def Params.decided : Params where
  bufSize := 511
  childOrder := .tailLeft
  countEndian := .little
  tie := .newestFirst

/-- FREE VALUE: a byte of BUF that the spec leaves unspecified (R19, R32), by draw and place (log entry 5). -/
opaque freeByte : Nat → Nat → Byte

/-- FREE VALUE: an entry of FREQ, CODE_VAL or a NODE's FREQ that the spec leaves unspecified (R25, R32; log entry 5). -/
opaque freeWord : Nat → Nat → Word64

/-- FREE VALUE: an entry of CODE_LEN that the spec leaves unspecified (R32; log entry 5). -/
opaque freeLen : Nat → Nat → BitVec 7

/-- FREE VALUE: a LEFT or RIGHT index that the spec leaves unspecified (R25; log entry 7). -/
opaque freeIx : Nat → Nat → PoolIx

/-- FREE VALUE: a one-bit field that the spec leaves unspecified (R25; log entry 7). -/
opaque freeBit : Nat → Nat → Bool

end Sys2Proof.Config
end

