-- ==== Sys2Proof/Machine/State.lean ====
section
/-! DEFINITION. The machine's state as plain data (R13 to R31), the reasons a step can stop, and the state after reset
(R33, R147). -/

namespace Sys2Proof.Machine

/-- STATUS.MODE: which session is open (R15, R139). -/
inductive Mode
  | idle
  | write
  | read
  | fault
  deriving DecidableEq, Repr

/-- STATUS.ERRCODE: the error kind of the failed session; codes 5 to 15 are never produced (R15, R129). -/
inductive ErrKind
  | none
  | emptyInput
  | invalidFormat
  | allocation
  | codeOverflow
  deriving DecidableEq, Repr

/-- One entry of the node pool with the fields of R25. -/
structure Node where
  /-- KIND: true = Leaf, false = Internal. -/
  kind  : Bool
  /-- SYM: the symbol of a Leaf. -/
  sym   : Byte
  /-- LEFT: the pool index of an Internal node's left child. -/
  left  : PoolIx
  /-- RIGHT: the pool index of an Internal node's right child. -/
  right : PoolIx
  /-- FREQ: the node's frequency, meaningful when FREQ_P. -/
  freq  : Word64
  /-- FREQ_P: FREQ is present. -/
  freqP : Bool
  deriving DecidableEq, Repr

/-- The bytes of a byte-addressed space, as the list of its (address, byte) pairs in one canonical form
(`Memory.wf`): addresses strictly rising, no entry equal to what an unlisted address reads as. -/
structure Memory where
  cells : List Host.Cell
  deriving DecidableEq, Repr

/-- What an address below the length of its space reads as when it is not listed. Every such byte was supplied or
written; the zero bytes are the ones the canonical form does not list (log entry 11). -/
def Memory.unlisted : Byte := 0

/-- The canonical form: addresses strictly rising and no listed byte equal to the unlisted one. -/
abbrev Memory.wf (m : Memory) : Prop :=
  m.cells.Pairwise (fun a b => a.1 < b.1) ∧ ∀ c ∈ m.cells, c.2 ≠ Memory.unlisted

/-- What the world outside the block does to it, one item at a time (R123, R31, R147). -/
inductive HostAccess
  /-- A host write of a register at a byte offset, at the register's full width (R14, R43). -/
  | write (offset : Nat) (value : Word64)
  /-- A host read of a register at a byte offset (R14). -/
  | read (offset : Nat)
  /-- Hardware reset (R147). -/
  | reset
  /-- The host attaches a source (R149 (1)). -/
  | attachSource (bytes : List Byte)
  /-- The host attaches a sink that already holds these bytes, normally none (R149 (2)). -/
  | attachSink (bytes : List Byte)
  /-- The environment sets ALLOC_BUF_OK and ALLOC_POOL_OK (R31, D11). -/
  | setAlloc (bufOk poolOk : Bool)
  deriving DecidableEq, Repr

/-- The whole machine: the block's state (R13), its parameters (R7), and the environment it runs in (R31). -/
structure State where
  /-- The parameters R7 leaves open, fixed when the block is built (R149). -/
  params      : Config.Params
  /-- STATUS[1:0] (R15). -/
  mode        : Mode
  /-- STATUS[2]: some command was refused since the last CLRERR (R15). -/
  cmdErr      : Bool
  /-- STATUS[3]: a bit was requested after the last source byte was consumed (R15). -/
  eof         : Bool
  /-- STATUS[4]: bit 7 of source byte 0, latched by ROPEN (R15). -/
  mark        : Bool
  /-- STATUS[5]: FREQ and LEAFCOUNT are valid (R15). -/
  freqV       : Bool
  /-- STATUS[6]: the pool holds a complete tree (R15). -/
  treeV       : Bool
  /-- STATUS[7]: the Code Table is valid for the tree (R15). -/
  codeV       : Bool
  /-- STATUS[11:8] (R15, R129). -/
  errCode     : ErrKind
  /-- STATUS[24:16]: the number of symbols with non-zero frequency (R24). -/
  leafCount   : BitVec 9
  /-- ARG0 (R16). -/
  arg0        : Word64
  /-- RES (R17). -/
  res         : Word64
  /-- BUF, an array of BUF_SIZE bytes (R19). -/
  buf         : List Byte
  /-- CUR_BYTE of the Bit Cursor (R20). -/
  curByte     : Nat
  /-- CUR_BIT of the Bit Cursor, also STATUS[14:12] (R20). -/
  curBit      : BitVec 3
  /-- BUF_LEN: the number of valid source bytes in BUF in MODE READ (R21). -/
  bufLen      : Nat
  /-- RD_BASE: the source offset of BUF[0] in MODE READ (R21). -/
  rdBase      : Word64
  /-- FREQ, the Frequency Table (R23). -/
  freq        : Vector Word64 256
  /-- NODE[0 .. NODE_CNT-1], the entries of the pool that are in use (R25, R26; log entry 6). -/
  nodes       : List Node
  /-- ROOT (R26). -/
  root        : PoolIx
  /-- WL[0 .. WL_LEN-1], the entries of the working list that are in use, head first (R28; log entry 6). -/
  wl          : List PoolIx
  /-- CODE_VAL (R29). -/
  codeVal     : Vector Word64 256
  /-- CODE_LEN (R29). -/
  codeLen     : Vector (BitVec 7) 256
  /-- WALK: the decoder's current node (R30). -/
  walk        : PoolIx
  /-- SRC, the source bytes (R31, R35). -/
  src         : Memory
  /-- SRC_LEN (R31). -/
  srcLen      : Word64
  /-- SINK, the bytes written so far (R31, R35). -/
  sink        : Memory
  /-- SINK_LEN (R31). -/
  sinkLen     : Nat
  /-- ALLOC_BUF_OK (R31). -/
  allocBufOk  : Bool
  /-- ALLOC_POOL_OK (R31). -/
  allocPoolOk : Bool
  /-- The source reads made since the source was attached, oldest first: offset and number of bytes (R36, R89). -/
  srcReads    : List (Nat × Nat)
  /-- The sizes of the sink writes made since the sink was attached, oldest first (R37, R82, R123). -/
  sinkWrites  : List Nat
  /-- What the outside world will do next, the next item first (R123; log entry 1). -/
  host        : List HostAccess
  /-- The values the host's register reads returned, oldest first (R123; log entry 21). -/
  hostReads   : List Word64
  /-- MODEL'S OWN: how many times unspecified contents were drawn from the free values (log entry 5). -/
  draw        : Nat
  deriving DecidableEq, Repr

/-- Reasons a step stops with a fault. None is one of the document's error kinds: those are states of the machine
(R131). Each is safe: the model stops where the spec's rules say nothing. -/
inductive Fault
  /-- Raised by a command that reads the tree (TSER, CGEN) when TREE_V = 1 and the pool from ROOT is no tree. R27 says
  this never holds; no run reaches it. Safe. -/
  | poolNotATree
  /-- Raised by DSINGLE and DPAY when ReadBit returns `none` where R117 and R119 say "never none". No run reaches it. Safe. -/
  | sourceRanOut
  /-- Raised by the host's attaching a source while a session is open: the source must be constant for the whole
  session (R152, R153), and the rules no longer describe the outcome. Safe. -/
  | sourceChangedInSession
  /-- Raised by the host's attaching a sink while a session is open: a sink is attached before the first command of a
  session (R149 (2)). Safe. -/
  | sinkChangedInSession
  deriving DecidableEq, Repr

/-- Reasons a step is refused by the model (not the block's refusal of R125, which is a next state). -/
inductive Refusal
  /-- Raised by exec for an instruction that has no meaning yet. Safe. -/
  | notModelled (mnemonic : String)
  /-- Raised by the host's attaching a source of 2^64 bytes or more, which R154 excludes and U20 says a model refuses. Safe. -/
  | sourceTooLong
  deriving DecidableEq, Repr

/-- The state after hardware reset, with an empty source and an empty sink attached (R33, R147). The contents of BUF,
FREQ, CODE_VAL and CODE_LEN, which R33 leaves unspecified, are zeros (R148; log entry 4); the environment's values are
log entry 10, the parameters log entries 8 and 9. -/
def State.reset : State where
  params := Config.Params.decided
  mode := .idle
  cmdErr := false
  eof := false
  mark := false
  freqV := false
  treeV := false
  codeV := false
  errCode := .none
  leafCount := 0
  arg0 := 0
  res := 0
  buf := List.replicate Config.Params.decided.bufSize 0
  curByte := 0
  curBit := 0
  bufLen := 0
  rdBase := 0
  freq := Vector.replicate 256 0
  nodes := []
  root := 0
  wl := []
  codeVal := Vector.replicate 256 0
  codeLen := Vector.replicate 256 0
  walk := 0
  src := ⟨[]⟩
  srcLen := 0
  sink := ⟨[]⟩
  sinkLen := 0
  allocBufOk := true
  allocPoolOk := true
  srcReads := []
  sinkWrites := []
  host := []
  hostReads := []
  draw := 0

end Sys2Proof.Machine
end

