-- ==== Sys2Proof/Machine/Flags.lean ====
section
/-! DEFINITION. The STATUS register: the numbers of its fields and the word a host reads (R15, R129). There are no
arithmetic condition codes; every flag the block has is a field here. -/

namespace Sys2Proof.Machine

/-- The value of STATUS.MODE (R15). -/
def Mode.code : Mode → BitVec 2
  | .idle => 0
  | .write => 1
  | .read => 2
  | .fault => 3

/-- The value of STATUS.ERRCODE (R129). -/
def ErrKind.code : ErrKind → BitVec 4
  | .none => 0
  | .emptyInput => 1
  | .invalidFormat => 2
  | .allocation => 3
  | .codeOverflow => 4

/-- A one-bit field. -/
def flagBit (b : Bool) : BitVec 1 := BitVec.ofBool b

/-- The word a read of STATUS returns: the fields of R15 at their bits, the reserved bits 15 and 31:25 zero. -/
def State.status (s : State) : BitVec 32 :=
  (0 : BitVec 7) ++ s.leafCount ++ (0 : BitVec 1) ++ s.curBit ++ s.errCode.code ++ flagBit s.codeV ++
    flagBit s.treeV ++ flagBit s.freqV ++ flagBit s.mark ++ flagBit s.eof ++ flagBit s.cmdErr ++ s.mode.code

/-- LEAFCOUNT as FSCAN computes it: the number of non-zero entries of the Frequency Table (R24, R108). -/
def countNonZero (freq : Vector Word64 256) : Nat :=
  (freq.toList.filter (fun c => c != 0)).length

end Sys2Proof.Machine
end

