-- ==== Sys2Proof/Syntax.lean ====
section
/-! DEFINITION. The syntax: one constructor per row of spec/opcode_table.json. The first 21 are the host commands of
R56; the last six are the wire-format records of R61, R63, R64, R65 and R66, the units of the stream that the commands
write and parse. -/

namespace Sys2Proof

/-- Every row of the opcode table: 21 commands (R56) and 6 wire-format records (R71). -/
inductive Instr
  /-- WOPEN: open a write session (R77). -/
  | wopen
  /-- WBIT b: write one bit (R78). -/
  | wbit (b : Bool)
  /-- WBITS n: write the n most significant bits of ARG0 (R79). -/
  | wbits (n : BitVec 7)
  /-- WBYTE v: write one byte at a byte-aligned cursor (R80). -/
  | wbyte (v : Byte)
  /-- WFLUSH: write what is left in the buffer and end the write session (R81). -/
  | wflush
  /-- ROPEN: open a read session and load the first buffer (R86). -/
  | ropen
  /-- RBIT: read one bit into RES (R87). -/
  | rbit
  /-- RCLOSE: end a read session (R88). -/
  | rclose
  /-- TBUILD: build the Huffman tree from the Frequency Table (R94). -/
  | tbuild
  /-- TSER: write the serialized tree (R98). -/
  | tser
  /-- TDES: read a serialized tree into the node pool (R100). -/
  | tdes
  /-- CGEN: fill the Code Table from the tree (R104). -/
  | cgen
  /-- FSCAN: build the Frequency Table by reading the whole source (R108). -/
  | fscan
  /-- ESINGLE: write the ten bytes of the single-symbol form (R109). -/
  | esingle
  /-- EPAY: read the source a second time and write each byte's code (R110). -/
  | epay
  /-- ETRAIL: append the trailer (R112). -/
  | etrail
  /-- ENCODE: a whole encode call (R113). -/
  | encode
  /-- DSINGLE: decode a single-symbol frame (R117). -/
  | dsingle
  /-- DPAY: decode the payload by walking the tree (R119). -/
  | dpay
  /-- DECODE: a whole decode call (R121). -/
  | decode
  /-- CLRERR: acknowledge an error (R126). -/
  | clrerr
  /-- W.SINGLE: the single-symbol frame: marker low bits, symbol, count (R61). -/
  | wireSingle (m : BitVec 7) (sym : Byte) (count : Word64)
  /-- W.NODE.INTERNAL: the record of an Internal node (R63). -/
  | wireInternal
  /-- W.NODE.LEAF: the record of a Leaf (R63). -/
  | wireLeaf (sym : Byte)
  /-- W.CODE: the code of one symbol, edge labels root to leaf, left = 0, right = 1 (R64). -/
  | wireCode (k : List Bool)
  /-- W.TRAILER.PACKED: five data or padding bits and the 3-bit count (R65). -/
  | wireTrailerPacked (d : BitVec 5) (c : BitVec 3)
  /-- W.TRAILER.ZERO: the last data byte and the explicit zero byte (R66). -/
  | wireTrailerZero (d : Byte)
  deriving DecidableEq, Repr

end Sys2Proof
end

