-- ==== Sys2Proof/WellFormed.lean ====
section
/-! DEFINITION. Which terms of Instr the spec's encodings admit: the legal bit counts of WBITS (R55, R57), the code
lengths (R64) and the two trailer forms as the encoder writes them (R65, R66). -/

namespace Sys2Proof

/-- The low `5 - c` of the five data positions are padding zeros (R65). -/
def packedPaddingZero (d : BitVec 5) (c : BitVec 3) : Bool :=
  d.toNat % 2 ^ (5 - c.toNat) == 0

/-- The checks an instruction passes to be well formed. -/
def Instr.wellFormed : Instr → Bool
  | .wopen => true
  | .wbit _ => true
  | .wbits n => decide (n.toNat ≤ 64)
  | .wbyte _ => true
  | .wflush => true
  | .ropen => true
  | .rbit => true
  | .rclose => true
  | .tbuild => true
  | .tser => true
  | .tdes => true
  | .cgen => true
  | .fscan => true
  | .esingle => true
  | .epay => true
  | .etrail => true
  | .encode => true
  | .dsingle => true
  | .dpay => true
  | .decode => true
  | .clrerr => true
  | .wireSingle _ _ _ => true
  | .wireInternal => true
  | .wireLeaf _ => true
  | .wireCode k => decide (1 ≤ k.length) && decide (k.length ≤ Config.codeW)
  | .wireTrailerPacked d c => decide (c.toNat ≤ Config.trailerMax) && packedPaddingZero d c
  | .wireTrailerZero d => !d.getLsbD 0

/-- The rows that are host commands (R56); the others are wire-format records. -/
def Instr.isCommand : Instr → Bool
  | .wireSingle _ _ _ => false
  | .wireInternal => false
  | .wireLeaf _ => false
  | .wireCode _ => false
  | .wireTrailerPacked _ _ => false
  | .wireTrailerZero _ => false
  | .wopen => true
  | .wbit _ => true
  | .wbits _ => true
  | .wbyte _ => true
  | .wflush => true
  | .ropen => true
  | .rbit => true
  | .rclose => true
  | .tbuild => true
  | .tser => true
  | .tdes => true
  | .cgen => true
  | .fscan => true
  | .esingle => true
  | .epay => true
  | .etrail => true
  | .encode => true
  | .dsingle => true
  | .dpay => true
  | .decode => true
  | .clrerr => true

end Sys2Proof
end

