-- ==== Sys2Proof/Decode.lean ====
section
/-! DEFINITION. Decoding and encoding. Command words: a total function from 16-bit words to one of the 21 commands or a
named rejection (R53, R56, R57). Wire-format records: the bits of a record in stream order (R60 to R66) and their
parsing. The encoder after it is written from the same tables. -/

namespace Sys2Proof

/-! ## Bits in stream order (R40, R41) -/

/-- The bits of a value, most significant first: the order every group of bits has in the stream (R41). -/
def bitsMsb {n : Nat} (v : BitVec n) : List Bool :=
  (List.range n).map fun i => v.getMsbD i

/-- The value whose bits, most significant first, are `bs` (R41). -/
def ofBitsMsb (n : Nat) (bs : List Bool) : BitVec n :=
  BitVec.ofNat n (bs.foldl (fun a b => 2 * a + b.toNat) 0)

/-- The eight count bytes in the order of the frame: least significant first for LITTLE, most significant first for
BIG (R42). -/
def countBytes (e : Config.CountEndian) (c : Word64) : List Byte :=
  let lsbFirst := (List.range 8).map fun j => c.extractLsb' (8 * j) 8
  match e with
  | .little => lsbFirst
  | .big => lsbFirst.reverse

/-- The count whose frame bytes are `bs` (R42, R117). -/
def countOfBytes (e : Config.CountEndian) (bs : List Byte) : Word64 :=
  let msbFirst := match e with
    | .little => bs.reverse
    | .big => bs
  BitVec.ofNat 64 (msbFirst.foldl (fun a b => 256 * a + b.toNat) 0)

/-! ## Command words (R54 to R57) -/

/-- OPC, bits 15:8 of a command word (R54). -/
def opcOf (w : CmdWord) : Byte := w.extractLsb' 8 8

/-- IMM, bits 7:0 of a command word (R54). -/
def immOf (w : CmdWord) : Byte := w.extractLsb' 0 8

/-- One row of the opcode map of R56: the word selects the row when `w &&& mask = pattern`; `build` assembles the
operand from IMM (R55). -/
structure CmdRow where
  pattern : CmdWord
  mask    : CmdWord
  build   : Byte → Instr

/-- The operand of WBIT: `IMM[0]` (R55). -/
def immBit (imm : Byte) : Bool := imm.getLsbD 0

/-- The operand of WBITS: `IMM[6:0]` (R55). -/
def immCount (imm : Byte) : BitVec 7 := imm.extractLsb' 0 7

/-- The opcode map of R56, in its order. -/
def cmdRows : List CmdRow :=
  [ ⟨0x1000, 0xFFFF, fun _ => .wopen⟩,
    ⟨0x1100, 0xFFFE, fun imm => .wbit (immBit imm)⟩,
    ⟨0x1200, 0xFF80, fun imm => .wbits (immCount imm)⟩,
    ⟨0x1300, 0xFF00, fun imm => .wbyte imm⟩,
    ⟨0x1400, 0xFFFF, fun _ => .wflush⟩,
    ⟨0x2000, 0xFFFF, fun _ => .ropen⟩,
    ⟨0x2100, 0xFFFF, fun _ => .rbit⟩,
    ⟨0x2200, 0xFFFF, fun _ => .rclose⟩,
    ⟨0x3000, 0xFFFF, fun _ => .tbuild⟩,
    ⟨0x4000, 0xFFFF, fun _ => .tser⟩,
    ⟨0x4100, 0xFFFF, fun _ => .tdes⟩,
    ⟨0x5000, 0xFFFF, fun _ => .cgen⟩,
    ⟨0x6000, 0xFFFF, fun _ => .fscan⟩,
    ⟨0x6100, 0xFFFF, fun _ => .esingle⟩,
    ⟨0x6200, 0xFFFF, fun _ => .epay⟩,
    ⟨0x6300, 0xFFFF, fun _ => .etrail⟩,
    ⟨0x6F00, 0xFFFF, fun _ => .encode⟩,
    ⟨0x7000, 0xFFFF, fun _ => .dsingle⟩,
    ⟨0x7100, 0xFFFF, fun _ => .dpay⟩,
    ⟨0x7F00, 0xFFFF, fun _ => .decode⟩,
    ⟨0xF000, 0xFFFF, fun _ => .clrerr⟩ ]

/-- Why bits are no instruction. The first two are the reserved command words of R57; the others are the illegal wire
encodings that R61, R63, R64 and R69 name. -/
inductive DecodeError
  /-- OPC is not in the table (R57). -/
  | reservedOpcode (opc : Byte)
  /-- OPC is in the table and IMM holds bits that must be 0 (R57). -/
  | reservedImmediate (opc imm : Byte)
  /-- A single-symbol frame is not 80 bits, or its first bit is 0 (R61). -/
  | notAFrame
  /-- The bits are not exactly one node record (R63). -/
  | notANode
  /-- A code has 1 to 64 bits (R64). -/
  | codeLength (n : Nat)
  /-- A trailer is one byte, or a byte and a zero byte (R65, R66). -/
  | notATrailer
  /-- The last byte's low three bits are 6 or 7 (R69 (h)). -/
  | trailerCount (c : BitVec 3)
  deriving DecidableEq, Repr

/-- Decoding of a command word, total on all 65536 words (R53, R56, R57). A WBITS word with 65 ≤ n ≤ 127 matches its row
and decodes; the command itself refuses it (R57, R79). -/
def decodeCmd (w : CmdWord) : Except DecodeError Instr :=
  match cmdRows.find? fun r => w &&& r.mask == r.pattern with
  | some r => .ok (r.build (immOf w))
  | none =>
    if cmdRows.any fun r => opcOf r.pattern == opcOf w then
      .error (.reservedImmediate (opcOf w) (immOf w))
    else .error (.reservedOpcode (opcOf w))

/-! ## Wire-format records (R60 to R66) -/

/-- The bits an instruction is made of: a command word, or the bits of a wire-format record in stream order, in the
place of the format where such a record stands. -/
inductive Image
  /-- A word written to CMD (R53). -/
  | word (w : CmdWord)
  /-- The whole file of the single-symbol form (R61). -/
  | frame (bits : List Bool)
  /-- A record of the serialized tree (R63). -/
  | node (bits : List Bool)
  /-- The code of one symbol in the payload (R64). -/
  | code (bits : List Bool)
  /-- The last byte, or the last two bytes, of the general form (R65, R66). -/
  | trailer (bits : List Bool)
  deriving DecidableEq, Repr

/-- A node record at the start of a bit string, and the rest: `1` and eight symbol bits, or `0` (R63). -/
def parseNode : List Bool → Option (Instr × List Bool)
  | false :: rest => some (.wireInternal, rest)
  | true :: rest =>
    if 8 ≤ rest.length then some (.wireLeaf (ofBitsMsb 8 (rest.take 8)), rest.drop 8) else none
  | [] => none

/-- A single-symbol frame: 80 bits, the first of them 1; the marker's low bits are not tested (R61, R69 (c)). -/
def parseFrame (e : Config.CountEndian) (bits : List Bool) : Except DecodeError Instr :=
  if bits.length = 80 ∧ bits.head? = some true then
    let m := ofBitsMsb 7 ((bits.drop 1).take 7)
    let sym := ofBitsMsb 8 ((bits.drop 8).take 8)
    let count := countOfBytes e
      ((List.range 8).map fun j => ofBitsMsb 8 ((bits.drop (16 + 8 * j)).take 8))
    .ok (.wireSingle m sym count)
  else .error .notAFrame

/-- A trailer: one byte whose low three bits are 0 to 5 (R65), or a byte followed by a zero byte (R66). -/
def parseTrailer (bits : List Bool) : Except DecodeError Instr :=
  if bits.length = 8 then
    let c := ofBitsMsb 3 (bits.drop 5)
    if c.toNat ≤ Config.trailerMax then .ok (.wireTrailerPacked (ofBitsMsb 5 (bits.take 5)) c)
    else .error (.trailerCount c)
  else if bits.length = 16 ∧ bits.drop 8 = List.replicate 8 false then
    .ok (.wireTrailerZero (ofBitsMsb 8 (bits.take 8)))
  else .error .notATrailer

/-- Decoding, total on any image, rejecting by name. The frame's count is read least significant byte first, as the
table's row W.SINGLE has it (COUNT_ENDIAN = LITTLE). -/
def decode : Image → Except DecodeError Instr
  | .word w => decodeCmd w
  | .frame bits => parseFrame .little bits
  | .node bits =>
    match parseNode bits with
    | some (i, []) => .ok i
    | some (_, _ :: _) => .error .notANode
    | none => .error .notANode
  | .code bits =>
    if 1 ≤ bits.length ∧ bits.length ≤ Config.codeW then .ok (.wireCode bits)
    else .error (.codeLength bits.length)
  | .trailer bits => parseTrailer bits

/-- The command word whose bits are `w`, in the table's numbering: a command is one 16-bit word (R53). A word of more
bits is no command word. The wire-format rows have no command word (log entry 17). -/
def decodeTableWord (nbits w : Nat) : Option Instr :=
  if nbits ≤ 16 ∧ w < 65536 then
    match decode (.word (BitVec.ofNat 16 w)) with
    | .ok i => some i
    | .error _ => none
  else none

/-! ## The encoder -/

/-- `CMD = (OPC << 8) | IMM` (R54). -/
def cmdWord (opc imm : Byte) : CmdWord := opc ++ imm

/-- The 80 bits of a single-symbol frame (R61). -/
def frameBits (e : Config.CountEndian) (m : BitVec 7) (sym : Byte) (count : Word64) : List Bool :=
  [true] ++ bitsMsb m ++ bitsMsb sym ++ (countBytes e count).flatMap bitsMsb

/-- The 9 bits of a Leaf record (R63). -/
def leafBits (sym : Byte) : List Bool := true :: bitsMsb sym

/-- The 8 bits of a packed trailer byte (R65). -/
def packedBits (d : BitVec 5) (c : BitVec 3) : List Bool := bitsMsb d ++ bitsMsb c

/-- The 16 bits of the zero-byte trailer (R66). -/
def zeroTrailerBits (d : Byte) : List Bool := bitsMsb d ++ List.replicate 8 false

/-- The image of an instruction: a command's word (R56), a record's bits in stream order (R61 to R66). -/
def encode : Instr → Image
  | .wopen => .word (cmdWord 0x10 0)
  | .wbit b => .word (cmdWord 0x11 (BitVec.ofNat 8 b.toNat))
  | .wbits n => .word (cmdWord 0x12 (n.setWidth 8))
  | .wbyte v => .word (cmdWord 0x13 v)
  | .wflush => .word (cmdWord 0x14 0)
  | .ropen => .word (cmdWord 0x20 0)
  | .rbit => .word (cmdWord 0x21 0)
  | .rclose => .word (cmdWord 0x22 0)
  | .tbuild => .word (cmdWord 0x30 0)
  | .tser => .word (cmdWord 0x40 0)
  | .tdes => .word (cmdWord 0x41 0)
  | .cgen => .word (cmdWord 0x50 0)
  | .fscan => .word (cmdWord 0x60 0)
  | .esingle => .word (cmdWord 0x61 0)
  | .epay => .word (cmdWord 0x62 0)
  | .etrail => .word (cmdWord 0x63 0)
  | .encode => .word (cmdWord 0x6F 0)
  | .dsingle => .word (cmdWord 0x70 0)
  | .dpay => .word (cmdWord 0x71 0)
  | .decode => .word (cmdWord 0x7F 0)
  | .clrerr => .word (cmdWord 0xF0 0)
  | .wireSingle m sym count => .frame (frameBits .little m sym count)
  | .wireInternal => .node [false]
  | .wireLeaf sym => .node (leafBits sym)
  | .wireCode k => .code k
  | .wireTrailerPacked d c => .trailer (packedBits d c)
  | .wireTrailerZero d => .trailer (zeroTrailerBits d)

end Sys2Proof
end

