-- ==== Sys2Proof/Machine/Operands.lean ====
section
/-! DEFINITION. The operand forms: the left-justified 64-bit operand of WBITS and of the Code Table (R29, R79), entries
of the 256-entry tables by symbol (R23, R29), entries of the node pool by index (R25), and source bytes by offset
(R35). -/

namespace Sys2Proof.Machine

/-- The `n` most significant bits of a left-justified 64-bit value, bit 63 first (R79, R110). -/
def topBits (v : Word64) (n : Nat) : List Bool :=
  (List.range n).map fun i => v.getMsbD i

/-- A 256-entry table from its entries. -/
def table256 {α : Type} (f : Nat → α) : Vector α 256 :=
  ⟨⟨(List.range 256).map f⟩, by simp⟩

/-- The entry of a table for a symbol (R23, R29). -/
def entry {α : Type} (t : Vector α 256) (sym : Byte) : α :=
  t[sym.toNat]'sym.isLt

/-- A table with the entry for a symbol replaced (R9: `A[i] <- v`). -/
def setEntry {α : Type} (t : Vector α 256) (sym : Byte) (x : α) : Vector α 256 :=
  t.set sym.toNat x sym.isLt

/-- All symbols in ascending value, 0 to 255 (R91). -/
def allSymbols : List Byte := (List.range 256).map (BitVec.ofNat 8)

/-- The symbols of non-zero frequency in ascending value (R91). -/
def usedSymbols (freq : Vector Word64 256) : List Byte :=
  allSymbols.filter fun sym => entry freq sym != 0

/-- A pool entry none of whose fields the spec states, by draw and place: FREE VALUES (R25, U8; log entry 7). -/
def freeNode (draw place : Nat) : Node where
  kind := Config.freeBit draw (2 * place)
  sym := Config.freeByte draw place
  left := Config.freeIx draw (2 * place)
  right := Config.freeIx draw (2 * place + 1)
  freq := Config.freeWord draw place
  freqP := Config.freeBit draw (2 * place + 1)

/-- `NODE[i]`. An entry not in use is unspecified (R25, R26): reading one, which no run does, gives a free value
(log entry 22). -/
def nodeAt (nodes : List Node) (i : PoolIx) : Node :=
  nodes.getD i.toNat (freeNode 0 i.toNat)

/-- NODE_CNT (R26). -/
def State.nodeCnt (s : State) : BitVec 9 := BitVec.ofNat 9 s.nodes.length

/-- WL_LEN (R28). -/
def State.wlLen (s : State) : Nat := s.wl.length

/-- POS, the number of source bits consumed so far (R22). -/
def State.pos (s : State) : Nat := 8 * (s.rdBase.toNat + s.curByte) + s.curBit.toNat

/-- A tree as the inductive value R27 allows a model to read off from ROOT. -/
inductive CodeTree
  | leaf (sym : Byte)
  | internal (left right : CodeTree)
  deriving DecidableEq, Repr

/-- The tree read off the pool from index `i`, at most `fuel` nodes deep; none when an index is not in use or the
depth runs out, which R27 excludes. -/
def treeAt (nodes : List Node) : Nat → PoolIx → Option CodeTree
  | 0, _ => none
  | fuel + 1, i =>
    match nodes[i.toNat]? with
    | none => none
    | some n =>
      if n.kind then some (.leaf n.sym)
      else
        match treeAt nodes fuel n.left, treeAt nodes fuel n.right with
        | some l, some r => some (.internal l r)
        | some _, none => none
        | none, _ => none

/-- The tree in the pool: leaves are at most 255 deep, so 256 nodes on a path (R27). -/
def State.tree (s : State) : Option CodeTree :=
  treeAt s.nodes (Config.depthMax + 1) s.root

/-- The serialized form of a tree, in stream order (R63, R97). -/
def CodeTree.ser : CodeTree → List Bool
  | .leaf sym => leafBits sym
  | .internal l r => false :: (l.ser ++ r.ser)

/-- The number of leaves of a tree. -/
def CodeTree.leaves : CodeTree → Nat
  | .leaf _ => 1
  | .internal l r => l.leaves + r.leaves

/-- The number of nodes of a tree. -/
def CodeTree.size : CodeTree → Nat
  | .leaf _ => 1
  | .internal l r => 1 + l.size + r.size

/-- The codes of a tree in walk order, left before right: each leaf's symbol with the edge labels from the root, left = 0
and right = 1 (R103). -/
def CodeTree.codes : CodeTree → List (Byte × List Bool)
  | .leaf sym => [(sym, [])]
  | .internal l r =>
    l.codes.map (fun c => (c.1, false :: c.2)) ++ r.codes.map (fun c => (c.1, true :: c.2))

end Sys2Proof.Machine
end

