-- ==== Sys2Proof/Machine/Ops.lean ====
section
/-! DEFINITION. The shared operations: memory in canonical form, source reads and sink writes (R9, R36, R37), Release
(R32), taking an error and acknowledging it (R131, R126), refusal (R125), and the micro-operations of the writer and
the reader (R76, R84, R85). -/

namespace Sys2Proof.Machine

/-! ## Memory -/

/-- The byte at an address in a list of cells. -/
def readCells : List Host.Cell → Nat → Byte
  | [], _ => Memory.unlisted
  | c :: cs, a => if c.1 = a then c.2 else readCells cs a

/-- A cell put in its place in a list of rising addresses. -/
def insertCell (c : Host.Cell) : List Host.Cell → List Host.Cell
  | [] => [c]
  | d :: ds => if c.1 < d.1 then c :: d :: ds else d :: insertCell c ds

/-- Store a byte in a list of cells, keeping the canonical form: the address's entry is replaced, and a byte equal to
the unlisted one has none. -/
def writeCells (cs : List Host.Cell) (a : Nat) (b : Byte) : List Host.Cell :=
  let others := cs.filter fun c => c.1 ≠ a
  if b = Memory.unlisted then others else insertCell (a, b) others

/-- The byte at an address below the length of the space. -/
def Memory.read (m : Memory) (a : Nat) : Byte := readCells m.cells a

/-- One byte stored. -/
def Memory.write (m : Memory) (a : Nat) (b : Byte) : Memory := ⟨writeCells m.cells a b⟩

/-- Bytes stored at rising addresses from `a`: the first at the lowest (R43). -/
def Memory.writeBytes (m : Memory) : Nat → List Byte → Memory
  | _, [] => m
  | a, b :: bs => (m.write a b).writeBytes (a + 1) bs

/-- The space that holds exactly these bytes from address 0. -/
def Memory.ofBytes (bs : List Byte) : Memory := Memory.writeBytes ⟨[]⟩ 0 bs

/-- The bytes at `a .. a+n-1`, lowest address first. -/
def Memory.readBytes (m : Memory) (a n : Nat) : List Byte :=
  (List.range n).map fun i => m.read (a + i)

/-- `SRC[0 .. SRC_LEN-1]`; no byte exists at or beyond SRC_LEN (R31, R35). -/
def State.srcBytes (s : State) : List Byte := s.src.readBytes 0 s.srcLen.toNat

/-- `SINK[0 .. SINK_LEN-1]`; no byte exists at or beyond SINK_LEN (R31, R35). -/
def State.sinkBytes (s : State) : List Byte := s.sink.readBytes 0 s.sinkLen

/-- A source read is noted: offset and number of bytes (R36). -/
def noteRead (a n : Nat) (s : State) : State := { s with srcReads := s.srcReads ++ [(a, n)] }

/-- The byte-by-byte scan of the whole source from offset 0 is noted: `MemRead(i, 1)` for every `i` (R36 (b)). -/
def noteScan (s : State) : State :=
  { s with srcReads := s.srcReads ++ (List.range s.srcLen.toNat).map fun i => (i, 1) }

/-- `MemWrite(SINK_LEN, k, v)`: append the bytes to the sink in one write (R9). -/
def memWrite (bs : List Byte) (s : State) : State :=
  { s with
    sink := s.sink.writeBytes s.sinkLen bs
    sinkLen := s.sinkLen + bs.length
    sinkWrites := s.sinkWrites ++ [bs.length] }

/-- `Emit(b)`: one byte appended to the sink on the decoder's output path (R9). -/
def emit (b : Byte) (s : State) : State := memWrite [b] s

/-- `for k in 1 .. n: Emit(b)` (R117). -/
def emitTimes (b : Byte) : Nat → State → State
  | 0, s => s
  | n + 1, s => emitTimes b n (emit b s)

/-! ## Sessions, errors, refusal -/

/-- Contents of BUF that the spec leaves unspecified, `n` bytes from place `start`: FREE VALUES (R19, R32). -/
def freeBytes (draw start n : Nat) : List Byte :=
  (List.range n).map fun j => Config.freeByte draw (start + j)

/-- `Release()`: everything a session owns is freed; the arrays' contents become unspecified, which is a fresh draw of
free values (R32; log entry 5). -/
def release (s : State) : State :=
  { s with
    freqV := false
    treeV := false
    codeV := false
    eof := false
    mark := false
    leafCount := 0
    curByte := 0
    curBit := 0
    bufLen := 0
    rdBase := 0
    nodes := []
    root := 0
    wl := []
    walk := 0
    buf := freeBytes s.draw 0 s.params.bufSize
    freq := table256 fun i => Config.freeWord s.draw i
    codeVal := table256 fun i => Config.freeWord s.draw (256 + i)
    codeLen := table256 fun i => Config.freeLen s.draw i
    draw := s.draw + 1 }

/-- `raise E`: the one operation that takes an error (R131). No state is saved and no control is transferred. -/
def raise (e : ErrKind) (s : State) : State :=
  { release s with errCode := e, mode := .fault }

/-- `CLRERR`: the one return from the fault state besides hardware reset (R126, R134). -/
def acknowledge (s : State) : State :=
  if s.mode = .fault then { s with cmdErr := false, errCode := .none, mode := .idle }
  else { s with cmdErr := false }

/-- `refuse`: CMDERR is set and nothing else changes (R125). -/
def refuse (s : State) : State := { s with cmdErr := true }

/-- Release and MODE back to IDLE: the end of WFLUSH and of RCLOSE (R81, R88). -/
def closeSession (s : State) : State := { release s with mode := .idle }

/-- Hardware reset: every scalar to its value of R33, the arrays unspecified; the environment and the parameters are
not touched (R147). -/
def hardwareReset (s : State) : State :=
  { release s with mode := .idle, cmdErr := false, errCode := .none, arg0 := 0, res := 0 }

/-- Both allocation inputs are true (R77, R86). -/
def State.allocOk (s : State) : Bool := s.allocBufOk && s.allocPoolOk

/-- The scalars that WOPEN and ROPEN both clear (R77, R86). -/
def clearSession (s : State) : State :=
  { s with
    curByte := 0
    curBit := 0
    bufLen := 0
    rdBase := 0
    freqV := false
    treeV := false
    codeV := false
    eof := false
    mark := false
    leafCount := 0
    nodes := []
    root := 0
    wl := []
    walk := 0 }

/-- `do X; do Y`: go on with the next operation unless the one before it raised, in which case MODE is FAULT
(R113, R121). -/
def andThen (o : Host.Outcome State Fault Refusal) (f : State → Host.Outcome State Fault Refusal) :
    Host.Outcome State Fault Refusal :=
  match o with
  | .next s => if s.mode = .fault then .next s else f s
  | .fault r => .fault r
  | .refused r => .refused r

/-! ## The writer (R75, R76) -/

/-- The mask of the addressed bit, `0x80 >> CUR_BIT` (R40, R76). -/
def bitMask (k : BitVec 3) : Byte := (0x80 : Byte) >>> k.toNat

/-- One bit of a byte set or cleared, the other seven unchanged (R76). -/
def putBit (k : BitVec 3) (b : Bool) (v : Byte) : Byte :=
  if b then v ||| bitMask k else v &&& (0xFF ^^^ bitMask k)

/-- `Transfer()`: the full buffer goes to the sink in one write, is filled with zeros, and the cursor returns to its
start (R76). -/
def transfer (s : State) : State :=
  { memWrite (s.buf.take s.params.bufSize) s with
    buf := List.replicate s.params.bufSize 0
    curByte := 0 }

/-- The cursor steps to the next byte of BUF; stepping past the last one transfers the buffer (R76). -/
def nextByte (s : State) : State :=
  if s.curByte + 1 = s.params.bufSize then transfer { s with curByte := s.curByte + 1 }
  else { s with curByte := s.curByte + 1 }

/-- `WriteBit(b)` (R76). -/
def writeBit (b : Bool) (s : State) : State :=
  let s1 := { s with buf := s.buf.modify s.curByte (putBit s.curBit b), curBit := s.curBit + 1 }
  if s.curBit = 7 then nextByte s1 else s1

/-- `WriteByte(v)`, at a byte-aligned cursor (R76). -/
def writeByte (v : Byte) (s : State) : State :=
  nextByte { s with buf := s.buf.set s.curByte v }

/-- WriteBit for each bit of a group, in stream order (R41). -/
def writeBits (bs : List Bool) (s : State) : State :=
  bs.foldl (fun t b => writeBit b t) s

/-- WriteByte for each byte, in order. -/
def writeBytes (vs : List Byte) (s : State) : State :=
  vs.foldl (fun t v => writeByte v t) s

/-! ## The reader (R83 to R85) -/

/-- The first `n` bytes of BUF are loaded from the source at offset `a` in one read, none when `n` is 0; the rest of BUF,
which is all of it when `n` is 0, is unspecified: FREE VALUES (R19, U7, R84, R86; log entry 5). -/
def loadBuf (a n : Nat) (s : State) : State :=
  { s with
    buf := s.src.readBytes a n ++ freeBytes s.draw n (s.params.bufSize - n)
    srcReads := s.srcReads ++ (if n = 0 then [] else [(a, n)])
    draw := s.draw + 1 }

/-- `Refill()` (R84). -/
def refill (s : State) : State :=
  let base := s.rdBase + BitVec.ofNat 64 s.bufLen
  let n := min s.params.bufSize (s.srcLen.toNat - base.toNat)
  { loadBuf base.toNat n s with rdBase := base, bufLen := n, curByte := 0, curBit := 0 }

/-- The bit of BUF under the cursor (R85). A place outside BUF, which no run addresses, holds a free value
(log entry 22). -/
def bufBit (s : State) : Bool :=
  (s.buf.getD s.curByte (Config.freeByte s.draw s.curByte)).getLsbD (7 - s.curBit.toNat)

/-- The cursor steps over one bit of the reader's buffer (R85). -/
def stepBit (s : State) : State :=
  if s.curBit = 7 then { s with curBit := 0, curByte := s.curByte + 1 }
  else { s with curBit := s.curBit + 1 }

/-- `ReadBit()`: a bit, or none at the end of the source, with EOF set (R85). -/
def readBit (s : State) : Option Bool × State :=
  if s.curByte = s.bufLen then
    let s1 := refill s
    if s1.bufLen = 0 then (none, { s1 with eof := true })
    else (some (bufBit s1), stepBit s1)
  else (some (bufBit s), stepBit s)

/-- `n` calls of ReadBit, ending at the first that returns none. -/
def readBitsN : Nat → State → Option (List Bool) × State
  | 0, s => (some [], s)
  | n + 1, s =>
    match readBit s with
    | (none, s1) => (none, s1)
    | (some b, s1) =>
      match readBitsN n s1 with
      | (none, s2) => (none, s2)
      | (some bs, s2) => (some (b :: bs), s2)

/-- `MemRead(SRC_LEN - 1, 1)`: the peek at the last byte, which leaves the cursor alone (R36 (c)). -/
def peekLast (s : State) : Byte × State :=
  (s.src.read (s.srcLen.toNat - 1), noteRead (s.srcLen.toNat - 1) 1 s)

/-- END, the stream position where the payload walk stops, for a trailer count (R118). -/
def endPos (s : State) (c : BitVec 3) : Nat := 8 * (s.srcLen.toNat - 1) + c.toNat

/-- The two trailer checks of DPAY: the state after the peek, and END when both pass (R119). -/
def checkTrailer (s : State) : Option Nat × State :=
  let (t, s1) := peekLast s
  let c := t.extractLsb' 0 3
  if Config.trailerMax < c.toNat then (none, s1)
  else if endPos s c < s.pos then (none, s1)
  else (some (endPos s c), s1)

/-- One payload bit of the decoder's walk: to the LEFT child on 0, the RIGHT child on 1; at a Leaf its symbol is emitted
and WALK returns to ROOT (R119). -/
def walkBit (b : Bool) (s : State) : State :=
  let n := nodeAt s.nodes s.walk
  let w := if b then n.right else n.left
  let m := nodeAt s.nodes w
  if m.kind then { emit m.sym s with walk := s.root } else { s with walk := w }

end Sys2Proof.Machine
end

