-- ==== Sys2Proof/Machine/CodeTable.lean ====
section
/-! DEFINITION. huffman_code_table_generator: CGEN (R103 to R106). -/

namespace Sys2Proof.Machine

/-- The Code Table: CODE_VAL and CODE_LEN (R29). -/
abbrev CodeTable := Vector Word64 256 × Vector (BitVec 7) 256

/-- The table with every entry zero (R104). -/
def CodeTable.zero : CodeTable := (Vector.replicate 256 0, Vector.replicate 256 0)

/-- The edge bit of a RIGHT edge that leaves depth `d`, left-justified; an edge past the field adds nothing (R104). -/
def rightEdge (d : Nat) : Word64 := if d < Config.codeW then 1#64 <<< (63 - d) else 0

/-- `Walk(i, val, d)` on the tree read off the pool: none where the pseudocode raises CodeOverflowError (R104). -/
def codeWalk : CodeTree → Word64 → Nat → CodeTable → Option CodeTable
  | .leaf sym, val, d, t =>
    if Config.codeW < d then none
    else some (setEntry t.1 sym val, setEntry t.2 sym (BitVec.ofNat 7 d))
  | .internal l r, val, d, t =>
    match codeWalk l val (d + 1) t with
    | none => none
    | some t1 => codeWalk r (val ||| rightEdge d) (d + 1) t1

/-- `CGEN` fills the Code Table from the tree in the node pool (R104). -/
def execCgen (s : State) : Host.Outcome State Fault Refusal :=
  if s.treeV = false ∨ (s.mode ≠ .write ∧ s.mode ≠ .read) then .next (refuse s)
  else
    match s.tree with
    | none => .fault .poolNotATree
    | some t =>
      match codeWalk t 0 0 CodeTable.zero with
      | none => .next (raise .codeOverflow s)
      | some tab => .next { s with codeVal := tab.1, codeLen := tab.2, codeV := true }

end Sys2Proof.Machine
end

