-- ==== Sys2Proof/Machine/TreeBuilder.lean ====
section
/-! DEFINITION. huffman_tree_builder: TBUILD (R90 to R96). -/

namespace Sys2Proof.Machine

/-- The Leaf entry of a symbol (R94 step (1)); the fields it does not name are unspecified. -/
def leafNode (draw : Nat) (freq : Vector Word64 256) (sym : Byte) : Node :=
  { freeNode draw sym.toNat with kind := true, sym := sym, freq := entry freq sym, freqP := true }

/-- Step (1) of TBUILD: one Leaf per symbol of non-zero frequency, in ascending symbol order (R91, R94). -/
def leafNodes (draw : Nat) (freq : Vector Word64 256) : List Node :=
  (usedSymbols freq).map (leafNode draw freq)

/-- One insertion of step (2): from the tail, past the elements of strictly smaller frequency (R91, R94). -/
def insertLeaf (fq : PoolIx → Word64) (i : PoolIx) (wl : List PoolIx) : List PoolIx :=
  let fromTail := wl.reverse
  (fromTail.dropWhile fun j => fq j < fq i).reverse ++ i :: (fromTail.takeWhile fun j => fq j < fq i).reverse

/-- Step (2) of TBUILD: the working list, a stable sort by descending frequency (R91, R94). -/
def initialList (fq : PoolIx → Word64) (leafCount : Nat) : List PoolIx :=
  ((List.range leafCount).map (BitVec.ofNat 9)).foldl (fun wl i => insertLeaf fq i wl) []

/-- Re-insertion of a merged node of frequency `f`, scanning from the head: before the elements of equal frequency
for NEWEST_FIRST, after them for NEWEST_LAST (R93, R7, C1). -/
def insertMerged (tie : Config.Tie) (fq : PoolIx → Word64) (f : Word64) (n : PoolIx) (wl : List PoolIx) : List PoolIx :=
  let ahead : PoolIx → Bool := fun j => match tie with
    | .newestFirst => f < fq j
    | .newestLast => f ≤ fq j
  wl.takeWhile ahead ++ n :: wl.dropWhile ahead

/-- The Internal entry of a merge of the tail `t` and the element `q` before it (R92). -/
def mergedNode (draw : Nat) (order : Config.ChildOrder) (place : Nat) (t q : PoolIx) (f : Word64) : Node :=
  match order with
  | .tailLeft => { freeNode draw (256 + place) with kind := false, left := t, right := q, freq := f, freqP := true }
  | .tailRight => { freeNode draw (256 + place) with kind := false, left := q, right := t, freq := f, freqP := true }

/-- One merge of step (3) on the pool and the working list; a list of fewer than two elements is left alone
(R92, R93, R94). -/
def mergeOnce (draw : Nat) (p : Config.Params) (pool : List Node × List PoolIx) : List Node × List PoolIx :=
  match pool.2.reverse with
  | t :: q :: rest =>
    let fq := fun j => (nodeAt pool.1 j).freq
    let f := fq t + fq q
    (pool.1 ++ [mergedNode draw p.childOrder pool.1.length t q f],
      insertMerged p.tie fq f (BitVec.ofNat 9 pool.1.length) rest.reverse)
  | [_] => pool
  | [] => pool

/-- Step (3) of TBUILD: each merge shortens the list by one, so `n` merges end a list of `n + 1` (R94, R95 (a)). -/
def mergeAll (draw : Nat) (p : Config.Params) : Nat → List Node × List PoolIx → List Node × List PoolIx
  | 0, pool => pool
  | n + 1, pool => mergeAll draw p n (mergeOnce draw p pool)

/-- The pool and the working list that TBUILD leaves (R94 steps (1) to (3)). -/
def buildTree (draw : Nat) (p : Config.Params) (freq : Vector Word64 256) (leafCount : Nat) :
    List Node × List PoolIx :=
  let leaves := leafNodes draw freq
  mergeAll draw p (leafCount - 1) (leaves, initialList (fun j => (nodeAt leaves j).freq) leafCount)

/-- `TBUILD` builds the tree; with one leaf it completes and changes nothing (R94, D31). -/
def execTbuild (s : State) : Host.Outcome State Fault Refusal :=
  if s.mode ≠ .write ∨ s.freqV = false then .next (refuse s)
  else if s.leafCount = 0 then .next (raise .emptyInput s)
  else if s.leafCount = 1 then .next s
  else
    let pool := buildTree s.draw s.params s.freq s.leafCount.toNat
    .next { s with
      nodes := pool.1
      wl := pool.2
      root := pool.2.headD (Config.freeIx s.draw 0)
      treeV := true
      codeV := false
      draw := s.draw + 1 }

end Sys2Proof.Machine
end

