-- ==== Sys2Proof/Machine/TreeSerializer.lean ====
section
/-! DEFINITION. huffman_tree_serializer: TSER, TDES (R97 to R102). -/

namespace Sys2Proof.Machine

/-- `TSER` writes the serialized tree at the writer's cursor (R97, R98). -/
def execTser (s : State) : Host.Outcome State Fault Refusal :=
  if s.mode ≠ .write ∨ s.treeV = false then .next (refuse s)
  else
    match s.tree with
    | none => .fault .poolNotATree
    | some t => .next (writeBits t.ser s)

/-- The next pool entry is allocated; its fields are unspecified until they are written (R25, R100). -/
def allocNode (s : State) : State :=
  { s with nodes := s.nodes ++ [freeNode s.draw s.nodes.length], draw := s.draw + 1 }

/-- Fields of one pool entry are written (R9). -/
def setNode (i : Nat) (f : Node → Node) (s : State) : State :=
  { s with nodes := s.nodes.modify i f }

/-- `DesNode()`: the pool index of the subtree it built, or none where the pseudocode raises InvalidFormatError: the
pool is full, or the source ended inside the tree (R100). `fuel` bounds the nesting; a pool of 511 entries is full
before 512 calls nest, so the first equation is never reached from `TDES`. -/
def desNode : Nat → State → Option PoolIx × State
  | 0, s => (none, s)
  | fuel + 1, s =>
    if Config.poolN ≤ s.nodes.length then (none, s)
    else
      let i := s.nodes.length
      match readBit (allocNode s) with
      | (none, s1) => (none, s1)
      | (some true, s1) =>
        match readBitsN 8 s1 with
        | (none, s2) => (none, s2)
        | (some bs, s2) =>
          (some (BitVec.ofNat 9 i),
            setNode i (fun n => { n with kind := true, sym := ofBitsMsb 8 bs, freqP := false }) s2)
      | (some false, s1) =>
        match desNode fuel (setNode i (fun n => { n with kind := false, freqP := false }) s1) with
        | (none, s2) => (none, s2)
        | (some l, s2) =>
          match desNode fuel (setNode i (fun n => { n with left := l }) s2) with
          | (none, s3) => (none, s3)
          | (some r, s3) => (some (BitVec.ofNat 9 i), setNode i (fun n => { n with right := r }) s3)

/-- `TDES` reads a serialized tree at the reader's cursor and builds it in the node pool (R100). -/
def execTdes (s : State) : Host.Outcome State Fault Refusal :=
  if s.mode ≠ .read then .next (refuse s)
  else
    match desNode (Config.poolN + 1) { s with treeV := false, codeV := false, nodes := [] } with
    | (none, s1) => .next (raise .invalidFormat s1)
    | (some r, s1) => .next { s1 with root := r, treeV := true }

end Sys2Proof.Machine
end

