-- ==== Sys2Proof/Machine/Writer.lean ====
section
/-! DEFINITION. bit_stream_writer: WOPEN, WBIT, WBITS, WBYTE, WFLUSH (R75 to R82). -/

namespace Sys2Proof.Machine

/-- `WOPEN` opens a write session (R77). -/
def execWopen (s : State) : Host.Outcome State Fault Refusal :=
  if s.mode ≠ .idle then .next (refuse s)
  else if s.allocOk = false then .next (raise .allocation s)
  else .next { clearSession s with buf := List.replicate s.params.bufSize 0, mode := .write }

/-- `WBIT b` writes one bit (R78). -/
def execWbit (b : Bool) (s : State) : Host.Outcome State Fault Refusal :=
  if s.mode ≠ .write then .next (refuse s)
  else .next (writeBit b s)

/-- `WBITS n` writes the `n` most significant bits of ARG0; `n > 64` is refused in every mode (R57, R79). -/
def execWbits (n : BitVec 7) (s : State) : Host.Outcome State Fault Refusal :=
  if s.mode ≠ .write ∨ 64 < n.toNat then .next (refuse s)
  else .next (writeBits (topBits s.arg0 n.toNat) s)

/-- `WBYTE v` writes one byte at a byte-aligned cursor (R80). -/
def execWbyte (v : Byte) (s : State) : Host.Outcome State Fault Refusal :=
  if s.mode ≠ .write ∨ s.curBit ≠ 0 then .next (refuse s)
  else .next (writeByte v s)

/-- The number of bytes WFLUSH writes: a partly filled trailing byte counts as one more (R81). -/
def flushLen (s : State) : Nat := s.curByte + (if s.curBit ≠ 0 then 1 else 0)

/-- The final write of a session, none when the buffer is empty (R46, R81). -/
def flushBuf (s : State) : State :=
  if 0 < flushLen s then memWrite (s.buf.take (flushLen s)) s else s

/-- `WFLUSH` writes what is left in the buffer and ends the write session (R81). -/
def execWflush (s : State) : Host.Outcome State Fault Refusal :=
  if s.mode ≠ .write then .next (refuse s)
  else .next (closeSession (flushBuf s))

end Sys2Proof.Machine
end

