-- ==== Sys2Proof/Machine/Encoder.lean ====
section
/-! DEFINITION. huffman_encoder: FSCAN, ESINGLE, EPAY, ETRAIL, ENCODE (R107 to R115). -/

namespace Sys2Proof.Machine

/-- One source byte counted (R108). -/
def countByte (freq : Vector Word64 256) (b : Byte) : Vector Word64 256 :=
  setEntry freq b (entry freq b + 1)

/-- The Frequency Table of a byte sequence (R108). -/
def frequencies (bytes : List Byte) : Vector Word64 256 :=
  bytes.foldl countByte (Vector.replicate 256 0)

/-- `FSCAN` builds the Frequency Table by reading the whole source (R108). -/
def execFscan (s : State) : Host.Outcome State Fault Refusal :=
  if s.mode ≠ .write then .next (refuse s)
  else
    let freq := frequencies s.srcBytes
    .next { noteScan s with freq := freq, leafCount := BitVec.ofNat 9 (countNonZero freq), freqV := true }

/-- The one symbol with `FREQ[s] ≠ 0` (R109). With no such symbol, which no run has here, a free value. -/
def soleSymbol (draw : Nat) (freq : Vector Word64 256) : Byte :=
  (usedSymbols freq).headD (Config.freeByte draw 0)

/-- The ten bytes of the single-symbol form (R61, R109). -/
def singleFrame (e : Config.CountEndian) (sym : Byte) (count : Word64) : List Byte :=
  Config.marker :: sym :: countBytes e count

/-- `ESINGLE` writes the ten bytes of the single-symbol form (R109). -/
def execEsingle (s : State) : Host.Outcome State Fault Refusal :=
  if s.mode ≠ .write ∨ s.freqV = false ∨ s.leafCount ≠ 1 ∨ s.curBit ≠ 0 then .next (refuse s)
  else
    let sym := soleSymbol s.draw s.freq
    .next (writeBytes (singleFrame s.params.countEndian sym (entry s.freq sym)) s)

/-- The bits EPAY writes for one source byte: the first CODE_LEN bits of CODE_VAL from bit 63 down (R64, R110). -/
def codeBits (s : State) (b : Byte) : List Bool :=
  topBits (entry s.codeVal b) (entry s.codeLen b).toNat

/-- `EPAY` reads the source a second time and writes each byte's code (R110). -/
def execEpay (s : State) : Host.Outcome State Fault Refusal :=
  if s.mode ≠ .write ∨ s.codeV = false then .next (refuse s)
  else .next (writeBits (s.srcBytes.flatMap (codeBits s)) (noteScan s))

/-- `ETRAIL` appends the trailer: packed for 0 to 5 used bits, else padding and a zero byte (R112). -/
def execEtrail (s : State) : Host.Outcome State Fault Refusal :=
  if s.mode ≠ .write then .next (refuse s)
  else if s.curBit.toNat ≤ Config.trailerMax then
    .next (writeBits (List.replicate (5 - s.curBit.toNat) false ++ bitsMsb s.curBit) s)
  else .next (writeByte 0 (writeBits (List.replicate (8 - s.curBit.toNat) false) s))

/-- `ENCODE` performs a whole encode call (R113). -/
def execEncode (s : State) : Host.Outcome State Fault Refusal :=
  if s.mode ≠ .idle then .next (refuse s)
  else
    andThen (execWopen s) fun s1 =>
    andThen (execFscan s1) fun s2 =>
      if s2.leafCount = 0 then .next (raise .emptyInput s2)
      else if s2.leafCount = 1 then andThen (execEsingle s2) execWflush
      else
        andThen (execTbuild s2) fun s3 =>
        andThen (execCgen s3) fun s4 =>
        andThen (execTser s4) fun s5 =>
        andThen (execEpay s5) fun s6 =>
        andThen (execEtrail s6) execWflush

end Sys2Proof.Machine
end

