-- ==== Sys2Proof/Machine/System.lean ====
section
/-! DEFINITION. The system command CLRERR (R126). -/

namespace Sys2Proof.Machine

/-- `CLRERR` acknowledges an error; it is never refused (R126). -/
def execClrerr (s : State) : Host.Outcome State Fault Refusal := .next (acknowledge s)

end Sys2Proof.Machine
end

