-- ==== Sys2Proof/Machine/Reader.lean ====
section
/-! DEFINITION. bit_stream_reader: ROPEN, RBIT, RCLOSE (R83 to R89). -/

namespace Sys2Proof.Machine

/-- MARK as ROPEN latches it: bit 7 of source byte 0, or 0 when the source is empty (R86). -/
def markOf (s : State) : Bool :=
  if 0 < s.srcLen.toNat then (s.src.read 0).getLsbD 7 else false

/-- `ROPEN` opens a read session and loads the first buffer (R86). -/
def execRopen (s : State) : Host.Outcome State Fault Refusal :=
  if s.mode ≠ .idle then .next (refuse s)
  else if s.allocOk = false then .next (raise .allocation s)
  else
    let n := min s.params.bufSize s.srcLen.toNat
    .next { loadBuf 0 n (clearSession s) with bufLen := n, mark := markOf s, mode := .read }

/-- `RBIT` reads one bit into RES; at the end of the source RES is 0 and EOF is set (R17, R87). -/
def execRbit (s : State) : Host.Outcome State Fault Refusal :=
  if s.mode ≠ .read then .next (refuse s)
  else
    match readBit s with
    | (none, s1) => .next { s1 with res := 0 }
    | (some b, s1) => .next { s1 with res := (BitVec.ofBool b).setWidth 64 }

/-- `RCLOSE` ends a read session (R88). -/
def execRclose (s : State) : Host.Outcome State Fault Refusal :=
  if s.mode ≠ .read then .next (refuse s)
  else .next (closeSession s)

end Sys2Proof.Machine
end

