-- ==== Sys2Proof/Machine/Decoder.lean ====
section
/-! DEFINITION. huffman_decoder: DSINGLE, DPAY, DECODE (R116 to R122). -/

namespace Sys2Proof.Machine

/-- Byte `j` of a string of bits in stream order (R60). -/
def byteOfBits (bits : List Bool) (j : Nat) : Byte := ofBitsMsb 8 ((bits.drop (8 * j)).take 8)

/-- `DSINGLE` decodes a single-symbol frame (R117). -/
def execDsingle (s : State) : Host.Outcome State Fault Refusal :=
  if s.mode ≠ .read ∨ s.pos ≠ 0 ∨ s.srcLen = 0 ∨ s.mark = false then .next (refuse s)
  else if s.srcLen.toNat ≠ Config.frame1Len then .next (raise .invalidFormat s)
  else
    match readBitsN 80 s with
    | (none, _) => .fault .sourceRanOut
    | (some bits, s1) =>
      let count := countOfBytes s.params.countEndian ((List.range 8).map fun j => byteOfBits bits (2 + j))
      .next (emitTimes (byteOfBits bits 1) count.toNat s1)

/-- The payload walk over `n` stream positions; none when the source ends first, which R119 says never happens. -/
def walkPayload : Nat → State → Option State
  | 0, s => some s
  | n + 1, s =>
    match readBit s with
    | (none, _) => none
    | (some b, s1) => walkPayload n (walkBit b s1)

/-- `DPAY` decodes the payload by walking the tree, from POS to END (R118, R119). -/
def execDpay (s : State) : Host.Outcome State Fault Refusal :=
  if s.mode ≠ .read ∨ s.treeV = false ∨ s.srcLen = 0 ∨ (nodeAt s.nodes s.root).kind = true then .next (refuse s)
  else
    match checkTrailer s with
    | (none, s1) => .next (raise .invalidFormat s1)
    | (some stop, s1) =>
      match walkPayload (stop - s.pos) { s1 with walk := s.root } with
      | none => .fault .sourceRanOut
      | some s2 => .next s2

/-- `DECODE` performs a whole decode call (R121). -/
def execDecode (s : State) : Host.Outcome State Fault Refusal :=
  if s.mode ≠ .idle then .next (refuse s)
  else
    andThen (execRopen s) fun s1 =>
      if s1.srcLen = 0 then .next (raise .emptyInput s1)
      else if s1.mark then andThen (execDsingle s1) execRclose
      else
        andThen (execTdes s1) fun s2 =>
        andThen (execDpay s2) execRclose

end Sys2Proof.Machine
end

