-- ==== Sys2Proof/Machine/Wire.lean ====
section
/-! DEFINITION. The six wire-format records of R71 as the units of the stream: in MODE WRITE a record is what the
encoder writes at the writer's cursor, in MODE READ it is what the decoder does with that record when it stands at the
reader's cursor (R60 to R69); in the other modes there is no stream and it is refused. No host command word names a
record: the commands write and parse them, and the host reaches them only through those (log entries 16 and 17). -/

namespace Sys2Proof.Machine

/-- The reader's next bits are consumed if they are exactly `bits`; none if one differs or the source ends. -/
def matchBits : List Bool → State → Option State
  | [], s => some s
  | b :: bs, s =>
    match readBit s with
    | (none, _) => none
    | (some c, s1) => if c = b then matchBits bs s1 else none

/-- `W.SINGLE`. Written: the marker with its low bits 0, the symbol, the count (R61, R109). Read: R117 on a frame that is
this record. -/
def execWireSingle (m : BitVec 7) (sym : Byte) (count : Word64) (s : State) : Host.Outcome State Fault Refusal :=
  match s.mode with
  | .write =>
    if s.curBit ≠ 0 then .next (refuse s)
    else .next (writeBits (frameBits s.params.countEndian 0 sym count) s)
  | .read =>
    if s.pos ≠ 0 ∨ s.srcLen = 0 ∨ s.mark = false then .next (refuse s)
    else if s.srcLen.toNat ≠ Config.frame1Len then .next (raise .invalidFormat s)
    else
      match matchBits (frameBits s.params.countEndian m sym count) s with
      | none => .next (refuse s)
      | some s1 => .next (emitTimes sym count.toNat s1)
  | .idle => .next (refuse s)
  | .fault => .next (refuse s)

/-- A subtree is complete: the innermost Internal node that waited for its left child now waits for its right one, and
those that waited for their right child are complete themselves (R63). An entry is a pool index with whether its left
subtree is done. -/
def closeSubtree : List (Nat × Bool) → List (Nat × Bool)
  | [] => []
  | (i, false) :: rest => (i, true) :: rest
  | (_, true) :: rest => closeSubtree rest

/-- The Internal nodes still waiting for a child after the records of `nodes`, whose first has pool index `i`, innermost
first: each INTERNAL record opens, each completed subtree closes (R63). -/
def pendingNodes : List Node → Nat → List (Nat × Bool) → List (Nat × Bool)
  | [], _, open_ => open_
  | n :: ns, i, open_ =>
    pendingNodes ns (i + 1) (if n.kind then closeSubtree open_ else (i, false) :: open_)

/-- The node of index `j` becomes the child its innermost waiting parent waits for (R100). -/
def linkChild (j : Nat) (s : State) : State :=
  match pendingNodes s.nodes 0 [] with
  | [] => s
  | (p, false) :: _ => setNode p (fun n => { n with left := BitVec.ofNat 9 j }) s
  | (p, true) :: _ => setNode p (fun n => { n with right := BitVec.ofNat 9 j }) s

/-- When no Internal node waits for a child the record of the root has been completed (R63): ROOT is 0 and the tree is
valid, as at the end of TDES (R100). -/
def completeTree (s : State) : State :=
  if pendingNodes s.nodes 0 [] = [] then { s with root := 0, treeV := true } else s

/-- A node record is read: one step of the pre-order walk of R100, from an empty pool when the pool holds a complete
tree, so that the records of a tree read in order do what TDES does. -/
def readNodeRecord (bits : List Bool) (fields : Node → Node) (s : State) : Host.Outcome State Fault Refusal :=
  let s0 := if s.treeV then { s with treeV := false, codeV := false, nodes := [] } else { s with codeV := false }
  if Config.poolN ≤ s0.nodes.length then .next (raise .invalidFormat s0)
  else
    match matchBits bits s0 with
    | none => .next (refuse s)
    | some s1 =>
      let j := s1.nodes.length
      .next (completeTree (setNode j fields (allocNode (linkChild j s1))))

/-- `W.NODE.INTERNAL` (R63, R98, R100). -/
def execWireInternal (s : State) : Host.Outcome State Fault Refusal :=
  match s.mode with
  | .write => .next (writeBits [false] s)
  | .read => readNodeRecord [false] (fun n => { n with kind := false, freqP := false }) s
  | .idle => .next (refuse s)
  | .fault => .next (refuse s)

/-- `W.NODE.LEAF` (R63, R98, R100). -/
def execWireLeaf (sym : Byte) (s : State) : Host.Outcome State Fault Refusal :=
  match s.mode with
  | .write => .next (writeBits (leafBits sym) s)
  | .read => readNodeRecord (leafBits sym) (fun n => { n with kind := true, sym := sym, freqP := false }) s
  | .idle => .next (refuse s)
  | .fault => .next (refuse s)

/-- `W.CODE`. Written: the code's bits, first edge first (R64, R110). Read: the payload walk of R119 over them, from ROOT,
when they lie before END. -/
def execWireCode (k : List Bool) (s : State) : Host.Outcome State Fault Refusal :=
  match s.mode with
  | .write => .next (writeBits k s)
  | .read =>
    if s.treeV = false ∨ s.srcLen = 0 ∨ (nodeAt s.nodes s.root).kind = true then .next (refuse s)
    else
      match checkTrailer s with
      | (none, s1) => .next (raise .invalidFormat s1)
      | (some stop, s1) =>
        if stop < s.pos + k.length then .next (refuse s)
        else
          match matchBits k s1 with
          | none => .next (refuse s)
          | some s2 => .next (k.foldl (fun t b => walkBit b t) { s2 with walk := s.root })
  | .idle => .next (refuse s)
  | .fault => .next (refuse s)

/-- The bits already written in the byte under the writer's cursor: the top CUR_BIT bits of `BUF[CUR_BYTE]` (R75). -/
def usedBits (s : State) : List Bool :=
  (bitsMsb (s.buf.getD s.curByte (Config.freeByte s.draw s.curByte))).take s.curBit.toNat

/-- The decoder's use of a trailer: its count is checked and marks END, and its bits are not read (R118, R119). -/
def readTrailer (s : State) : Host.Outcome State Fault Refusal :=
  match checkTrailer s with
  | (none, s1) => .next (raise .invalidFormat s1)
  | (some _, s1) => .next s1

/-- `W.TRAILER.PACKED`. Written: with the byte's first `c` bits already in the stream, the padding zeros and the count
complete it (R65, R112). Read: DPAY's trailer checks on this last byte (R119). -/
def execWireTrailerPacked (d : BitVec 5) (c : BitVec 3) (s : State) : Host.Outcome State Fault Refusal :=
  match s.mode with
  | .write =>
    if s.curBit ≠ c ∨ Config.trailerMax < c.toNat ∨
        usedBits s ++ List.replicate (5 - c.toNat) false ≠ bitsMsb d then .next (refuse s)
    else .next (writeBits (List.replicate (5 - c.toNat) false ++ bitsMsb c) s)
  | .read =>
    if s.srcLen = 0 ∨ s.src.read (s.srcLen.toNat - 1) ≠ d ++ c then .next (refuse s)
    else readTrailer s
  | .idle => .next (refuse s)
  | .fault => .next (refuse s)

/-- `W.TRAILER.ZERO`. Written: with the byte's first 6 or 7 bits already in the stream, padding zeros complete it and a
zero byte follows (R66, R112). Read: DPAY's trailer checks on this last byte (R119). -/
def execWireTrailerZero (d : Byte) (s : State) : Host.Outcome State Fault Refusal :=
  match s.mode with
  | .write =>
    if s.curBit.toNat ≤ Config.trailerMax ∨
        usedBits s ++ List.replicate (8 - s.curBit.toNat) false ≠ bitsMsb d then .next (refuse s)
    else .next (writeByte 0 (writeBits (List.replicate (8 - s.curBit.toNat) false) s))
  | .read =>
    if s.srcLen.toNat < 2 ∨ s.src.read (s.srcLen.toNat - 2) ≠ d ∨ s.src.read (s.srcLen.toNat - 1) ≠ 0 then
      .next (refuse s)
    else readTrailer s
  | .idle => .next (refuse s)
  | .fault => .next (refuse s)

end Sys2Proof.Machine
end

