-- ==== Sys2Proof/Machine/Dispatch.lean ====
section
/-! DEFINITION. Every instruction to its meaning (R56, R71, R123). -/

namespace Sys2Proof.Machine

def exec (i : Instr) (s : State) : Host.Outcome State Fault Refusal :=
  match i with
  -- bit_stream_writer
  | .wopen => Sys2Proof.Machine.execWopen s
  | .wbit b => Sys2Proof.Machine.execWbit b s
  | .wbits n => Sys2Proof.Machine.execWbits n s
  | .wbyte v => Sys2Proof.Machine.execWbyte v s
  | .wflush => Sys2Proof.Machine.execWflush s
  -- bit_stream_reader
  | .ropen => Sys2Proof.Machine.execRopen s
  | .rbit => Sys2Proof.Machine.execRbit s
  | .rclose => Sys2Proof.Machine.execRclose s
  -- huffman_tree_builder
  | .tbuild => Sys2Proof.Machine.execTbuild s
  -- huffman_tree_serializer
  | .tser => Sys2Proof.Machine.execTser s
  | .tdes => Sys2Proof.Machine.execTdes s
  -- huffman_code_table_generator
  | .cgen => Sys2Proof.Machine.execCgen s
  -- huffman_encoder
  | .fscan => Sys2Proof.Machine.execFscan s
  | .esingle => Sys2Proof.Machine.execEsingle s
  | .epay => Sys2Proof.Machine.execEpay s
  | .etrail => Sys2Proof.Machine.execEtrail s
  | .encode => Sys2Proof.Machine.execEncode s
  -- huffman_decoder
  | .dsingle => Sys2Proof.Machine.execDsingle s
  | .dpay => Sys2Proof.Machine.execDpay s
  | .decode => Sys2Proof.Machine.execDecode s
  -- system
  | .clrerr => Sys2Proof.Machine.execClrerr s
  -- wire-format records
  | .wireSingle m sym count => Sys2Proof.Machine.execWireSingle m sym count s
  | .wireInternal => Sys2Proof.Machine.execWireInternal s
  | .wireLeaf sym => Sys2Proof.Machine.execWireLeaf sym s
  | .wireCode k => Sys2Proof.Machine.execWireCode k s
  | .wireTrailerPacked d c => Sys2Proof.Machine.execWireTrailerPacked d c s
  | .wireTrailerZero d => Sys2Proof.Machine.execWireTrailerZero d s

end Sys2Proof.Machine
end

