-- ==== Sys2Proof/Machine/HostBus.lean ====
section
/-! DEFINITION. The host interface: the register map (R14), a write of CMD as one command (R123), host reads, and the
environment's own events (R31, R147, R149). -/

namespace Sys2Proof.Machine

/-- The registers a byte offset can name (R14). -/
inductive HostReg
  | cmd
  | status
  | arg0
  | res
  | reserved
  deriving DecidableEq, Repr

/-- The register map of R14: four offsets; all others are reserved. -/
def regAt (offset : Nat) : HostReg :=
  if offset = 0x00 then .cmd
  else if offset = 0x04 then .status
  else if offset = 0x08 then .arg0
  else if offset = 0x10 then .res
  else .reserved

/-- What a host read of a register returns: CMD and the reserved offsets read as 0 (R14). -/
def regRead (s : State) (offset : Nat) : Word64 :=
  match regAt offset with
  | .cmd => 0
  | .status => s.status.setWidth 64
  | .arg0 => s.arg0
  | .res => s.res
  | .reserved => 0

/-- A command word executes: a reserved word is refused, any other word runs its command (R123). -/
def runWord (w : CmdWord) (s : State) : Host.Outcome State Fault Refusal :=
  match decode (.word w) with
  | .ok i => exec i s
  | .error _ => .next (refuse s)

/-- A host write of a register at its full width: CMD executes a command, ARG0 is stored, all other writes are ignored
(R14, R16, R17). -/
def hostWrite (offset : Nat) (value : Word64) (s : State) : Host.Outcome State Fault Refusal :=
  match regAt offset with
  | .cmd => runWord (value.setWidth 16) s
  | .status => .next s
  | .arg0 => .next { s with arg0 := value }
  | .res => .next s
  | .reserved => .next s

/-- A host read: the value goes to the host and the block does not change (R47, R123). -/
def hostRead (offset : Nat) (s : State) : Host.Outcome State Fault Refusal :=
  .next { s with hostReads := s.hostReads ++ [regRead s offset] }

/-- A session is open: MODE is WRITE or READ (R12). -/
def State.sessionOpen (s : State) : Bool := s.mode == .write || s.mode == .read

/-- The host attaches a source between sessions (R149 (1), R153); one of 2^64 bytes or more is refused (R154). -/
def attachSource (bytes : List Byte) (s : State) : Host.Outcome State Fault Refusal :=
  if s.sessionOpen then .fault .sourceChangedInSession
  else if 2 ^ 64 ≤ bytes.length then .refused .sourceTooLong
  else .next { s with src := Memory.ofBytes bytes, srcLen := BitVec.ofNat 64 bytes.length, srcReads := [] }

/-- The host attaches a sink between sessions (R149 (2)). -/
def attachSink (bytes : List Byte) (s : State) : Host.Outcome State Fault Refusal :=
  if s.sessionOpen then .fault .sinkChangedInSession
  else .next { s with sink := Memory.ofBytes bytes, sinkLen := bytes.length, sinkWrites := [] }

/-- One item of what the outside world does. -/
def takeAccess (a : HostAccess) (s : State) : Host.Outcome State Fault Refusal :=
  match a with
  | .write offset value => hostWrite offset value s
  | .read offset => hostRead offset s
  | .reset => .next (hardwareReset s)
  | .attachSource bytes => attachSource bytes s
  | .attachSink bytes => attachSink bytes s
  | .setAlloc bufOk poolOk => .next { s with allocBufOk := bufOk, allocPoolOk := poolOk }

end Sys2Proof.Machine
end

