-- ==== Sys2Proof/Machine/Step.lean ====
section
/-! DEFINITION. One step: the next thing the outside world does takes effect, to its end (R123). -/

namespace Sys2Proof.Machine

/-- One step of the machine: the next host access is taken; with none waiting the block holds its state (R123, R146). -/
def step (s : State) : Host.Outcome State Fault Refusal :=
  match s.host with
  | [] => .next s
  | a :: rest => takeAccess a { s with host := rest }

/-- The state in which the host's next access writes the word to CMD, which is where the block gets its next
instruction (R53, R123). `nbits` is not needed: a command is one 16-bit word. -/
def State.withFetchWord (s : State) (_nbits w : Nat) : State :=
  { s with host := .write 0 (BitVec.ofNat 64 w) :: s.host }

end Sys2Proof.Machine
end

