-- ==== Sys2Proof/Safety.lean ====
section
/-! DEFINITION. What claims are stated in: the stream a write session has produced and the source bits a read session
has left (R22, R75), what an operation may change (frames), the invariants of the machine, and the tables of R124 and
R128 that say when a command is accepted, what it may raise and which mode it leaves. -/

namespace Sys2Proof.Machine

/-! ## Views -/

/-- The bits of BUF in stream order. -/
def State.bufBits (s : State) : List Bool := s.buf.flatMap bitsMsb

/-- The place of the Bit Cursor in the bits of BUF (R20). -/
def State.bitPlace (s : State) : Nat := 8 * s.curByte + s.curBit.toNat

/-- The stream so far: the bytes in the sink, then the bits of BUF before the cursor (R75). -/
def State.streamBits (s : State) : List Bool :=
  s.sinkBytes.flatMap bitsMsb ++ s.bufBits.take s.bitPlace

/-- The source in stream order: bit `p` is stream offset `p mod 8` of byte `p div 8` (R22). -/
def State.srcBits (s : State) : List Bool := s.srcBytes.flatMap bitsMsb

/-- The source bits a read session has not consumed. -/
def State.unread (s : State) : List Bool := s.srcBits.drop s.pos

/-- Bytes whose stream bits are `bs`, with 0 for the bits of the last byte beyond them (R82). -/
def packBits (bs : List Bool) : List Byte :=
  (List.range ((bs.length + 7) / 8)).map fun j =>
    ofBitsMsb 8 (((bs.drop (8 * j)).take 8 ++ List.replicate 8 false).take 8)

/-- The left-justified 64-bit field whose first bits are `p` and whose other bits are 0 (R29, R103). -/
def leftJustified (p : List Bool) : Word64 := ofBitsMsb 64 ((p ++ List.replicate 64 false).take 64)

/-- `dec(w)` from a place in the tree: 0 goes left, 1 goes right, a leaf's symbol is produced and the walk returns to
the root (R120). -/
def CodeTree.decFrom (root : CodeTree) : CodeTree → List Bool → List Byte
  | _, [] => []
  | .leaf _, _ :: _ => []
  | .internal l r, b :: bs =>
    match (if b then r else l) with
    | .leaf sym => sym :: decFrom root root bs
    | .internal l' r' => decFrom root (.internal l' r') bs

/-- `dec(w)` (R120). -/
def CodeTree.dec (t : CodeTree) (w : List Bool) : List Byte := t.decFrom t w

/-- The code of a symbol; the leaf met last in the walk counts (R103, R104 (c)). -/
def CodeTree.codeOf (t : CodeTree) (sym : Byte) : Option (List Bool) :=
  (t.codes.reverse.find? fun c => c.1 == sym).map (fun c => c.2)

/-- The codes of a byte sequence, one after the other (R64). -/
def CodeTree.payload (t : CodeTree) (bytes : List Byte) : List Bool :=
  bytes.flatMap fun b => (t.codeOf b).getD []

/-- The longest code of a tree, which is the depth of its deepest leaf. -/
def CodeTree.depth : CodeTree → Nat
  | .leaf _ => 0
  | .internal l r => 1 + max l.depth r.depth

/-- The leftmost leaf's symbol and depth (R122 (c)). -/
def CodeTree.leftmost : CodeTree → Byte × Nat
  | .leaf sym => (sym, 0)
  | .internal l _ => (l.leftmost.1, l.leftmost.2 + 1)

/-- The tree TBUILD builds for a byte sequence; it does not depend on the free values (R94). -/
def huffmanTree (p : Config.Params) (bytes : List Byte) : Option CodeTree :=
  let freq := frequencies bytes
  let pool := buildTree 0 p freq (countNonZero freq)
  treeAt pool.1 (Config.depthMax + 1) (pool.2.headD 0)

/-- The trailer's bits for `u` used bits of the last byte (R65, R66, R112). -/
def trailerBits (u : Nat) : List Bool :=
  if u ≤ 5 then List.replicate (5 - u) false ++ bitsMsb (BitVec.ofNat 3 u)
  else List.replicate (8 - u) false ++ List.replicate 8 false

/-- The general form of R62: the serialized tree, the payload, the trailer. -/
def generalForm (t : CodeTree) (bytes : List Byte) : List Bool :=
  let body := t.ser ++ t.payload bytes
  body ++ trailerBits (body.length % 8)

/-- The pool indices met in the walk of the tree from index `i`, in pre-order. -/
def reach (nodes : List Node) : Nat → PoolIx → List Nat
  | 0, _ => []
  | fuel + 1, i =>
    match nodes[i.toNat]? with
    | none => []
    | some n =>
      if n.kind then [i.toNat]
      else i.toNat :: (reach nodes fuel n.left ++ reach nodes fuel n.right)

/-! ## Frames -/

/-- Sink bytes are stored only at addresses from the old SINK_LEN up to the new one (R35: append-only). -/
def StoresAtEnd (s t : State) : Prop :=
  s.sinkLen ≤ t.sinkLen ∧ ∀ a, a < s.sinkLen ∨ t.sinkLen ≤ a → t.sink.read a = s.sink.read a

/-- What a writer operation may change: BUF, the cursor, and the sink at its end. -/
def WriterFrame (s t : State) : Prop :=
  StoresAtEnd s t ∧
  t = { s with
    buf := t.buf, curByte := t.curByte, curBit := t.curBit
    sink := t.sink, sinkLen := t.sinkLen, sinkWrites := t.sinkWrites }

/-- What a reader operation may change: BUF, the cursor, BUF_LEN, RD_BASE and EOF; the source read is noted. -/
def ReaderFrame (s t : State) : Prop :=
  t = { s with
    buf := t.buf, curByte := t.curByte, curBit := t.curBit, bufLen := t.bufLen, rdBase := t.rdBase, eof := t.eof
    srcReads := t.srcReads, draw := t.draw }

/-! ## Invariants -/

/-- The canonical form of both memories, with no cell at or beyond the length of its space (R35). -/
structure State.MemoryInv (s : State) : Prop where
  src_wf     : s.src.wf
  sink_wf    : s.sink.wf
  src_bound  : ∀ c ∈ s.src.cells, c.1 < s.srcLen.toNat
  sink_bound : ∀ c ∈ s.sink.cells, c.1 < s.sinkLen

/-- Everything Release clears is clear (R32). -/
structure State.Closed (s : State) : Prop where
  freqV     : s.freqV = false
  treeV     : s.treeV = false
  codeV     : s.codeV = false
  eof       : s.eof = false
  mark      : s.mark = false
  leafCount : s.leafCount = 0
  curByte   : s.curByte = 0
  curBit    : s.curBit = 0
  bufLen    : s.bufLen = 0
  rdBase    : s.rdBase = 0
  nodes     : s.nodes = []
  root      : s.root = 0
  wl        : s.wl = []
  walk      : s.walk = 0

/-- Outside a session nothing is held, and ERRCODE is set exactly in MODE FAULT (R32, R131, R134, R148). -/
structure State.SessionInv (s : State) : Prop where
  closed_outside : s.sessionOpen = false → s.Closed
  fault_iff_kind : s.mode = .fault ↔ s.errCode ≠ .none

/-- BUF and the Bit Cursor stay in their ranges and BUF holds what R75 and R83 say (R19 to R22). -/
structure State.CursorInv (s : State) : Prop where
  bufSize_pos  : 1 ≤ s.params.bufSize
  buf_length   : s.buf.length = s.params.bufSize
  write_cursor : s.mode = .write → s.curByte < s.params.bufSize ∧ s.bufLen = 0 ∧ s.rdBase = 0
  write_zeros  : s.mode = .write → ∀ b ∈ s.bufBits.drop s.bitPlace, b = false
  read_window  : s.mode = .read → s.rdBase.toNat ≤ s.srcLen.toNat ∧
    s.bufLen = min s.params.bufSize (s.srcLen.toNat - s.rdBase.toNat) ∧
    s.buf.take s.bufLen = s.src.readBytes s.rdBase.toNat s.bufLen
  read_cursor  : s.mode = .read → s.curByte ≤ s.bufLen ∧ (s.curBit ≠ 0 → s.curByte < s.bufLen)
  eof_at_end   : s.eof = true → s.mode = .read ∧ s.pos = 8 * s.srcLen.toNat

/-- The validity flags tell the truth: FREQ counts the source, the pool is a tree that uses each entry exactly once, the
Code Table is the tree's (R15, R23, R24, R27, R29). -/
structure State.TablesInv (s : State) : Prop where
  freq_valid : s.freqV = true → s.mode = .write ∧ s.freq = frequencies s.srcBytes ∧
    s.leafCount = BitVec.ofNat 9 (countNonZero s.freq)
  tree_valid : s.treeV = true → s.sessionOpen = true ∧ s.nodes.length ≤ Config.poolN ∧
    (∃ t, s.tree = some t) ∧
    (reach s.nodes (Config.depthMax + 1) s.root).Perm (List.range s.nodes.length)
  code_valid : s.codeV = true → s.treeV = true ∧
    ∃ t, s.tree = some t ∧ codeWalk t 0 0 CodeTable.zero = some (s.codeVal, s.codeLen)

/-! ## What the shared operations achieve -/

/-- The writer has appended the bits `bs` to the stream: the cursor has moved on by as many places, wrapping at the end of
BUF, each full buffer went to the sink in one write of BUF_SIZE bytes, and nothing else changed (R75, R76, R82). -/
structure Appended (s t : State) (bs : List Bool) : Prop where
  stream  : t.streamBits = s.streamBits ++ bs
  cursor  : t.bitPlace = (s.bitPlace + bs.length) % (8 * s.params.bufSize)
  sinkLen : t.sinkLen = s.sinkLen + s.params.bufSize * ((s.bitPlace + bs.length) / (8 * s.params.bufSize))
  writes  : t.sinkWrites =
    s.sinkWrites ++ List.replicate ((s.bitPlace + bs.length) / (8 * s.params.bufSize)) s.params.bufSize
  inv     : t.CursorInv
  frame   : WriterFrame s t

/-- The reader has consumed the next `n` source bits, and nothing else changed (R83, R85). -/
structure Consumed (s t : State) (n : Nat) : Prop where
  pos   : t.pos = s.pos + n
  inv   : t.CursorInv
  frame : ReaderFrame s t

/-- The state after an error of kind `e` (R131, R32): the kind recorded, the session released, MODE FAULT; CMDERR, ARG0,
RES, the sink, the source and the environment as they were. -/
structure Raised (e : ErrKind) (s t : State) : Prop where
  errCode : t.errCode = e
  mode    : t.mode = .fault
  closed  : t.Closed
  frame   : t = { s with
    mode := .fault, errCode := e
    freqV := false, treeV := false, codeV := false, eof := false, mark := false, leafCount := 0
    curByte := 0, curBit := 0, bufLen := 0, rdBase := 0, nodes := [], root := 0, wl := [], walk := 0
    buf := t.buf, freq := t.freq, codeVal := t.codeVal, codeLen := t.codeLen
    srcReads := t.srcReads, draw := t.draw }

/-- The state after a session that ended without an error: MODE IDLE, everything released, sink bytes stored only at the
end; CMDERR, ERRCODE, ARG0, RES, the source and the environment as they were (R32, R81, R88). -/
structure SessionEnded (s t : State) : Prop where
  mode   : t.mode = .idle
  closed : t.Closed
  stores : StoresAtEnd s t
  frame  : t = { s with
    mode := .idle
    freqV := false, treeV := false, codeV := false, eof := false, mark := false, leafCount := 0
    curByte := 0, curBit := 0, bufLen := 0, rdBase := 0, nodes := [], root := 0, wl := [], walk := 0
    buf := t.buf, freq := t.freq, codeVal := t.codeVal, codeLen := t.codeLen
    sink := t.sink, sinkLen := t.sinkLen, sinkWrites := t.sinkWrites
    srcReads := t.srcReads, draw := t.draw }

/-- The decoder has emitted the bytes `bs`, one sink write each (R37, R117, R119). -/
structure Emitted (s t : State) (bs : List Byte) : Prop where
  bytes  : t.sinkBytes = s.sinkBytes ++ bs
  len    : t.sinkLen = s.sinkLen + bs.length
  writes : t.sinkWrites = s.sinkWrites ++ List.replicate bs.length 1
  stores : StoresAtEnd s t

/-! ## Sequences of commands -/

/-- Commands issued one after the other; a sequence stops at the first command that raises (R59). -/
def runCommands : List Instr → State → Host.Outcome State Fault Refusal
  | [], s => .next s
  | i :: is, s => andThen (exec i s) (runCommands is)

/-- What a host can append to the stream by WBIT and WBYTE: a bit or a byte (R82). -/
abbrev WriteItem := Bool ⊕ Byte

/-- The command that writes an item (R78, R80). -/
def itemCommand : WriteItem → Instr
  | .inl b => .wbit b
  | .inr v => .wbyte v

/-- The stream bits of an item: a WriteByte counts as eight WriteBits (R82). -/
def itemBits : WriteItem → List Bool
  | .inl b => [b]
  | .inr v => bitsMsb v

/-- Every byte item stands at a byte-aligned place, the first item standing at bit `n` (R80). -/
def bytesAligned : Nat → List WriteItem → Bool
  | _, [] => true
  | n, .inl _ :: rest => bytesAligned (n + 1) rest
  | n, .inr _ :: rest => n % 8 == 0 && bytesAligned (n + 8) rest

/-- The node records of a tree in pre-order (R63). -/
def CodeTree.records : CodeTree → List Instr
  | .leaf sym => [.wireLeaf sym]
  | .internal l r => .wireInternal :: (l.records ++ r.records)

/-- The first `k` buffer reads of a source of `n` bytes: offset and size (R36, R89). -/
def bufferReads (bufSize n k : Nat) : List (Nat × Nat) :=
  (List.range k).map fun j => (j * bufSize, min bufSize (n - j * bufSize))

/-! ## The tables of R124 and R128 -/

/-- The precondition column of R124. The wire-format records are no commands and have no row there. -/
def accepts : Instr → State → Prop
  | .wopen, s => s.mode = .idle
  | .wbit _, s => s.mode = .write
  | .wbits n, s => s.mode = .write ∧ n.toNat ≤ 64
  | .wbyte _, s => s.mode = .write ∧ s.curBit = 0
  | .wflush, s => s.mode = .write
  | .ropen, s => s.mode = .idle
  | .rbit, s => s.mode = .read
  | .rclose, s => s.mode = .read
  | .tbuild, s => s.mode = .write ∧ s.freqV = true
  | .tser, s => s.mode = .write ∧ s.treeV = true
  | .tdes, s => s.mode = .read
  | .cgen, s => (s.mode = .write ∨ s.mode = .read) ∧ s.treeV = true
  | .fscan, s => s.mode = .write
  | .esingle, s => s.mode = .write ∧ s.freqV = true ∧ s.leafCount = 1 ∧ s.curBit = 0
  | .epay, s => s.mode = .write ∧ s.codeV = true
  | .etrail, s => s.mode = .write
  | .encode, s => s.mode = .idle
  | .dsingle, s => s.mode = .read ∧ s.pos = 0 ∧ 1 ≤ s.srcLen.toNat ∧ s.mark = true
  | .dpay, s => s.mode = .read ∧ s.treeV = true ∧ 1 ≤ s.srcLen.toNat ∧ (nodeAt s.nodes s.root).kind = false
  | .decode, s => s.mode = .idle
  | .clrerr, _ => True
  | .wireSingle _ _ _, _ => False
  | .wireInternal, _ => False
  | .wireLeaf _, _ => False
  | .wireCode _, _ => False
  | .wireTrailerPacked _ _, _ => False
  | .wireTrailerZero _, _ => False

/-- The "may raise" column of R124 (R128). -/
def mayRaise : Instr → List ErrKind
  | .wopen => [.allocation]
  | .ropen => [.allocation]
  | .tbuild => [.emptyInput]
  | .tdes => [.invalidFormat]
  | .cgen => [.codeOverflow]
  | .encode => [.allocation, .emptyInput, .codeOverflow]
  | .dsingle => [.invalidFormat]
  | .dpay => [.invalidFormat]
  | .decode => [.allocation, .emptyInput, .invalidFormat]
  | .wbit _ => []
  | .wbits _ => []
  | .wbyte _ => []
  | .wflush => []
  | .rbit => []
  | .rclose => []
  | .tser => []
  | .fscan => []
  | .esingle => []
  | .epay => []
  | .etrail => []
  | .clrerr => []
  | .wireSingle _ _ _ => []
  | .wireInternal => []
  | .wireLeaf _ => []
  | .wireCode _ => []
  | .wireTrailerPacked _ _ => []
  | .wireTrailerZero _ => []

/-- The "MODE after success" column of R124, from the mode before. -/
def modeAfter (m : Mode) : Instr → Mode
  | .wopen => .write
  | .wflush => .idle
  | .ropen => .read
  | .rclose => .idle
  | .encode => .idle
  | .decode => .idle
  | .clrerr => if m = .fault then .idle else m
  | .wbit _ => m
  | .wbits _ => m
  | .wbyte _ => m
  | .rbit => m
  | .tbuild => m
  | .tser => m
  | .tdes => m
  | .cgen => m
  | .fscan => m
  | .esingle => m
  | .epay => m
  | .etrail => m
  | .dsingle => m
  | .dpay => m
  | .wireSingle _ _ _ => m
  | .wireInternal => m
  | .wireLeaf _ => m
  | .wireCode _ => m
  | .wireTrailerPacked _ _ => m
  | .wireTrailerZero _ => m

end Sys2Proof.Machine
end

