-- ==== Sys2Proof/Certificates/Slice0/Obligations.lean ====
section
/-! DEFINITION. The statements for the provers. A clause `exec i s = .next …` says both that the instruction completes
and what it does; the state on its right-hand side, written as `{ s with … }`, is the whole frame. -/

open Sys2Proof Sys2Proof.Machine

/-! ## bit_stream_writer -/

/-- R77: WOPEN is refused outside IDLE, raises AllocationError when an allocation input is false, and otherwise opens a
write session with BUF zero and every session scalar cleared. -/
def Obligations.WopenOpensWriteSession : Prop :=
  decode (.word 0x1000) = .ok .wopen ∧
  ∀ s : State,
    (s.mode ≠ .idle → exec .wopen s = .next { s with cmdErr := true }) ∧
    (s.mode = .idle → s.allocBufOk = false ∨ s.allocPoolOk = false →
      ∃ t, exec .wopen s = .next t ∧ Raised .allocation s t) ∧
    (s.mode = .idle → s.allocBufOk = true → s.allocPoolOk = true →
      exec .wopen s = .next { s with
        buf := List.replicate s.params.bufSize 0
        curByte := 0, curBit := 0, bufLen := 0, rdBase := 0
        freqV := false, treeV := false, codeV := false, eof := false, mark := false
        leafCount := 0, nodes := [], root := 0, wl := [], walk := 0
        mode := .write })

/-- R76: WriteBit writes the bit under the cursor and no other, the cursor moves on, and filling BUF transfers it in one
write and zero-fills it; WriteByte at a byte-aligned cursor is the eight WriteBits of its bits. -/
def Obligations.WriteBitSetsOneBitAndAdvances : Prop :=
  ∀ s : State, s.mode = .write → s.CursorInv →
    (∀ b, Appended s (writeBit b s) [b]) ∧
    (∀ b, s.bitPlace + 1 < 8 * s.params.bufSize →
      (writeBit b s).bufBits = s.bufBits.set s.bitPlace b ∧ (writeBit b s).sink = s.sink) ∧
    (∀ b, s.bitPlace + 1 = 8 * s.params.bufSize →
      (writeBit b s).curByte = 0 ∧ (writeBit b s).curBit = 0 ∧
      (writeBit b s).buf = List.replicate s.params.bufSize 0 ∧
      (writeBit b s).sinkWrites = s.sinkWrites ++ [s.params.bufSize] ∧
      (writeBit b s).sinkBytes.flatMap bitsMsb =
        s.sinkBytes.flatMap bitsMsb ++ s.bufBits.set s.bitPlace b) ∧
    (∀ v, s.curBit = 0 → writeByte v s = writeBits (bitsMsb v) s)

/-- R78: WBIT b appends the bit b to the stream; nothing else changes. -/
def Obligations.WbitAppendsItsBit : Prop :=
  decode (.word 0x1100) = .ok (.wbit false) ∧ decode (.word 0x1101) = .ok (.wbit true) ∧
  ∀ (b : Bool) (s : State),
    (s.mode ≠ .write → exec (.wbit b) s = .next { s with cmdErr := true }) ∧
    (s.mode = .write → s.CursorInv → ∃ t, exec (.wbit b) s = .next t ∧ Appended s t [b])

/-- R79: WBITS n appends the n most significant bits of ARG0, most significant first; n = 0 changes nothing, n = 64 leaves
CUR_BIT as it was, n above 64 is refused. -/
def Obligations.WbitsAppendsTheTopBits : Prop :=
  (∀ n : BitVec 7, decode (.word (0x1200 ||| n.setWidth 16)) = .ok (.wbits n)) ∧
  ∀ (n : BitVec 7) (s : State),
    (s.mode ≠ .write ∨ 64 < n.toNat → exec (.wbits n) s = .next { s with cmdErr := true }) ∧
    (s.mode = .write → n = 0 → exec (.wbits n) s = .next s) ∧
    (s.mode = .write → n.toNat ≤ 64 → s.CursorInv →
      ∃ t, exec (.wbits n) s = .next t ∧
        Appended s t ((List.range n.toNat).map fun i => s.arg0.getLsbD (63 - i)) ∧
        (n = 64 → t.curBit = s.curBit))

/-- R80: WBYTE v at a byte-aligned cursor appends the eight bits of v, most significant first; at any other cursor it is
refused. -/
def Obligations.WbyteAppendsItsByte : Prop :=
  (∀ v : Byte, decode (.word (0x1300 ||| v.setWidth 16)) = .ok (.wbyte v)) ∧
  ∀ (v : Byte) (s : State),
    (s.mode ≠ .write ∨ s.curBit ≠ 0 → exec (.wbyte v) s = .next { s with cmdErr := true }) ∧
    (s.mode = .write → s.curBit = 0 → s.CursorInv →
      ∃ t, exec (.wbyte v) s = .next t ∧ Appended s t (bitsMsb v) ∧ t.curBit = 0)

/-- R81: WFLUSH appends the first k bytes of BUF in one write, none when k = 0, where a partly filled byte counts as one
more, and ends the session. -/
def Obligations.WflushWritesTheRestAndCloses : Prop :=
  decode (.word 0x1400) = .ok .wflush ∧
  ∀ s : State,
    (s.mode ≠ .write → exec .wflush s = .next { s with cmdErr := true }) ∧
    (s.mode = .write → s.CursorInv →
      let k := s.curByte + (if s.curBit = 0 then 0 else 1)
      ∃ t, exec .wflush s = .next t ∧ SessionEnded s t ∧
        t.sinkBytes = s.sinkBytes ++ s.buf.take k ∧ t.sinkLen = s.sinkLen + k ∧
        t.sinkWrites = s.sinkWrites ++ (if k = 0 then [] else [k]) ∧ t.srcReads = s.srcReads)

/-- R82, for sessions of WBIT and WBYTE: a write session appends exactly the bytes that hold its bits, zeros after them, in
transfers of BUF_SIZE bytes and one shorter final write. -/
def Obligations.WriteSessionProducesThePackedBits : Prop :=
  ∀ (s : State) (items : List WriteItem),
    s.mode = .idle → s.allocOk = true → 1 ≤ s.params.bufSize → bytesAligned 0 items = true →
    let bits := items.flatMap itemBits
    let m := bits.length
    let r := m % (8 * s.params.bufSize)
    ∃ t, runCommands (.wopen :: items.map itemCommand ++ [.wflush]) s = .next t ∧
      SessionEnded s t ∧
      t.sinkBytes = s.sinkBytes ++ packBits bits ∧
      (packBits bits).length = (m + 7) / 8 ∧
      (∀ p, p < 8 * ((m + 7) / 8) → ((packBits bits).flatMap bitsMsb)[p]? = some (bits.getD p false)) ∧
      t.sinkWrites = s.sinkWrites ++ List.replicate (m / (8 * s.params.bufSize)) s.params.bufSize ++
        (if r = 0 then [] else [(r + 7) / 8])

/-! ## bit_stream_reader -/

/-- R84: Refill replaces an exhausted buffer by the next source bytes, read in one access; with none left it reads nothing
and a repeated Refill finds none again. -/
def Obligations.RefillLoadsTheNextBytes : Prop :=
  ∀ s : State, s.mode = .read → s.CursorInv → s.curByte = s.bufLen → s.curBit = 0 →
    (refill s).rdBase.toNat = s.rdBase.toNat + s.bufLen ∧
    (refill s).bufLen = min s.params.bufSize (s.srcLen.toNat - (refill s).rdBase.toNat) ∧
    (refill s).buf.take (refill s).bufLen = s.src.readBytes (refill s).rdBase.toNat (refill s).bufLen ∧
    (refill s).curByte = 0 ∧ (refill s).curBit = 0 ∧ (refill s).pos = s.pos ∧
    (refill s).srcReads = s.srcReads ++
      (if (refill s).bufLen = 0 then [] else [((refill s).rdBase.toNat, (refill s).bufLen)]) ∧
    (s.bufLen = 0 → (refill s).rdBase = s.rdBase ∧ (refill s).bufLen = 0) ∧
    ReaderFrame s (refill s) ∧ (refill s).eof = s.eof

/-- R85, R22: ReadBit returns source bit POS and moves POS on by one, reading the source only when the buffer is exhausted;
it returns none exactly at the end of the source, sets EOF and leaves POS. -/
def Obligations.ReadBitDeliversTheNextSourceBit : Prop :=
  ∀ s : State, s.mode = .read → s.CursorInv →
    s.pos ≤ 8 * s.srcLen.toNat ∧
    (s.pos < 8 * s.srcLen.toNat → ∃ b t, readBit s = (some b, t) ∧
      b = (s.src.read (s.pos / 8)).getLsbD (7 - s.pos % 8) ∧ Consumed s t 1 ∧ t.eof = s.eof ∧
      (s.curByte < s.bufLen → t.srcReads = s.srcReads ∧ t.buf = s.buf)) ∧
    (s.pos = 8 * s.srcLen.toNat → ∃ t, readBit s = (none, t) ∧ t.eof = true ∧ Consumed s t 0 ∧
      t.srcReads = s.srcReads)

/-- R86: ROPEN is refused outside IDLE, raises AllocationError when an allocation input is false, and otherwise opens a
read session: the first min(BUF_SIZE, SRC_LEN) source bytes in BUF, the rest of it unspecified (R19), MARK the top bit of
source byte 0. -/
def Obligations.RopenLoadsTheFirstBuffer : Prop :=
  decode (.word 0x2000) = .ok .ropen ∧
  ∀ s : State,
    (s.mode ≠ .idle → exec .ropen s = .next { s with cmdErr := true }) ∧
    (s.mode = .idle → s.allocBufOk = false ∨ s.allocPoolOk = false →
      ∃ t, exec .ropen s = .next t ∧ Raised .allocation s t) ∧
    (s.mode = .idle → s.allocBufOk = true → s.allocPoolOk = true →
      let n := min s.params.bufSize s.srcLen.toNat
      ∃ t, exec .ropen s = .next t ∧ t.buf.take n = s.src.readBytes 0 n ∧
        t.buf.length = s.params.bufSize ∧
        t = { s with
          buf := t.buf, draw := t.draw
          srcReads := s.srcReads ++ (if n = 0 then [] else [(0, n)])
          freqV := false, treeV := false, codeV := false, eof := false
          leafCount := 0, nodes := [], root := 0, wl := [], walk := 0
          rdBase := 0, curByte := 0, curBit := 0, bufLen := n
          mark := if s.srcLen = 0 then false else (s.src.read 0).getLsbD 7
          mode := .read })

/-- R87: RBIT puts the next source bit into RES, zero-extended; at the end of the source RES is 0 and EOF is set, and
nothing is raised. -/
def Obligations.RbitReadsOneBitIntoRes : Prop :=
  decode (.word 0x2100) = .ok .rbit ∧
  ∀ s : State,
    (s.mode ≠ .read → exec .rbit s = .next { s with cmdErr := true }) ∧
    (s.mode = .read → s.CursorInv → s.pos < 8 * s.srcLen.toNat →
      ∃ t, exec .rbit s = .next t ∧
        t.res = (if (s.src.read (s.pos / 8)).getLsbD (7 - s.pos % 8) then 1 else 0) ∧
        Consumed { s with res := t.res } t 1 ∧ t.eof = s.eof) ∧
    (s.mode = .read → s.CursorInv → s.pos = 8 * s.srcLen.toNat →
      ∃ t, exec .rbit s = .next t ∧ t.res = 0 ∧ t.eof = true ∧ Consumed { s with res := 0 } t 0)

/-- R88: RCLOSE releases everything and returns to IDLE; the sink is not touched. -/
def Obligations.RcloseEndsTheSession : Prop :=
  decode (.word 0x2200) = .ok .rclose ∧
  ∀ s : State,
    (s.mode ≠ .read → exec .rclose s = .next { s with cmdErr := true }) ∧
    (s.mode = .read → ∃ t, exec .rclose s = .next t ∧ SessionEnded s t ∧
      t.sink = s.sink ∧ t.sinkLen = s.sinkLen ∧ t.sinkWrites = s.sinkWrites ∧ t.srcReads = s.srcReads)

/-- R89, for the commands RBIT of a session: after n of them RES holds source bit n-1, or 0 past the end, and the source
has been fetched in the first buffer reads that the bits needed, in rising offset order, each byte at most once. -/
def Obligations.ReadSessionFetchesInOrder : Prop :=
  ∀ (s : State) (n : Nat), s.mode = .idle → s.allocOk = true → 1 ≤ s.params.bufSize →
    let len := s.srcLen.toNat
    let needed := (min n (8 * len) + 8 * s.params.bufSize - 1) / (8 * s.params.bufSize)
    ∃ t, runCommands (.ropen :: List.replicate n .rbit) s = .next t ∧
      t.mode = .read ∧ t.pos = min n (8 * len) ∧ (t.eof = true ↔ 8 * len < n) ∧
      (1 ≤ n → t.res = if n ≤ 8 * len ∧ (s.src.read ((n - 1) / 8)).getLsbD (7 - (n - 1) % 8) = true then 1 else 0) ∧
      t.srcReads = s.srcReads ++ bufferReads s.params.bufSize len (if len = 0 then 0 else max 1 needed)

/-! ## huffman_tree_builder -/

/-- R91: the leaves are the symbols of non-zero frequency in ascending order, and the initial working list is their stable
sort by descending frequency. -/
def Obligations.InitialListIsTheStableSort : Prop :=
  ∀ (draw : Nat) (freq : Vector Word64 256),
    let leaves := leafNodes draw freq
    let fq := fun j => (nodeAt leaves j).freq
    let wl := initialList fq (countNonZero freq)
    leaves.length = countNonZero freq ∧
    leaves.map (fun n => n.sym) = allSymbols.filter (fun sym => entry freq sym ≠ 0) ∧
    (∀ n ∈ leaves, n.kind = true ∧ n.freq = entry freq n.sym ∧ n.freqP = true) ∧
    wl.Perm ((List.range (countNonZero freq)).map (BitVec.ofNat 9)) ∧
    wl.Pairwise (fun i j => fq j < fq i ∨ (fq i = fq j ∧ i < j))

/-- R92, R93: a merge takes the two elements at the tail, allocates an Internal node with their frequencies' sum, the tail
as LEFT under TAIL_LEFT and as RIGHT under TAIL_RIGHT, and re-inserts it at the smallest position whose element has no
larger frequency; a list sorted by non-increasing frequency stays sorted (R95 (d)). -/
def Obligations.MergeJoinsTheTwoTails : Prop :=
  ∀ (draw : Nat) (p : Config.Params) (nodes : List Node) (rest : List PoolIx) (q t : PoolIx),
    nodes.length < 511 → (∀ j ∈ rest ++ [q, t], j.toNat < nodes.length) → p.tie = .newestFirst →
    let fq := fun j => (nodeAt nodes j).freq
    let pool := mergeOnce draw p (nodes, rest ++ [q, t])
    ∃ (n : Node) (k : Nat),
      pool.1 = nodes ++ [n] ∧ n.kind = false ∧ n.freq = fq t + fq q ∧ n.freqP = true ∧
      (p.childOrder = .tailLeft → n.left = t ∧ n.right = q) ∧
      (p.childOrder = .tailRight → n.left = q ∧ n.right = t) ∧
      k ≤ rest.length ∧ (∀ j ∈ rest.take k, n.freq < fq j) ∧ (∀ j ∈ (rest.drop k).head?, fq j ≤ n.freq) ∧
      pool.2 = rest.take k ++ BitVec.ofNat 9 nodes.length :: rest.drop k ∧
      ((rest ++ [q, t]).Pairwise (fun i j => fq j ≤ fq i) →
        pool.2.Pairwise (fun i j => (nodeAt pool.1 j).freq ≤ (nodeAt pool.1 i).freq))

/-- R94, with the guarantees (a), (b), (c) and (e) of R95: TBUILD is the leaves, the sorted list and LEAFCOUNT - 1 merges;
with no leaf it raises EmptyInputError, with one it changes nothing. -/
def Obligations.TbuildBuildsTheTree : Prop :=
  decode (.word 0x3000) = .ok .tbuild ∧
  ∀ s : State,
    (s.mode ≠ .write ∨ s.freqV = false → exec .tbuild s = .next { s with cmdErr := true }) ∧
    (s.mode = .write → s.freqV = true → s.leafCount = 0 →
      ∃ t, exec .tbuild s = .next t ∧ Raised .emptyInput s t) ∧
    (s.mode = .write → s.freqV = true → s.leafCount = 1 → exec .tbuild s = .next s) ∧
    (s.mode = .write → s.freqV = true → s.TablesInv → 2 ≤ s.leafCount.toNat →
      let L := s.leafCount.toNat
      let leaves := leafNodes s.draw s.freq
      ∃ t tr, exec .tbuild s = .next t ∧
        t = { s with
          nodes := t.nodes, wl := t.wl, root := t.root, treeV := true, codeV := false, draw := t.draw } ∧
        (t.nodes, t.wl) =
          (mergeOnce s.draw s.params)^[L - 1] (leaves, initialList (fun j => (nodeAt leaves j).freq) L) ∧
        t.wl = [t.root] ∧ t.wlLen = 1 ∧ t.root.toNat = 2 * L - 2 ∧
        t.nodes.length = 2 * L - 1 ∧ t.nodeCnt.toNat = 2 * L - 1 ∧ t.nodes.take L = leaves ∧
        (∀ n ∈ t.nodes.drop L, n.kind = false ∧ n.freqP = true) ∧
        (nodeAt t.nodes t.root).freq = s.srcLen ∧
        t.tree = some tr ∧ huffmanTree s.params s.srcBytes = some tr ∧
        (tr.codes.map fun c => c.1).Perm (usedSymbols s.freq) ∧
        (∀ c ∈ tr.codes, 1 ≤ c.2.length ∧ c.2.length ≤ L - 1))

/-! ## huffman_tree_serializer -/

/-- R97, R98: TSER appends the pre-order records of the tree: a Leaf is 1 and its symbol most significant bit first, an
Internal node is 0, then its left and its right subtree. -/
def Obligations.TserWritesThePreOrder : Prop :=
  decode (.word 0x4000) = .ok .tser ∧
  (∀ sym : Byte, (CodeTree.leaf sym).ser =
    true :: [7, 6, 5, 4, 3, 2, 1, 0].map (fun k => sym.getLsbD k)) ∧
  (∀ l r : CodeTree, (CodeTree.internal l r).ser = [false] ++ l.ser ++ r.ser) ∧
  ∀ s : State,
    (s.mode ≠ .write ∨ s.treeV = false → exec .tser s = .next { s with cmdErr := true }) ∧
    (s.mode = .write → s.treeV = true → s.CursorInv → s.TablesInv →
      ∃ tr t, s.tree = some tr ∧ exec .tser s = .next t ∧ Appended s t tr.ser)

/-- R99: a tree with L leaves has L - 1 Internal nodes and a serialized form of 10 L - 1 bits, which begins with 0 when
L is 2 or more. -/
def Obligations.SerializedTreeLength : Prop :=
  ∀ tr : CodeTree, tr.ser.length + 1 = 10 * tr.leaves ∧ tr.size + 1 = 2 * tr.leaves ∧
    (2 ≤ tr.leaves → tr.ser.head? = some false) ∧ tr.depth < tr.leaves

/-- R100, R102, R128: where the unread source begins with the serialized form of a tree of at most 511 nodes, TDES rebuilds
that tree at ROOT = 0, consumes exactly those bits and touches nothing else, for every BUF_SIZE; everywhere else it raises
InvalidFormatError. -/
def Obligations.TdesRebuildsTheTree : Prop :=
  decode (.word 0x4100) = .ok .tdes ∧
  ∀ s : State,
    (s.mode ≠ .read → exec .tdes s = .next { s with cmdErr := true }) ∧
    (∀ (tr : CodeTree) (rest : List Bool), s.mode = .read → s.CursorInv →
      s.unread = tr.ser ++ rest → tr.size ≤ 511 →
      ∃ t, exec .tdes s = .next t ∧ t.tree = some tr ∧ t.nodes.length = tr.size ∧
        (∀ n ∈ t.nodes, n.freqP = false) ∧
        Consumed { s with nodes := t.nodes, root := 0, treeV := true, codeV := false } t tr.ser.length ∧
        t.eof = s.eof) ∧
    (s.mode = .read → s.CursorInv →
      (∀ (tr : CodeTree) (rest : List Bool), s.unread = tr.ser ++ rest → 511 < tr.size) →
      ∃ t, exec .tdes s = .next t ∧ Raised .invalidFormat s t)

/-- R101: the pool TDES leaves is in pre-order: an odd number of entries, none with a frequency, the left child of an
Internal node next after it. -/
def Obligations.TdesPoolIsInPreOrder : Prop :=
  ∀ s t : State, s.mode = .read → exec .tdes s = .next t → t.mode = .read →
    t.root = 0 ∧ t.nodes.length % 2 = 1 ∧ t.nodes.length ≤ 511 ∧
    reach t.nodes (Config.depthMax + 1) t.root = List.range t.nodes.length ∧
    (∀ n ∈ t.nodes, n.freqP = false) ∧
    (∀ (i : Nat) (n : Node), t.nodes[i]? = some n → n.kind = false →
      n.left.toNat = i + 1 ∧ i + 1 < n.right.toNat ∧ n.right.toNat < t.nodes.length)

/-! ## huffman_code_table_generator -/

/-- R104, R103: CGEN gives each leaf's symbol its path, left-justified, with the depth as length, and every other symbol
(0, 0); a leaf deeper than 64 raises CodeOverflowError. -/
def Obligations.CgenFillsTheCodeTable : Prop :=
  decode (.word 0x5000) = .ok .cgen ∧
  ∀ s : State,
    (s.treeV = false ∨ (s.mode ≠ .write ∧ s.mode ≠ .read) → exec .cgen s = .next { s with cmdErr := true }) ∧
    (∀ tr : CodeTree, s.treeV = true → s.mode = .write ∨ s.mode = .read → s.tree = some tr →
      ((∃ c ∈ tr.codes, 64 < c.2.length) → ∃ t, exec .cgen s = .next t ∧ Raised .codeOverflow s t) ∧
      ((∀ c ∈ tr.codes, c.2.length ≤ 64) → ∃ t, exec .cgen s = .next t ∧
        t = { s with codeVal := t.codeVal, codeLen := t.codeLen, codeV := true } ∧
        ∀ sym : Byte,
          (tr.codeOf sym = none → entry t.codeLen sym = 0 ∧ entry t.codeVal sym = 0) ∧
          (∀ p, tr.codeOf sym = some p → (entry t.codeLen sym).toNat = p.length ∧
            topBits (entry t.codeVal sym) 64 = p ++ List.replicate (64 - p.length) false)))

/-- R105 (b), (c), (d), for the codes of any tree with an Internal root: no code is a prefix of another, the code lengths
are complete, the walk along a code ends on its leaf and on no leaf earlier. -/
def Obligations.CodesFormACompletePrefixCode : Prop :=
  ∀ l r : CodeTree,
    let tr := CodeTree.internal l r
    tr.codes.length = tr.leaves ∧
    tr.codes.Pairwise (fun c d => ¬ c.2 <+: d.2 ∧ ¬ d.2 <+: c.2) ∧
    (tr.codes.map fun c => 2 ^ (tr.depth - c.2.length)).sum = 2 ^ tr.depth ∧
    (∀ c ∈ tr.codes, 1 ≤ c.2.length ∧ c.2.length ≤ tr.depth ∧ tr.dec c.2 = [c.1] ∧
      ∀ k, k < c.2.length → tr.dec (c.2.take k) = []) ∧
    (∀ (bytes : List Byte) (rest : List Bool), (∀ b ∈ bytes, (tr.codeOf b).isSome = true) →
      (tr.codes.map fun c => c.1).Nodup → tr.dec (tr.payload bytes ++ rest) = bytes ++ tr.dec rest)

/-! ## huffman_encoder -/

/-- R108: FSCAN counts every source byte, in 256 counters that do not wrap, and sets LEAFCOUNT to the number of distinct
byte values; the source is read byte by byte from offset 0. -/
def Obligations.FscanCountsTheSource : Prop :=
  decode (.word 0x6000) = .ok .fscan ∧
  ∀ s : State,
    (s.mode ≠ .write → exec .fscan s = .next { s with cmdErr := true }) ∧
    (s.mode = .write → ∃ t, exec .fscan s = .next t ∧
      t = { s with
        freq := t.freq, leafCount := t.leafCount, freqV := true
        srcReads := s.srcReads ++ (List.range s.srcLen.toNat).map (fun i => (i, 1)) } ∧
      (∀ sym : Byte, (entry t.freq sym).toNat = s.srcBytes.count sym) ∧
      t.leafCount.toNat = (allSymbols.filter fun sym => sym ∈ s.srcBytes).length ∧
      (t.freq.toList.map fun c => c.toNat).sum = s.srcLen.toNat)

/-- R109: with one distinct symbol and a byte-aligned cursor ESINGLE appends 0x80, the symbol and its 64-bit count, least
significant byte first under LITTLE, most significant first under BIG. -/
def Obligations.EsingleWritesTheFrame : Prop :=
  decode (.word 0x6100) = .ok .esingle ∧
  ∀ s : State,
    (s.mode ≠ .write ∨ s.freqV = false ∨ s.leafCount ≠ 1 ∨ s.curBit ≠ 0 →
      exec .esingle s = .next { s with cmdErr := true }) ∧
    (∀ sym : Byte, s.mode = .write → s.freqV = true → s.leafCount = 1 → s.curBit = 0 → s.CursorInv →
      entry s.freq sym ≠ 0 → (∀ x, x ≠ sym → entry s.freq x = 0) →
      let lsbFirst := [0, 8, 16, 24, 32, 40, 48, 56].map fun k => (entry s.freq sym).extractLsb' k 8
      ∃ t, exec .esingle s = .next t ∧ t.curBit = 0 ∧
        (s.params.countEndian = .little → Appended s t (((0x80 : Byte) :: sym :: lsbFirst).flatMap bitsMsb)) ∧
        (s.params.countEndian = .big → Appended s t (((0x80 : Byte) :: sym :: lsbFirst.reverse).flatMap bitsMsb)))

/-- R110: EPAY reads the source again from offset 0 and appends, for each byte, the first CODE_LEN bits of its CODE_VAL; with
the tables valid that is the payload of the tree. -/
def Obligations.EpayWritesTheCodes : Prop :=
  decode (.word 0x6200) = .ok .epay ∧
  ∀ s : State,
    (s.mode ≠ .write ∨ s.codeV = false → exec .epay s = .next { s with cmdErr := true }) ∧
    (s.mode = .write → s.codeV = true → s.CursorInv →
      ∃ t, exec .epay s = .next t ∧
        Appended (noteScan s) t (s.srcBytes.flatMap fun b =>
          (List.range (entry s.codeLen b).toNat).map fun k => (entry s.codeVal b).getMsbD k) ∧
        (s.TablesInv → ∀ tr, s.tree = some tr → Appended (noteScan s) t (tr.payload s.srcBytes)))

/-- R112: with u used bits in the last byte ETRAIL appends 5 - u zeros and the three bits of u when u is at most 5, and
otherwise 8 - u zeros and a zero byte; the cursor is byte-aligned afterwards. -/
def Obligations.EtrailAppendsTheTrailer : Prop :=
  decode (.word 0x6300) = .ok .etrail ∧
  ∀ s : State,
    (s.mode ≠ .write → exec .etrail s = .next { s with cmdErr := true }) ∧
    (s.mode = .write → s.CursorInv →
      let u := s.curBit
      ∃ t, exec .etrail s = .next t ∧ t.curBit = 0 ∧
        (u.toNat ≤ 5 → Appended s t
          (List.replicate (5 - u.toNat) false ++ [u.getLsbD 2, u.getLsbD 1, u.getLsbD 0])) ∧
        (5 < u.toNat → Appended s t (List.replicate (8 - u.toNat) false ++ List.replicate 8 false)))

/-- R113 with R60 to R66 and R95: from IDLE, ENCODE ends in EmptyInputError on an empty source, appends the ten bytes of the
single-symbol form for one distinct byte value, appends the general form of the source under its Huffman tree for two or
more, and raises CodeOverflowError when that tree is deeper than 64. -/
def Obligations.EncodeProducesTheWireFormat : Prop :=
  decode (.word 0x6F00) = .ok .encode ∧
  ∀ s : State,
    (s.mode ≠ .idle → exec .encode s = .next { s with cmdErr := true }) ∧
    (s.mode = .idle → s.allocOk = false → ∃ t, exec .encode s = .next t ∧ Raised .allocation s t) ∧
    (s.mode = .idle → s.allocOk = true → 1 ≤ s.params.bufSize →
      let distinct := (allSymbols.filter fun sym => sym ∈ s.srcBytes).length
      (distinct = 0 ↔ s.srcLen = 0) ∧
      (distinct = 0 → ∃ t, exec .encode s = .next t ∧ Raised .emptyInput s t) ∧
      (∀ sym : Byte, distinct = 1 → sym ∈ s.srcBytes → ∃ t, exec .encode s = .next t ∧ SessionEnded s t ∧
        t.sinkBytes = s.sinkBytes ++ 0x80 :: sym :: countBytes s.params.countEndian s.srcLen) ∧
      (2 ≤ distinct → ∃ tr, huffmanTree s.params s.srcBytes = some tr ∧
        (64 < tr.depth → ∃ t, exec .encode s = .next t ∧ Raised .codeOverflow s t) ∧
        (tr.depth ≤ 64 → ∃ t, exec .encode s = .next t ∧ SessionEnded s t ∧
          t.sinkBytes = s.sinkBytes ++ packBits (generalForm tr s.srcBytes))))

/-- R67: the general form of a source under a tree is B div 8 + 1 bytes when u is at most 5 and B div 8 + 2 otherwise; the
count in its last byte marks B, or B + (8 - u), as the end of the payload. -/
def Obligations.GeneralFormLength : Prop :=
  ∀ (tr : CodeTree) (bytes : List Byte),
    let B := tr.ser.length + (tr.payload bytes).length
    let u := B % 8
    let file := packBits (generalForm tr bytes)
    let c := ((file.getLastD 0).extractLsb' 0 3).toNat
    file.flatMap bitsMsb = generalForm tr bytes ∧ c ≤ 5 ∧
    (u ≤ 5 → file.length = B / 8 + 1 ∧ 8 * (file.length - 1) + c = B) ∧
    (6 ≤ u → file.length = B / 8 + 2 ∧ 8 * (file.length - 1) + c = B + (8 - u))

/-- R59: WBYTE at a byte-aligned cursor is WBITS 8 of ARG0 = byte << 56, apart from ARG0; WBITS n is its n WBITs; from IDLE,
ENCODE and DECODE are their sequences of primitive commands, chosen by the number of distinct source bytes, and by the
source's length and first bit. A sequence stops at the first command that raises. -/
def Obligations.EquivalentCommandSequences : Prop :=
  (∀ (v : Byte) (s : State), s.mode = .write → s.curBit = 0 →
    exec (.wbyte v) s = andThen (exec (.wbits 8) { s with arg0 := v.setWidth 64 <<< 56 })
      (fun t => .next { t with arg0 := s.arg0 })) ∧
  (∀ (n : BitVec 7) (s : State), s.mode = .write → n.toNat ≤ 64 →
    exec (.wbits n) s = runCommands ((List.range n.toNat).map fun i => .wbit (s.arg0.getLsbD (63 - i))) s) ∧
  ∀ s : State, s.mode = .idle →
    let distinct := (allSymbols.filter fun sym => sym ∈ s.srcBytes).length
    (s.allocOk = false →
      exec .encode s = runCommands [.wopen] s ∧ exec .decode s = runCommands [.ropen] s) ∧
    (s.allocOk = true →
      (distinct = 0 → ∃ t, runCommands [.wopen, .fscan] s = .next t ∧ exec .encode s = .next (raise .emptyInput t)) ∧
      (distinct = 1 → exec .encode s = runCommands [.wopen, .fscan, .esingle, .wflush] s) ∧
      (2 ≤ distinct →
        exec .encode s = runCommands [.wopen, .fscan, .tbuild, .cgen, .tser, .epay, .etrail, .wflush] s) ∧
      (s.srcLen = 0 → ∃ t, runCommands [.ropen] s = .next t ∧ exec .decode s = .next (raise .emptyInput t)) ∧
      (s.srcLen ≠ 0 → (s.src.read 0).getLsbD 7 = true →
        exec .decode s = runCommands [.ropen, .dsingle, .rclose] s) ∧
      (s.srcLen ≠ 0 → (s.src.read 0).getLsbD 7 = false →
        exec .decode s = runCommands [.ropen, .tdes, .dpay, .rclose] s))

/-! ## huffman_decoder -/

/-- R117: DSINGLE checks the length first, then reads ten bytes and emits the symbol as often as the count says; the marker
byte's low bits do not matter. -/
def Obligations.DsingleEmitsTheCount : Prop :=
  decode (.word 0x7000) = .ok .dsingle ∧
  ∀ s : State,
    (s.mode ≠ .read ∨ s.pos ≠ 0 ∨ s.srcLen = 0 ∨ s.mark = false →
      exec .dsingle s = .next { s with cmdErr := true }) ∧
    (s.mode = .read → s.pos = 0 → s.srcLen ≠ 0 → s.mark = true → s.srcLen ≠ 10 →
      ∃ t, exec .dsingle s = .next t ∧ Raised .invalidFormat s t ∧ t.srcReads = s.srcReads) ∧
    (s.mode = .read → s.pos = 0 → s.mark = true → s.srcLen = 10 → s.CursorInv →
      let b := fun j => s.src.read j
      ∃ (count : Word64) (t : State), exec .dsingle s = .next t ∧
        (s.params.countEndian = .little →
          count = b 9 ++ b 8 ++ b 7 ++ b 6 ++ b 5 ++ b 4 ++ b 3 ++ b 2) ∧
        (s.params.countEndian = .big →
          count = b 2 ++ b 3 ++ b 4 ++ b 5 ++ b 6 ++ b 7 ++ b 8 ++ b 9) ∧
        Emitted s t (List.replicate count.toNat (b 1)) ∧
        Consumed { s with sink := t.sink, sinkLen := t.sinkLen, sinkWrites := t.sinkWrites } t 80 ∧
        t.eof = s.eof)

/-- R119, R118, R120: with END = 8 (SRC_LEN - 1) + c, c the low three bits of the last byte, DPAY raises InvalidFormatError
when c is above 5 or POS above END, and otherwise emits dec of the source bits POS .. END - 1, leaving POS at END and WALK
on an Internal node. -/
def Obligations.DpayWalksThePayload : Prop :=
  decode (.word 0x7100) = .ok .dpay ∧
  ∀ s : State,
    (s.mode ≠ .read ∨ s.treeV = false ∨ s.srcLen = 0 ∨ (nodeAt s.nodes s.root).kind = true →
      exec .dpay s = .next { s with cmdErr := true }) ∧
    (∀ l r : CodeTree, s.mode = .read → s.treeV = true → s.srcLen ≠ 0 → s.tree = some (.internal l r) →
      s.CursorInv →
      let last := s.srcLen.toNat - 1
      let c := ((s.src.read last).extractLsb' 0 3).toNat
      let stop := 8 * last + c
      (5 < c ∨ stop < s.pos → ∃ t, exec .dpay s = .next t ∧ Raised .invalidFormat s t) ∧
      (c ≤ 5 → s.pos ≤ stop → ∃ t, exec .dpay s = .next t ∧
        Emitted s t ((CodeTree.internal l r).dec ((s.srcBits.take stop).drop s.pos)) ∧
        Consumed { s with
          sink := t.sink, sinkLen := t.sinkLen, sinkWrites := t.sinkWrites, walk := t.walk } t (stop - s.pos) ∧
        t.eof = s.eof ∧ (nodeAt t.nodes t.walk).kind = false))

/-- R121 with R69: from IDLE, DECODE ends in EmptyInputError on an empty source; with the first bit 1 it emits the
single-symbol frame or rejects a length other than 10; with the first bit 0 it emits dec of the payload behind the
serialized tree, or raises InvalidFormatError when the tree or the trailer is malformed. -/
def Obligations.DecodeInterpretsTheFile : Prop :=
  decode (.word 0x7F00) = .ok .decode ∧
  ∀ s : State,
    (s.mode ≠ .idle → exec .decode s = .next { s with cmdErr := true }) ∧
    (s.mode = .idle → s.allocOk = false → ∃ t, exec .decode s = .next t ∧ Raised .allocation s t) ∧
    (s.mode = .idle → s.allocOk = true → 1 ≤ s.params.bufSize →
      let last := s.srcLen.toNat - 1
      let c := ((s.src.read last).extractLsb' 0 3).toNat
      let stop := 8 * last + c
      (s.srcLen = 0 → ∃ t, exec .decode s = .next t ∧ Raised .emptyInput s t) ∧
      (s.srcBits.head? = some true → s.srcLen ≠ 10 →
        ∃ t, exec .decode s = .next t ∧ Raised .invalidFormat s t) ∧
      (s.srcBits.head? = some true → s.srcLen = 10 → ∃ t, exec .decode s = .next t ∧ SessionEnded s t ∧
        t.sinkBytes = s.sinkBytes ++ List.replicate
          (countOfBytes s.params.countEndian (s.src.readBytes 2 8)).toNat (s.src.read 1)) ∧
      (∀ (tr : CodeTree) (rest : List Bool), s.srcBits.head? = some false → s.srcBits = tr.ser ++ rest →
        tr.size ≤ 511 → c ≤ 5 → tr.ser.length ≤ stop →
        ∃ t, exec .decode s = .next t ∧ SessionEnded s t ∧
          t.sinkBytes = s.sinkBytes ++ tr.dec ((s.srcBits.take stop).drop tr.ser.length)) ∧
      (s.srcBits.head? = some false →
        (∀ (tr : CodeTree) (rest : List Bool), s.srcBits = tr.ser ++ rest → tr.size ≤ 511 →
          5 < c ∨ stop < tr.ser.length) →
        ∃ t, exec .decode s = .next t ∧ Raised .invalidFormat s t))

/-- R122: DECODE of what ENCODE wrote. The output is the source, except that with u = 6 or 7 used bits in the last data
byte the padding is walked too and may add copies of the leftmost leaf's symbol. -/
def Obligations.DecodeOfEncode : Prop :=
  ∀ s t d : State,
    s.mode = .idle → s.allocOk = true → 1 ≤ s.params.bufSize →
    exec .encode s = .next t → t.mode = .idle →
    d.mode = .idle → d.allocOk = true → 1 ≤ d.params.bufSize →
    d.params.countEndian = s.params.countEndian → s.sinkBytes ++ d.srcBytes = t.sinkBytes →
    let distinct := (allSymbols.filter fun sym => sym ∈ s.srcBytes).length
    ∃ e, exec .decode d = .next e ∧ e.mode = .idle ∧
      (distinct = 1 → e.sinkBytes = d.sinkBytes ++ s.srcBytes) ∧
      (2 ≤ distinct → ∃ tr, huffmanTree s.params s.srcBytes = some tr ∧
        let u := (tr.ser.length + (tr.payload s.srcBytes).length) % 8
        1 ≤ tr.leftmost.2 ∧
        (u ≤ 5 → e.sinkBytes = d.sinkBytes ++ s.srcBytes) ∧
        (6 ≤ u → e.sinkBytes = d.sinkBytes ++ s.srcBytes ++
          List.replicate ((8 - u) / tr.leftmost.2) tr.leftmost.1))

/-- R160, for the two composite commands: from states that differ only in BUF_SIZE (and BUF), the sink content, STATUS and RES
afterwards are the same. -/
def Obligations.BufSizeIsNotObservable : Prop :=
  ∀ (s : State) (n : Nat) (buf : List Byte) (i : Instr),
    s.mode = .idle → i = .encode ∨ i = .decode →
    1 ≤ s.params.bufSize → 1 ≤ n →
    ∃ t t', exec i s = .next t ∧
      exec i { s with params := { s.params with bufSize := n }, buf := buf } = .next t' ∧
      t'.sinkBytes = t.sinkBytes ∧ t'.sinkLen = t.sinkLen ∧ t'.status = t.status ∧ t'.res = t.res

/-! ## Commands as a whole -/

/-- R126: CLRERR is accepted in every mode: it clears CMDERR, and in FAULT also ERRCODE and the mode; an open session goes
on undisturbed. -/
def Obligations.ClrerrAcknowledges : Prop :=
  decode (.word 0xF000) = .ok .clrerr ∧
  ∀ s : State,
    (s.mode = .fault → exec .clrerr s = .next { s with cmdErr := false, errCode := .none, mode := .idle }) ∧
    (s.mode ≠ .fault → exec .clrerr s = .next { s with cmdErr := false })

/-- R124, R128: a command whose precondition fails is refused; one whose precondition holds completes: it ends in the mode of
the table with no error, or in the fault state with an error the table allows it, and does not set CMDERR. -/
def Obligations.CommandsFollowTheTable : Prop :=
  ∀ (i : Instr) (s : State), i.isCommand = true →
    (¬ accepts i s → exec i s = .next { s with cmdErr := true }) ∧
    (accepts i s → s.SessionInv → s.CursorInv → s.TablesInv →
      ∃ t, exec i s = .next t ∧ t.cmdErr = (if i = .clrerr then false else s.cmdErr) ∧
        ((t.mode = modeAfter s.mode i ∧ t.errCode = .none) ∨ ∃ e ∈ mayRaise i, Raised e s t))

/-- R131, R129: raise records the kind, releases the session and enters MODE FAULT; CMDERR, ARG0, RES and the sink are unchanged,
and STATUS shows the kind's number and MODE 3. -/
def Obligations.RaiseEntersFault : Prop :=
  ∀ (e : ErrKind) (s : State),
    Raised e s (raise e s) ∧ (raise e s).srcReads = s.srcReads ∧
    (raise e s).status.extractLsb' 0 2 = 3 ∧ (raise e s).status.extractLsb' 8 4 = e.code ∧
    (ErrKind.code .none = 0 ∧ ErrKind.code .emptyInput = 1 ∧ ErrKind.code .invalidFormat = 2 ∧ ErrKind.code .allocation = 3 ∧
      ErrKind.code .codeOverflow = 4)

/-- R32: Release clears every session flag and scalar and leaves MODE, CMDERR, ERRCODE, ARG0, RES and the sink alone. -/
def Obligations.ReleaseClearsTheSession : Prop :=
  ∀ s : State, (release s).Closed ∧ (release s).nodeCnt = 0 ∧ (release s).wlLen = 0 ∧
    release s = { s with
      freqV := false, treeV := false, codeV := false, eof := false, mark := false, leafCount := 0
      curByte := 0, curBit := 0, bufLen := 0, rdBase := 0, nodes := [], root := 0, wl := [], walk := 0
      buf := (release s).buf, freq := (release s).freq
      codeVal := (release s).codeVal, codeLen := (release s).codeLen, draw := (release s).draw }

/-- R132, last part: a failed ENCODE or DECODE leaves the sink exactly as it was. -/
def Obligations.FailedCompositesLeaveTheSink : Prop :=
  ∀ (i : Instr) (s t : State), i = .encode ∨ i = .decode → s.mode = .idle →
    exec i s = .next t → t.mode = .fault →
    t.sink = s.sink ∧ t.sinkLen = s.sinkLen ∧ t.sinkWrites = s.sinkWrites

/-- R134: in MODE FAULT every command except CLRERR is refused and ERRCODE stays; the block leaves MODE FAULT only by a
write of the CLRERR word to CMD or by hardware reset, to IDLE with nothing held. -/
def Obligations.FaultModeAcceptsOnlyClrerr : Prop :=
  (∀ (i : Instr) (s : State), s.mode = .fault → i.isCommand = true → i ≠ .clrerr →
    exec i s = .next { s with cmdErr := true }) ∧
  (∀ s t : State, s.mode = .fault → s.SessionInv → step s = .next t →
    (t.mode = .fault ∧ t.errCode = s.errCode) ∨
    (t.mode = .idle ∧ t.errCode = .none ∧ t.Closed ∧
      (s.host.head? = some .reset ∨
        ∃ v : Word64, s.host.head? = some (.write 0 v) ∧ v.setWidth 16 = (0xF000 : CmdWord))))

/-- R57: which words are reserved, and that a reserved word, and a WBITS word with n above 64, is refused in every state. -/
def Obligations.ReservedWordsAreRefused : Prop :=
  (∀ w : CmdWord, (∀ i, decode (.word w) ≠ .ok i) ↔
    let opc := (w.extractLsb' 8 8).toNat
    let imm := (w.extractLsb' 0 8).toNat
    ¬ (opc = 0x13 ∨ (opc = 0x12 ∧ imm < 128) ∨ (opc = 0x11 ∧ imm < 2) ∨
      (imm = 0 ∧ opc ∈ [0x10, 0x14, 0x20, 0x21, 0x22, 0x30, 0x40, 0x41, 0x50, 0x60, 0x61, 0x62, 0x63, 0x6F,
        0x70, 0x71, 0x7F, 0xF0]))) ∧
  (∀ (w : CmdWord) (s : State), (∀ i, decode (.word w) ≠ .ok i) → runWord w s = .next { s with cmdErr := true }) ∧
  (∀ (w : CmdWord) (n : BitVec 7) (s : State), decode (.word w) = .ok (.wbits n) → 64 < n.toNat →
    runWord w s = .next { s with cmdErr := true })

/-- R123: a host write of CMD executes the command its word decodes to, in one step; a word that decodes to none is
refused. THE MODEL'S CHOICE: that the host's accesses are a queue, of which an empty one leaves the state as it is (log
entry 1; R146: between commands the block simply holds its state), and that the word is the low 16 bits of a 64-bit host
write (log entry 19). -/
def Obligations.StepRunsTheDecodedCommand : Prop :=
  ∀ (s : State) (v : Word64) (rest : List HostAccess), s.host = .write 0 v :: rest →
    (∀ i, decode (.word (v.setWidth 16)) = .ok i → step s = exec i { s with host := rest }) ∧
    ((∀ i, decode (.word (v.setWidth 16)) ≠ .ok i) → step s = .next { s with host := rest, cmdErr := true }) ∧
    step { s with host := [] } = .next { s with host := [] }

/-- R15: the fields of STATUS at their bits, the reserved bits 0. -/
def Obligations.StatusFields : Prop :=
  ∀ s : State,
    s.status.extractLsb' 0 2 = s.mode.code ∧
    s.status.getLsbD 2 = s.cmdErr ∧ s.status.getLsbD 3 = s.eof ∧ s.status.getLsbD 4 = s.mark ∧
    s.status.getLsbD 5 = s.freqV ∧ s.status.getLsbD 6 = s.treeV ∧ s.status.getLsbD 7 = s.codeV ∧
    s.status.extractLsb' 8 4 = s.errCode.code ∧ s.status.extractLsb' 12 3 = s.curBit ∧
    s.status.getLsbD 15 = false ∧ s.status.extractLsb' 16 9 = s.leafCount ∧ s.status.extractLsb' 25 7 = 0 ∧
    Mode.code .idle = 0 ∧ Mode.code .write = 1 ∧ Mode.code .read = 2 ∧ Mode.code .fault = 3 ∧
    ErrKind.code .none = 0

/-- R14, R16, R47: what a host read of each register offset returns, that reading changes nothing in the block, that a host
write of CMD executes its word, that a write of ARG0 stores it in every mode, and that writes of the other offsets are
ignored. THE MODEL'S CHOICE, where R43 leaves the access width to the platform bus (log entry 19): an access carries 64
bits, a read is zero-extended, CMD takes the low 16 bits, and an offset inside a register counts as reserved. -/
def Obligations.HostRegisterAccess : Prop :=
  ∀ (s : State) (off : Nat) (v : Word64) (rest : List HostAccess),
    (s.host = .read off :: rest → step s = .next { s with
      host := rest
      hostReads := s.hostReads ++ [
        if off = 0x04 then s.status.setWidth 64 else if off = 0x08 then s.arg0
        else if off = 0x10 then s.res else 0] }) ∧
    (s.host = .write off v :: rest → off = 0x00 → step s = runWord (v.setWidth 16) { s with host := rest }) ∧
    (s.host = .write off v :: rest → off = 0x08 → step s = .next { s with host := rest, arg0 := v }) ∧
    (s.host = .write off v :: rest → off ≠ 0x00 → off ≠ 0x08 → step s = .next { s with host := rest })

/-- R147, R33: hardware reset puts every scalar to its reset value, in any state, and leaves the source and the sink; STATUS
reads 0. -/
def Obligations.HardwareResetSetsTheScalars : Prop :=
  (∀ (s : State) (rest : List HostAccess), s.host = .reset :: rest →
    ∃ t, step s = .next t ∧ t.Closed ∧ t.mode = .idle ∧ t.cmdErr = false ∧ t.errCode = .none ∧
      t.arg0 = 0 ∧ t.res = 0 ∧ t.status = 0 ∧
      t.src = s.src ∧ t.srcLen = s.srcLen ∧ t.sink = s.sink ∧ t.sinkLen = s.sinkLen ∧ t.params = s.params) ∧
  (State.reset.Closed ∧ State.reset.mode = .idle ∧ State.reset.cmdErr = false ∧ State.reset.errCode = .none ∧
    State.reset.arg0 = 0 ∧ State.reset.res = 0 ∧ State.reset.status = 0)

/-- R16, R17: no command writes ARG0, only RBIT writes RES, and no command touches the parameters, the source, the
allocation inputs or what the host has yet to do. -/
def Obligations.CommandsLeaveRegistersAlone : Prop :=
  ∀ (i : Instr) (s t : State), exec i s = .next t →
    t.arg0 = s.arg0 ∧ (i ≠ .rbit → t.res = s.res) ∧
    t.params = s.params ∧ t.src = s.src ∧ t.srcLen = s.srcLen ∧
    t.allocBufOk = s.allocBufOk ∧ t.allocPoolOk = s.allocPoolOk ∧ t.host = s.host ∧ t.hostReads = s.hostReads

/-- R35, R31: every step but the attaching of a sink keeps the sink's bytes and stores new ones only at its end; every step
but the attaching of a source keeps the source. -/
def Obligations.SinkOnlyGrows : Prop :=
  ∀ s t : State, step s = .next t →
    ((∀ bytes, s.host.head? ≠ some (.attachSink bytes)) →
      StoresAtEnd s t ∧ s.sinkBytes <+: t.sinkBytes ∧ s.sinkWrites <+: t.sinkWrites) ∧
    ((∀ bytes, s.host.head? ≠ some (.attachSource bytes)) → t.src = s.src ∧ t.srcLen = s.srcLen)

/-- R9, R36: every source read stays inside the source, in every step. -/
def Obligations.SourceReadsStayInRange : Prop :=
  ∀ s t : State, s.CursorInv → (∀ r ∈ s.srcReads, r.1 + r.2 ≤ s.srcLen.toNat) → step s = .next t →
    ∀ r ∈ t.srcReads, r.1 + r.2 ≤ t.srcLen.toNat

/-- R149, R153: between sessions the host can attach a source and a sink; the bytes read back as attached, and nothing else
of the block changes. In an open session, and for a source of 2^64 bytes, the model stops (log entries 12 and 13). -/
def Obligations.AttachedBytesReadBack : Prop :=
  ∀ (s : State) (bytes : List Byte) (rest : List HostAccess),
    (s.host = .attachSource bytes :: rest → s.sessionOpen = false → bytes.length < 2 ^ 64 →
      ∃ t, step s = .next t ∧ t.srcBytes = bytes ∧
        t = { s with host := rest, src := t.src, srcLen := BitVec.ofNat 64 bytes.length, srcReads := [] }) ∧
    (s.host = .attachSink bytes :: rest → s.sessionOpen = false →
      ∃ t, step s = .next t ∧ t.sinkBytes = bytes ∧
        t = { s with host := rest, sink := t.sink, sinkLen := bytes.length, sinkWrites := [] }) ∧
    (s.host = .attachSource bytes :: rest → s.sessionOpen = true → step s = .fault .sourceChangedInSession) ∧
    (s.host = .attachSink bytes :: rest → s.sessionOpen = true → step s = .fault .sinkChangedInSession) ∧
    (s.host = .attachSource bytes :: rest → s.sessionOpen = false → 2 ^ 64 ≤ bytes.length →
      step s = .refused .sourceTooLong)

/-! ## Encodings -/

/-- Decoding the encoding of any well-formed instruction, with every operand, gives it back. -/
def Obligations.EncodeDecodeAgree : Prop :=
  ∀ i : Instr, i.wellFormed = true → decode (encode i) = .ok i

/-- Every image that decodes is the encoding of what it decodes to, and the command words are exactly the images of the 21
commands: no two images stand for one instruction. -/
def Obligations.DecodedImagesEncodeBack : Prop :=
  ∀ (img : Image) (i : Instr), decode img = .ok i →
    encode i = img ∧ (i.isCommand = true ↔ ∃ w, img = .word w)

/-- Words and records written out from R56 and R61 to R66 decode to what they stand for. -/
def Obligations.SpecWordsDecode : Prop :=
  decode (.word 0b0001000000000000) = .ok .wopen ∧
  decode (.word 0b0001001001000000) = .ok (.wbits 64) ∧
  decode (.word 0b0001001110101011) = .ok (.wbyte 0xAB) ∧
  decode (.word 0b0010000100000000) = .ok .rbit ∧
  decode (.word 0b0011000000000000) = .ok .tbuild ∧
  decode (.word 0b0100000100000000) = .ok .tdes ∧
  decode (.word 0b0101000000000000) = .ok .cgen ∧
  decode (.word 0b0110111100000000) = .ok .encode ∧
  decode (.word 0b0111111100000000) = .ok .decode ∧
  decode (.word 0b1111000000000000) = .ok .clrerr ∧
  decode (.node [true, false, true, true, false, false, false, false, true]) = .ok (.wireLeaf 0x61) ∧
  decode (.trailer [false, false, true, true, false, true, false, true]) = .ok (.wireTrailerPacked 0b00110 5)

/-! ## Wire-format records (the model's reading of the six rows, log entry 16) -/

/-- In MODE WRITE a record appends its bits to the stream: the frame, the node records, a code, and the part of a trailer
that the bits already in the byte leave over. Outside a session there is no stream and a record is refused. -/
def Obligations.WireRecordsAreWritten : Prop :=
  (∀ (i : Instr) (s : State), i.isCommand = false → s.mode = .idle ∨ s.mode = .fault →
    exec i s = .next { s with cmdErr := true }) ∧
  ∀ s : State, s.mode = .write → s.CursorInv →
    (∀ (m : BitVec 7) (sym : Byte) (count : Word64), s.curBit = 0 →
      ∃ t, exec (.wireSingle m sym count) s = .next t ∧
        Appended s t ((0x80 :: sym :: countBytes s.params.countEndian count).flatMap bitsMsb)) ∧
    (∃ t, exec .wireInternal s = .next t ∧ Appended s t [false]) ∧
    (∀ sym : Byte, ∃ t, exec (.wireLeaf sym) s = .next t ∧ Appended s t (true :: bitsMsb sym)) ∧
    (∀ k : List Bool, ∃ t, exec (.wireCode k) s = .next t ∧ Appended s t k) ∧
    (∀ (d : BitVec 5) (c : BitVec 3), s.curBit = c → c.toNat ≤ 5 →
      s.streamBits.drop (s.streamBits.length - c.toNat) ++ List.replicate (5 - c.toNat) false = bitsMsb d →
      ∃ t, exec (.wireTrailerPacked d c) s = .next t ∧ t.curBit = 0 ∧
        Appended s t ((bitsMsb d ++ bitsMsb c).drop c.toNat)) ∧
    (∀ d : Byte, 5 < s.curBit.toNat →
      s.streamBits.drop (s.streamBits.length - s.curBit.toNat) ++ List.replicate (8 - s.curBit.toNat) false =
        bitsMsb d →
      ∃ t, exec (.wireTrailerZero d) s = .next t ∧ t.curBit = 0 ∧
        Appended s t ((bitsMsb d).drop s.curBit.toNat ++ List.replicate 8 false))

/-- In MODE READ the node records of a tree, read in order, do what TDES does; a code that stands before END emits what the
walk along it emits; the frame emits its symbol; a trailer that is the end of the source is checked and its bits are not
consumed. -/
def Obligations.WireRecordsAreRead : Prop :=
  ∀ s : State, s.mode = .read → s.CursorInv →
    (∀ (tr : CodeTree) (rest : List Bool), s.unread = tr.ser ++ rest → tr.size ≤ 511 →
      s.treeV = true ∨ s.nodes = [] →
      ∃ t, runCommands tr.records s = .next t ∧ t.tree = some tr ∧
        Consumed { s with nodes := t.nodes, root := 0, treeV := true, codeV := false } t tr.ser.length ∧
        t.eof = s.eof) ∧
    (∀ (l r : CodeTree) (k rest : List Bool), s.treeV = true → s.tree = some (.internal l r) →
      s.unread = k ++ rest → s.srcLen ≠ 0 →
      let last := s.srcLen.toNat - 1
      let c := ((s.src.read last).extractLsb' 0 3).toNat
      c ≤ 5 → s.pos + k.length ≤ 8 * last + c →
      ∃ t, exec (.wireCode k) s = .next t ∧ Emitted s t ((CodeTree.internal l r).dec k) ∧
        Consumed { s with
          sink := t.sink, sinkLen := t.sinkLen, sinkWrites := t.sinkWrites, walk := t.walk } t k.length ∧
        t.eof = s.eof) ∧
    (∀ (m : BitVec 7) (sym : Byte) (count : Word64), s.pos = 0 → s.mark = true →
      s.srcBits = frameBits s.params.countEndian m sym count →
      ∃ t, exec (.wireSingle m sym count) s = .next t ∧ Emitted s t (List.replicate count.toNat sym) ∧
        Consumed { s with sink := t.sink, sinkLen := t.sinkLen, sinkWrites := t.sinkWrites } t 80 ∧
        t.eof = s.eof) ∧
    (∀ (d : BitVec 5) (c : BitVec 3), s.srcLen ≠ 0 → s.src.read (s.srcLen.toNat - 1) = d ++ c → c.toNat ≤ 5 →
      s.pos ≤ 8 * (s.srcLen.toNat - 1) + c.toNat →
      exec (.wireTrailerPacked d c) s =
        .next { s with srcReads := s.srcReads ++ [(s.srcLen.toNat - 1, 1)] }) ∧
    (∀ d : Byte, 2 ≤ s.srcLen.toNat → s.src.read (s.srcLen.toNat - 2) = d →
      s.src.read (s.srcLen.toNat - 1) = 0 → s.pos ≤ 8 * (s.srcLen.toNat - 1) →
      exec (.wireTrailerZero d) s =
        .next { s with srcReads := s.srcReads ++ [(s.srcLen.toNat - 1, 1)] })

/-! ## Invariants -/

/-- The state after reset meets every invariant. -/
def Obligations.InvariantsHoldAtReset : Prop :=
  State.reset.MemoryInv ∧ State.reset.SessionInv ∧ State.reset.CursorInv ∧ State.reset.TablesInv

/-- Every step keeps both memories in canonical form and inside their spaces (R35). -/
def Obligations.StepKeepsMemory : Prop :=
  ∀ s t : State, s.MemoryInv → step s = .next t → t.MemoryInv

/-- Every step keeps the rule that outside a session nothing is held and that ERRCODE is set exactly in MODE FAULT (R32,
R131, R134, R148). -/
def Obligations.StepKeepsSessions : Prop :=
  ∀ s t : State, s.SessionInv → step s = .next t → t.SessionInv

/-- Every step keeps BUF and the Bit Cursor as R19 to R22, R75 and R83 say: every bit of the writer's buffer at or after
the cursor is 0, the reader's buffer holds the source bytes at RD_BASE. -/
def Obligations.StepKeepsTheCursor : Prop :=
  ∀ s t : State, s.CursorInv → step s = .next t → t.CursorInv

/-- Every step keeps the validity flags truthful (R15, R23, R24, R27, R29): FREQ_V, TREE_V and CODE_V are set only over the
source's counts, a complete tree without sharing or cycles, and that tree's codes. -/
def Obligations.StepKeepsTheTables : Prop :=
  ∀ s t : State, s.TablesInv → step s = .next t → t.TablesInv
end

