-- ==== Sys2Proof/Laws/Bits.lean ====
section
/-! SUPPORT. Bits in stream order: lengths, single bits, a bit of a byte written, packing and unpacking. -/

namespace Sys2Proof

@[simp] theorem length_bitsMsb {n : Nat} (v : BitVec n) : (bitsMsb v).length = n := by simp [bitsMsb]

theorem bitsMsb_getElem {n : Nat} (v : BitVec n) (i : Nat) (h : i < (bitsMsb v).length) :
    (bitsMsb v)[i] = v.getMsbD i := by simp [bitsMsb]

theorem length_flatMap_bitsMsb {n : Nat} (vs : List (BitVec n)) : (vs.flatMap bitsMsb).length = n * vs.length := by
  induction vs with
  | nil => simp
  | cons v vs ih => simp [ih, Nat.mul_add, Nat.add_comm]

theorem foldl_bits_lt (bs : List Bool) : ∀ a, bs.foldl (fun a b => 2 * a + b.toNat) a < (a + 1) * 2 ^ bs.length := by
  induction bs with
  | nil => simp
  | cons b bs ih =>
    intro a
    refine lt_of_lt_of_le (ih _) ?_
    rw [List.length_cons, pow_succ]
    have : (2 * a + b.toNat + 1) ≤ (a + 1) * 2 := by cases b <;> simp <;> omega
    calc (2 * a + b.toNat + 1) * 2 ^ bs.length ≤ ((a + 1) * 2) * 2 ^ bs.length := Nat.mul_le_mul_right _ this
      _ = (a + 1) * (2 ^ bs.length * 2) := by ring

theorem testBit_foldl_bits (bs : List Bool) : ∀ (a i : Nat),
    (bs.foldl (fun a b => 2 * a + b.toNat) a).testBit i =
      if h : i < bs.length then bs[bs.length - 1 - i] else a.testBit (i - bs.length) := by
  induction bs with
  | nil => intro a i; simp
  | cons b bs ih =>
    intro a i
    rw [List.foldl_cons, ih]
    by_cases h1 : i < bs.length
    · rw [dif_pos h1, dif_pos (by simp; omega)]
      rw [List.getElem_cons, dif_neg (by simp; omega)]
      congr 1; simp; omega
    · rw [dif_neg h1]
      by_cases h2 : i = bs.length
      · subst h2
        simp
        cases b <;> simp
      · rw [dif_neg (by simp; omega)]
        obtain ⟨k, hk⟩ : ∃ k, i - bs.length = k + 1 := ⟨i - bs.length - 1, by omega⟩
        rw [hk, show i - (b :: bs).length = k by simp; omega, Nat.testBit_succ]
        congr 1
        cases b
        · simp
        · simp; omega

/-- Reading back the bits of a value. -/
theorem bitsMsb_ofBitsMsb {n : Nat} (bs : List Bool) (h : bs.length = n) : bitsMsb (ofBitsMsb n bs) = bs := by
  apply List.ext_getElem
  · simp [h]
  · intro i h1 h2
    rw [bitsMsb_getElem]
    have hi : i < n := by simpa using h1
    rw [BitVec.getMsbD, ofBitsMsb, BitVec.getLsbD_ofNat, testBit_foldl_bits]
    have : n - 1 - i < bs.length := by omega
    simp only [hi, decide_true, Bool.true_and, this, dif_pos]
    rw [show decide (n - 1 - i < n) = true by simp; omega, Bool.true_and]
    congr 1; omega

theorem ofBitsMsb_bitsMsb {n : Nat} (v : BitVec n) : ofBitsMsb n (bitsMsb v) = v := by
  have h := bitsMsb_ofBitsMsb (bitsMsb v) (length_bitsMsb v)
  apply BitVec.eq_of_getMsbD_eq
  intro i hi
  have := congrArg (fun l : List Bool => l[i]?) h
  simpa [bitsMsb, hi] using this

theorem bitsMsb_injective {n : Nat} {v w : BitVec n} (h : bitsMsb v = bitsMsb w) : v = w := by
  rw [← ofBitsMsb_bitsMsb v, h, ofBitsMsb_bitsMsb]

end Sys2Proof

namespace Sys2Proof.Machine

theorem bitsMsb_putBit (k : BitVec 3) (b : Bool) (v : Byte) :
    bitsMsb (putBit k b v) = (bitsMsb v).set k.toNat b := by
  have hm : ∀ i, i < 8 → (bitMask k).getMsbD i = decide (i = k.toNat) := by
    revert k; decide
  apply List.ext_getElem
  · simp
  · intro i h1 h2
    have hi : i < 8 := by simpa using h1
    rw [bitsMsb_getElem, List.getElem_set, bitsMsb_getElem, putBit]
    have h8 : ∀ i, i < 8 → (0xFF : Byte).getMsbD i = true := by decide
    cases b
    · simp only [Bool.false_eq_true, if_false, BitVec.getMsbD_and, BitVec.getMsbD_xor, hm i hi, h8 i hi]
      by_cases e : k.toNat = i
      · simp [e]
      · simp [e, Ne.symm e]
    · simp only [if_true, BitVec.getMsbD_or, hm i hi]
      by_cases e : k.toNat = i
      · simp [e]
      · simp [e, Ne.symm e]

/-- Writing one bit of one byte of a buffer. -/
theorem flatMap_bits_modify (buf : List Byte) (i : Nat) (k : BitVec 3) (b : Bool) :
    (buf.modify i (putBit k b)).flatMap bitsMsb = (buf.flatMap bitsMsb).set (8 * i + k.toNat) b := by
  induction buf generalizing i with
  | nil => simp
  | cons v vs ih =>
    have hk := k.isLt
    cases i with
    | zero =>
      simp only [List.modify_zero_cons, List.flatMap_cons, bitsMsb_putBit, Nat.mul_zero, Nat.zero_add]
      rw [List.set_append_left _ _ (by simpa using k.isLt)]
    | succ i =>
      simp only [List.modify_succ_cons, List.flatMap_cons, ih]
      rw [List.set_append_right _ _ (by simp; omega), length_bitsMsb]
      congr 2
      omega

theorem take_set_succ {α : Type} (l : List α) (p : Nat) (b : α) (h : p < l.length) :
    (l.set p b).take (p + 1) = l.take p ++ [b] := by
  rw [List.take_add_one, List.getElem?_set_self h, List.take_set_of_le (le_refl p)]
  rfl

theorem flatMap_bits_zeros (n : Nat) :
    (List.replicate n (0 : Byte)).flatMap bitsMsb = List.replicate (8 * n) false := by
  induction n with
  | zero => rfl
  | succ n ih =>
    rw [List.replicate_succ, List.flatMap_cons, ih, Nat.mul_succ, Nat.add_comm, List.replicate_add]
    congr 1

end Sys2Proof.Machine
end

