-- ==== Sys2Proof/Laws/Memory.lean ====
section
/-! SUPPORT. Memory: a read after a write, the canonical form kept by every operation, and equal contents are equal data. -/

namespace Sys2Proof.Machine

/-! ## Lists of cells -/

theorem readCells_filter_self (cs : List Host.Cell) (a : Nat) :
    readCells (cs.filter fun c => c.1 ≠ a) a = Memory.unlisted := by
  induction cs with
  | nil => rfl
  | cons c cs ih =>
    by_cases h : c.1 = a
    · simpa [h] using ih
    · simp only [ne_eq, h, not_false_eq_true, decide_true, List.filter_cons_of_pos, readCells, if_false]
      exact ih

theorem readCells_filter_ne (cs : List Host.Cell) {a x : Nat} (hx : x ≠ a) :
    readCells (cs.filter fun c => c.1 ≠ a) x = readCells cs x := by
  induction cs with
  | nil => rfl
  | cons c cs ih =>
    by_cases h : c.1 = a
    · have hc : c.1 ≠ x := fun e => hx (e.symm.trans h)
      simp only [ne_eq, h, not_true_eq_false, decide_false, Bool.false_eq_true, not_false_eq_true,
        List.filter_cons_of_neg, readCells]
      rw [if_neg (fun e : a = x => hx e.symm)]
      exact ih
    · simp only [ne_eq, h, not_false_eq_true, decide_true, List.filter_cons_of_pos, readCells]
      split
      · rfl
      · exact ih

theorem readCells_insertCell (c : Host.Cell) (cs : List Host.Cell) (x : Nat) (h : ∀ d ∈ cs, d.1 ≠ c.1) :
    readCells (insertCell c cs) x = if c.1 = x then c.2 else readCells cs x := by
  induction cs with
  | nil => rfl
  | cons d ds ih =>
    have hd : d.1 ≠ c.1 := h d (by simp)
    have ih' := ih fun e he => h e (by simp [he])
    simp only [insertCell]
    split
    · rfl
    · simp only [readCells, ih']
      split
      · rename_i hdx
        rw [if_neg (fun e => hd (hdx.trans e.symm))]
      · rfl

theorem readCells_writeCells (cs : List Host.Cell) (a : Nat) (b : Byte) (x : Nat) :
    readCells (writeCells cs a b) x = if x = a then b else readCells cs x := by
  unfold writeCells
  by_cases hb : b = Memory.unlisted
  · simp only [hb, if_true]
    by_cases hx : x = a
    · subst hx; simpa using readCells_filter_self cs x
    · rw [if_neg hx]; exact readCells_filter_ne cs hx
  · simp only [hb, if_false]
    rw [readCells_insertCell _ _ _ (by intro d hd; simpa using (List.mem_filter.mp hd).2)]
    by_cases hx : x = a
    · simp [hx]
    · rw [if_neg (fun e : a = x => hx e.symm), if_neg hx]; exact readCells_filter_ne cs hx

theorem mem_insertCell {c d : Host.Cell} {cs : List Host.Cell} : d ∈ insertCell c cs ↔ d = c ∨ d ∈ cs := by
  induction cs with
  | nil => simp [insertCell]
  | cons e es ih =>
    simp only [insertCell]
    split
    · simp
    · simp only [List.mem_cons, ih]; tauto

theorem insertCell_rising (c : Host.Cell) (cs : List Host.Cell)
    (hs : cs.Pairwise fun a b => a.1 < b.1) (h : ∀ d ∈ cs, d.1 ≠ c.1) :
    (insertCell c cs).Pairwise fun a b => a.1 < b.1 := by
  induction cs with
  | nil => simp [insertCell]
  | cons d ds ih =>
    obtain ⟨hd, hds⟩ := List.pairwise_cons.mp hs
    have hdc : d.1 ≠ c.1 := h d (by simp)
    simp only [insertCell]
    split
    · rename_i hlt
      refine List.pairwise_cons.mpr ⟨fun e he => ?_, hs⟩
      rcases List.mem_cons.mp he with rfl | he
      · exact hlt
      · exact lt_trans hlt (hd e he)
    · refine List.pairwise_cons.mpr ⟨fun e he => ?_, ih hds fun e he => h e (by simp [he])⟩
      rcases mem_insertCell.mp he with rfl | he
      · omega
      · exact hd e he

/-! ## One byte -/

theorem Memory.read_write (m : Memory) (a : Nat) (b : Byte) (x : Nat) :
    (m.write a b).read x = if x = a then b else m.read x :=
  readCells_writeCells m.cells a b x

theorem Memory.mem_write {m : Memory} {a : Nat} {b : Byte} {c : Host.Cell} (h : c ∈ (m.write a b).cells) :
    c ∈ m.cells ∨ (c.1 = a ∧ c.2 ≠ Memory.unlisted) := by
  simp only [Memory.write, writeCells] at h
  split at h
  · exact .inl (List.mem_filter.mp h).1
  · rcases mem_insertCell.mp h with rfl | h
    · exact .inr ⟨rfl, ‹_›⟩
    · exact .inl (List.mem_filter.mp h).1

theorem Memory.wf_write {m : Memory} (hm : m.wf) (a : Nat) (b : Byte) : (m.write a b).wf := by
  refine ⟨?_, fun c hc => ?_⟩
  · have hf : (m.cells.filter fun c => c.1 ≠ a).Pairwise fun a b => a.1 < b.1 := hm.1.filter _
    simp only [Memory.write, writeCells]
    split
    · exact hf
    · exact insertCell_rising _ _ hf (by intro d hd; simpa using (List.mem_filter.mp hd).2)
  · rcases Memory.mem_write hc with h | h
    · exact hm.2 c h
    · exact h.2

/-! ## Several bytes -/

theorem Memory.read_writeBytes (m : Memory) (a : Nat) (bs : List Byte) (x : Nat) :
    (m.writeBytes a bs).read x = if a ≤ x ∧ x < a + bs.length then bs.getD (x - a) 0 else m.read x := by
  induction bs generalizing m a with
  | nil => simp [Memory.writeBytes]
  | cons b bs ih =>
    rw [Memory.writeBytes, ih, Memory.read_write]
    by_cases h1 : a + 1 ≤ x ∧ x < a + 1 + bs.length
    · rw [if_pos h1, if_pos ⟨by omega, by simp; omega⟩]
      obtain ⟨k, hk⟩ : ∃ k, x - a = k + 1 := ⟨x - a - 1, by omega⟩
      rw [hk, show x - (a + 1) = k by omega]; rfl
    · rw [if_neg h1]
      by_cases h2 : x = a
      · subst h2; simp
      · rw [if_neg h2, if_neg (by simp; omega)]

theorem Memory.wf_writeBytes {m : Memory} (hm : m.wf) (a : Nat) (bs : List Byte) : (m.writeBytes a bs).wf := by
  induction bs generalizing m a with
  | nil => exact hm
  | cons b bs ih => exact ih (Memory.wf_write hm a b) (a + 1)

theorem Memory.wf_empty : (⟨[]⟩ : Memory).wf := by decide

theorem Memory.wf_ofBytes (bs : List Byte) : (Memory.ofBytes bs).wf := Memory.wf_writeBytes Memory.wf_empty 0 bs

theorem Memory.writeBytes_bound {m : Memory} {n : Nat} (a : Nat) (bs : List Byte)
    (hm : ∀ c ∈ m.cells, c.1 < n) (h : a + bs.length ≤ n) : ∀ c ∈ (m.writeBytes a bs).cells, c.1 < n := by
  induction bs generalizing m a with
  | nil => exact hm
  | cons b bs ih =>
    simp only [List.length_cons] at h
    refine ih (a + 1) (fun c hc => ?_) (by omega)
    rcases Memory.mem_write hc with hc | hc
    · exact hm c hc
    · omega

theorem Memory.ofBytes_bound (bs : List Byte) : ∀ c ∈ (Memory.ofBytes bs).cells, c.1 < bs.length :=
  Memory.writeBytes_bound 0 bs (by simp) (by simp)

@[simp] theorem Memory.length_readBytes (m : Memory) (a n : Nat) : (m.readBytes a n).length = n := by
  simp [Memory.readBytes]

@[simp] theorem Memory.readBytes_zero (m : Memory) (a : Nat) : m.readBytes a 0 = [] := rfl

theorem Memory.readBytes_add (m : Memory) (a n k : Nat) :
    m.readBytes a (n + k) = m.readBytes a n ++ m.readBytes (a + n) k := by
  simp only [Memory.readBytes, List.range_add, List.map_append, List.map_map]
  congr 1
  apply List.map_congr_left
  intro i _
  simp [Nat.add_assoc]

theorem Memory.readBytes_congr {m m' : Memory} {a n : Nat} (h : ∀ x, a ≤ x → x < a + n → m.read x = m'.read x) :
    m.readBytes a n = m'.readBytes a n := by
  apply List.map_congr_left
  intro i hi
  exact h _ (by omega) (by have := List.mem_range.mp hi; omega)

theorem Memory.readBytes_writeBytes (m : Memory) (a : Nat) (bs : List Byte) :
    (m.writeBytes a bs).readBytes a bs.length = bs := by
  apply List.ext_getElem
  · simp
  · intro i h1 h2
    simp only [Memory.readBytes, List.getElem_map, List.getElem_range, Memory.read_writeBytes]
    rw [if_pos ⟨by omega, by omega⟩]
    simp [List.getD, h2]

theorem Memory.readBytes_ofBytes (bs : List Byte) : (Memory.ofBytes bs).readBytes 0 bs.length = bs :=
  Memory.readBytes_writeBytes ⟨[]⟩ 0 bs

/-- Appending at the end of a space of `n` bytes. -/
theorem Memory.readBytes_append (m : Memory) (n : Nat) (bs : List Byte) :
    (m.writeBytes n bs).readBytes 0 (n + bs.length) = m.readBytes 0 n ++ bs := by
  rw [Memory.readBytes_add, Nat.zero_add, Memory.readBytes_writeBytes]
  congr 1
  refine Memory.readBytes_congr fun x _ hx => ?_
  rw [Memory.read_writeBytes, if_neg (by omega)]

/-! ## Equal contents are equal data -/

theorem readCells_of_lt {cs : List Host.Cell} {x : Nat} (h : ∀ c ∈ cs, x < c.1) :
    readCells cs x = Memory.unlisted := by
  induction cs with
  | nil => rfl
  | cons c cs ih =>
    have hc := h c (by simp)
    rw [readCells, if_neg (by omega)]
    exact ih fun d hd => h d (by simp [hd])

theorem cells_ext : ∀ {cs ds : List Host.Cell},
    cs.Pairwise (fun a b => a.1 < b.1) → ds.Pairwise (fun a b => a.1 < b.1) →
    (∀ c ∈ cs, c.2 ≠ Memory.unlisted) → (∀ d ∈ ds, d.2 ≠ Memory.unlisted) →
    (∀ x, readCells cs x = readCells ds x) → cs = ds
  | [], [], _, _, _, _, _ => rfl
  | [], d :: ds, _, _, _, hd, h => by
    have := h d.1
    simp only [readCells, if_true] at this
    exact absurd this.symm (hd d (by simp))
  | c :: cs, [], _, _, hc, _, h => by
    have := h c.1
    simp only [readCells, if_true] at this
    exact absurd this (hc c (by simp))
  | c :: cs, d :: ds, hcs, hds, hc, hd, h => by
    obtain ⟨hc1, hcs'⟩ := List.pairwise_cons.mp hcs
    obtain ⟨hd1, hds'⟩ := List.pairwise_cons.mp hds
    have hcd : c.1 = d.1 := by
      rcases Nat.lt_trichotomy c.1 d.1 with hlt | heq | hgt
      · have e := h c.1
        rw [readCells, if_pos rfl, readCells_of_lt (cs := d :: ds)] at e
        · exact absurd e (hc c (by simp))
        · intro x hx
          rcases List.mem_cons.mp hx with rfl | hx
          · exact hlt
          · exact lt_trans hlt (hd1 x hx)
      · exact heq
      · have e := h d.1
        rw [readCells_of_lt (cs := c :: cs), readCells, if_pos rfl] at e
        · exact absurd e.symm (hd d (by simp))
        · intro x hx
          rcases List.mem_cons.mp hx with rfl | hx
          · exact hgt
          · exact lt_trans hgt (hc1 x hx)
    have hv : c.2 = d.2 := by
      have e := h c.1
      rwa [readCells, if_pos rfl, readCells, if_pos hcd.symm] at e
    have hcd' : c = d := Prod.ext hcd hv
    subst hcd'
    congr 1
    refine cells_ext hcs' hds' (fun x hx => hc x (by simp [hx])) (fun x hx => hd x (by simp [hx])) fun x => ?_
    by_cases hx : c.1 = x
    · rw [readCells_of_lt fun y hy => hx ▸ hc1 y hy, readCells_of_lt fun y hy => hx ▸ hd1 y hy]
    · have e := h x
      rwa [readCells, if_neg hx, readCells, if_neg hx] at e

theorem Memory.ext_read {m m' : Memory} (hm : m.wf) (hm' : m'.wf) (h : ∀ x, m.read x = m'.read x) : m = m' := by
  cases m; cases m'
  exact congrArg Memory.mk (cells_ext hm.1 hm'.1 hm.2 hm'.2 h)

/-! ## The sink -/

theorem sinkBytes_memWrite (bs : List Byte) (s : State) : (memWrite bs s).sinkBytes = s.sinkBytes ++ bs :=
  Memory.readBytes_append s.sink s.sinkLen bs

theorem storesAtEnd_memWrite (bs : List Byte) (s : State) : StoresAtEnd s (memWrite bs s) := by
  refine ⟨Nat.le_add_right _ _, fun a ha => ?_⟩
  simp only [memWrite] at ha ⊢
  rw [Memory.read_writeBytes, if_neg (by omega)]

theorem StoresAtEnd.refl (s : State) : StoresAtEnd s s := ⟨le_refl _, fun _ _ => rfl⟩

theorem StoresAtEnd.trans {s t u : State} (h : StoresAtEnd s t) (k : StoresAtEnd t u) : StoresAtEnd s u := by
  refine ⟨le_trans h.1 k.1, fun a ha => ?_⟩
  rw [k.2 a (by have := h.1; have := k.1; omega), h.2 a (by have := h.1; have := k.1; omega)]

theorem StoresAtEnd.sinkBytes_le {s t : State} (h : StoresAtEnd s t) : s.sinkBytes <+: t.sinkBytes := by
  obtain ⟨k, hk⟩ := Nat.exists_eq_add_of_le h.1
  refine ⟨t.sink.readBytes s.sinkLen k, ?_⟩
  rw [State.sinkBytes, State.sinkBytes, hk, Memory.readBytes_add, Nat.zero_add]
  congr 1
  exact Memory.readBytes_congr fun x _ hx => (h.2 x (.inl (by omega))).symm

end Sys2Proof.Machine
end

