-- ==== Sys2Proof/Laws/PerInstr.lean ====
section
/-! SUPPORT. Statements for all instructions, one lemma per constructor. Family CommandImage: an instruction is a host
command exactly when its encoding is a command word. -/

namespace Sys2Proof.Laws.CommandImage

/-- An image that is a command word. -/
def isWord : Image → Bool
  | .word _ => true
  | .frame _ => false
  | .node _ => false
  | .code _ => false
  | .trailer _ => false

/-- The statement about one instruction. -/
def Statement (i : Instr) : Prop := isWord (encode i) = i.isCommand

theorem wopen : Statement .wopen := rfl
theorem wbit (b : Bool) : Statement (.wbit b) := rfl
theorem wbits (n : BitVec 7) : Statement (.wbits n) := rfl
theorem wbyte (v : Byte) : Statement (.wbyte v) := rfl
theorem wflush : Statement .wflush := rfl
theorem ropen : Statement .ropen := rfl
theorem rbit : Statement .rbit := rfl
theorem rclose : Statement .rclose := rfl
theorem tbuild : Statement .tbuild := rfl
theorem tser : Statement .tser := rfl
theorem tdes : Statement .tdes := rfl
theorem cgen : Statement .cgen := rfl
theorem fscan : Statement .fscan := rfl
theorem esingle : Statement .esingle := rfl
theorem epay : Statement .epay := rfl
theorem etrail : Statement .etrail := rfl
theorem encode : Statement .encode := rfl
theorem dsingle : Statement .dsingle := rfl
theorem dpay : Statement .dpay := rfl
theorem decode : Statement .decode := rfl
theorem clrerr : Statement .clrerr := rfl
theorem wireSingle (m : BitVec 7) (sym : Byte) (count : Word64) : Statement (.wireSingle m sym count) := rfl
theorem wireInternal : Statement .wireInternal := rfl
theorem wireLeaf (sym : Byte) : Statement (.wireLeaf sym) := rfl
theorem wireCode (k : List Bool) : Statement (.wireCode k) := rfl
theorem wireTrailerPacked (d : BitVec 5) (c : BitVec 3) : Statement (.wireTrailerPacked d c) := rfl
theorem wireTrailerZero (d : Byte) : Statement (.wireTrailerZero d) := rfl

end Sys2Proof.Laws.CommandImage
end

