-- ==== Sys2Proof/Laws/State.lean ====
section
/-! SUPPORT. One lemma per field per update of State, each true by rfl. -/

namespace Sys2Proof.Machine

/-! ## refuse -/

@[simp] theorem refuse_params (s : State) : (refuse s).params = s.params := rfl
@[simp] theorem refuse_mode (s : State) : (refuse s).mode = s.mode := rfl
@[simp] theorem refuse_cmdErr (s : State) : (refuse s).cmdErr = true := rfl
@[simp] theorem refuse_eof (s : State) : (refuse s).eof = s.eof := rfl
@[simp] theorem refuse_mark (s : State) : (refuse s).mark = s.mark := rfl
@[simp] theorem refuse_freqV (s : State) : (refuse s).freqV = s.freqV := rfl
@[simp] theorem refuse_treeV (s : State) : (refuse s).treeV = s.treeV := rfl
@[simp] theorem refuse_codeV (s : State) : (refuse s).codeV = s.codeV := rfl
@[simp] theorem refuse_errCode (s : State) : (refuse s).errCode = s.errCode := rfl
@[simp] theorem refuse_leafCount (s : State) : (refuse s).leafCount = s.leafCount := rfl
@[simp] theorem refuse_arg0 (s : State) : (refuse s).arg0 = s.arg0 := rfl
@[simp] theorem refuse_res (s : State) : (refuse s).res = s.res := rfl
@[simp] theorem refuse_buf (s : State) : (refuse s).buf = s.buf := rfl
@[simp] theorem refuse_curByte (s : State) : (refuse s).curByte = s.curByte := rfl
@[simp] theorem refuse_curBit (s : State) : (refuse s).curBit = s.curBit := rfl
@[simp] theorem refuse_bufLen (s : State) : (refuse s).bufLen = s.bufLen := rfl
@[simp] theorem refuse_rdBase (s : State) : (refuse s).rdBase = s.rdBase := rfl
@[simp] theorem refuse_freq (s : State) : (refuse s).freq = s.freq := rfl
@[simp] theorem refuse_nodes (s : State) : (refuse s).nodes = s.nodes := rfl
@[simp] theorem refuse_root (s : State) : (refuse s).root = s.root := rfl
@[simp] theorem refuse_wl (s : State) : (refuse s).wl = s.wl := rfl
@[simp] theorem refuse_codeVal (s : State) : (refuse s).codeVal = s.codeVal := rfl
@[simp] theorem refuse_codeLen (s : State) : (refuse s).codeLen = s.codeLen := rfl
@[simp] theorem refuse_walk (s : State) : (refuse s).walk = s.walk := rfl
@[simp] theorem refuse_src (s : State) : (refuse s).src = s.src := rfl
@[simp] theorem refuse_srcLen (s : State) : (refuse s).srcLen = s.srcLen := rfl
@[simp] theorem refuse_sink (s : State) : (refuse s).sink = s.sink := rfl
@[simp] theorem refuse_sinkLen (s : State) : (refuse s).sinkLen = s.sinkLen := rfl
@[simp] theorem refuse_allocBufOk (s : State) : (refuse s).allocBufOk = s.allocBufOk := rfl
@[simp] theorem refuse_allocPoolOk (s : State) : (refuse s).allocPoolOk = s.allocPoolOk := rfl
@[simp] theorem refuse_srcReads (s : State) : (refuse s).srcReads = s.srcReads := rfl
@[simp] theorem refuse_sinkWrites (s : State) : (refuse s).sinkWrites = s.sinkWrites := rfl
@[simp] theorem refuse_host (s : State) : (refuse s).host = s.host := rfl
@[simp] theorem refuse_hostReads (s : State) : (refuse s).hostReads = s.hostReads := rfl
@[simp] theorem refuse_draw (s : State) : (refuse s).draw = s.draw := rfl

/-! ## noteRead -/

@[simp] theorem noteRead_params (a n : Nat) (s : State) : (noteRead a n s).params = s.params := rfl
@[simp] theorem noteRead_mode (a n : Nat) (s : State) : (noteRead a n s).mode = s.mode := rfl
@[simp] theorem noteRead_cmdErr (a n : Nat) (s : State) : (noteRead a n s).cmdErr = s.cmdErr := rfl
@[simp] theorem noteRead_eof (a n : Nat) (s : State) : (noteRead a n s).eof = s.eof := rfl
@[simp] theorem noteRead_mark (a n : Nat) (s : State) : (noteRead a n s).mark = s.mark := rfl
@[simp] theorem noteRead_freqV (a n : Nat) (s : State) : (noteRead a n s).freqV = s.freqV := rfl
@[simp] theorem noteRead_treeV (a n : Nat) (s : State) : (noteRead a n s).treeV = s.treeV := rfl
@[simp] theorem noteRead_codeV (a n : Nat) (s : State) : (noteRead a n s).codeV = s.codeV := rfl
@[simp] theorem noteRead_errCode (a n : Nat) (s : State) : (noteRead a n s).errCode = s.errCode := rfl
@[simp] theorem noteRead_leafCount (a n : Nat) (s : State) : (noteRead a n s).leafCount = s.leafCount := rfl
@[simp] theorem noteRead_arg0 (a n : Nat) (s : State) : (noteRead a n s).arg0 = s.arg0 := rfl
@[simp] theorem noteRead_res (a n : Nat) (s : State) : (noteRead a n s).res = s.res := rfl
@[simp] theorem noteRead_buf (a n : Nat) (s : State) : (noteRead a n s).buf = s.buf := rfl
@[simp] theorem noteRead_curByte (a n : Nat) (s : State) : (noteRead a n s).curByte = s.curByte := rfl
@[simp] theorem noteRead_curBit (a n : Nat) (s : State) : (noteRead a n s).curBit = s.curBit := rfl
@[simp] theorem noteRead_bufLen (a n : Nat) (s : State) : (noteRead a n s).bufLen = s.bufLen := rfl
@[simp] theorem noteRead_rdBase (a n : Nat) (s : State) : (noteRead a n s).rdBase = s.rdBase := rfl
@[simp] theorem noteRead_freq (a n : Nat) (s : State) : (noteRead a n s).freq = s.freq := rfl
@[simp] theorem noteRead_nodes (a n : Nat) (s : State) : (noteRead a n s).nodes = s.nodes := rfl
@[simp] theorem noteRead_root (a n : Nat) (s : State) : (noteRead a n s).root = s.root := rfl
@[simp] theorem noteRead_wl (a n : Nat) (s : State) : (noteRead a n s).wl = s.wl := rfl
@[simp] theorem noteRead_codeVal (a n : Nat) (s : State) : (noteRead a n s).codeVal = s.codeVal := rfl
@[simp] theorem noteRead_codeLen (a n : Nat) (s : State) : (noteRead a n s).codeLen = s.codeLen := rfl
@[simp] theorem noteRead_walk (a n : Nat) (s : State) : (noteRead a n s).walk = s.walk := rfl
@[simp] theorem noteRead_src (a n : Nat) (s : State) : (noteRead a n s).src = s.src := rfl
@[simp] theorem noteRead_srcLen (a n : Nat) (s : State) : (noteRead a n s).srcLen = s.srcLen := rfl
@[simp] theorem noteRead_sink (a n : Nat) (s : State) : (noteRead a n s).sink = s.sink := rfl
@[simp] theorem noteRead_sinkLen (a n : Nat) (s : State) : (noteRead a n s).sinkLen = s.sinkLen := rfl
@[simp] theorem noteRead_allocBufOk (a n : Nat) (s : State) : (noteRead a n s).allocBufOk = s.allocBufOk := rfl
@[simp] theorem noteRead_allocPoolOk (a n : Nat) (s : State) : (noteRead a n s).allocPoolOk = s.allocPoolOk := rfl
@[simp] theorem noteRead_srcReads (a n : Nat) (s : State) : (noteRead a n s).srcReads = s.srcReads ++ [(a, n)] := rfl
@[simp] theorem noteRead_sinkWrites (a n : Nat) (s : State) : (noteRead a n s).sinkWrites = s.sinkWrites := rfl
@[simp] theorem noteRead_host (a n : Nat) (s : State) : (noteRead a n s).host = s.host := rfl
@[simp] theorem noteRead_hostReads (a n : Nat) (s : State) : (noteRead a n s).hostReads = s.hostReads := rfl
@[simp] theorem noteRead_draw (a n : Nat) (s : State) : (noteRead a n s).draw = s.draw := rfl

/-! ## noteScan -/

@[simp] theorem noteScan_params (s : State) : (noteScan s).params = s.params := rfl
@[simp] theorem noteScan_mode (s : State) : (noteScan s).mode = s.mode := rfl
@[simp] theorem noteScan_cmdErr (s : State) : (noteScan s).cmdErr = s.cmdErr := rfl
@[simp] theorem noteScan_eof (s : State) : (noteScan s).eof = s.eof := rfl
@[simp] theorem noteScan_mark (s : State) : (noteScan s).mark = s.mark := rfl
@[simp] theorem noteScan_freqV (s : State) : (noteScan s).freqV = s.freqV := rfl
@[simp] theorem noteScan_treeV (s : State) : (noteScan s).treeV = s.treeV := rfl
@[simp] theorem noteScan_codeV (s : State) : (noteScan s).codeV = s.codeV := rfl
@[simp] theorem noteScan_errCode (s : State) : (noteScan s).errCode = s.errCode := rfl
@[simp] theorem noteScan_leafCount (s : State) : (noteScan s).leafCount = s.leafCount := rfl
@[simp] theorem noteScan_arg0 (s : State) : (noteScan s).arg0 = s.arg0 := rfl
@[simp] theorem noteScan_res (s : State) : (noteScan s).res = s.res := rfl
@[simp] theorem noteScan_buf (s : State) : (noteScan s).buf = s.buf := rfl
@[simp] theorem noteScan_curByte (s : State) : (noteScan s).curByte = s.curByte := rfl
@[simp] theorem noteScan_curBit (s : State) : (noteScan s).curBit = s.curBit := rfl
@[simp] theorem noteScan_bufLen (s : State) : (noteScan s).bufLen = s.bufLen := rfl
@[simp] theorem noteScan_rdBase (s : State) : (noteScan s).rdBase = s.rdBase := rfl
@[simp] theorem noteScan_freq (s : State) : (noteScan s).freq = s.freq := rfl
@[simp] theorem noteScan_nodes (s : State) : (noteScan s).nodes = s.nodes := rfl
@[simp] theorem noteScan_root (s : State) : (noteScan s).root = s.root := rfl
@[simp] theorem noteScan_wl (s : State) : (noteScan s).wl = s.wl := rfl
@[simp] theorem noteScan_codeVal (s : State) : (noteScan s).codeVal = s.codeVal := rfl
@[simp] theorem noteScan_codeLen (s : State) : (noteScan s).codeLen = s.codeLen := rfl
@[simp] theorem noteScan_walk (s : State) : (noteScan s).walk = s.walk := rfl
@[simp] theorem noteScan_src (s : State) : (noteScan s).src = s.src := rfl
@[simp] theorem noteScan_srcLen (s : State) : (noteScan s).srcLen = s.srcLen := rfl
@[simp] theorem noteScan_sink (s : State) : (noteScan s).sink = s.sink := rfl
@[simp] theorem noteScan_sinkLen (s : State) : (noteScan s).sinkLen = s.sinkLen := rfl
@[simp] theorem noteScan_allocBufOk (s : State) : (noteScan s).allocBufOk = s.allocBufOk := rfl
@[simp] theorem noteScan_allocPoolOk (s : State) : (noteScan s).allocPoolOk = s.allocPoolOk := rfl
@[simp] theorem noteScan_srcReads (s : State) : (noteScan s).srcReads = s.srcReads ++ (List.range s.srcLen.toNat).map fun i => (i, 1) := rfl
@[simp] theorem noteScan_sinkWrites (s : State) : (noteScan s).sinkWrites = s.sinkWrites := rfl
@[simp] theorem noteScan_host (s : State) : (noteScan s).host = s.host := rfl
@[simp] theorem noteScan_hostReads (s : State) : (noteScan s).hostReads = s.hostReads := rfl
@[simp] theorem noteScan_draw (s : State) : (noteScan s).draw = s.draw := rfl

/-! ## memWrite -/

@[simp] theorem memWrite_params (bs : List Byte) (s : State) : (memWrite bs s).params = s.params := rfl
@[simp] theorem memWrite_mode (bs : List Byte) (s : State) : (memWrite bs s).mode = s.mode := rfl
@[simp] theorem memWrite_cmdErr (bs : List Byte) (s : State) : (memWrite bs s).cmdErr = s.cmdErr := rfl
@[simp] theorem memWrite_eof (bs : List Byte) (s : State) : (memWrite bs s).eof = s.eof := rfl
@[simp] theorem memWrite_mark (bs : List Byte) (s : State) : (memWrite bs s).mark = s.mark := rfl
@[simp] theorem memWrite_freqV (bs : List Byte) (s : State) : (memWrite bs s).freqV = s.freqV := rfl
@[simp] theorem memWrite_treeV (bs : List Byte) (s : State) : (memWrite bs s).treeV = s.treeV := rfl
@[simp] theorem memWrite_codeV (bs : List Byte) (s : State) : (memWrite bs s).codeV = s.codeV := rfl
@[simp] theorem memWrite_errCode (bs : List Byte) (s : State) : (memWrite bs s).errCode = s.errCode := rfl
@[simp] theorem memWrite_leafCount (bs : List Byte) (s : State) : (memWrite bs s).leafCount = s.leafCount := rfl
@[simp] theorem memWrite_arg0 (bs : List Byte) (s : State) : (memWrite bs s).arg0 = s.arg0 := rfl
@[simp] theorem memWrite_res (bs : List Byte) (s : State) : (memWrite bs s).res = s.res := rfl
@[simp] theorem memWrite_buf (bs : List Byte) (s : State) : (memWrite bs s).buf = s.buf := rfl
@[simp] theorem memWrite_curByte (bs : List Byte) (s : State) : (memWrite bs s).curByte = s.curByte := rfl
@[simp] theorem memWrite_curBit (bs : List Byte) (s : State) : (memWrite bs s).curBit = s.curBit := rfl
@[simp] theorem memWrite_bufLen (bs : List Byte) (s : State) : (memWrite bs s).bufLen = s.bufLen := rfl
@[simp] theorem memWrite_rdBase (bs : List Byte) (s : State) : (memWrite bs s).rdBase = s.rdBase := rfl
@[simp] theorem memWrite_freq (bs : List Byte) (s : State) : (memWrite bs s).freq = s.freq := rfl
@[simp] theorem memWrite_nodes (bs : List Byte) (s : State) : (memWrite bs s).nodes = s.nodes := rfl
@[simp] theorem memWrite_root (bs : List Byte) (s : State) : (memWrite bs s).root = s.root := rfl
@[simp] theorem memWrite_wl (bs : List Byte) (s : State) : (memWrite bs s).wl = s.wl := rfl
@[simp] theorem memWrite_codeVal (bs : List Byte) (s : State) : (memWrite bs s).codeVal = s.codeVal := rfl
@[simp] theorem memWrite_codeLen (bs : List Byte) (s : State) : (memWrite bs s).codeLen = s.codeLen := rfl
@[simp] theorem memWrite_walk (bs : List Byte) (s : State) : (memWrite bs s).walk = s.walk := rfl
@[simp] theorem memWrite_src (bs : List Byte) (s : State) : (memWrite bs s).src = s.src := rfl
@[simp] theorem memWrite_srcLen (bs : List Byte) (s : State) : (memWrite bs s).srcLen = s.srcLen := rfl
@[simp] theorem memWrite_sink (bs : List Byte) (s : State) : (memWrite bs s).sink = s.sink.writeBytes s.sinkLen bs := rfl
@[simp] theorem memWrite_sinkLen (bs : List Byte) (s : State) : (memWrite bs s).sinkLen = s.sinkLen + bs.length := rfl
@[simp] theorem memWrite_allocBufOk (bs : List Byte) (s : State) : (memWrite bs s).allocBufOk = s.allocBufOk := rfl
@[simp] theorem memWrite_allocPoolOk (bs : List Byte) (s : State) : (memWrite bs s).allocPoolOk = s.allocPoolOk := rfl
@[simp] theorem memWrite_srcReads (bs : List Byte) (s : State) : (memWrite bs s).srcReads = s.srcReads := rfl
@[simp] theorem memWrite_sinkWrites (bs : List Byte) (s : State) : (memWrite bs s).sinkWrites = s.sinkWrites ++ [bs.length] := rfl
@[simp] theorem memWrite_host (bs : List Byte) (s : State) : (memWrite bs s).host = s.host := rfl
@[simp] theorem memWrite_hostReads (bs : List Byte) (s : State) : (memWrite bs s).hostReads = s.hostReads := rfl
@[simp] theorem memWrite_draw (bs : List Byte) (s : State) : (memWrite bs s).draw = s.draw := rfl

/-! ## clearSession -/

@[simp] theorem clearSession_params (s : State) : (clearSession s).params = s.params := rfl
@[simp] theorem clearSession_mode (s : State) : (clearSession s).mode = s.mode := rfl
@[simp] theorem clearSession_cmdErr (s : State) : (clearSession s).cmdErr = s.cmdErr := rfl
@[simp] theorem clearSession_eof (s : State) : (clearSession s).eof = false := rfl
@[simp] theorem clearSession_mark (s : State) : (clearSession s).mark = false := rfl
@[simp] theorem clearSession_freqV (s : State) : (clearSession s).freqV = false := rfl
@[simp] theorem clearSession_treeV (s : State) : (clearSession s).treeV = false := rfl
@[simp] theorem clearSession_codeV (s : State) : (clearSession s).codeV = false := rfl
@[simp] theorem clearSession_errCode (s : State) : (clearSession s).errCode = s.errCode := rfl
@[simp] theorem clearSession_leafCount (s : State) : (clearSession s).leafCount = 0 := rfl
@[simp] theorem clearSession_arg0 (s : State) : (clearSession s).arg0 = s.arg0 := rfl
@[simp] theorem clearSession_res (s : State) : (clearSession s).res = s.res := rfl
@[simp] theorem clearSession_buf (s : State) : (clearSession s).buf = s.buf := rfl
@[simp] theorem clearSession_curByte (s : State) : (clearSession s).curByte = 0 := rfl
@[simp] theorem clearSession_curBit (s : State) : (clearSession s).curBit = 0 := rfl
@[simp] theorem clearSession_bufLen (s : State) : (clearSession s).bufLen = 0 := rfl
@[simp] theorem clearSession_rdBase (s : State) : (clearSession s).rdBase = 0 := rfl
@[simp] theorem clearSession_freq (s : State) : (clearSession s).freq = s.freq := rfl
@[simp] theorem clearSession_nodes (s : State) : (clearSession s).nodes = [] := rfl
@[simp] theorem clearSession_root (s : State) : (clearSession s).root = 0 := rfl
@[simp] theorem clearSession_wl (s : State) : (clearSession s).wl = [] := rfl
@[simp] theorem clearSession_codeVal (s : State) : (clearSession s).codeVal = s.codeVal := rfl
@[simp] theorem clearSession_codeLen (s : State) : (clearSession s).codeLen = s.codeLen := rfl
@[simp] theorem clearSession_walk (s : State) : (clearSession s).walk = 0 := rfl
@[simp] theorem clearSession_src (s : State) : (clearSession s).src = s.src := rfl
@[simp] theorem clearSession_srcLen (s : State) : (clearSession s).srcLen = s.srcLen := rfl
@[simp] theorem clearSession_sink (s : State) : (clearSession s).sink = s.sink := rfl
@[simp] theorem clearSession_sinkLen (s : State) : (clearSession s).sinkLen = s.sinkLen := rfl
@[simp] theorem clearSession_allocBufOk (s : State) : (clearSession s).allocBufOk = s.allocBufOk := rfl
@[simp] theorem clearSession_allocPoolOk (s : State) : (clearSession s).allocPoolOk = s.allocPoolOk := rfl
@[simp] theorem clearSession_srcReads (s : State) : (clearSession s).srcReads = s.srcReads := rfl
@[simp] theorem clearSession_sinkWrites (s : State) : (clearSession s).sinkWrites = s.sinkWrites := rfl
@[simp] theorem clearSession_host (s : State) : (clearSession s).host = s.host := rfl
@[simp] theorem clearSession_hostReads (s : State) : (clearSession s).hostReads = s.hostReads := rfl
@[simp] theorem clearSession_draw (s : State) : (clearSession s).draw = s.draw := rfl

/-! ## release -/

@[simp] theorem release_params (s : State) : (release s).params = s.params := rfl
@[simp] theorem release_mode (s : State) : (release s).mode = s.mode := rfl
@[simp] theorem release_cmdErr (s : State) : (release s).cmdErr = s.cmdErr := rfl
@[simp] theorem release_eof (s : State) : (release s).eof = false := rfl
@[simp] theorem release_mark (s : State) : (release s).mark = false := rfl
@[simp] theorem release_freqV (s : State) : (release s).freqV = false := rfl
@[simp] theorem release_treeV (s : State) : (release s).treeV = false := rfl
@[simp] theorem release_codeV (s : State) : (release s).codeV = false := rfl
@[simp] theorem release_errCode (s : State) : (release s).errCode = s.errCode := rfl
@[simp] theorem release_leafCount (s : State) : (release s).leafCount = 0 := rfl
@[simp] theorem release_arg0 (s : State) : (release s).arg0 = s.arg0 := rfl
@[simp] theorem release_res (s : State) : (release s).res = s.res := rfl
@[simp] theorem release_buf (s : State) : (release s).buf = freeBytes s.draw 0 s.params.bufSize := rfl
@[simp] theorem release_curByte (s : State) : (release s).curByte = 0 := rfl
@[simp] theorem release_curBit (s : State) : (release s).curBit = 0 := rfl
@[simp] theorem release_bufLen (s : State) : (release s).bufLen = 0 := rfl
@[simp] theorem release_rdBase (s : State) : (release s).rdBase = 0 := rfl
@[simp] theorem release_freq (s : State) : (release s).freq = table256 fun i => Config.freeWord s.draw i := rfl
@[simp] theorem release_nodes (s : State) : (release s).nodes = [] := rfl
@[simp] theorem release_root (s : State) : (release s).root = 0 := rfl
@[simp] theorem release_wl (s : State) : (release s).wl = [] := rfl
@[simp] theorem release_codeVal (s : State) : (release s).codeVal = table256 fun i => Config.freeWord s.draw (256 + i) := rfl
@[simp] theorem release_codeLen (s : State) : (release s).codeLen = table256 fun i => Config.freeLen s.draw i := rfl
@[simp] theorem release_walk (s : State) : (release s).walk = 0 := rfl
@[simp] theorem release_src (s : State) : (release s).src = s.src := rfl
@[simp] theorem release_srcLen (s : State) : (release s).srcLen = s.srcLen := rfl
@[simp] theorem release_sink (s : State) : (release s).sink = s.sink := rfl
@[simp] theorem release_sinkLen (s : State) : (release s).sinkLen = s.sinkLen := rfl
@[simp] theorem release_allocBufOk (s : State) : (release s).allocBufOk = s.allocBufOk := rfl
@[simp] theorem release_allocPoolOk (s : State) : (release s).allocPoolOk = s.allocPoolOk := rfl
@[simp] theorem release_srcReads (s : State) : (release s).srcReads = s.srcReads := rfl
@[simp] theorem release_sinkWrites (s : State) : (release s).sinkWrites = s.sinkWrites := rfl
@[simp] theorem release_host (s : State) : (release s).host = s.host := rfl
@[simp] theorem release_hostReads (s : State) : (release s).hostReads = s.hostReads := rfl
@[simp] theorem release_draw (s : State) : (release s).draw = s.draw + 1 := rfl

/-! ## raise -/

@[simp] theorem raise_params (e : ErrKind) (s : State) : (raise e s).params = s.params := rfl
@[simp] theorem raise_mode (e : ErrKind) (s : State) : (raise e s).mode = .fault := rfl
@[simp] theorem raise_cmdErr (e : ErrKind) (s : State) : (raise e s).cmdErr = s.cmdErr := rfl
@[simp] theorem raise_eof (e : ErrKind) (s : State) : (raise e s).eof = false := rfl
@[simp] theorem raise_mark (e : ErrKind) (s : State) : (raise e s).mark = false := rfl
@[simp] theorem raise_freqV (e : ErrKind) (s : State) : (raise e s).freqV = false := rfl
@[simp] theorem raise_treeV (e : ErrKind) (s : State) : (raise e s).treeV = false := rfl
@[simp] theorem raise_codeV (e : ErrKind) (s : State) : (raise e s).codeV = false := rfl
@[simp] theorem raise_errCode (e : ErrKind) (s : State) : (raise e s).errCode = e := rfl
@[simp] theorem raise_leafCount (e : ErrKind) (s : State) : (raise e s).leafCount = 0 := rfl
@[simp] theorem raise_arg0 (e : ErrKind) (s : State) : (raise e s).arg0 = s.arg0 := rfl
@[simp] theorem raise_res (e : ErrKind) (s : State) : (raise e s).res = s.res := rfl
@[simp] theorem raise_buf (e : ErrKind) (s : State) : (raise e s).buf = freeBytes s.draw 0 s.params.bufSize := rfl
@[simp] theorem raise_curByte (e : ErrKind) (s : State) : (raise e s).curByte = 0 := rfl
@[simp] theorem raise_curBit (e : ErrKind) (s : State) : (raise e s).curBit = 0 := rfl
@[simp] theorem raise_bufLen (e : ErrKind) (s : State) : (raise e s).bufLen = 0 := rfl
@[simp] theorem raise_rdBase (e : ErrKind) (s : State) : (raise e s).rdBase = 0 := rfl
@[simp] theorem raise_freq (e : ErrKind) (s : State) : (raise e s).freq = table256 fun i => Config.freeWord s.draw i := rfl
@[simp] theorem raise_nodes (e : ErrKind) (s : State) : (raise e s).nodes = [] := rfl
@[simp] theorem raise_root (e : ErrKind) (s : State) : (raise e s).root = 0 := rfl
@[simp] theorem raise_wl (e : ErrKind) (s : State) : (raise e s).wl = [] := rfl
@[simp] theorem raise_codeVal (e : ErrKind) (s : State) : (raise e s).codeVal = table256 fun i => Config.freeWord s.draw (256 + i) := rfl
@[simp] theorem raise_codeLen (e : ErrKind) (s : State) : (raise e s).codeLen = table256 fun i => Config.freeLen s.draw i := rfl
@[simp] theorem raise_walk (e : ErrKind) (s : State) : (raise e s).walk = 0 := rfl
@[simp] theorem raise_src (e : ErrKind) (s : State) : (raise e s).src = s.src := rfl
@[simp] theorem raise_srcLen (e : ErrKind) (s : State) : (raise e s).srcLen = s.srcLen := rfl
@[simp] theorem raise_sink (e : ErrKind) (s : State) : (raise e s).sink = s.sink := rfl
@[simp] theorem raise_sinkLen (e : ErrKind) (s : State) : (raise e s).sinkLen = s.sinkLen := rfl
@[simp] theorem raise_allocBufOk (e : ErrKind) (s : State) : (raise e s).allocBufOk = s.allocBufOk := rfl
@[simp] theorem raise_allocPoolOk (e : ErrKind) (s : State) : (raise e s).allocPoolOk = s.allocPoolOk := rfl
@[simp] theorem raise_srcReads (e : ErrKind) (s : State) : (raise e s).srcReads = s.srcReads := rfl
@[simp] theorem raise_sinkWrites (e : ErrKind) (s : State) : (raise e s).sinkWrites = s.sinkWrites := rfl
@[simp] theorem raise_host (e : ErrKind) (s : State) : (raise e s).host = s.host := rfl
@[simp] theorem raise_hostReads (e : ErrKind) (s : State) : (raise e s).hostReads = s.hostReads := rfl
@[simp] theorem raise_draw (e : ErrKind) (s : State) : (raise e s).draw = s.draw + 1 := rfl

/-! ## closeSession -/

@[simp] theorem closeSession_params (s : State) : (closeSession s).params = s.params := rfl
@[simp] theorem closeSession_mode (s : State) : (closeSession s).mode = .idle := rfl
@[simp] theorem closeSession_cmdErr (s : State) : (closeSession s).cmdErr = s.cmdErr := rfl
@[simp] theorem closeSession_eof (s : State) : (closeSession s).eof = false := rfl
@[simp] theorem closeSession_mark (s : State) : (closeSession s).mark = false := rfl
@[simp] theorem closeSession_freqV (s : State) : (closeSession s).freqV = false := rfl
@[simp] theorem closeSession_treeV (s : State) : (closeSession s).treeV = false := rfl
@[simp] theorem closeSession_codeV (s : State) : (closeSession s).codeV = false := rfl
@[simp] theorem closeSession_errCode (s : State) : (closeSession s).errCode = s.errCode := rfl
@[simp] theorem closeSession_leafCount (s : State) : (closeSession s).leafCount = 0 := rfl
@[simp] theorem closeSession_arg0 (s : State) : (closeSession s).arg0 = s.arg0 := rfl
@[simp] theorem closeSession_res (s : State) : (closeSession s).res = s.res := rfl
@[simp] theorem closeSession_buf (s : State) : (closeSession s).buf = freeBytes s.draw 0 s.params.bufSize := rfl
@[simp] theorem closeSession_curByte (s : State) : (closeSession s).curByte = 0 := rfl
@[simp] theorem closeSession_curBit (s : State) : (closeSession s).curBit = 0 := rfl
@[simp] theorem closeSession_bufLen (s : State) : (closeSession s).bufLen = 0 := rfl
@[simp] theorem closeSession_rdBase (s : State) : (closeSession s).rdBase = 0 := rfl
@[simp] theorem closeSession_freq (s : State) : (closeSession s).freq = table256 fun i => Config.freeWord s.draw i := rfl
@[simp] theorem closeSession_nodes (s : State) : (closeSession s).nodes = [] := rfl
@[simp] theorem closeSession_root (s : State) : (closeSession s).root = 0 := rfl
@[simp] theorem closeSession_wl (s : State) : (closeSession s).wl = [] := rfl
@[simp] theorem closeSession_codeVal (s : State) : (closeSession s).codeVal = table256 fun i => Config.freeWord s.draw (256 + i) := rfl
@[simp] theorem closeSession_codeLen (s : State) : (closeSession s).codeLen = table256 fun i => Config.freeLen s.draw i := rfl
@[simp] theorem closeSession_walk (s : State) : (closeSession s).walk = 0 := rfl
@[simp] theorem closeSession_src (s : State) : (closeSession s).src = s.src := rfl
@[simp] theorem closeSession_srcLen (s : State) : (closeSession s).srcLen = s.srcLen := rfl
@[simp] theorem closeSession_sink (s : State) : (closeSession s).sink = s.sink := rfl
@[simp] theorem closeSession_sinkLen (s : State) : (closeSession s).sinkLen = s.sinkLen := rfl
@[simp] theorem closeSession_allocBufOk (s : State) : (closeSession s).allocBufOk = s.allocBufOk := rfl
@[simp] theorem closeSession_allocPoolOk (s : State) : (closeSession s).allocPoolOk = s.allocPoolOk := rfl
@[simp] theorem closeSession_srcReads (s : State) : (closeSession s).srcReads = s.srcReads := rfl
@[simp] theorem closeSession_sinkWrites (s : State) : (closeSession s).sinkWrites = s.sinkWrites := rfl
@[simp] theorem closeSession_host (s : State) : (closeSession s).host = s.host := rfl
@[simp] theorem closeSession_hostReads (s : State) : (closeSession s).hostReads = s.hostReads := rfl
@[simp] theorem closeSession_draw (s : State) : (closeSession s).draw = s.draw + 1 := rfl

/-! ## hardwareReset -/

@[simp] theorem hardwareReset_params (s : State) : (hardwareReset s).params = s.params := rfl
@[simp] theorem hardwareReset_mode (s : State) : (hardwareReset s).mode = .idle := rfl
@[simp] theorem hardwareReset_cmdErr (s : State) : (hardwareReset s).cmdErr = false := rfl
@[simp] theorem hardwareReset_eof (s : State) : (hardwareReset s).eof = false := rfl
@[simp] theorem hardwareReset_mark (s : State) : (hardwareReset s).mark = false := rfl
@[simp] theorem hardwareReset_freqV (s : State) : (hardwareReset s).freqV = false := rfl
@[simp] theorem hardwareReset_treeV (s : State) : (hardwareReset s).treeV = false := rfl
@[simp] theorem hardwareReset_codeV (s : State) : (hardwareReset s).codeV = false := rfl
@[simp] theorem hardwareReset_errCode (s : State) : (hardwareReset s).errCode = .none := rfl
@[simp] theorem hardwareReset_leafCount (s : State) : (hardwareReset s).leafCount = 0 := rfl
@[simp] theorem hardwareReset_arg0 (s : State) : (hardwareReset s).arg0 = 0 := rfl
@[simp] theorem hardwareReset_res (s : State) : (hardwareReset s).res = 0 := rfl
@[simp] theorem hardwareReset_buf (s : State) : (hardwareReset s).buf = freeBytes s.draw 0 s.params.bufSize := rfl
@[simp] theorem hardwareReset_curByte (s : State) : (hardwareReset s).curByte = 0 := rfl
@[simp] theorem hardwareReset_curBit (s : State) : (hardwareReset s).curBit = 0 := rfl
@[simp] theorem hardwareReset_bufLen (s : State) : (hardwareReset s).bufLen = 0 := rfl
@[simp] theorem hardwareReset_rdBase (s : State) : (hardwareReset s).rdBase = 0 := rfl
@[simp] theorem hardwareReset_freq (s : State) : (hardwareReset s).freq = table256 fun i => Config.freeWord s.draw i := rfl
@[simp] theorem hardwareReset_nodes (s : State) : (hardwareReset s).nodes = [] := rfl
@[simp] theorem hardwareReset_root (s : State) : (hardwareReset s).root = 0 := rfl
@[simp] theorem hardwareReset_wl (s : State) : (hardwareReset s).wl = [] := rfl
@[simp] theorem hardwareReset_codeVal (s : State) : (hardwareReset s).codeVal = table256 fun i => Config.freeWord s.draw (256 + i) := rfl
@[simp] theorem hardwareReset_codeLen (s : State) : (hardwareReset s).codeLen = table256 fun i => Config.freeLen s.draw i := rfl
@[simp] theorem hardwareReset_walk (s : State) : (hardwareReset s).walk = 0 := rfl
@[simp] theorem hardwareReset_src (s : State) : (hardwareReset s).src = s.src := rfl
@[simp] theorem hardwareReset_srcLen (s : State) : (hardwareReset s).srcLen = s.srcLen := rfl
@[simp] theorem hardwareReset_sink (s : State) : (hardwareReset s).sink = s.sink := rfl
@[simp] theorem hardwareReset_sinkLen (s : State) : (hardwareReset s).sinkLen = s.sinkLen := rfl
@[simp] theorem hardwareReset_allocBufOk (s : State) : (hardwareReset s).allocBufOk = s.allocBufOk := rfl
@[simp] theorem hardwareReset_allocPoolOk (s : State) : (hardwareReset s).allocPoolOk = s.allocPoolOk := rfl
@[simp] theorem hardwareReset_srcReads (s : State) : (hardwareReset s).srcReads = s.srcReads := rfl
@[simp] theorem hardwareReset_sinkWrites (s : State) : (hardwareReset s).sinkWrites = s.sinkWrites := rfl
@[simp] theorem hardwareReset_host (s : State) : (hardwareReset s).host = s.host := rfl
@[simp] theorem hardwareReset_hostReads (s : State) : (hardwareReset s).hostReads = s.hostReads := rfl
@[simp] theorem hardwareReset_draw (s : State) : (hardwareReset s).draw = s.draw + 1 := rfl

/-! ## allocNode -/

@[simp] theorem allocNode_params (s : State) : (allocNode s).params = s.params := rfl
@[simp] theorem allocNode_mode (s : State) : (allocNode s).mode = s.mode := rfl
@[simp] theorem allocNode_cmdErr (s : State) : (allocNode s).cmdErr = s.cmdErr := rfl
@[simp] theorem allocNode_eof (s : State) : (allocNode s).eof = s.eof := rfl
@[simp] theorem allocNode_mark (s : State) : (allocNode s).mark = s.mark := rfl
@[simp] theorem allocNode_freqV (s : State) : (allocNode s).freqV = s.freqV := rfl
@[simp] theorem allocNode_treeV (s : State) : (allocNode s).treeV = s.treeV := rfl
@[simp] theorem allocNode_codeV (s : State) : (allocNode s).codeV = s.codeV := rfl
@[simp] theorem allocNode_errCode (s : State) : (allocNode s).errCode = s.errCode := rfl
@[simp] theorem allocNode_leafCount (s : State) : (allocNode s).leafCount = s.leafCount := rfl
@[simp] theorem allocNode_arg0 (s : State) : (allocNode s).arg0 = s.arg0 := rfl
@[simp] theorem allocNode_res (s : State) : (allocNode s).res = s.res := rfl
@[simp] theorem allocNode_buf (s : State) : (allocNode s).buf = s.buf := rfl
@[simp] theorem allocNode_curByte (s : State) : (allocNode s).curByte = s.curByte := rfl
@[simp] theorem allocNode_curBit (s : State) : (allocNode s).curBit = s.curBit := rfl
@[simp] theorem allocNode_bufLen (s : State) : (allocNode s).bufLen = s.bufLen := rfl
@[simp] theorem allocNode_rdBase (s : State) : (allocNode s).rdBase = s.rdBase := rfl
@[simp] theorem allocNode_freq (s : State) : (allocNode s).freq = s.freq := rfl
@[simp] theorem allocNode_nodes (s : State) : (allocNode s).nodes = s.nodes ++ [freeNode s.draw s.nodes.length] := rfl
@[simp] theorem allocNode_root (s : State) : (allocNode s).root = s.root := rfl
@[simp] theorem allocNode_wl (s : State) : (allocNode s).wl = s.wl := rfl
@[simp] theorem allocNode_codeVal (s : State) : (allocNode s).codeVal = s.codeVal := rfl
@[simp] theorem allocNode_codeLen (s : State) : (allocNode s).codeLen = s.codeLen := rfl
@[simp] theorem allocNode_walk (s : State) : (allocNode s).walk = s.walk := rfl
@[simp] theorem allocNode_src (s : State) : (allocNode s).src = s.src := rfl
@[simp] theorem allocNode_srcLen (s : State) : (allocNode s).srcLen = s.srcLen := rfl
@[simp] theorem allocNode_sink (s : State) : (allocNode s).sink = s.sink := rfl
@[simp] theorem allocNode_sinkLen (s : State) : (allocNode s).sinkLen = s.sinkLen := rfl
@[simp] theorem allocNode_allocBufOk (s : State) : (allocNode s).allocBufOk = s.allocBufOk := rfl
@[simp] theorem allocNode_allocPoolOk (s : State) : (allocNode s).allocPoolOk = s.allocPoolOk := rfl
@[simp] theorem allocNode_srcReads (s : State) : (allocNode s).srcReads = s.srcReads := rfl
@[simp] theorem allocNode_sinkWrites (s : State) : (allocNode s).sinkWrites = s.sinkWrites := rfl
@[simp] theorem allocNode_host (s : State) : (allocNode s).host = s.host := rfl
@[simp] theorem allocNode_hostReads (s : State) : (allocNode s).hostReads = s.hostReads := rfl
@[simp] theorem allocNode_draw (s : State) : (allocNode s).draw = s.draw + 1 := rfl

/-! ## setNode -/

@[simp] theorem setNode_params (i : Nat) (f : Node → Node) (s : State) : (setNode i f s).params = s.params := rfl
@[simp] theorem setNode_mode (i : Nat) (f : Node → Node) (s : State) : (setNode i f s).mode = s.mode := rfl
@[simp] theorem setNode_cmdErr (i : Nat) (f : Node → Node) (s : State) : (setNode i f s).cmdErr = s.cmdErr := rfl
@[simp] theorem setNode_eof (i : Nat) (f : Node → Node) (s : State) : (setNode i f s).eof = s.eof := rfl
@[simp] theorem setNode_mark (i : Nat) (f : Node → Node) (s : State) : (setNode i f s).mark = s.mark := rfl
@[simp] theorem setNode_freqV (i : Nat) (f : Node → Node) (s : State) : (setNode i f s).freqV = s.freqV := rfl
@[simp] theorem setNode_treeV (i : Nat) (f : Node → Node) (s : State) : (setNode i f s).treeV = s.treeV := rfl
@[simp] theorem setNode_codeV (i : Nat) (f : Node → Node) (s : State) : (setNode i f s).codeV = s.codeV := rfl
@[simp] theorem setNode_errCode (i : Nat) (f : Node → Node) (s : State) : (setNode i f s).errCode = s.errCode := rfl
@[simp] theorem setNode_leafCount (i : Nat) (f : Node → Node) (s : State) : (setNode i f s).leafCount = s.leafCount := rfl
@[simp] theorem setNode_arg0 (i : Nat) (f : Node → Node) (s : State) : (setNode i f s).arg0 = s.arg0 := rfl
@[simp] theorem setNode_res (i : Nat) (f : Node → Node) (s : State) : (setNode i f s).res = s.res := rfl
@[simp] theorem setNode_buf (i : Nat) (f : Node → Node) (s : State) : (setNode i f s).buf = s.buf := rfl
@[simp] theorem setNode_curByte (i : Nat) (f : Node → Node) (s : State) : (setNode i f s).curByte = s.curByte := rfl
@[simp] theorem setNode_curBit (i : Nat) (f : Node → Node) (s : State) : (setNode i f s).curBit = s.curBit := rfl
@[simp] theorem setNode_bufLen (i : Nat) (f : Node → Node) (s : State) : (setNode i f s).bufLen = s.bufLen := rfl
@[simp] theorem setNode_rdBase (i : Nat) (f : Node → Node) (s : State) : (setNode i f s).rdBase = s.rdBase := rfl
@[simp] theorem setNode_freq (i : Nat) (f : Node → Node) (s : State) : (setNode i f s).freq = s.freq := rfl
@[simp] theorem setNode_nodes (i : Nat) (f : Node → Node) (s : State) : (setNode i f s).nodes = s.nodes.modify i f := rfl
@[simp] theorem setNode_root (i : Nat) (f : Node → Node) (s : State) : (setNode i f s).root = s.root := rfl
@[simp] theorem setNode_wl (i : Nat) (f : Node → Node) (s : State) : (setNode i f s).wl = s.wl := rfl
@[simp] theorem setNode_codeVal (i : Nat) (f : Node → Node) (s : State) : (setNode i f s).codeVal = s.codeVal := rfl
@[simp] theorem setNode_codeLen (i : Nat) (f : Node → Node) (s : State) : (setNode i f s).codeLen = s.codeLen := rfl
@[simp] theorem setNode_walk (i : Nat) (f : Node → Node) (s : State) : (setNode i f s).walk = s.walk := rfl
@[simp] theorem setNode_src (i : Nat) (f : Node → Node) (s : State) : (setNode i f s).src = s.src := rfl
@[simp] theorem setNode_srcLen (i : Nat) (f : Node → Node) (s : State) : (setNode i f s).srcLen = s.srcLen := rfl
@[simp] theorem setNode_sink (i : Nat) (f : Node → Node) (s : State) : (setNode i f s).sink = s.sink := rfl
@[simp] theorem setNode_sinkLen (i : Nat) (f : Node → Node) (s : State) : (setNode i f s).sinkLen = s.sinkLen := rfl
@[simp] theorem setNode_allocBufOk (i : Nat) (f : Node → Node) (s : State) : (setNode i f s).allocBufOk = s.allocBufOk := rfl
@[simp] theorem setNode_allocPoolOk (i : Nat) (f : Node → Node) (s : State) : (setNode i f s).allocPoolOk = s.allocPoolOk := rfl
@[simp] theorem setNode_srcReads (i : Nat) (f : Node → Node) (s : State) : (setNode i f s).srcReads = s.srcReads := rfl
@[simp] theorem setNode_sinkWrites (i : Nat) (f : Node → Node) (s : State) : (setNode i f s).sinkWrites = s.sinkWrites := rfl
@[simp] theorem setNode_host (i : Nat) (f : Node → Node) (s : State) : (setNode i f s).host = s.host := rfl
@[simp] theorem setNode_hostReads (i : Nat) (f : Node → Node) (s : State) : (setNode i f s).hostReads = s.hostReads := rfl
@[simp] theorem setNode_draw (i : Nat) (f : Node → Node) (s : State) : (setNode i f s).draw = s.draw := rfl

/-! ## loadBuf -/

@[simp] theorem loadBuf_params (a n : Nat) (s : State) : (loadBuf a n s).params = s.params := rfl
@[simp] theorem loadBuf_mode (a n : Nat) (s : State) : (loadBuf a n s).mode = s.mode := rfl
@[simp] theorem loadBuf_cmdErr (a n : Nat) (s : State) : (loadBuf a n s).cmdErr = s.cmdErr := rfl
@[simp] theorem loadBuf_eof (a n : Nat) (s : State) : (loadBuf a n s).eof = s.eof := rfl
@[simp] theorem loadBuf_mark (a n : Nat) (s : State) : (loadBuf a n s).mark = s.mark := rfl
@[simp] theorem loadBuf_freqV (a n : Nat) (s : State) : (loadBuf a n s).freqV = s.freqV := rfl
@[simp] theorem loadBuf_treeV (a n : Nat) (s : State) : (loadBuf a n s).treeV = s.treeV := rfl
@[simp] theorem loadBuf_codeV (a n : Nat) (s : State) : (loadBuf a n s).codeV = s.codeV := rfl
@[simp] theorem loadBuf_errCode (a n : Nat) (s : State) : (loadBuf a n s).errCode = s.errCode := rfl
@[simp] theorem loadBuf_leafCount (a n : Nat) (s : State) : (loadBuf a n s).leafCount = s.leafCount := rfl
@[simp] theorem loadBuf_arg0 (a n : Nat) (s : State) : (loadBuf a n s).arg0 = s.arg0 := rfl
@[simp] theorem loadBuf_res (a n : Nat) (s : State) : (loadBuf a n s).res = s.res := rfl
@[simp] theorem loadBuf_curByte (a n : Nat) (s : State) : (loadBuf a n s).curByte = s.curByte := rfl
@[simp] theorem loadBuf_curBit (a n : Nat) (s : State) : (loadBuf a n s).curBit = s.curBit := rfl
@[simp] theorem loadBuf_bufLen (a n : Nat) (s : State) : (loadBuf a n s).bufLen = s.bufLen := rfl
@[simp] theorem loadBuf_rdBase (a n : Nat) (s : State) : (loadBuf a n s).rdBase = s.rdBase := rfl
@[simp] theorem loadBuf_freq (a n : Nat) (s : State) : (loadBuf a n s).freq = s.freq := rfl
@[simp] theorem loadBuf_nodes (a n : Nat) (s : State) : (loadBuf a n s).nodes = s.nodes := rfl
@[simp] theorem loadBuf_root (a n : Nat) (s : State) : (loadBuf a n s).root = s.root := rfl
@[simp] theorem loadBuf_wl (a n : Nat) (s : State) : (loadBuf a n s).wl = s.wl := rfl
@[simp] theorem loadBuf_codeVal (a n : Nat) (s : State) : (loadBuf a n s).codeVal = s.codeVal := rfl
@[simp] theorem loadBuf_codeLen (a n : Nat) (s : State) : (loadBuf a n s).codeLen = s.codeLen := rfl
@[simp] theorem loadBuf_walk (a n : Nat) (s : State) : (loadBuf a n s).walk = s.walk := rfl
@[simp] theorem loadBuf_src (a n : Nat) (s : State) : (loadBuf a n s).src = s.src := rfl
@[simp] theorem loadBuf_srcLen (a n : Nat) (s : State) : (loadBuf a n s).srcLen = s.srcLen := rfl
@[simp] theorem loadBuf_sink (a n : Nat) (s : State) : (loadBuf a n s).sink = s.sink := rfl
@[simp] theorem loadBuf_sinkLen (a n : Nat) (s : State) : (loadBuf a n s).sinkLen = s.sinkLen := rfl
@[simp] theorem loadBuf_allocBufOk (a n : Nat) (s : State) : (loadBuf a n s).allocBufOk = s.allocBufOk := rfl
@[simp] theorem loadBuf_allocPoolOk (a n : Nat) (s : State) : (loadBuf a n s).allocPoolOk = s.allocPoolOk := rfl
@[simp] theorem loadBuf_sinkWrites (a n : Nat) (s : State) : (loadBuf a n s).sinkWrites = s.sinkWrites := rfl
@[simp] theorem loadBuf_host (a n : Nat) (s : State) : (loadBuf a n s).host = s.host := rfl
@[simp] theorem loadBuf_hostReads (a n : Nat) (s : State) : (loadBuf a n s).hostReads = s.hostReads := rfl
@[simp] theorem loadBuf_buf (a n : Nat) (s : State) :
    (loadBuf a n s).buf = s.src.readBytes a n ++ freeBytes s.draw n (s.params.bufSize - n) := rfl
@[simp] theorem loadBuf_srcReads (a n : Nat) (s : State) :
    (loadBuf a n s).srcReads = s.srcReads ++ (if n = 0 then [] else [(a, n)]) := rfl
@[simp] theorem loadBuf_draw (a n : Nat) (s : State) : (loadBuf a n s).draw = s.draw + 1 := rfl

/-- A load that fits BUF leaves BUF at its size, whatever the number of bytes read. -/
theorem length_buf_loadBuf (a : Nat) {n : Nat} (s : State) (h : n ≤ s.params.bufSize) :
    (loadBuf a n s).buf.length = s.params.bufSize := by
  simp [freeBytes, Memory.readBytes, h]

/-- The first `n` bytes of BUF are the ones read. -/
theorem take_buf_loadBuf (a n : Nat) (s : State) : (loadBuf a n s).buf.take n = s.src.readBytes a n := by
  simp [Memory.readBytes]

end Sys2Proof.Machine
end

