-- ==== Sys2Proof/Laws/Reader.lean ====
section
/-! SUPPORT. The reader: what Refill, ReadBit and runs of them do (R83 to R85). -/

namespace Sys2Proof.Machine

theorem ReaderFrame.refl (s : State) : ReaderFrame s s := rfl

theorem ReaderFrame.trans {s t u : State} (h : ReaderFrame s t) (k : ReaderFrame t u) : ReaderFrame s u := by
  unfold ReaderFrame at *
  rw [k]
  conv_lhs => rw [h]

theorem ReaderFrame.params {s t : State} (h : ReaderFrame s t) : t.params = s.params := by rw [h]
theorem ReaderFrame.mode {s t : State} (h : ReaderFrame s t) : t.mode = s.mode := by rw [h]
theorem ReaderFrame.src {s t : State} (h : ReaderFrame s t) : t.src = s.src := by rw [h]
theorem ReaderFrame.srcLen {s t : State} (h : ReaderFrame s t) : t.srcLen = s.srcLen := by rw [h]

theorem ReaderFrame.srcBits {s t : State} (h : ReaderFrame s t) : t.srcBits = s.srcBits := by
  rw [State.srcBits, State.srcBytes, h.src, h.srcLen]; rfl

/-- The invariant of the cursor, in the halves a read session needs. -/
theorem cursorInv_of_read {s : State} (hm : s.mode = .read) (hB : 1 ≤ s.params.bufSize)
    (hl : s.buf.length = s.params.bufSize) (hw : s.rdBase.toNat ≤ s.srcLen.toNat ∧
      s.bufLen = min s.params.bufSize (s.srcLen.toNat - s.rdBase.toNat) ∧
      s.buf.take s.bufLen = s.src.readBytes s.rdBase.toNat s.bufLen)
    (hc : s.curByte ≤ s.bufLen ∧ (s.curBit ≠ 0 → s.curByte < s.bufLen))
    (he : s.eof = true → s.pos = 8 * s.srcLen.toNat) : s.CursorInv where
  bufSize_pos := hB
  buf_length := hl
  write_cursor h := by rw [hm] at h; cases h
  write_zeros h := by rw [hm] at h; cases h
  read_window _ := hw
  read_cursor _ := hc
  eof_at_end h := ⟨hm, he h⟩

theorem length_srcBits (s : State) : s.srcBits.length = 8 * s.srcLen.toNat := by
  rw [State.srcBits, length_flatMap_bitsMsb, State.srcBytes, Memory.length_readBytes]

/-- POS never passes the end of the source. -/
theorem pos_le {s : State} (hm : s.mode = .read) (h : s.CursorInv) : s.pos ≤ 8 * s.srcLen.toNat := by
  obtain ⟨h1, h2, -⟩ := h.read_window hm
  obtain ⟨h3, h4⟩ := h.read_cursor hm
  have := s.curBit.isLt
  unfold State.pos
  by_cases h0 : s.curBit = 0
  · rw [h0]; simp; omega
  · have := h4 h0; omega

/-- An exhausted buffer has a byte-aligned cursor. -/
theorem curBit_of_exhausted {s : State} (hm : s.mode = .read) (h : s.CursorInv) (he : s.curByte = s.bufLen) :
    s.curBit = 0 := by
  by_contra h0
  have := (h.read_cursor hm).2 h0
  omega

/-- Bit `p` of the source. -/
theorem srcBits_getElem (s : State) (p : Nat) (h : p < s.srcBits.length) :
    s.srcBits[p] = (s.src.read (p / 8)).getLsbD (7 - p % 8) := by
  have key : ∀ (n a p : Nat) (h : p < ((s.src.readBytes a n).flatMap bitsMsb).length),
      ((s.src.readBytes a n).flatMap bitsMsb)[p] = (s.src.read (a + p / 8)).getLsbD (7 - p % 8) := by
    intro n
    induction n with
    | zero => intro a p h; simp at h
    | succ n ih =>
      intro a p h
      have hsplit : s.src.readBytes a (n + 1) = s.src.read a :: s.src.readBytes (a + 1) n := by
        rw [Nat.add_comm, Memory.readBytes_add]; rfl
      simp only [hsplit, List.flatMap_cons] at h ⊢
      by_cases hp : p < 8
      · rw [List.getElem_append_left (by simpa using hp), bitsMsb_getElem]
        rw [show a + p / 8 = a by omega, Nat.mod_eq_of_lt hp]
        simp [BitVec.getMsbD, hp]
      · rw [List.getElem_append_right (by simp; omega)]
        simp only [length_bitsMsb]
        rw [ih (a + 1) (p - 8)]
        rw [show a + 1 + (p - 8) / 8 = a + p / 8 by omega, show (p - 8) % 8 = p % 8 by omega]
  have e := key s.srcLen.toNat 0 p h
  rw [Nat.zero_add] at e
  exact e

/-- The bit under the cursor is source bit POS (R83). -/
theorem bufBit_eq {s : State} (hm : s.mode = .read) (h : s.CursorInv) (hc : s.curByte < s.bufLen) :
    bufBit s = (s.src.read (s.pos / 8)).getLsbD (7 - s.pos % 8) := by
  obtain ⟨-, hlen, hw⟩ := h.read_window hm
  have hk := s.curBit.isLt
  have hb := h.buf_length
  have hlt : s.curByte < s.buf.length := by omega
  have hread : s.buf[s.curByte] = s.src.read (s.rdBase.toNat + s.curByte) := by
    have e : (s.buf.take s.bufLen)[s.curByte]? = (s.src.readBytes s.rdBase.toNat s.bufLen)[s.curByte]? := by rw [hw]
    rw [List.getElem?_take_of_lt hc, List.getElem?_eq_getElem hlt] at e
    simpa [Memory.readBytes, hc] using e
  have hp1 : s.pos / 8 = s.rdBase.toNat + s.curByte := by unfold State.pos; omega
  have hp2 : s.pos % 8 = s.curBit.toNat := by unfold State.pos; omega
  rw [bufBit, List.getD_eq_getElem _ _ hlt, hread, hp1, hp2]

theorem Consumed.zero {s : State} (h : s.CursorInv) : Consumed s s 0 := ⟨rfl, h, ReaderFrame.refl s⟩

theorem Consumed.trans {s t u : State} {m n : Nat} (h : Consumed s t m) (k : Consumed t u n) :
    Consumed s u (m + n) :=
  ⟨by rw [k.pos, h.pos, Nat.add_assoc], k.inv, h.frame.trans k.frame⟩

theorem Consumed.mode {s t : State} {n : Nat} (h : Consumed s t n) : t.mode = s.mode := h.frame.mode

theorem Consumed.unread {s t : State} {n : Nat} (h : Consumed s t n) : t.unread = s.unread.drop n := by
  rw [State.unread, State.unread, h.frame.srcBits, h.pos, List.drop_drop]

/-- One step of the cursor inside the buffer. -/
theorem consumed_stepBit {s : State} (hm : s.mode = .read) (h : s.CursorInv) (hc : s.curByte < s.bufLen) :
    Consumed s (stepBit s) 1 := by
  have hk := s.curBit.isLt
  have hw := h.read_window hm
  have hne : s.eof = false := by
    cases he : s.eof
    · rfl
    · have := (h.eof_at_end he).2
      unfold State.pos at this
      omega
  by_cases h7 : s.curBit = 7
  · rw [stepBit, if_pos h7]
    refine ⟨?_, ?_, rfl⟩
    · simp [State.pos, h7]; omega
    · refine cursorInv_of_read hm h.bufSize_pos h.buf_length hw ⟨?_, ?_⟩ ?_
      · simp only; omega
      · intro hx; exact absurd rfl hx
      · intro hx; rw [show s.eof = true from hx] at hne; cases hne
  · have h7' : s.curBit.toNat ≠ 7 := fun e => h7 (BitVec.eq_of_toNat_eq (by simpa using e))
    have hadd : (s.curBit + 1).toNat = s.curBit.toNat + 1 := by
      rw [BitVec.toNat_add]; simp; omega
    rw [stepBit, if_neg h7]
    refine ⟨?_, ?_, rfl⟩
    · simp only [State.pos, hadd]; omega
    · refine cursorInv_of_read hm h.bufSize_pos h.buf_length hw ⟨?_, fun _ => hc⟩ ?_
      · simp only; omega
      · intro hx; rw [show s.eof = true from hx] at hne; cases hne

/-- `Refill()` (R84): the window moves to the next source bytes and POS stays. -/
theorem consumed_refill {s : State} (hm : s.mode = .read) (h : s.CursorInv) (he : s.curByte = s.bufLen)
    (hne : s.eof = false) :
    Consumed s (refill s) 0 ∧ (refill s).curByte = 0 ∧ (refill s).curBit = 0 ∧ (refill s).eof = s.eof ∧
      (refill s).rdBase.toNat = s.rdBase.toNat + s.bufLen := by
  obtain ⟨h1, h2, h3⟩ := h.read_window hm
  have h0 := curBit_of_exhausted hm h he
  have hsl := s.srcLen.isLt
  have hbase : (s.rdBase + BitVec.ofNat 64 s.bufLen).toNat = s.rdBase.toNat + s.bufLen := by
    rw [BitVec.toNat_add, BitVec.toNat_ofNat]
    rw [Nat.mod_eq_of_lt (show s.bufLen < 2 ^ 64 by omega), Nat.mod_eq_of_lt (by omega)]
  have hfr : ReaderFrame s (refill s) := rfl
  have hb : (refill s).rdBase = s.rdBase + BitVec.ofNat 64 s.bufLen := rfl
  have hn : (refill s).bufLen = min s.params.bufSize (s.srcLen.toNat - (s.rdBase.toNat + s.bufLen)) := by
    rw [← hbase]; rfl
  have hpos : (refill s).pos = s.pos + 0 := by
    unfold State.pos
    rw [hb, hbase, h0, he]
    show 8 * (_ + 0) + 0 = 8 * _ + 0 + 0
    omega
  have heof : (refill s).eof = s.eof := rfl
  refine ⟨⟨hpos, ?_, hfr⟩, rfl, rfl, heof, by rw [hb, hbase]⟩
  have hbuf : (refill s).buf.length = s.params.bufSize ∧
      (refill s).buf.take (refill s).bufLen = s.src.readBytes (refill s).rdBase.toNat (refill s).bufLen :=
    ⟨length_buf_loadBuf _ s (Nat.min_le_left _ _), take_buf_loadBuf _ _ s⟩
  refine cursorInv_of_read (hfr.mode.trans hm) (hfr.params ▸ h.bufSize_pos) (hfr.params ▸ hbuf.1) ?_ ?_ ?_
  · rw [hfr.srcLen, hfr.src, hfr.params]
    refine ⟨?_, ?_, hbuf.2⟩
    · rw [hb, hbase]; omega
    · rw [hn, hb, hbase]
  · refine ⟨Nat.zero_le _, fun hx => absurd rfl hx⟩
  · intro hx; rw [heof, hne] at hx; cases hx

/-- `ReadBit()` before the end of the source (R85). -/
theorem readBit_of_lt {s : State} (hm : s.mode = .read) (h : s.CursorInv) (hp : s.pos < 8 * s.srcLen.toNat) :
    ∃ t, readBit s = (some ((s.src.read (s.pos / 8)).getLsbD (7 - s.pos % 8)), t) ∧ Consumed s t 1 ∧
      t.eof = s.eof ∧ (s.curByte < s.bufLen → t.srcReads = s.srcReads ∧ t.buf = s.buf) := by
  have hne : s.eof = false := by
    cases he : s.eof
    · rfl
    · have := (h.eof_at_end he).2; omega
  by_cases hc : s.curByte = s.bufLen
  · obtain ⟨hr, hcb, hcbit, heof, hbase⟩ := consumed_refill hm h hc hne
    have hm' := hr.mode.trans hm
    have hw := h.read_window hm
    have hpos : (refill s).pos = s.pos := hr.pos
    have hnz : (refill s).bufLen ≠ 0 := by
      have h0 := curBit_of_exhausted hm h hc
      have hp' : s.rdBase.toNat + s.bufLen < s.srcLen.toNat := by
        unfold State.pos at hp
        rw [h0, hc] at hp; simp at hp; omega
      have := (hr.inv.read_window hm').2.1
      have := h.bufSize_pos
      rw [hr.frame.params, hr.frame.srcLen, hbase] at *
      omega
    have hlt : (refill s).curByte < (refill s).bufLen := by rw [hcb]; omega
    refine ⟨stepBit (refill s), ?_, ?_, ?_, fun hx => by omega⟩
    · rw [readBit, if_pos hc]
      simp only [if_neg hnz]
      rw [bufBit_eq hm' hr.inv hlt, hpos, hr.frame.src]
    · exact hr.trans (consumed_stepBit hm' hr.inv hlt)
    · rw [← heof]; unfold stepBit; split <;> rfl
  · have hlt : s.curByte < s.bufLen := by have := (h.read_cursor hm).1; omega
    refine ⟨stepBit s, ?_, consumed_stepBit hm h hlt, ?_, fun _ => ?_⟩
    · rw [readBit, if_neg hc, bufBit_eq hm h hlt]
    · unfold stepBit; split <;> rfl
    · unfold stepBit; split <;> exact ⟨rfl, rfl⟩

/-- `ReadBit()` at the end of the source (R85). -/
theorem readBit_of_end {s : State} (hm : s.mode = .read) (h : s.CursorInv) (hp : s.pos = 8 * s.srcLen.toNat) :
    ∃ t, readBit s = (none, t) ∧ t.eof = true ∧ Consumed s t 0 ∧ t.srcReads = s.srcReads := by
  obtain ⟨h1, h2, h3⟩ := h.read_window hm
  obtain ⟨h4, h5⟩ := h.read_cursor hm
  have hk := s.curBit.isLt
  have hB := h.bufSize_pos
  have hc : s.curByte = s.bufLen := by
    unfold State.pos at hp
    by_cases h0 : s.curBit = 0
    · rw [h0] at hp; simp at hp; omega
    · have := h5 h0; omega
  have h0 := curBit_of_exhausted hm h hc
  have hsl := s.srcLen.isLt
  have hend : s.rdBase.toNat + s.bufLen = s.srcLen.toNat := by
    unfold State.pos at hp; rw [h0, hc] at hp; simp at hp; omega
  have hbase : (s.rdBase + BitVec.ofNat 64 s.bufLen).toNat = s.srcLen.toNat := by
    rw [BitVec.toNat_add, BitVec.toNat_ofNat]
    rw [Nat.mod_eq_of_lt (show s.bufLen < 2 ^ 64 by omega), Nat.mod_eq_of_lt (by omega), hend]
  have hn : (refill s).bufLen = 0 := by
    show min s.params.bufSize (s.srcLen.toNat - (s.rdBase + BitVec.ofNat 64 s.bufLen).toNat) = 0
    rw [hbase]; omega
  have hr : (refill s).rdBase.toNat = s.srcLen.toNat := hbase
  have hpos : State.pos { refill s with eof := true } = 8 * s.srcLen.toNat := by
    show 8 * ((refill s).rdBase.toNat + 0) + 0 = _
    rw [hr]; omega
  refine ⟨{ refill s with eof := true }, ?_, rfl, ⟨by rw [hpos, hp, Nat.add_zero], ?_, rfl⟩, ?_⟩
  · rw [readBit, if_pos hc]; simp only [if_pos hn]
  · refine cursorInv_of_read hm hB (length_buf_loadBuf _ s (Nat.min_le_left _ _)) ⟨hr.le, ?_, take_buf_loadBuf _ _ s⟩
      ⟨Nat.zero_le _, fun hx => absurd rfl hx⟩ fun _ => hpos
    show (refill s).bufLen = min s.params.bufSize (s.srcLen.toNat - (refill s).rdBase.toNat)
    rw [hn, hr]; omega
  · have e : min s.params.bufSize (s.srcLen.toNat - (s.rdBase + BitVec.ofNat 64 s.bufLen).toNat) = 0 := hn
    show s.srcReads ++ (if min s.params.bufSize (s.srcLen.toNat - (s.rdBase + BitVec.ofNat 64 s.bufLen).toNat) = 0
      then [] else _) = s.srcReads
    rw [if_pos e, List.append_nil]

/-- ReadBit in terms of the unread source bits. -/
theorem readBit_cons {s : State} {b : Bool} {rest : List Bool} (hm : s.mode = .read) (h : s.CursorInv)
    (hu : s.unread = b :: rest) :
    ∃ t, readBit s = (some b, t) ∧ Consumed s t 1 ∧ t.eof = s.eof ∧ t.unread = rest := by
  have hlt : s.pos < s.srcBits.length := by
    by_contra hx
    rw [State.unread, List.drop_eq_nil_of_le (by omega)] at hu
    cases hu
  obtain ⟨t, ht, hc, he, -⟩ := readBit_of_lt hm h (by rwa [length_srcBits] at hlt)
  have hb : b = (s.src.read (s.pos / 8)).getLsbD (7 - s.pos % 8) := by
    rw [← srcBits_getElem s s.pos hlt]
    rw [State.unread, List.drop_eq_getElem_cons hlt] at hu
    exact (List.cons.inj hu).1.symm
  refine ⟨t, hb ▸ ht, hc, he, ?_⟩
  rw [hc.unread, hu]; rfl

/-- A run of ReadBits over bits that are there. -/
theorem readBitsN_append {bits rest : List Bool} {s : State} (hm : s.mode = .read) (h : s.CursorInv)
    (hu : s.unread = bits ++ rest) :
    ∃ t, readBitsN bits.length s = (some bits, t) ∧ Consumed s t bits.length ∧ t.eof = s.eof ∧ t.unread = rest := by
  induction bits generalizing s with
  | nil => exact ⟨s, rfl, Consumed.zero h, rfl, hu⟩
  | cons b bs ih =>
    obtain ⟨t, ht, hc, he, hr⟩ := readBit_cons hm h hu
    obtain ⟨u, hu', hc', he', hr'⟩ := ih (hc.mode.trans hm) hc.inv hr
    refine ⟨u, ?_, ?_, he'.trans he, hr'⟩
    · simp only [List.length_cons, readBitsN, ht, hu']
    · rw [List.length_cons, Nat.add_comm]; exact hc.trans hc'

/-- The state ROPEN leaves meets the invariant of the cursor. -/
theorem cursorInv_ropen {s t : State} (hs : exec .ropen s = .next t) (hm : s.mode = .idle) (ha : s.allocOk = true)
    (hB : 1 ≤ s.params.bufSize) :
    t.mode = .read ∧ t.CursorInv ∧ t.pos = 0 ∧ t.srcBits = s.srcBits := by
  simp only [exec, execRopen, hm, ne_eq, not_true_eq_false, if_false, ha, Bool.true_eq_false] at hs
  cases hs
  refine ⟨rfl, ?_, ?_, ?_⟩
  · refine cursorInv_of_read rfl hB (length_buf_loadBuf 0 (clearSession s) (Nat.min_le_left _ _)) ?_
      ⟨Nat.zero_le _, fun hx => absurd rfl hx⟩ fun hx => by cases hx
    exact ⟨Nat.zero_le _, rfl, take_buf_loadBuf 0 _ (clearSession s)⟩
  · simp [State.pos]
  · simp [State.srcBits, State.srcBytes]

end Sys2Proof.Machine
end

