-- ==== Sys2Proof/Laws/Step.lean ====
section
/-! SUPPORT. What one step can do, said once; `do X; do Y` taken apart; and the image of a command word. -/

namespace Sys2Proof.Machine

/-- A sequence that goes on has a first part that answered a next state; it stopped there exactly in MODE FAULT. -/
theorem andThen_next {o : Host.Outcome State Fault Refusal} {f : State → Host.Outcome State Fault Refusal} {t : State} :
    andThen o f = .next t ↔
      ∃ s, o = .next s ∧ ((s.mode = .fault ∧ t = s) ∨ (s.mode ≠ .fault ∧ f s = .next t)) := by
  cases o with
  | next s =>
    simp only [andThen, Host.Outcome.next.injEq]
    constructor
    · intro h
      split at h
      · rename_i hm; cases h; exact ⟨_, rfl, .inl ⟨hm, rfl⟩⟩
      · rename_i hm; exact ⟨_, rfl, .inr ⟨hm, h⟩⟩
    · rintro ⟨u, rfl, ⟨hm, rfl⟩ | ⟨hm, h⟩⟩
      · rw [if_pos hm]
      · rw [if_neg hm, h]
  | fault r => simp [andThen]
  | refused r => simp [andThen]

theorem andThen_of_next {s : State} (f : State → Host.Outcome State Fault Refusal) (h : s.mode ≠ .fault) :
    andThen (.next s) f = f s := by simp [andThen, h]

/-- A word of the opcode map decodes to a command. -/
theorem isCommand_of_decodeCmd {w : CmdWord} {i : Instr} (h : decodeCmd w = .ok i) : i.isCommand = true := by
  unfold decodeCmd at h
  split at h
  · rename_i r hr
    cases h
    have hm := List.mem_of_find?_eq_some hr
    simp only [cmdRows, List.mem_cons, List.not_mem_nil, or_false] at hm
    rcases hm with rfl | rfl | rfl | rfl | rfl | rfl | rfl | rfl | rfl | rfl | rfl | rfl | rfl | rfl | rfl | rfl | rfl |
      rfl | rfl | rfl | rfl <;> rfl
  · split at h <;> cases h

/-- What the outside world's next action can do. -/
inductive Taken (s : State) : HostAccess → State → Prop
  /-- A word written to CMD runs its command. -/
  | command (v : Word64) (i : Instr) (t : State) (hi : decodeCmd (v.setWidth 16) = .ok i)
      (hc : i.isCommand = true) (h : exec i s = .next t) : Taken s (.write 0 v) t
  /-- A reserved word written to CMD is refused. -/
  | reserved (v : Word64) (hi : ∀ i, decodeCmd (v.setWidth 16) ≠ .ok i) : Taken s (.write 0 v) (refuse s)
  /-- ARG0 is stored. -/
  | arg0 (v : Word64) : Taken s (.write 8 v) { s with arg0 := v }
  /-- A write of any other offset is ignored. -/
  | ignored (off : Nat) (v : Word64) (h0 : off ≠ 0) (h8 : off ≠ 8) : Taken s (.write off v) s
  /-- A register is read. -/
  | read (off : Nat) : Taken s (.read off) { s with hostReads := s.hostReads ++ [regRead s off] }
  /-- Hardware reset. -/
  | reset : Taken s .reset (hardwareReset s)
  /-- A source is attached between sessions. -/
  | source (bytes : List Byte) (hs : s.sessionOpen = false) (hl : bytes.length < 2 ^ 64) :
      Taken s (.attachSource bytes)
        { s with src := Memory.ofBytes bytes, srcLen := BitVec.ofNat 64 bytes.length, srcReads := [] }
  /-- A sink is attached between sessions. -/
  | sink (bytes : List Byte) (hs : s.sessionOpen = false) :
      Taken s (.attachSink bytes)
        { s with sink := Memory.ofBytes bytes, sinkLen := bytes.length, sinkWrites := [] }
  /-- The allocation inputs are set. -/
  | alloc (b p : Bool) : Taken s (.setAlloc b p) { s with allocBufOk := b, allocPoolOk := p }

theorem taken_of_takeAccess {a : HostAccess} {s t : State} (h : takeAccess a s = .next t) : Taken s a t := by
  cases a with
  | write off v =>
    by_cases h0 : off = 0
    · subst h0
      simp only [takeAccess, hostWrite, regAt, if_true, runWord, decode] at h
      cases hd : decodeCmd (v.setWidth 16) with
      | ok i => rw [hd] at h; exact .command v i t hd (isCommand_of_decodeCmd hd) h
      | error e =>
        rw [hd] at h; cases h
        exact .reserved v fun i hi => by rw [hi] at hd; cases hd
    · by_cases h8 : off = 8
      · subst h8
        simp [takeAccess, hostWrite, regAt] at h
        subst h; exact .arg0 v
      · have : t = s := by
          by_cases h4 : off = 4
          · simp [takeAccess, hostWrite, regAt, h4] at h; exact h.symm
          · by_cases h16 : off = 16
            · simp [takeAccess, hostWrite, regAt, h16] at h; exact h.symm
            · simp [takeAccess, hostWrite, regAt, h0, h4, h8, h16] at h; exact h.symm
        subst this; exact .ignored off v h0 h8
  | read off => simp only [takeAccess, hostRead, Host.Outcome.next.injEq] at h; subst h; exact .read off
  | reset => simp only [takeAccess, Host.Outcome.next.injEq] at h; subst h; exact .reset
  | attachSource bytes =>
    simp only [takeAccess, attachSource] at h
    split at h
    · cases h
    · split at h
      · cases h
      · rename_i hs hl
        cases h
        exact .source bytes (by simpa using hs) (by omega)
  | attachSink bytes =>
    simp only [takeAccess, attachSink] at h
    split at h
    · cases h
    · rename_i hs
      cases h
      exact .sink bytes (by simpa using hs)
  | setAlloc b p => simp only [takeAccess, Host.Outcome.next.injEq] at h; subst h; exact .alloc b p

/-- What one step can do: nothing when no access waits, else the next access. -/
theorem step_cases {s t : State} (h : step s = .next t) :
    (s.host = [] ∧ t = s) ∨ ∃ a rest, s.host = a :: rest ∧ Taken { s with host := rest } a t := by
  unfold step at h
  split at h
  · rename_i hh; cases h; exact .inl ⟨hh, rfl⟩
  · rename_i a rest hh; exact .inr ⟨a, rest, hh, taken_of_takeAccess h⟩

end Sys2Proof.Machine
end

