-- ==== Sys2Proof/Laws/Tree.lean ====
section
/-! SUPPORT. The tree read off the pool: more depth or more entries do not change it, its depth is below the bound, and the
serialized form is self-delimiting (R27, R63). -/

namespace Sys2Proof.Machine

/-- One level of the reading: what the entry of a tree's root says. -/
theorem treeAt_succ {nodes : List Node} {f : Nat} {i : PoolIx} {t : CodeTree} :
    treeAt nodes (f + 1) i = some t ↔ ∃ n, nodes[i.toNat]? = some n ∧
      ((n.kind = true ∧ t = .leaf n.sym) ∨
        (n.kind = false ∧ ∃ l r, treeAt nodes f n.left = some l ∧ treeAt nodes f n.right = some r ∧
          t = .internal l r)) := by
  simp only [treeAt]
  cases hn : nodes[i.toNat]? with
  | none => simp
  | some n =>
    cases hk : n.kind with
    | true => simp [hk]; exact eq_comm
    | false =>
      cases hl : treeAt nodes f n.left with
      | none => simp [hk, hl]
      | some l =>
        cases hr : treeAt nodes f n.right with
        | none => simp [hk, hl, hr]
        | some r => simp [hk, hl, hr]; exact eq_comm

/-- A deeper bound and more entries read the same tree. -/
theorem treeAt_mono {nodes more : List Node} {f g : Nat} {i : PoolIx} {t : CodeTree}
    (h : treeAt nodes f i = some t) (hg : f ≤ g) : treeAt (nodes ++ more) g i = some t := by
  induction f generalizing g i t with
  | zero => simp [treeAt] at h
  | succ f ih =>
    obtain ⟨g, rfl⟩ : ∃ k, g = k + 1 := ⟨g - 1, by omega⟩
    obtain ⟨n, hn, hcase⟩ := treeAt_succ.mp h
    have hlt : i.toNat < nodes.length := (List.getElem?_eq_some_iff.mp hn).1
    refine treeAt_succ.mpr ⟨n, by rw [List.getElem?_append_left hlt, hn], ?_⟩
    rcases hcase with hc | ⟨hk, l, r, hl, hr, ht⟩
    · exact .inl hc
    · exact .inr ⟨hk, l, r, ih hl (by omega), ih hr (by omega), ht⟩

/-- The tree read with a bound is less deep than the bound. -/
theorem depth_lt_of_treeAt {nodes : List Node} {f : Nat} {i : PoolIx} {t : CodeTree}
    (h : treeAt nodes f i = some t) : t.depth < f := by
  induction f generalizing i t with
  | zero => simp [treeAt] at h
  | succ f ih =>
    obtain ⟨n, -, ⟨-, rfl⟩ | ⟨-, l, r, hl, hr, rfl⟩⟩ := treeAt_succ.mp h
    · simp [CodeTree.depth]
    · have := ih hl
      have := ih hr
      simp only [CodeTree.depth]
      omega

theorem leaves_pos (t : CodeTree) : 1 ≤ t.leaves := by
  induction t with
  | leaf sym => simp [CodeTree.leaves]
  | internal l r ihl ihr => simp only [CodeTree.leaves]; omega

/-- The serialized form is self-delimiting: two trees at the start of one bit string are the same tree (R63). -/
theorem ser_append_inj {t u : CodeTree} {xs ys : List Bool} (h : t.ser ++ xs = u.ser ++ ys) : t = u ∧ xs = ys := by
  induction t generalizing u xs ys with
  | leaf sym =>
    cases u with
    | leaf sym' =>
      simp only [CodeTree.ser, leafBits, List.cons_append, List.cons.injEq, true_and] at h
      obtain ⟨h1, h2⟩ := List.append_inj h (by simp)
      exact ⟨by rw [bitsMsb_injective h1], h2⟩
    | internal l r => simp [CodeTree.ser, leafBits] at h
  | internal l r ihl ihr =>
    cases u with
    | leaf sym' => simp [CodeTree.ser, leafBits] at h
    | internal l' r' =>
      simp only [CodeTree.ser, List.cons_append, List.cons.injEq, true_and, List.append_assoc] at h
      obtain ⟨rfl, h1⟩ := ihl h
      obtain ⟨rfl, h2⟩ := ihr h1
      exact ⟨rfl, h2⟩

end Sys2Proof.Machine
end

