-- ==== Sys2Proof/Laws/Writer.lean ====
section
/-! SUPPORT. The writer: what WriteBit, WriteByte and runs of them do to the stream (R75, R76). -/

namespace Sys2Proof.Machine

theorem bufBits_length (s : State) : s.bufBits.length = 8 * s.buf.length := length_flatMap_bitsMsb s.buf

theorem WriterFrame.refl (s : State) : WriterFrame s s := ⟨StoresAtEnd.refl s, rfl⟩

theorem WriterFrame.trans {s t u : State} (h : WriterFrame s t) (k : WriterFrame t u) : WriterFrame s u := by
  refine ⟨h.1.trans k.1, ?_⟩
  rw [k.2]
  conv_lhs => rw [h.2]

theorem WriterFrame.params {s t : State} (h : WriterFrame s t) : t.params = s.params := by rw [h.2]

theorem WriterFrame.mode {s t : State} (h : WriterFrame s t) : t.mode = s.mode := by rw [h.2]

/-- The invariant of the cursor, in the two halves a write session needs. -/
theorem cursorInv_of_write {s : State} (hm : s.mode = .write) (hB : 1 ≤ s.params.bufSize)
    (hl : s.buf.length = s.params.bufSize) (hc : s.curByte < s.params.bufSize) (hbl : s.bufLen = 0)
    (hrd : s.rdBase = 0) (hz : ∀ b ∈ s.bufBits.drop s.bitPlace, b = false) (he : s.eof = false) : s.CursorInv where
  bufSize_pos := hB
  buf_length := hl
  write_cursor _ := ⟨hc, hbl, hrd⟩
  write_zeros _ := hz
  read_window h := by rw [hm] at h; cases h
  read_cursor h := by rw [hm] at h; cases h
  eof_at_end h := by rw [he] at h; cases h

theorem State.CursorInv.eof_write {s : State} (h : s.CursorInv) (hm : s.mode = .write) : s.eof = false := by
  cases he : s.eof
  · rfl
  · have := (h.eof_at_end he).1
    rw [hm] at this; cases this

theorem bitPlace_lt {s : State} (hm : s.mode = .write) (h : s.CursorInv) : s.bitPlace < 8 * s.params.bufSize := by
  have := (h.write_cursor hm).1
  have := s.curBit.isLt
  unfold State.bitPlace
  omega

/-- Nothing written is nothing changed. -/
theorem Appended.nil {s : State} (hm : s.mode = .write) (h : s.CursorInv) : Appended s s [] where
  stream := by simp
  cursor := by simp [Nat.mod_eq_of_lt (bitPlace_lt hm h)]
  sinkLen := by simp [Nat.div_eq_of_lt (bitPlace_lt hm h)]
  writes := by simp [Nat.div_eq_of_lt (bitPlace_lt hm h)]
  inv := h
  frame := WriterFrame.refl s

theorem Appended.mode {s t : State} {bs : List Bool} (h : Appended s t bs) : t.mode = s.mode := h.frame.mode

/-- One run of bits after another. -/
theorem Appended.trans {s t u : State} {as bs : List Bool} (h : Appended s t as) (k : Appended t u bs) :
    Appended s u (as ++ bs) := by
  have hp := h.frame.params
  have hpos : 0 < 8 * s.params.bufSize := by
    have := h.inv.bufSize_pos
    rw [hp] at this; omega
  have hsum : (s.bitPlace + as.length) % (8 * s.params.bufSize) + bs.length + 8 * s.params.bufSize *
      ((s.bitPlace + as.length) / (8 * s.params.bufSize)) = s.bitPlace + (as ++ bs).length := by
    have := Nat.mod_add_div (s.bitPlace + as.length) (8 * s.params.bufSize)
    rw [List.length_append]; omega
  have hdiv : (s.bitPlace + (as ++ bs).length) / (8 * s.params.bufSize) =
      (s.bitPlace + as.length) / (8 * s.params.bufSize) +
        ((s.bitPlace + as.length) % (8 * s.params.bufSize) + bs.length) / (8 * s.params.bufSize) := by
    rw [← hsum, Nat.add_mul_div_left _ _ hpos, Nat.add_comm]
  refine ⟨?_, ?_, ?_, ?_, k.inv, h.frame.trans k.frame⟩
  · rw [k.stream, h.stream, List.append_assoc]
  · rw [k.cursor, h.cursor, hp, ← hsum, Nat.add_mul_mod_self_left]
  · rw [k.sinkLen, h.sinkLen, h.cursor, hp, hdiv, Nat.mul_add, Nat.add_assoc]
  · rw [k.writes, h.writes, h.cursor, hp, hdiv, List.replicate_add, List.append_assoc]

/-- The step of WriteBit inside BUF. -/
theorem writeBit_of_lt (b : Bool) {s : State} (h : s.bitPlace + 1 < 8 * s.params.bufSize) :
    writeBit b s = { s with
      buf := s.buf.modify s.curByte (putBit s.curBit b)
      curBit := s.curBit + 1
      curByte := if s.curBit = 7 then s.curByte + 1 else s.curByte } := by
  unfold writeBit
  split
  · rename_i h7
    have : ¬ s.curByte + 1 = s.params.bufSize := by
      rw [State.bitPlace, h7] at h
      simp at h; omega
    simp only [nextByte, if_neg this]
  · rfl

/-- The step of WriteBit at the last bit of BUF: the buffer goes to the sink and the cursor to its start. -/
theorem writeBit_of_last (b : Bool) {s : State} (h : s.bitPlace + 1 = 8 * s.params.bufSize)
    (hl : s.buf.length = s.params.bufSize) :
    writeBit b s = { memWrite (s.buf.modify s.curByte (putBit s.curBit b)) s with
      buf := List.replicate s.params.bufSize 0, curBit := 0, curByte := 0 } := by
  have h7 : s.curBit = 7 := by
    have := s.curBit.isLt
    rw [State.bitPlace] at h
    apply BitVec.eq_of_toNat_eq
    simp; omega
  have hb : s.curByte + 1 = s.params.bufSize := by
    rw [State.bitPlace, h7] at h
    simp at h; omega
  have ht : (s.buf.modify s.curByte (putBit s.curBit b)).take s.params.bufSize =
      s.buf.modify s.curByte (putBit s.curBit b) := List.take_of_length_le (by simp [hl])
  have hz : s.curBit + 1 = 0 := by rw [h7]; rfl
  simp only [writeBit, if_pos h7, nextByte, if_pos hb, transfer, ht, hz]
  rfl

/-- `WriteBit(b)` appends the bit (R76). -/
theorem appended_writeBit (b : Bool) {s : State} (hm : s.mode = .write) (h : s.CursorInv) :
    Appended s (writeBit b s) [b] := by
  have hB := h.bufSize_pos
  have hl := h.buf_length
  have hlt := bitPlace_lt hm h
  have hbl : s.bufBits.length = 8 * s.params.bufSize := by rw [bufBits_length, hl]
  have hbits : (s.buf.modify s.curByte (putBit s.curBit b)).flatMap bitsMsb = s.bufBits.set s.bitPlace b :=
    flatMap_bits_modify _ _ _ _
  by_cases hlast : s.bitPlace + 1 = 8 * s.params.bufSize
  · rw [writeBit_of_last b hlast hl]
    have hset : s.bufBits.set s.bitPlace b = s.bufBits.take s.bitPlace ++ [b] := by
      rw [← take_set_succ _ _ _ (by omega), hlast, List.take_of_length_le (by simp [hbl])]
    refine ⟨?_, ?_, ?_, ?_, ?_, ?_⟩
    · have : (State.sinkBytes { memWrite (s.buf.modify s.curByte (putBit s.curBit b)) s with
          buf := List.replicate s.params.bufSize 0, curBit := 0, curByte := 0 }) =
          s.sinkBytes ++ s.buf.modify s.curByte (putBit s.curBit b) := sinkBytes_memWrite _ s
      rw [State.streamBits, this, List.flatMap_append, hbits, hset]
      simp [State.streamBits, State.bitPlace]
    · simp [State.bitPlace] at hlast ⊢
      rw [hlast, Nat.mod_self]
    · simp [hlast, hl, Nat.div_self (show 0 < 8 * s.params.bufSize by omega)]
    · simp [hlast, hl, Nat.div_self (show 0 < 8 * s.params.bufSize by omega)]
    · refine cursorInv_of_write hm hB (by simp) (by simp; omega) (h.write_cursor hm).2.1 (h.write_cursor hm).2.2
        ?_ (h.eof_write hm)
      intro x hx
      have := List.mem_of_mem_drop hx
      rw [State.bufBits, flatMap_bits_zeros] at this
      exact List.eq_of_mem_replicate this
    · exact ⟨storesAtEnd_memWrite _ s, rfl⟩
  · have hlt' : s.bitPlace + 1 < 8 * s.params.bufSize := by omega
    rw [writeBit_of_lt b hlt']
    have hplace : 8 * (if s.curBit = 7 then s.curByte + 1 else s.curByte) + (s.curBit + 1).toNat = s.bitPlace + 1 := by
      unfold State.bitPlace
      by_cases h7 : s.curBit = 7
      · rw [if_pos h7, h7]; simp; omega
      · rw [if_neg h7]
        have : s.curBit.toNat ≠ 7 := fun e => h7 (BitVec.eq_of_toNat_eq (by simpa using e))
        have := s.curBit.isLt
        rw [BitVec.toNat_add]
        simp; omega
    refine ⟨?_, ?_, ?_, ?_, ?_, ?_⟩
    · simp only [State.streamBits, State.bufBits] at hbits ⊢
      rw [show (State.bitPlace { s with
          buf := s.buf.modify s.curByte (putBit s.curBit b), curBit := s.curBit + 1
          curByte := if s.curBit = 7 then s.curByte + 1 else s.curByte }) = s.bitPlace + 1 from hplace,
        hbits, take_set_succ _ _ _ (by rw [← State.bufBits, hbl]; omega), ← List.append_assoc]
      rfl
    · exact hplace.trans (by rw [List.length_singleton, Nat.mod_eq_of_lt hlt'])
    · simp [Nat.div_eq_of_lt hlt']
    · simp [Nat.div_eq_of_lt hlt']
    · refine cursorInv_of_write hm hB (by simpa using hl) ?_ (h.write_cursor hm).2.1 (h.write_cursor hm).2.2
        ?_ (h.eof_write hm)
      · have := (s.curBit + 1).isLt
        simp only
        omega
      · intro x hx
        refine h.write_zeros hm x ?_
        simp only [State.bufBits] at hbits hx ⊢
        rw [show (State.bitPlace { s with
          buf := s.buf.modify s.curByte (putBit s.curBit b), curBit := s.curBit + 1
          curByte := if s.curBit = 7 then s.curByte + 1 else s.curByte }) = s.bitPlace + 1 from hplace,
          hbits, List.drop_set_of_lt (by omega)] at hx
        exact (List.drop_sublist_drop_left _ (Nat.le_succ _)).subset hx
    · exact ⟨StoresAtEnd.refl s, rfl⟩

/-- A run of WriteBits appends its bits. -/
theorem appended_writeBits (bs : List Bool) {s : State} (hm : s.mode = .write) (h : s.CursorInv) :
    Appended s (writeBits bs s) bs := by
  induction bs generalizing s with
  | nil => exact Appended.nil hm h
  | cons b bs ih =>
    have h1 := appended_writeBit b hm h
    exact h1.trans (ih (h1.mode.trans hm) h1.inv)

theorem writeBits_append (as bs : List Bool) (s : State) :
    writeBits (as ++ bs) s = writeBits bs (writeBits as s) := by simp [writeBits]

/-- `WriteByte(v)` at a byte-aligned cursor is the eight WriteBits of its bits (R76). -/
theorem writeByte_eq_writeBits (v : Byte) {s : State} (h0 : s.curBit = 0) :
    writeByte v s = writeBits (bitsMsb v) s := by
  have hv : bitsMsb v = [v.getMsbD 0, v.getMsbD 1, v.getMsbD 2, v.getMsbD 3, v.getMsbD 4, v.getMsbD 5,
    v.getMsbD 6, v.getMsbD 7] := rfl
  have hput : ∀ x : Byte, putBit 7 (v.getMsbD 7) (putBit 6 (v.getMsbD 6) (putBit 5 (v.getMsbD 5)
      (putBit 4 (v.getMsbD 4) (putBit 3 (v.getMsbD 3) (putBit 2 (v.getMsbD 2) (putBit 1 (v.getMsbD 1)
        (putBit 0 (v.getMsbD 0) x))))))) = v := by
    intro x
    apply bitsMsb_injective
    rw [bitsMsb_putBit, bitsMsb_putBit, bitsMsb_putBit, bitsMsb_putBit, bitsMsb_putBit, bitsMsb_putBit,
      bitsMsb_putBit, bitsMsb_putBit, hv]
    rfl
  have hbuf : ∀ (l : List Byte) (i : Nat), ((((((((l.modify i (putBit 0 (v.getMsbD 0))).modify i
      (putBit 1 (v.getMsbD 1))).modify i (putBit 2 (v.getMsbD 2))).modify i (putBit 3 (v.getMsbD 3))).modify i
      (putBit 4 (v.getMsbD 4))).modify i (putBit 5 (v.getMsbD 5))).modify i (putBit 6 (v.getMsbD 6))).modify i
      (putBit 7 (v.getMsbD 7))) = l.set i v := by
    intro l
    induction l with
    | nil => intro i; simp
    | cons x xs ih =>
      intro i
      cases i with
      | zero => exact congrArg (· :: xs) (hput x)
      | succ i => simpa using ih i
  have hstep : ∀ (k : BitVec 3) (b : Bool) (X : List Byte), k ≠ 7 → writeBit b { s with buf := X, curBit := k } =
      { s with buf := X.modify s.curByte (putBit k b), curBit := k + 1 } := by
    intro k b X hk
    simp only [writeBit, if_neg hk]
  have hlast : ∀ (b : Bool) (X : List Byte), writeBit b { s with buf := X, curBit := 7 } =
      nextByte { s with buf := X.modify s.curByte (putBit 7 b), curBit := 0 } := by
    intro b X
    simp only [writeBit, if_true]
    rfl
  have hs : s = { s with buf := s.buf, curBit := 0 } := by rw [← h0]
  have hbuf := hbuf s.buf s.curByte
  rw [hv]
  simp only [writeBits, List.foldl_cons, List.foldl_nil]
  conv_rhs => rw [hs]
  rw [hstep 0 _ _ (by decide), hstep (0 + 1) _ _ (by decide), hstep (0 + 1 + 1) _ _ (by decide),
    hstep (0 + 1 + 1 + 1) _ _ (by decide), hstep (0 + 1 + 1 + 1 + 1) _ _ (by decide),
    hstep (0 + 1 + 1 + 1 + 1 + 1) _ _ (by decide), hstep (0 + 1 + 1 + 1 + 1 + 1 + 1) _ _ (by decide)]
  rw [show (0 + 1 + 1 + 1 + 1 + 1 + 1 + 1 : BitVec 3) = 7 from rfl, hlast]
  rw [show (0 + 1 + 1 + 1 + 1 + 1 + 1 : BitVec 3) = 6 from rfl, show (0 + 1 + 1 + 1 + 1 + 1 : BitVec 3) = 5 from rfl,
    show (0 + 1 + 1 + 1 + 1 : BitVec 3) = 4 from rfl, show (0 + 1 + 1 + 1 : BitVec 3) = 3 from rfl,
    show (0 + 1 + 1 : BitVec 3) = 2 from rfl, show (0 + 1 : BitVec 3) = 1 from rfl, hbuf, ← h0]
  rfl

/-- `WriteByte(v)` at a byte-aligned cursor appends its eight bits. -/
theorem appended_writeByte (v : Byte) {s : State} (hm : s.mode = .write) (h : s.CursorInv) (h0 : s.curBit = 0) :
    Appended s (writeByte v s) (bitsMsb v) :=
  writeByte_eq_writeBits v h0 ▸ appended_writeBits _ hm h

/-- CUR_BIT after a run of bits. -/
theorem Appended.curBit {s t : State} {bs : List Bool} (h : Appended s t bs) :
    t.curBit.toNat = (s.curBit.toNat + bs.length) % 8 := by
  have hc := congrArg (· % 8) h.cursor
  simp only [State.bitPlace] at hc
  rw [Nat.mod_mul_right_mod] at hc
  have := t.curBit.isLt
  omega

/-- Whole bytes written one after the other at a byte-aligned cursor. -/
theorem appended_writeBytes (vs : List Byte) {s : State} (hm : s.mode = .write) (h : s.CursorInv)
    (h0 : s.curBit = 0) : Appended s (writeBytes vs s) (vs.flatMap bitsMsb) := by
  induction vs generalizing s with
  | nil => exact Appended.nil hm h
  | cons v vs ih =>
    have h1 := appended_writeByte v hm h h0
    have h2 : (writeByte v s).curBit = 0 := by
      apply BitVec.eq_of_toNat_eq
      rw [h1.curBit, h0]; simp
    exact h1.trans (ih (h1.mode.trans hm) h1.inv h2)

/-- The state WOPEN leaves meets the invariant of the cursor. -/
theorem cursorInv_wopen {s t : State} (hs : exec .wopen s = .next t) (hm : s.mode = .idle) (ha : s.allocOk = true)
    (hB : 1 ≤ s.params.bufSize) : t.mode = .write ∧ t.CursorInv ∧ t.bitPlace = 0 ∧ t.sink = s.sink ∧
      t.sinkLen = s.sinkLen := by
  simp only [exec, execWopen, hm, ne_eq, not_true_eq_false, if_false, ha, Bool.true_eq_false] at hs
  cases hs
  refine ⟨rfl, cursorInv_of_write rfl hB (by simp) hB rfl rfl (fun b hb => ?_) rfl, rfl, rfl, rfl⟩
  have := List.mem_of_mem_drop hb
  rw [State.bufBits, flatMap_bits_zeros] at this
  exact List.eq_of_mem_replicate this

end Sys2Proof.Machine
end

