-- ==== Sys2Proof/Tests/Slice0.lean ====
section
/-! SUPPORT. The model's own tests: the well-formedness checks, a word written out from the spec for every constructor, the
spec's worked examples one command at a time, and a witness for the hypotheses of the statements. -/

namespace Sys2Proof.Tests

open Sys2Proof Sys2Proof.Machine

-- Each test is elaborated in turn: side by side they would ask for more threads than there are.
set_option Elab.async false

/-! ## WellFormed refuses an ill-formed term at each check -/

theorem test_wf_wbits_65 : (Instr.wbits 65).wellFormed = false := by decide
theorem test_wf_wbits_64 : (Instr.wbits 64).wellFormed = true := by decide
theorem test_wf_code_empty : (Instr.wireCode []).wellFormed = false := by decide
theorem test_wf_code_65 : (Instr.wireCode (List.replicate 65 true)).wellFormed = false := by decide
theorem test_wf_code_64 : (Instr.wireCode (List.replicate 64 true)).wellFormed = true := by decide
theorem test_wf_trailer_count_6 : (Instr.wireTrailerPacked 0 6).wellFormed = false := by decide
theorem test_wf_trailer_padding : (Instr.wireTrailerPacked 0b00001 4).wellFormed = false := by decide
theorem test_wf_trailer_full : (Instr.wireTrailerPacked 0b00110 5).wellFormed = true := by decide
theorem test_wf_zero_trailer_low_bit : (Instr.wireTrailerZero 0x39).wellFormed = false := by decide
theorem test_wf_zero_trailer : (Instr.wireTrailerZero 0x38).wellFormed = true := by decide

/-! ## Decoding, from the match column of R56 and the patterns of R61 to R66 -/

theorem test_decode_wopen : decode (.word 0b0001000000000000) = .ok .wopen := by decide
theorem test_decode_wbit : decode (.word 0b0001000100000001) = .ok (.wbit true) := by decide
theorem test_decode_wbits : decode (.word 0b0001001000000011) = .ok (.wbits 3) := by decide
theorem test_decode_wbyte : decode (.word 0b0001001110000000) = .ok (.wbyte 0x80) := by decide
theorem test_decode_wflush : decode (.word 0b0001010000000000) = .ok .wflush := by decide
theorem test_decode_ropen : decode (.word 0b0010000000000000) = .ok .ropen := by decide
theorem test_decode_rbit : decode (.word 0b0010000100000000) = .ok .rbit := by decide
theorem test_decode_rclose : decode (.word 0b0010001000000000) = .ok .rclose := by decide
theorem test_decode_tbuild : decode (.word 0b0011000000000000) = .ok .tbuild := by decide
theorem test_decode_tser : decode (.word 0b0100000000000000) = .ok .tser := by decide
theorem test_decode_tdes : decode (.word 0b0100000100000000) = .ok .tdes := by decide
theorem test_decode_cgen : decode (.word 0b0101000000000000) = .ok .cgen := by decide
theorem test_decode_fscan : decode (.word 0b0110000000000000) = .ok .fscan := by decide
theorem test_decode_esingle : decode (.word 0b0110000100000000) = .ok .esingle := by decide
theorem test_decode_epay : decode (.word 0b0110001000000000) = .ok .epay := by decide
theorem test_decode_etrail : decode (.word 0b0110001100000000) = .ok .etrail := by decide
theorem test_decode_encode : decode (.word 0b0110111100000000) = .ok .encode := by decide
theorem test_decode_dsingle : decode (.word 0b0111000000000000) = .ok .dsingle := by decide
theorem test_decode_dpay : decode (.word 0b0111000100000000) = .ok .dpay := by decide
theorem test_decode_decode : decode (.word 0b0111111100000000) = .ok .decode := by decide
theorem test_decode_clrerr : decode (.word 0b1111000000000000) = .ok .clrerr := by decide

/-- R61: the frame `80 61 04 00 00 00 00 00 00 00` of R109's example, bit by bit. -/
theorem test_decode_single : decode (.frame (
    [true, false, false, false, false, false, false, false] ++ [false, true, true, false, false, false, false, true] ++
    [false, false, false, false, false, true, false, false] ++ List.replicate 56 false)) =
      .ok (.wireSingle 0 0x61 4) := by decide
theorem test_decode_node_internal : decode (.node [false]) = .ok .wireInternal := by decide
/-- R63: `1 s7 .. s0` with the symbol `a`. -/
theorem test_decode_node_leaf :
    decode (.node [true, false, true, true, false, false, false, false, true]) = .ok (.wireLeaf 0x61) := by decide
theorem test_decode_code : decode (.code [true, false, true]) = .ok (.wireCode [true, false, true]) := by decide
/-- R65, R112: `00110101` = 0x35. -/
theorem test_decode_trailer_packed :
    decode (.trailer [false, false, true, true, false, true, false, true]) = .ok (.wireTrailerPacked 0b00110 5) := by
  decide
/-- R66, R112: `38 00`. -/
theorem test_decode_trailer_zero :
    decode (.trailer ([false, false, true, true, true, false, false, false] ++ List.replicate 8 false)) =
      .ok (.wireTrailerZero 0x38) := by decide

theorem test_reserved_opcode : decode (.word 0x0000) = .error (.reservedOpcode 0) := by decide
theorem test_reserved_wbit_imm : decode (.word 0x1102) = .error (.reservedImmediate 0x11 2) := by decide
theorem test_reserved_wbits_imm7 : decode (.word 0x1280) = .error (.reservedImmediate 0x12 0x80) := by decide
theorem test_reserved_encode_imm : decode (.word 0x6F01) = .error (.reservedImmediate 0x6F 1) := by decide
theorem test_trailer_count_7 : decode (.trailer (List.replicate 8 true)) = .error (.trailerCount 7) := by decide
theorem test_short_leaf : decode (.node [true, true]) = .error .notANode := by decide

/-! ## Small states -/

/-- After reset, with a buffer of `b` bytes and a source attached. -/
def idleWith (b : Nat) (src : List Byte) : State :=
  { State.reset with
    params := { Config.Params.decided with bufSize := b }
    buf := List.replicate b 0
    src := Memory.ofBytes src
    srcLen := BitVec.ofNat 64 src.length }

/-- A write session just opened. -/
def writing (b : Nat) (src : List Byte) : State := { idleWith b src with mode := .write }

/-- A read session just opened on a source no longer than the buffer. -/
def reading (b : Nat) (src : List Byte) : State :=
  { idleWith b src with
    mode := .read, buf := src ++ List.replicate (b - src.length) 0, bufLen := src.length
    mark := (src.headD 0).getLsbD 7 }

/-- The builder's pool of R94's example. -/
def poolAB : List Node :=
  [{ kind := true, sym := 0x61, left := 0, right := 0, freq := 2, freqP := true },
   { kind := true, sym := 0x62, left := 0, right := 0, freq := 3, freqP := true },
   { kind := false, sym := 0, left := 0, right := 1, freq := 5, freqP := true }]

/-- The source of R70, `aabbb`. -/
def aabbb : List Byte := [0x61, 0x61, 0x62, 0x62, 0x62]

/-- A write session over `aabbb` with the frequencies scanned. -/
def scanned : State :=
  { writing 4 aabbb with freq := frequencies aabbb, leafCount := 2, freqV := true }

/-- And with the tree built. -/
def built : State := { scanned with nodes := poolAB, root := 2, wl := [2], treeV := true }

/-- And with the codes derived: R104's example. -/
def coded : State :=
  { built with
    codeVal := setEntry (setEntry CodeTable.zero.1 0x61 0) 0x62 0x8000000000000000
    codeLen := setEntry (setEntry CodeTable.zero.2 0x61 1) 0x62 1
    codeV := true }

/-- A read session over R70's file, in front of its tree. -/
def reading584 : State := reading 4 [0x58, 0x6C, 0x47, 0x00]

/-- The same behind the tree: cursor (2, 3), the deserializer's pool of R100's example. -/
def behindTree : State :=
  { reading584 with
    curByte := 2, curBit := 3, treeV := true, root := 0
    nodes := [{ kind := false, sym := 0, left := 1, right := 2, freq := 0, freqP := false },
      { kind := true, sym := 0x61, left := 0, right := 0, freq := 0, freqP := false },
      { kind := true, sym := 0x62, left := 0, right := 0, freq := 0, freqP := false }] }

/-- What a test looks at of an outcome. -/
def look {α : Type} (f : State → α) : Host.Outcome State Fault Refusal → Option α
  | .next s => some (f s)
  | .fault _ => none
  | .refused _ => none

/-! ## The spec's worked examples, one command each -/

/-- R77: STATUS = 0x00000001. -/
theorem test_wopen : look (fun t => t.status) (exec .wopen State.reset) = some 0x00000001 := by decide +kernel
/-- R78: BUF[0] = 0x80, STATUS = 0x00001001. -/
theorem test_wbit : look (fun t => (t.buf, t.status)) (exec (.wbit true) (writing 2 [])) =
    some ([0x80, 0], 0x00001001) := by decide +kernel
/-- R79: BUF[0] = 0xD0, cursor (0, 4). -/
theorem test_wbits : look (fun t => (t.buf, t.curByte, t.curBit))
    (exec (.wbits 3) { writing 2 [] with buf := [0x80, 0], curBit := 1, arg0 := 0xA000000000000000 }) =
      some ([0xD0, 0], 0, 4) := by decide +kernel
/-- R80: the second WBYTE of `AB CD` transfers both bytes. -/
theorem test_wbyte : look (fun t => (t.sinkBytes, t.sinkWrites, t.buf, t.curByte))
    (exec (.wbyte 0xCD) { writing 2 [] with buf := [0xAB, 0], curByte := 1 }) =
      some ([0xAB, 0xCD], [2], [0, 0], 0) := by decide +kernel
/-- R44: WBYTE off a byte boundary is refused. -/
theorem test_wbyte_unaligned : look (fun t => (t.cmdErr, t.buf))
    (exec (.wbyte 0xCD) { writing 2 [] with curBit := 1 }) = some (true, [0, 0]) := by decide +kernel
/-- R81: the partly filled byte `80` is written and STATUS is 0. -/
theorem test_wflush : look (fun t => (t.sinkBytes, t.status))
    (exec .wflush { writing 2 [] with buf := [0x80, 0], curBit := 1 }) = some ([0x80], 0) := by decide +kernel
/-- R86: SRC = `A5 3C`, BUF_SIZE = 1: STATUS = 0x00000012. -/
theorem test_ropen : look (fun t => (t.buf, t.bufLen, t.status)) (exec .ropen (idleWith 1 [0xA5, 0x3C])) =
    some ([0xA5], 1, 0x00000012) := by decide +kernel
/-- R87: the ninth RBIT refills and returns 0. -/
theorem test_rbit_refill : look (fun t => (t.res, t.rdBase, t.buf))
    (exec .rbit { reading 1 [0xA5] with src := Memory.ofBytes [0xA5, 0x3C], srcLen := 2, curByte := 1 }) =
      some (0, 1, [0x3C]) := by decide +kernel
/-- R87: the seventeenth RBIT: RES = 0, STATUS = 0x0000001A. -/
theorem test_rbit_eof : look (fun t => (t.res, t.status))
    (exec .rbit { reading 1 [0x3C] with
      src := Memory.ofBytes [0xA5, 0x3C], srcLen := 2, rdBase := 1, curByte := 1, mark := true, res := 1 }) =
      some (0, 0x0000001A) := by decide +kernel
/-- R88: STATUS = 0. -/
theorem test_rclose : look (fun t => t.status) (exec .rclose reading584) = some 0 := by decide +kernel
/-- R94: root 2 = Internal (0, 1) of frequency 5, three nodes. -/
theorem test_tbuild : look (fun t => (t.root, t.nodes.length, (nodeAt t.nodes 2).left, (nodeAt t.nodes 2).right,
    (nodeAt t.nodes 2).freq)) (exec .tbuild scanned) = some (2, 3, 0, 1, 5) := by decide +kernel
/-- R98: BUF = `58 6C 40`, cursor (2, 3). -/
theorem test_tser : look (fun t => (t.buf, t.curByte, t.curBit)) (exec .tser built) =
    some ([0x58, 0x6C, 0x40, 0], 2, 3) := by decide +kernel
/-- R100: three nodes in pre-order, POS = 19. -/
theorem test_tdes : look (fun t => (t.tree, t.nodes.length, t.root, t.pos)) (exec .tdes reading584) =
    some (some (.internal (.leaf 0x61) (.leaf 0x62)), 3, 0, 19) := by decide +kernel
/-- R128: a source that ends inside the tree is InvalidFormatError. -/
theorem test_tdes_truncated : look (fun t => t.status) (exec .tdes (reading 2 [0x58, 0x6C])) =
    some 0x00000203 := by decide +kernel
/-- R104: codes 0 and 1 of length 1; another symbol has length 0. -/
theorem test_cgen : look (fun t => (entry t.codeLen 0x61, entry t.codeVal 0x61, entry t.codeLen 0x62,
    entry t.codeVal 0x62, entry t.codeLen 0x63)) (exec .cgen built) = some (1, 0, 1, 0x8000000000000000, 0) := by
  decide +kernel
/-- R108: STATUS after `WOPEN; FSCAN` is 0x00020021. -/
theorem test_fscan : look (fun t => (entry t.freq 0x61, entry t.freq 0x62, t.status))
    (exec .fscan (writing 4 aabbb)) = some (2, 3, 0x00020021) := by decide +kernel
/-- R109: `80 61 04 00 00 00 00 00 00 00`. -/
theorem test_esingle : look (fun t => t.buf.take 10) (exec .esingle
    { writing 16 [0x61, 0x61, 0x61, 0x61] with
      freq := frequencies [0x61, 0x61, 0x61, 0x61], leafCount := 1, freqV := true }) =
      some [0x80, 0x61, 4, 0, 0, 0, 0, 0, 0, 0] := by decide +kernel
/-- R110: BUF[2] = 0x47, cursor (3, 0). -/
theorem test_epay : look (fun t => (t.buf, t.curByte, t.curBit)) (exec .epay
    { coded with buf := [0x58, 0x6C, 0x40, 0], curByte := 2, curBit := 3 }) =
      some ([0x58, 0x6C, 0x47, 0], 3, 0) := by decide +kernel
/-- R112: `00110000` with u = 5 becomes 0x35. -/
theorem test_etrail_packed : look (fun t => (t.buf, t.curByte)) (exec .etrail
    { writing 8 [] with buf := [0, 0, 0x30, 0, 0, 0, 0, 0], curByte := 2, curBit := 5 }) =
      some ([0, 0, 0x35, 0, 0, 0, 0, 0], 3) := by decide +kernel
/-- R112: `00111000` with u = 6 stays 0x38, a zero byte follows, cursor (4, 0). -/
theorem test_etrail_zero : look (fun t => (t.buf, t.curByte, t.curBit)) (exec .etrail
    { writing 8 [] with buf := [0, 0, 0x38, 0, 0, 0, 0, 0], curByte := 2, curBit := 6 }) =
      some ([0, 0, 0x38, 0, 0, 0, 0, 0], 4, 0) := by decide +kernel
/-- R113: `58 6C 47 00`, STATUS = 0. -/
theorem test_encode : look (fun t => (t.sinkBytes, t.status)) (exec .encode (idleWith 4 aabbb)) =
    some ([0x58, 0x6C, 0x47, 0x00], 0) := by decide +kernel
/-- R113, R126: ENCODE of the empty source: no byte, STATUS = 0x00000103. -/
theorem test_encode_empty : look (fun t => (t.sinkBytes, t.status)) (exec .encode (idleWith 4 [])) =
    some ([], 0x00000103) := by decide +kernel
/-- R117: `FF 61 03 00 ...` is three `a`. -/
theorem test_dsingle : look (fun t => (t.sinkBytes, t.pos))
    (exec .dsingle (reading 10 [0xFF, 0x61, 3, 0, 0, 0, 0, 0, 0, 0])) = some ([0x61, 0x61, 0x61], 80) := by
  decide +kernel
/-- R119: `61 61 62 62 62`, POS = 24, WALK = ROOT. -/
theorem test_dpay : look (fun t => (t.sinkBytes, t.pos, t.walk)) (exec .dpay behindTree) =
    some (aabbb, 24, 0) := by decide +kernel
/-- R121: SINK = `61 61 62 62 62`, STATUS = 0. -/
theorem test_decode_file : look (fun t => (t.sinkBytes, t.status)) (exec .decode (idleWith 1 [0x58, 0x6C, 0x47, 0])) =
    some (aabbb, 0) := by decide +kernel
/-- R155: `58 AC 38 00`, the file of `aab`, decodes to `aabbb`. -/
theorem test_decode_padding : look (fun t => t.sinkBytes) (exec .decode (idleWith 2 [0x58, 0xAC, 0x38, 0])) =
    some aabbb := by decide +kernel
/-- R126: STATUS 0x00000103 becomes 0. -/
theorem test_clrerr : look (fun t => t.status)
    (exec .clrerr { State.reset with mode := .fault, errCode := .emptyInput, cmdErr := true }) = some 0 := by
  decide +kernel
/-- R125: WBIT in IDLE only sets CMDERR. -/
theorem test_refused : look (fun t => t.status) (exec (.wbit true) State.reset) = some 0x00000004 := by decide +kernel

/-! The records: written by the encoder's rules, read by the decoder's. -/

theorem test_wire_single_write : look (fun t => t.buf) (exec (.wireSingle 0 0x61 4) (writing 11 [])) =
    some [0x80, 0x61, 4, 0, 0, 0, 0, 0, 0, 0, 0] := by decide +kernel
theorem test_wire_single_read : look (fun t => (t.sinkBytes, t.pos))
    (exec (.wireSingle 0x7F 0x61 3) (reading 10 [0xFF, 0x61, 3, 0, 0, 0, 0, 0, 0, 0])) =
      some ([0x61, 0x61, 0x61], 80) := by decide +kernel
theorem test_wire_internal : look (fun t => (t.nodes.length, t.treeV, t.pos)) (exec .wireInternal reading584) =
    some (1, false, 1) := by decide +kernel
theorem test_wire_leaf_write : look (fun t => (t.buf, t.curByte, t.curBit))
    (exec (.wireLeaf 0x61) { writing 2 [] with curBit := 1 }) = some ([0x58, 0x40], 1, 2) := by decide +kernel
theorem test_wire_records_read : look (fun t => (t.tree, t.treeV, t.pos))
    (runCommands [.wireInternal, .wireLeaf 0x61, .wireLeaf 0x62] reading584) =
      some (some (.internal (.leaf 0x61) (.leaf 0x62)), true, 19) := by decide +kernel
theorem test_wire_code_read : look (fun t => (t.sinkBytes, t.pos)) (exec (.wireCode [false]) behindTree) =
    some ([0x61], 20) := by decide +kernel
theorem test_wire_code_mismatch : look (fun t => (t.cmdErr, t.pos)) (exec (.wireCode [true]) behindTree) =
    some (true, 19) := by decide +kernel
theorem test_wire_trailer_packed : look (fun t => (t.buf, t.curByte)) (exec (.wireTrailerPacked 0b00110 5)
    { writing 2 [] with buf := [0x30, 0], curBit := 5 }) = some ([0x35, 0], 1) := by decide +kernel
theorem test_wire_trailer_packed_read : look (fun t => (t.status, t.srcReads))
    (exec (.wireTrailerPacked 0 0) behindTree) = some (0x00003042, [(3, 1)]) := by decide +kernel
theorem test_wire_trailer_zero : look (fun t => (t.buf, t.curByte)) (exec (.wireTrailerZero 0x38)
    { writing 3 [] with buf := [0x38, 0, 0], curBit := 6 }) = some ([0x38, 0, 0], 2) := by decide +kernel
theorem test_wire_trailer_zero_read : look (fun t => (t.cmdErr, t.srcReads))
    (exec (.wireTrailerZero 0x47) behindTree) = some (false, [(3, 1)]) := by decide +kernel

/-! ## The bus and the fetch -/

theorem test_step_wopen : look (fun t => t.mode) (step (State.reset.withFetchWord 16 0x1000)) = some .write := by
  decide +kernel
theorem test_step_reserved : look (fun t => t.status) (step (State.reset.withFetchWord 16 0x0000)) =
    some 0x00000004 := by decide +kernel
theorem test_decodeTableWord : decodeTableWord 16 0x6F00 = some .encode := by decide
/-- R14: CMD and reserved offsets read as 0. -/
theorem test_read_cmd : look (fun t => t.hostReads) (step { State.reset with host := [.read 0], arg0 := 7 }) =
    some [0] := by decide +kernel
theorem test_write_arg0 : look (fun t => (t.arg0, t.status)) (step { State.reset with host := [.write 8 0xA5] }) =
    some (0xA5, 0) := by decide +kernel
theorem test_attach_in_session : step { writing 1 [] with host := [.attachSource [1]] } =
    .fault .sourceChangedInSession := by rfl

/-! ## Witnesses: for each statement, concrete states and operands that meet the hypotheses of each of its clauses -/

theorem look_some {α : Type} {f : State → α} {o : Host.Outcome State Fault Refusal} {x : α}
    (h : look f o = some x) : ∃ t, o = .next t ∧ f t = x := by
  cases o with
  | next s => exact ⟨s, rfl, Option.some.inj h⟩
  | fault r => cases h
  | refused r => cases h

/-- The tree of `poolAB`. -/
def treeAB : CodeTree := .internal (.leaf 0x61) (.leaf 0x62)

/-- The last bit of the writer's buffer is next. -/
def writingLast : State := { writing 1 [] with curBit := 7 }

/-- Five and six used bits. -/
def writing5 : State := { writing 2 [] with buf := [0x30, 0], curBit := 5 }
def writing6 : State := { writing 3 [] with buf := [0x38, 0, 0], curBit := 6 }

/-- A reader whose buffer is exhausted with a source byte left, and one at the end of the source. -/
def exhausted : State :=
  { reading 1 [0xA5] with src := Memory.ofBytes [0xA5, 0x3C], srcLen := 2, curByte := 1 }
def atEnd : State := { reading 1 [0xA5] with curByte := 1 }

/-- A single-symbol frame in front of the reader. -/
def readingFrame : State := reading 10 [0xFF, 0x61, 3, 0, 0, 0, 0, 0, 0, 0]

/-- A pool whose tree is a chain of depth `n`: a leaf on every left, node `2 n` the deepest leaf. -/
def chainPool (n : Nat) : List Node :=
  (List.range (2 * n + 1)).map fun i =>
    { kind := i % 2 == 1 || i == 2 * n, sym := BitVec.ofNat 8 i, left := BitVec.ofNat 9 (i + 1)
      right := BitVec.ofNat 9 (i + 2), freq := 0, freqP := false }
def deep : State := { writing 1 [] with nodes := chainPool 65, treeV := true }

/-- One distinct source byte, scanned. -/
def single : State :=
  { writing 16 [0x61, 0x61] with freq := frequencies [0x61, 0x61], leafCount := 1, freqV := true }

/-- A source whose trailer count is 6, and one whose tree reaches past END. -/
def badCount : State :=
  { behindTree with src := Memory.ofBytes [0x58, 0x6C, 0x47, 6], buf := [0x58, 0x6C, 0x47, 6] }
def badEnd : State :=
  { behindTree with src := Memory.ofBytes [0x58, 0x6C, 0x40], srcLen := 3, buf := [0x58, 0x6C, 0x40, 0], bufLen := 3 }

/-- A payload that is empty (POS = END), and the largest count c = 5. -/
def emptyPayload : State :=
  { behindTree with src := Memory.ofBytes [0x58, 0x6C, 0x43], srcLen := 3, buf := [0x58, 0x6C, 0x43, 0], bufLen := 3 }
def fullCount : State :=
  { behindTree with src := Memory.ofBytes [0x58, 0x6C, 0x45], srcLen := 3, buf := [0x58, 0x6C, 0x45, 0], bufLen := 3 }

/-- A tree of `2 n + 1` nodes, a leaf on every left; with `n = 255` it is the largest the pool holds (511 nodes). -/
def chainTree : Nat → CodeTree
  | 0 => .leaf 0xFF
  | n + 1 => .internal (.leaf (BitVec.ofNat 8 n)) (chainTree n)
/-- Whole bytes from their bits. -/
def packed : List Bool → List Byte
  | a :: b :: c :: d :: e :: f :: g :: h :: rest => ofBitsMsb 8 [a, b, c, d, e, f, g, h] :: packed rest
  | _ => []
/-- A source that begins with the largest tree. -/
def largestFile : List Byte := packed ((chainTree 255).ser ++ [false])

theorem inv_reset : State.reset.CursorInv := by
  refine ⟨?_, ?_, ?_, ?_, ?_, ?_, ?_⟩ <;> decide +kernel
theorem inv_writing : (writing 2 []).CursorInv := by
  refine ⟨?_, ?_, ?_, ?_, ?_, ?_, ?_⟩ <;> decide +kernel
theorem inv_writingLast : writingLast.CursorInv := by
  refine ⟨?_, ?_, ?_, ?_, ?_, ?_, ?_⟩ <;> decide +kernel
theorem inv_writing5 : writing5.CursorInv := by
  refine ⟨?_, ?_, ?_, ?_, ?_, ?_, ?_⟩ <;> decide +kernel
theorem inv_writing6 : writing6.CursorInv := by
  refine ⟨?_, ?_, ?_, ?_, ?_, ?_, ?_⟩ <;> decide +kernel
theorem inv_single : single.CursorInv := by
  refine ⟨?_, ?_, ?_, ?_, ?_, ?_, ?_⟩ <;> decide +kernel
theorem inv_built : built.CursorInv := by
  refine ⟨?_, ?_, ?_, ?_, ?_, ?_, ?_⟩ <;> decide +kernel
theorem inv_coded : coded.CursorInv := by
  refine ⟨?_, ?_, ?_, ?_, ?_, ?_, ?_⟩ <;> decide +kernel
theorem inv_reading : reading584.CursorInv := by
  refine ⟨?_, ?_, ?_, ?_, ?_, ?_, ?_⟩ <;> decide +kernel
theorem inv_readingEmpty : (reading 1 []).CursorInv := by
  refine ⟨?_, ?_, ?_, ?_, ?_, ?_, ?_⟩ <;> decide +kernel
theorem inv_exhausted : exhausted.CursorInv := by
  refine ⟨?_, ?_, ?_, ?_, ?_, ?_, ?_⟩ <;> decide +kernel
theorem inv_atEnd : atEnd.CursorInv := by
  refine ⟨?_, ?_, ?_, ?_, ?_, ?_, ?_⟩ <;> decide +kernel
theorem inv_readingFrame : readingFrame.CursorInv := by
  refine ⟨?_, ?_, ?_, ?_, ?_, ?_, ?_⟩ <;> decide +kernel
theorem inv_behindTree : behindTree.CursorInv := by
  refine ⟨?_, ?_, ?_, ?_, ?_, ?_, ?_⟩ <;> decide +kernel
theorem inv_badCount : badCount.CursorInv := by
  refine ⟨?_, ?_, ?_, ?_, ?_, ?_, ?_⟩ <;> decide +kernel
theorem inv_badEnd : badEnd.CursorInv := by
  refine ⟨?_, ?_, ?_, ?_, ?_, ?_, ?_⟩ <;> decide +kernel
theorem inv_emptyPayload : emptyPayload.CursorInv := by
  refine ⟨?_, ?_, ?_, ?_, ?_, ?_, ?_⟩ <;> decide +kernel
theorem inv_fullCount : fullCount.CursorInv := by
  refine ⟨?_, ?_, ?_, ?_, ?_, ?_, ?_⟩ <;> decide +kernel

/-- A read session just opened on a source that fills the buffer meets the invariant of the cursor, with the whole source
unread. -/
theorem inv_readingFull (src : List Byte) (h : 1 ≤ src.length) (hl : src.length < 2 ^ 64) :
    (reading src.length src).CursorInv ∧ (reading src.length src).unread = src.flatMap bitsMsb := by
  have hlen : (reading src.length src).srcLen.toNat = src.length := by
    show (BitVec.ofNat 64 src.length).toNat = _
    rw [BitVec.toNat_ofNat, Nat.mod_eq_of_lt hl]
  have hbuf : (reading src.length src).buf = src := by simp [reading]
  have heof : (reading src.length src).eof = false := rfl
  refine ⟨cursorInv_of_read rfl h (by rw [hbuf]; rfl) ⟨Nat.zero_le _, ?_, ?_⟩
    ⟨Nat.zero_le _, fun hx => absurd rfl hx⟩ (fun hx => by rw [heof] at hx; cases hx), ?_⟩
  · rw [hlen]; exact (Nat.min_self _).symm
  · rw [hbuf]
    exact (List.take_length ..).trans (Memory.readBytes_ofBytes src).symm
  · show (List.flatMap bitsMsb ((Memory.ofBytes src).readBytes 0 (reading src.length src).srcLen.toNat)).drop 0 = _
    rw [hlen, Memory.readBytes_ofBytes, List.drop_zero]

theorem srcBytes_scanned : (writing 4 aabbb).srcBytes = aabbb := by decide +kernel

theorem freq_scanned : scanned.mode = .write ∧ scanned.freq = frequencies scanned.srcBytes ∧
    scanned.leafCount = BitVec.ofNat 9 (countNonZero scanned.freq) :=
  ⟨rfl, congrArg frequencies srcBytes_scanned.symm, by decide +kernel⟩

theorem tables_scanned : scanned.TablesInv :=
  ⟨fun _ => freq_scanned, fun h => (by cases h), fun h => (by cases h)⟩

theorem tables_built : built.TablesInv :=
  ⟨fun _ => freq_scanned, fun _ => ⟨rfl, by decide, ⟨treeAB, by decide +kernel⟩, by decide +kernel⟩,
    fun h => (by cases h)⟩

theorem tables_coded : coded.TablesInv :=
  ⟨fun _ => freq_scanned, fun _ => ⟨rfl, by decide, ⟨treeAB, by decide +kernel⟩, by decide +kernel⟩,
    fun _ => ⟨rfl, treeAB, by decide +kernel, rfl⟩⟩

theorem tables_behindTree : behindTree.TablesInv :=
  ⟨fun h => (by cases h), fun _ => ⟨rfl, by decide, ⟨treeAB, by decide +kernel⟩, by decide +kernel⟩,
    fun h => (by cases h)⟩

theorem tables_noFlag {s : State} (h1 : s.freqV = false) (h2 : s.treeV = false) (h3 : s.codeV = false) :
    s.TablesInv :=
  ⟨fun h => (by rw [h1] at h; cases h), fun h => (by rw [h2] at h; cases h), fun h => (by rw [h3] at h; cases h)⟩

theorem session_open {s : State} (h : s.sessionOpen = true) (he : s.errCode = .none) : s.SessionInv := by
  refine ⟨fun h' => (by rw [h] at h'; cases h'), ?_⟩
  constructor
  · intro hm; simp [State.sessionOpen, hm] at h
  · intro h'; exact absurd he h'

theorem session_reset : State.reset.SessionInv :=
  ⟨fun _ => ⟨rfl, rfl, rfl, rfl, rfl, rfl, rfl, rfl, rfl, rfl, rfl, rfl, rfl, rfl⟩,
    ⟨fun h => (by cases h), fun h => absurd rfl h⟩⟩

/-- The state after an error, still holding nothing. -/
def faulted : State := { State.reset with mode := .fault, errCode := .emptyInput }

theorem session_faulted : faulted.SessionInv :=
  ⟨fun _ => ⟨rfl, rfl, rfl, rfl, rfl, rfl, rfl, rfl, rfl, rfl, rfl, rfl, rfl, rfl⟩,
    ⟨fun _ h => (by cases h), fun _ => rfl⟩⟩

/-- WopenOpensWriteSession: refused, allocation failing either way, opened. -/
theorem wit_WopenOpensWriteSession : (writing 1 []).mode ≠ .idle ∧
    ({ State.reset with allocPoolOk := false } : State).mode = .idle ∧
    ({ State.reset with allocPoolOk := false } : State).allocPoolOk = false ∧
    ({ State.reset with allocBufOk := false } : State).allocBufOk = false ∧
    State.reset.mode = .idle ∧ State.reset.allocBufOk = true ∧ State.reset.allocPoolOk = true := by decide

/-- WriteBitSetsOneBitAndAdvances: inside BUF, at its last bit, at a byte boundary. -/
theorem wit_WriteBitSetsOneBitAndAdvances :
    ((writing 2 []).mode = .write ∧ (writing 2 []).CursorInv ∧ (writing 2 []).curBit = 0 ∧
      (writing 2 []).bitPlace + 1 < 8 * (writing 2 []).params.bufSize) ∧
    (writingLast.mode = .write ∧ writingLast.CursorInv ∧
      writingLast.bitPlace + 1 = 8 * writingLast.params.bufSize) :=
  ⟨⟨rfl, inv_writing, rfl, by decide⟩, rfl, inv_writingLast, by decide⟩

/-- WbitAppendsItsBit. -/
theorem wit_WbitAppendsItsBit : State.reset.mode ≠ .write ∧ writingLast.mode = .write ∧ writingLast.CursorInv :=
  ⟨by decide, rfl, inv_writingLast⟩

/-- WbitsAppendsTheTopBits: n = 65, n = 0, n = 64. -/
theorem wit_WbitsAppendsTheTopBits : 64 < (65 : BitVec 7).toNat ∧ (writing 2 []).mode = .write ∧
    (64 : BitVec 7).toNat ≤ 64 ∧ (writing 2 []).CursorInv := ⟨by decide, rfl, by decide, inv_writing⟩

/-- WbyteAppendsItsByte: off a byte boundary, on one. -/
theorem wit_WbyteAppendsItsByte : writingLast.curBit ≠ 0 ∧
    (writing 2 []).mode = .write ∧ (writing 2 []).curBit = 0 ∧ (writing 2 []).CursorInv :=
  ⟨by decide, rfl, rfl, inv_writing⟩

/-- WflushWritesTheRestAndCloses: nothing to write, a partly filled byte to write. -/
theorem wit_WflushWritesTheRestAndCloses : State.reset.mode ≠ .write ∧
    ((writing 2 []).mode = .write ∧ (writing 2 []).CursorInv) ∧ writing5.mode = .write ∧ writing5.CursorInv :=
  ⟨by decide, ⟨rfl, inv_writing⟩, rfl, inv_writing5⟩

/-- WriteSessionProducesThePackedBits: a byte, three bits. -/
theorem wit_WriteSessionProducesThePackedBits : (idleWith 1 []).mode = .idle ∧ (idleWith 1 []).allocOk = true ∧
    1 ≤ (idleWith 1 []).params.bufSize ∧
    bytesAligned 0 [.inr 0xAB, .inl true, .inl false, .inl true] = true := by decide

/-- RefillLoadsTheNextBytes: with a byte left, at the end of the source, with an empty buffer. -/
theorem wit_RefillLoadsTheNextBytes :
    (exhausted.mode = .read ∧ exhausted.CursorInv ∧ exhausted.curByte = exhausted.bufLen ∧ exhausted.curBit = 0) ∧
    (atEnd.mode = .read ∧ atEnd.CursorInv ∧ atEnd.curByte = atEnd.bufLen ∧ atEnd.curBit = 0) ∧
    ((reading 1 []).mode = .read ∧ (reading 1 []).CursorInv ∧ (reading 1 []).curByte = (reading 1 []).bufLen ∧
      (reading 1 []).curBit = 0 ∧ (reading 1 []).bufLen = 0) :=
  ⟨⟨rfl, inv_exhausted, rfl, rfl⟩, ⟨rfl, inv_atEnd, rfl, rfl⟩, rfl, inv_readingEmpty, rfl, rfl, rfl⟩

/-- ReadBitDeliversTheNextSourceBit: a bit in the buffer, a bit behind a refill, the end. -/
theorem wit_ReadBitDeliversTheNextSourceBit :
    (reading584.mode = .read ∧ reading584.CursorInv ∧ reading584.pos < 8 * reading584.srcLen.toNat ∧
      reading584.curByte < reading584.bufLen) ∧
    (exhausted.mode = .read ∧ exhausted.CursorInv ∧ exhausted.pos < 8 * exhausted.srcLen.toNat) ∧
    (atEnd.mode = .read ∧ atEnd.CursorInv ∧ atEnd.pos = 8 * atEnd.srcLen.toNat) :=
  ⟨⟨rfl, inv_reading, by decide, by decide⟩, ⟨rfl, inv_exhausted, by decide⟩, rfl, inv_atEnd, by decide⟩

/-- RopenLoadsTheFirstBuffer: refused, allocation failing, an empty source, a source. -/
theorem wit_RopenLoadsTheFirstBuffer : (writing 1 []).mode ≠ .idle ∧
    ({ State.reset with allocBufOk := false } : State).allocBufOk = false ∧
    ((idleWith 1 []).mode = .idle ∧ (idleWith 1 []).allocBufOk = true ∧ (idleWith 1 []).allocPoolOk = true ∧
      (idleWith 1 []).srcLen = 0) ∧
    ((idleWith 1 [0xA5]).mode = .idle ∧ (idleWith 1 [0xA5]).allocBufOk = true ∧
      (idleWith 1 [0xA5]).allocPoolOk = true) := by
  decide

/-- RbitReadsOneBitIntoRes: before the end and at it. -/
theorem wit_RbitReadsOneBitIntoRes : State.reset.mode ≠ .read ∧
    (exhausted.mode = .read ∧ exhausted.CursorInv ∧ exhausted.pos < 8 * exhausted.srcLen.toNat) ∧
    (atEnd.mode = .read ∧ atEnd.CursorInv ∧ atEnd.pos = 8 * atEnd.srcLen.toNat) :=
  ⟨by decide, ⟨rfl, inv_exhausted, by decide⟩, rfl, inv_atEnd, by decide⟩

/-- RcloseEndsTheSession. -/
theorem wit_RcloseEndsTheSession : State.reset.mode ≠ .read ∧ reading584.mode = .read := by decide

/-- ReadSessionFetchesInOrder: any number of RBITs over a source of two bytes. -/
theorem wit_ReadSessionFetchesInOrder : (idleWith 1 [0xA5, 0x3C]).mode = .idle ∧
    (idleWith 1 [0xA5, 0x3C]).allocOk = true ∧ 1 ≤ (idleWith 1 [0xA5, 0x3C]).params.bufSize := by decide

/-- MergeJoinsTheTwoTails: two leaves, both child orders, a sorted list. -/
theorem wit_MergeJoinsTheTwoTails : (poolAB.take 2).length < 511 ∧
    (∀ j ∈ ([] : List PoolIx) ++ [1, 0], j.toNat < (poolAB.take 2).length) ∧
    Config.Params.decided.tie = .newestFirst ∧ Config.Params.decided.childOrder = .tailLeft ∧
    ({ Config.Params.decided with childOrder := .tailRight } : Config.Params).tie = .newestFirst ∧
    (([] : List PoolIx) ++ [1, 0]).Pairwise
      (fun i j => (nodeAt (poolAB.take 2) j).freq ≤ (nodeAt (poolAB.take 2) i).freq) := by decide +kernel

/-- TbuildBuildsTheTree: refused, no leaf, one leaf, two leaves. -/
theorem wit_TbuildBuildsTheTree : (writing 1 []).freqV = false ∧
    (({ writing 1 [] with freqV := true } : State).mode = .write ∧
      ({ writing 1 [] with freqV := true } : State).leafCount = 0) ∧
    (single.mode = .write ∧ single.freqV = true ∧ single.leafCount = 1) ∧
    (scanned.mode = .write ∧ scanned.freqV = true ∧ scanned.TablesInv ∧ 2 ≤ scanned.leafCount.toNat) :=
  ⟨rfl, ⟨rfl, rfl⟩, ⟨rfl, rfl, rfl⟩, rfl, rfl, tables_scanned, by decide⟩

/-- TserWritesThePreOrder. -/
theorem wit_TserWritesThePreOrder : (writing 1 []).treeV = false ∧
    built.mode = .write ∧ built.treeV = true ∧ built.CursorInv ∧ built.TablesInv :=
  ⟨rfl, rfl, rfl, inv_built, tables_built⟩

/-- SerializedTreeLength. -/
theorem wit_SerializedTreeLength : 2 ≤ treeAB.leaves := by decide

/-- TdesRebuildsTheTree: 19 tree bits and 13 others. -/
theorem wit_TdesRebuildsTheTree : State.reset.mode ≠ .read ∧ reading584.mode = .read ∧ reading584.CursorInv ∧
    (∃ rest, reading584.unread = treeAB.ser ++ rest) ∧ treeAB.size ≤ 511 :=
  ⟨by decide, rfl, inv_reading, ⟨reading584.unread.drop 19, by decide +kernel⟩, by decide⟩

/-- TdesRebuildsTheTree, last clause: an empty source begins with no tree. -/
theorem wit_TdesRebuildsTheTree_none : (reading 1 []).mode = .read ∧ (reading 1 []).CursorInv ∧
    (∀ (tr : CodeTree) (rest : List Bool), (reading 1 []).unread = tr.ser ++ rest → 511 < tr.size) := by
  refine ⟨rfl, inv_readingEmpty, fun tr rest h => ?_⟩
  have h0 : (reading 1 []).unread = [] := by decide +kernel
  rw [h0] at h
  cases tr <;> cases h

/-- TdesRebuildsTheTree at the largest tree, 511 nodes. -/
theorem wit_TdesRebuildsTheTree_511 : (reading largestFile.length largestFile).mode = .read ∧
    (reading largestFile.length largestFile).CursorInv ∧
    (∃ rest, (reading largestFile.length largestFile).unread = (chainTree 255).ser ++ rest) ∧
    (chainTree 255).size = 511 := by
  have h := inv_readingFull largestFile (by decide +kernel) (by decide +kernel)
  exact ⟨rfl, h.1, ⟨[false], h.2.trans (by decide +kernel)⟩, by decide +kernel⟩

/-- TdesRebuildsTheTree, last clause: 64 zero bytes call for a 512th node (V-D15). -/
theorem wit_TdesRebuildsTheTree_512th : (reading 64 (List.replicate 64 0)).mode = .read ∧
    (reading 64 (List.replicate 64 0)).CursorInv ∧
    (∀ (tr : CodeTree) (rest : List Bool),
      (reading 64 (List.replicate 64 0)).unread = tr.ser ++ rest → 511 < tr.size) := by
  have h := inv_readingFull (List.replicate 64 0) (by decide) (by decide)
  refine ⟨rfl, h.1, fun tr rest hu => ?_⟩
  have one : ∀ tr : CodeTree, true ∈ tr.ser := fun tr => by
    induction tr with
    | leaf sym => exact List.mem_cons_self ..
    | internal l r ihl _ => exact List.mem_cons_of_mem _ (List.mem_append_left _ ihl)
  have h0 : (List.replicate 64 (0 : Byte)).flatMap bitsMsb = List.replicate 512 false := by decide +kernel
  have hm : true ∈ List.replicate 512 false := h0 ▸ (h.2.symm.trans hu) ▸ List.mem_append_left rest (one tr)
  exact absurd (List.eq_of_mem_replicate hm) (by decide)

/-- TdesPoolIsInPreOrder. -/
theorem wit_TdesPoolIsInPreOrder : ∃ t, reading584.mode = .read ∧ exec .tdes reading584 = .next t ∧ t.mode = .read := by
  obtain ⟨t, h, hm⟩ := look_some (f := fun t => t.mode) (x := Mode.read)
    (show look (fun t => t.mode) (exec .tdes reading584) = some Mode.read by decide +kernel)
  exact ⟨t, rfl, h, hm⟩

/-- CgenFillsTheCodeTable: refused, a leaf at depth 65, all leaves within 64. -/
theorem wit_CgenFillsTheCodeTable : (writing 1 []).treeV = false ∧
    (deep.treeV = true ∧ deep.mode = .write ∧ ∃ tr, deep.tree = some tr ∧ ∃ c ∈ tr.codes, 64 < c.2.length) ∧
    (built.treeV = true ∧ built.mode = .write ∧ built.tree = some treeAB ∧ ∀ c ∈ treeAB.codes, c.2.length ≤ 64) := by
  refine ⟨rfl, ⟨rfl, rfl, ?_⟩, rfl, rfl, by decide +kernel, by decide⟩
  have h : (deep.tree.any fun tr => tr.codes.any fun c => decide (64 < c.2.length)) = true := by decide +kernel
  cases ht : deep.tree with
  | none => rw [ht] at h; cases h
  | some tr =>
    rw [ht] at h
    obtain ⟨c, hc, hl⟩ := List.any_eq_true.mp h
    exact ⟨tr, rfl, c, hc, of_decide_eq_true hl⟩

/-- CodesFormACompletePrefixCode, last clause. -/
theorem wit_CodesFormACompletePrefixCode : (∀ b ∈ aabbb, (treeAB.codeOf b).isSome = true) ∧
    (treeAB.codes.map fun c => c.1).Nodup := by decide

/-- FscanCountsTheSource. -/
theorem wit_FscanCountsTheSource : State.reset.mode ≠ .write ∧ (writing 4 aabbb).mode = .write := by decide

/-- EsingleWritesTheFrame: refused, and one symbol under either byte order. -/
theorem wit_EsingleWritesTheFrame : scanned.leafCount ≠ 1 ∧
    single.mode = .write ∧ single.freqV = true ∧ single.leafCount = 1 ∧ single.curBit = 0 ∧ single.CursorInv ∧
    entry single.freq 0x61 ≠ 0 ∧ (∀ x, x ≠ 0x61 → entry single.freq x = 0) ∧
    single.params.countEndian = .little ∧
    ({ single with params := { single.params with countEndian := .big } } : State).params.countEndian = .big := by
  refine ⟨by decide, rfl, rfl, rfl, rfl, inv_single, by decide +kernel, ?_, rfl, rfl⟩
  intro x
  have h : ∀ k : Fin 256, BitVec.ofFin (w := 8) k ≠ 0x61 → entry single.freq (BitVec.ofFin k) = 0 := by decide +kernel
  exact h x.toFin

/-- EpayWritesTheCodes. -/
theorem wit_EpayWritesTheCodes : built.codeV = false ∧
    coded.mode = .write ∧ coded.codeV = true ∧ coded.CursorInv ∧ coded.TablesInv ∧ coded.tree = some treeAB :=
  ⟨rfl, rfl, rfl, inv_coded, tables_coded, by decide +kernel⟩

/-- EtrailAppendsTheTrailer: u = 5 and u = 6. -/
theorem wit_EtrailAppendsTheTrailer : State.reset.mode ≠ .write ∧
    (writing5.mode = .write ∧ writing5.CursorInv ∧ writing5.curBit.toNat ≤ 5) ∧
    (writing6.mode = .write ∧ writing6.CursorInv ∧ 5 < writing6.curBit.toNat) :=
  ⟨by decide, ⟨rfl, inv_writing5, by decide⟩, rfl, inv_writing6, by decide⟩

/-- The number of distinct source bytes. -/
def distinctIn (s : State) : Nat := (allSymbols.filter fun sym => sym ∈ s.srcBytes).length

/-- EncodeProducesTheWireFormat: refused, allocation failing, no byte, one distinct byte, two with a tree of depth 1. -/
theorem wit_EncodeProducesTheWireFormat : (writing 1 []).mode ≠ .idle ∧
    ({ State.reset with allocBufOk := false } : State).allocOk = false ∧
    ((idleWith 1 []).mode = .idle ∧ (idleWith 1 []).allocOk = true ∧ 1 ≤ (idleWith 1 []).params.bufSize ∧
      distinctIn (idleWith 1 []) = 0) ∧
    (distinctIn (idleWith 1 [0x61]) = 1 ∧ (0x61 : Byte) ∈ (idleWith 1 [0x61]).srcBytes) ∧
    (2 ≤ distinctIn (idleWith 1 aabbb) ∧ huffmanTree (idleWith 1 aabbb).params aabbb = some treeAB ∧
      treeAB.depth ≤ 64) := by decide +kernel

/-- GeneralFormLength: u = 0 (`aabbb`) and u = 6 (`aab`). -/
theorem wit_GeneralFormLength : (treeAB.ser.length + (treeAB.payload aabbb).length) % 8 ≤ 5 ∧
    6 ≤ (treeAB.ser.length + (treeAB.payload [0x61, 0x61, 0x62]).length) % 8 := by decide

/-- EquivalentCommandSequences: WBYTE, WBITS 64, allocation failing, each branch of both composites. -/
theorem wit_EquivalentCommandSequences : ((writing 2 []).mode = .write ∧ (writing 2 []).curBit = 0) ∧
    (64 : BitVec 7).toNat ≤ 64 ∧
    ({ State.reset with allocBufOk := false } : State).allocOk = false ∧
    (idleWith 1 []).mode = .idle ∧ (idleWith 1 []).allocOk = true ∧
    distinctIn (idleWith 1 []) = 0 ∧ distinctIn (idleWith 1 [0x61]) = 1 ∧ 2 ≤ distinctIn (idleWith 1 aabbb) ∧
    (idleWith 1 []).srcLen = 0 ∧
    ((idleWith 1 [0x80]).srcLen ≠ 0 ∧ ((idleWith 1 [0x80]).src.read 0).getLsbD 7 = true) ∧
    ((idleWith 1 [0x58]).srcLen ≠ 0 ∧ ((idleWith 1 [0x58]).src.read 0).getLsbD 7 = false) := by decide +kernel

/-- DsingleEmitsTheCount: refused, a frame of one byte, a frame of ten under either byte order. -/
theorem wit_DsingleEmitsTheCount : reading584.mark = false ∧
    ((reading 1 [0x80]).mode = .read ∧ (reading 1 [0x80]).pos = 0 ∧ (reading 1 [0x80]).srcLen ≠ 0 ∧
      (reading 1 [0x80]).mark = true ∧ (reading 1 [0x80]).srcLen ≠ 10) ∧
    (readingFrame.mode = .read ∧ readingFrame.pos = 0 ∧ readingFrame.mark = true ∧ readingFrame.srcLen = 10 ∧
      readingFrame.CursorInv ∧ readingFrame.params.countEndian = .little ∧
      ({ readingFrame with params := { readingFrame.params with countEndian := .big } } : State).params.countEndian =
        .big) :=
  ⟨by decide, by decide, rfl, by decide, by decide, rfl, inv_readingFrame, rfl, rfl⟩

/-- DpayWalksThePayload: refused, a count of 6, a tree past END, a payload. -/
theorem wit_DpayWalksThePayload : reading584.treeV = false ∧
    (badCount.mode = .read ∧ badCount.treeV = true ∧ badCount.srcLen ≠ 0 ∧ badCount.tree = some treeAB ∧
      badCount.CursorInv ∧ 5 < ((badCount.src.read (badCount.srcLen.toNat - 1)).extractLsb' 0 3).toNat) ∧
    (badEnd.mode = .read ∧ badEnd.treeV = true ∧ badEnd.srcLen ≠ 0 ∧ badEnd.tree = some treeAB ∧
      badEnd.CursorInv ∧ 8 * (badEnd.srcLen.toNat - 1) +
        ((badEnd.src.read (badEnd.srcLen.toNat - 1)).extractLsb' 0 3).toNat < badEnd.pos) ∧
    (behindTree.mode = .read ∧ behindTree.treeV = true ∧ behindTree.srcLen ≠ 0 ∧ behindTree.tree = some treeAB ∧
      behindTree.CursorInv ∧ ((behindTree.src.read (behindTree.srcLen.toNat - 1)).extractLsb' 0 3).toNat ≤ 5 ∧
      behindTree.pos ≤ 8 * (behindTree.srcLen.toNat - 1) +
        ((behindTree.src.read (behindTree.srcLen.toNat - 1)).extractLsb' 0 3).toNat) :=
  ⟨rfl, ⟨rfl, rfl, by decide, by decide +kernel, inv_badCount, by decide +kernel⟩,
    ⟨rfl, rfl, by decide, by decide +kernel, inv_badEnd, by decide +kernel⟩,
    rfl, rfl, by decide, by decide +kernel, inv_behindTree, by decide +kernel, by decide +kernel⟩

/-- DpayWalksThePayload at POS = END and at c = 5. -/
theorem wit_DpayWalksThePayload_boundary :
    (emptyPayload.mode = .read ∧ emptyPayload.treeV = true ∧ emptyPayload.srcLen ≠ 0 ∧
      emptyPayload.tree = some treeAB ∧ emptyPayload.CursorInv ∧ emptyPayload.pos = 8 * 2 + 3 ∧
      (emptyPayload.src.read (emptyPayload.srcLen.toNat - 1)).extractLsb' 0 3 = 3) ∧
    (fullCount.mode = .read ∧ fullCount.treeV = true ∧ fullCount.srcLen ≠ 0 ∧
      fullCount.tree = some treeAB ∧ fullCount.CursorInv ∧ fullCount.pos ≤ 8 * 2 + 5 ∧
      (fullCount.src.read (fullCount.srcLen.toNat - 1)).extractLsb' 0 3 = 5) :=
  ⟨⟨rfl, rfl, by decide, by decide +kernel, inv_emptyPayload, by decide +kernel, by decide +kernel⟩,
    rfl, rfl, by decide, by decide +kernel, inv_fullCount, by decide +kernel, by decide +kernel⟩

/-- DecodeInterpretsTheFile: empty, marker of a wrong length, a frame, a file, a source that holds no tree. -/
theorem wit_DecodeInterpretsTheFile : (writing 1 []).mode ≠ .idle ∧
    ({ State.reset with allocBufOk := false } : State).allocOk = false ∧
    ((idleWith 1 []).mode = .idle ∧ (idleWith 1 []).allocOk = true ∧ 1 ≤ (idleWith 1 []).params.bufSize ∧
      (idleWith 1 []).srcLen = 0) ∧
    ((idleWith 1 [0x80]).srcBits.head? = some true ∧ (idleWith 1 [0x80]).srcLen ≠ 10) ∧
    ((idleWith 1 [0x80, 0x61, 4, 0, 0, 0, 0, 0, 0, 0]).srcBits.head? = some true ∧
      (idleWith 1 [0x80, 0x61, 4, 0, 0, 0, 0, 0, 0, 0]).srcLen = 10) ∧
    ((idleWith 1 [0x58, 0x6C, 0x47, 0]).srcBits.head? = some false ∧
      (idleWith 1 [0x58, 0x6C, 0x47, 0]).srcBits =
        treeAB.ser ++ (idleWith 1 [0x58, 0x6C, 0x47, 0]).srcBits.drop 19 ∧
      treeAB.size ≤ 511 ∧ ((0x00 : Byte).extractLsb' 0 3).toNat ≤ 5 ∧ treeAB.ser.length ≤ 24) := by decide +kernel

/-- DecodeInterpretsTheFile, last clause: the byte 00 is eight Internal records and no whole tree. -/
theorem wit_DecodeInterpretsTheFile_malformed : (idleWith 1 [0x58, 0x6C, 0x47, 6]).srcBits.head? = some false ∧
    (∀ (tr : CodeTree) (rest : List Bool), (idleWith 1 [0x58, 0x6C, 0x47, 6]).srcBits = tr.ser ++ rest →
      tr.size ≤ 511 → 5 < (((idleWith 1 [0x58, 0x6C, 0x47, 6]).src.read
        ((idleWith 1 [0x58, 0x6C, 0x47, 6]).srcLen.toNat - 1)).extractLsb' 0 3).toNat ∨
        8 * ((idleWith 1 [0x58, 0x6C, 0x47, 6]).srcLen.toNat - 1) + 6 < tr.ser.length) :=
  ⟨by decide +kernel, fun _ _ _ _ => .inl (by decide +kernel)⟩

/-- What DECODE is given in the witness of DecodeOfEncode. -/
theorem encode_then (src file : List Byte)
    (h : look (fun t => (t.mode, t.sinkBytes)) (exec .encode (idleWith 4 src)) = some (Mode.idle, file)) :
    ∃ t, exec .encode (idleWith 4 src) = .next t ∧ t.mode = .idle ∧ file = t.sinkBytes := by
  obtain ⟨t, ht, he⟩ := look_some h
  injection he with h1 h2
  exact ⟨t, ht, h1, h2.symm⟩

/-- DecodeOfEncode: one distinct byte, u = 0, u = 6. -/
theorem wit_DecodeOfEncode :
    (∃ t, exec .encode (idleWith 4 [0x61]) = .next t ∧ t.mode = .idle ∧
      (idleWith 4 [0x61]).sinkBytes ++ (idleWith 1 [0x80, 0x61, 1, 0, 0, 0, 0, 0, 0, 0]).srcBytes = t.sinkBytes) ∧
    (∃ t, exec .encode (idleWith 4 aabbb) = .next t ∧ t.mode = .idle ∧
      (idleWith 4 aabbb).sinkBytes ++ (idleWith 1 [0x58, 0x6C, 0x47, 0]).srcBytes = t.sinkBytes) ∧
    (∃ t, exec .encode (idleWith 4 [0x61, 0x61, 0x62]) = .next t ∧ t.mode = .idle ∧
      (idleWith 4 [0x61, 0x61, 0x62]).sinkBytes ++ (idleWith 1 [0x58, 0xAC, 0x38, 0]).srcBytes = t.sinkBytes) ∧
    (idleWith 4 aabbb).mode = .idle ∧ (idleWith 4 aabbb).allocOk = true ∧
    (idleWith 1 [0x58, 0x6C, 0x47, 0]).params.countEndian = (idleWith 4 aabbb).params.countEndian := by
  refine ⟨encode_then _ _ ?_, encode_then _ _ ?_, encode_then _ _ ?_, rfl, rfl, rfl⟩ <;> decide +kernel

/-- BufSizeIsNotObservable: BUF_SIZE 1 and 4. -/
theorem wit_BufSizeIsNotObservable : (idleWith 4 aabbb).mode = .idle ∧ 1 ≤ (idleWith 4 aabbb).params.bufSize := by decide

/-- ClrerrAcknowledges. -/
theorem wit_ClrerrAcknowledges : faulted.mode = .fault ∧ reading584.mode ≠ .fault := by decide

/-- CommandsFollowTheTable: a precondition that fails. -/
theorem wit_CommandsFollowTheTable_refused : (Instr.wbit true).isCommand = true ∧ ¬ accepts (.wbit true) State.reset :=
  ⟨rfl, fun h => by cases (show State.reset.mode = .write from h)⟩

/-- CommandsFollowTheTable: TSER, which succeeds, and ENCODE of the empty source, which raises. -/
theorem wit_CommandsFollowTheTable :
    ((Instr.tser).isCommand = true ∧ accepts .tser built ∧ built.SessionInv ∧ built.CursorInv ∧ built.TablesInv) ∧
    (accepts .encode State.reset ∧ State.reset.SessionInv ∧ State.reset.CursorInv ∧ State.reset.TablesInv) :=
  ⟨⟨rfl, ⟨rfl, rfl⟩, session_open rfl rfl, inv_built, tables_built⟩, rfl, session_reset, inv_reset, tables_noFlag rfl rfl rfl⟩

/-- FailedCompositesLeaveTheSink: ENCODE of the empty source. -/
theorem wit_FailedCompositesLeaveTheSink : ∃ t, (idleWith 1 []).mode = .idle ∧
    exec .encode (idleWith 1 []) = .next t ∧ t.mode = .fault := by
  obtain ⟨t, h, hm⟩ := look_some (f := fun t => t.mode) (x := Mode.fault)
    (show look (fun t => t.mode) (exec .encode (idleWith 1 [])) = some Mode.fault by decide +kernel)
  exact ⟨t, rfl, h, hm⟩

/-- FaultModeAcceptsOnlyClrerr: WOPEN refused; a step that stays, one that leaves by CLRERR. -/
theorem wit_FaultModeAcceptsOnlyClrerr : faulted.mode = .fault ∧ (Instr.wopen).isCommand = true ∧
    Instr.wopen ≠ .clrerr ∧ faulted.SessionInv ∧ step faulted = .next faulted ∧
    (∃ t, step { faulted with host := [.write 0 0xF000] } = .next t ∧ t.mode = .idle) := by
  refine ⟨rfl, rfl, by decide, session_faulted, rfl, ?_⟩
  exact look_some (f := fun t => t.mode)
    (show look (fun t => t.mode) (step { faulted with host := [.write 0 0xF000] }) = some Mode.idle by decide +kernel)

/-- ReservedWordsAreRefused: a reserved word, and WBITS 127. -/
theorem wit_ReservedWordsAreRefused : (∀ i, decode (.word 0x0000) ≠ .ok i) ∧
    decode (.word 0x127F) = .ok (.wbits 127) ∧ 64 < (127 : BitVec 7).toNat := by
  refine ⟨fun i h => ?_, by decide, by decide⟩
  have h0 : decode (.word 0x0000) = .error (.reservedOpcode 0) := by decide
  rw [h0] at h; cases h

/-- StepRunsTheDecodedCommand. -/
theorem wit_StepRunsTheDecodedCommand : (State.reset.withFetchWord 16 0x1000).host = .write 0 0x1000 :: [] ∧
    decode (.word ((0x1000 : Word64).setWidth 16)) = .ok .wopen ∧
    (∀ i, decode (.word ((0x0000 : Word64).setWidth 16)) ≠ .ok i) :=
  ⟨rfl, by decide, wit_ReservedWordsAreRefused.1⟩

/-- HostRegisterAccess: a read, a write of ARG0, a write of STATUS. -/
theorem wit_HostRegisterAccess : ({ State.reset with host := [.read 4] } : State).host = .read 4 :: [] ∧
    ({ State.reset with host := [.write 8 1] } : State).host = .write 8 1 :: [] ∧
    ({ State.reset with host := [.write 4 1] } : State).host = .write 4 1 :: [] ∧ (4 : Nat) ≠ 0 ∧ (4 : Nat) ≠ 8 := by
  decide

/-- HardwareResetSetsTheScalars, in an open session. -/
theorem wit_HardwareResetSetsTheScalars :
    ({ behindTree with host := [.reset] } : State).host = .reset :: [] := by decide

/-- CommandsLeaveRegistersAlone. -/
theorem wit_CommandsLeaveRegistersAlone : ∃ t, exec .wflush (writing 2 []) = .next t := ⟨_, rfl⟩

/-- SinkOnlyGrows: a step that writes the sink. -/
theorem wit_SinkOnlyGrows : ∃ t, step { writing5 with host := [.write 0 0x1400] } = .next t ∧
    (∀ bytes, ({ writing5 with host := [.write 0 0x1400] } : State).host.head? ≠ some (.attachSink bytes)) ∧
    (∀ bytes, ({ writing5 with host := [.write 0 0x1400] } : State).host.head? ≠ some (.attachSource bytes)) := by
  obtain ⟨t, h, -⟩ := look_some (f := fun t => t.mode) (x := Mode.idle)
    (show look (fun t => t.mode) (step { writing5 with host := [.write 0 0x1400] }) = some Mode.idle by decide +kernel)
  exact ⟨t, h, fun _ h => (by cases h), fun _ h => (by cases h)⟩

/-- SourceReadsStayInRange: an RBIT that refills, with no read noted before. -/
theorem wit_SourceReadsStayInRange : exhausted.CursorInv ∧
    (∀ r ∈ exhausted.srcReads, r.1 + r.2 ≤ exhausted.srcLen.toNat) ∧
    ∃ t, step { exhausted with host := [.write 0 0x2100] } = .next t := by
  obtain ⟨t, h, -⟩ := look_some (f := fun t => t.rdBase) (x := 1)
    (show look (fun t => t.rdBase) (step { exhausted with host := [.write 0 0x2100] }) = some 1 by decide +kernel)
  exact ⟨inv_exhausted, by decide, t, h⟩

/-- AttachedBytesReadBack: between sessions, in a session, and a source of 2^64 bytes. -/
theorem wit_AttachedBytesReadBack :
    (({ State.reset with host := [.attachSource [1, 2]] } : State).host = .attachSource [1, 2] :: [] ∧
      State.reset.sessionOpen = false ∧ [(1 : Byte), 2].length < 2 ^ 64) ∧
    ({ State.reset with host := [.attachSink []] } : State).host = .attachSink [] :: [] ∧
    (writing 2 []).sessionOpen = true ∧ 2 ^ 64 ≤ (List.replicate (2 ^ 64) (0 : Byte)).length :=
  ⟨⟨rfl, rfl, by decide⟩, rfl, rfl, by rw [List.length_replicate]⟩

/-- EncodeDecodeAgree. -/
theorem wit_EncodeDecodeAgree : (Instr.wireTrailerPacked 0b00110 5).wellFormed = true := by decide

/-- DecodedImagesEncodeBack. -/
theorem wit_DecodedImagesEncodeBack : decode (.word 0x1303) = .ok (.wbyte 3) := by decide

/-- WireRecordsAreWritten: outside a session, at a byte boundary, at five and at six used bits. -/
theorem wit_WireRecordsAreWritten : (Instr.wireInternal).isCommand = false ∧ State.reset.mode = .idle ∧
    ((writing 2 []).mode = .write ∧ (writing 2 []).CursorInv ∧ (writing 2 []).curBit = 0) ∧
    (writing5.mode = .write ∧ writing5.CursorInv ∧ writing5.curBit = 5 ∧
      writing5.streamBits.drop (writing5.streamBits.length - 5) ++ List.replicate 0 false =
        bitsMsb (0b00110 : BitVec 5)) ∧
    (writing6.mode = .write ∧ writing6.CursorInv ∧ 5 < writing6.curBit.toNat ∧
      writing6.streamBits.drop (writing6.streamBits.length - 6) ++ List.replicate 2 false = bitsMsb (0x38 : Byte)) :=
  ⟨rfl, rfl, ⟨rfl, inv_writing, rfl⟩, ⟨rfl, inv_writing5, rfl, by decide +kernel⟩, rfl, inv_writing6, by decide,
    by decide +kernel⟩

/-- WireRecordsAreRead: a tree, a code before END, a frame, and both trailers as the end of the source. -/
theorem wit_WireRecordsAreRead :
    (reading584.mode = .read ∧ reading584.CursorInv ∧ reading584.nodes = [] ∧ treeAB.size ≤ 511 ∧
      reading584.unread = treeAB.ser ++ reading584.unread.drop 19) ∧
    (behindTree.mode = .read ∧ behindTree.CursorInv ∧ behindTree.treeV = true ∧ behindTree.tree = some treeAB ∧
      behindTree.unread = [false] ++ behindTree.unread.drop 1 ∧ behindTree.srcLen ≠ 0 ∧
      behindTree.pos + 1 ≤ 24) ∧
    (readingFrame.CursorInv ∧ readingFrame.pos = 0 ∧ readingFrame.mark = true ∧
      readingFrame.srcBits = frameBits readingFrame.params.countEndian 0x7F 0x61 3) ∧
    (behindTree.src.read (behindTree.srcLen.toNat - 1) = (0 : BitVec 5) ++ (0 : BitVec 3) ∧
      2 ≤ behindTree.srcLen.toNat ∧ behindTree.src.read (behindTree.srcLen.toNat - 2) = 0x47) :=
  ⟨⟨rfl, inv_reading, rfl, by decide, by decide +kernel⟩,
    ⟨rfl, inv_behindTree, rfl, by decide +kernel, by decide +kernel, by decide, by decide⟩,
    ⟨inv_readingFrame, by decide, by decide, by decide +kernel⟩, by decide +kernel⟩

/-- The four invariants of the steps: a state that meets all of them, and a step from it. -/
theorem wit_StepKeepsInvariants : built.SessionInv ∧ built.CursorInv ∧ built.TablesInv ∧
    ∃ t, step { built with host := [.write 0 0x4000] } = .next t := by
  obtain ⟨t, h, -⟩ := look_some (f := fun t => t.mode) (x := Mode.write)
    (show look (fun t => t.mode) (step { built with host := [.write 0 0x4000] }) = some Mode.write by decide +kernel)
  exact ⟨session_open rfl rfl, inv_built, tables_built, t, h⟩

/-- StepKeepsMemory: a state with bytes in both memories, and a step that appends. -/
theorem wit_StepKeepsMemory :
    ({ writing5 with src := Memory.ofBytes [1, 2], srcLen := 2, sink := Memory.ofBytes [3], sinkLen := 1
                     host := [.write 0 0x1400] } : State).MemoryInv ∧
    ∃ t, step { writing5 with src := Memory.ofBytes [1, 2], srcLen := 2, sink := Memory.ofBytes [3], sinkLen := 1
                              host := [.write 0 0x1400] } = .next t :=
  ⟨⟨by decide +kernel, by decide +kernel, by decide +kernel, by decide +kernel⟩, _, rfl⟩

end Sys2Proof.Tests
end

/-! PROOF. R9, R36: every source read stays inside the source. Each operation that reads the source clips the read to
SRC_LEN or is guarded against an empty source, so the claim needs no fact about the cursor. -/

namespace Sys2Proof.Machine

/-! ## What a command answers -/

/-- Every next state that an outcome answers meets `P`. -/
def EveryNext (P : State → Prop) (o : Host.Outcome State Fault Refusal) : Prop :=
  ∀ t, o = .next t → P t

section
variable {P : State → Prop}

theorem EveryNext.next {s : State} (h : P s) : EveryNext P (.next s) := by
  rintro t ⟨⟩
  exact h

theorem EveryNext.fault (r : Fault) : EveryNext P (.fault r) := by
  rintro t ⟨⟩

theorem EveryNext.ite {c : Prop} [Decidable c] {o p : Host.Outcome State Fault Refusal}
    (ho : c → EveryNext P o) (hp : ¬ c → EveryNext P p) : EveryNext P (if c then o else p) := by
  split
  · exact ho ‹_›
  · exact hp ‹_›

/-- A sequence keeps `P` when its first part answers `P` and its second part keeps it. -/
theorem EveryNext.andThen {o : Host.Outcome State Fault Refusal} {f : State → Host.Outcome State Fault Refusal}
    (ho : EveryNext P o) (hf : ∀ s, P s → EveryNext P (f s)) : EveryNext P (andThen o f) := by
  intro t ht
  obtain ⟨s, hs, ⟨-, rfl⟩ | ⟨-, hn⟩⟩ := andThen_next.mp ht
  · exact ho t hs
  · exact hf s (ho s hs) t hn

end

/-! ## The noted reads -/

/-- Every source read noted so far lies inside the source (R9, R36). -/
def State.ReadsInRange (s : State) : Prop := ∀ r ∈ s.srcReads, r.1 + r.2 ≤ s.srcLen.toNat

/-- Further reads inside the same source keep all of them inside it. -/
theorem State.ReadsInRange.append {s t : State} {rs : List (Nat × Nat)} (h : s.ReadsInRange)
    (hlen : t.srcLen = s.srcLen) (hreads : t.srcReads = s.srcReads ++ rs)
    (hrs : ∀ r ∈ rs, r.1 + r.2 ≤ s.srcLen.toNat) : t.ReadsInRange := by
  intro r hr
  rw [hreads, List.mem_append] at hr
  rw [hlen]
  exact hr.elim (h r) (hrs r)

/-- A command refused under its guard notes no read. -/
theorem State.ReadsInRange.guarded {s : State} (h : s.ReadsInRange) {c : Prop} [Decidable c]
    {o : Host.Outcome State Fault Refusal} (ho : ¬ c → EveryNext State.ReadsInRange o) :
    EveryNext State.ReadsInRange (if c then .next (refuse s) else o) :=
  .ite (fun _ => .next h) ho

/-! ## The operations that read the source -/

theorem readsInRange_noteScan {s : State} (h : s.ReadsInRange) : (noteScan s).ReadsInRange := by
  refine h.append rfl (noteScan_srcReads s) fun r hr => ?_
  obtain ⟨i, hi, rfl⟩ := List.mem_map.mp hr
  exact List.mem_range.mp hi

theorem readsInRange_loadBuf {s : State} {a n : Nat} (h : s.ReadsInRange) (hn : n ≤ s.srcLen.toNat - a) :
    (loadBuf a n s).ReadsInRange := by
  refine h.append rfl (loadBuf_srcReads a n s) fun r hr => ?_
  by_cases h0 : n = 0
  · simp [h0] at hr
  · rw [if_neg h0, List.mem_singleton] at hr
    subst hr
    simp only
    omega

theorem readsInRange_refill {s : State} (h : s.ReadsInRange) : (refill s).ReadsInRange :=
  readsInRange_loadBuf h (Nat.min_le_right _ _)

theorem readsInRange_peekLast {s : State} (h : s.ReadsInRange) (h0 : s.srcLen ≠ 0) : (peekLast s).2.ReadsInRange := by
  refine h.append rfl (noteRead_srcReads _ _ s) fun r hr => ?_
  have hpos : s.srcLen.toNat ≠ 0 := fun e => h0 (BitVec.eq_of_toNat_eq e)
  rw [List.mem_singleton] at hr
  subst hr
  simp only
  omega

theorem readsInRange_stepBit {s : State} (h : s.ReadsInRange) : (stepBit s).ReadsInRange := by
  unfold stepBit
  split <;> exact h

theorem readsInRange_readBit {s t : State} {o : Option Bool} (h : s.ReadsInRange) (e : readBit s = (o, t)) :
    t.ReadsInRange := by
  have hr := readsInRange_refill h
  simp only [readBit] at e
  split at e
  · split at e <;> cases e
    · exact hr
    · exact readsInRange_stepBit hr
  · cases e
    exact readsInRange_stepBit h

theorem readsInRange_readBitsN {n : Nat} {s t : State} {o : Option (List Bool)} (h : s.ReadsInRange)
    (e : readBitsN n s = (o, t)) : t.ReadsInRange := by
  induction n generalizing s t o with
  | zero => cases e; exact h
  | succ n ih =>
    rw [readBitsN] at e
    split at e
    case h_1 _ hb => cases e; exact readsInRange_readBit h hb
    case h_2 _ _ hb =>
      have h1 := readsInRange_readBit h hb
      split at e <;> cases e <;> exact ih h1 ‹_›

theorem readsInRange_checkTrailer {s t : State} {o : Option Nat} (h : s.ReadsInRange) (h0 : s.srcLen ≠ 0)
    (e : checkTrailer s = (o, t)) : t.ReadsInRange := by
  have hp := readsInRange_peekLast h h0
  simp only [checkTrailer] at e
  split at e
  · cases e; exact hp
  · split at e <;> cases e <;> exact hp

theorem readsInRange_desNode {fuel : Nat} {s t : State} {o : Option PoolIx} (h : s.ReadsInRange)
    (e : desNode fuel s = (o, t)) : t.ReadsInRange := by
  induction fuel generalizing s t o with
  | zero => cases e; exact h
  | succ fuel ih =>
    simp only [desNode] at e
    split at e
    · cases e; exact h
    · have h0 : (allocNode s).ReadsInRange := h
      split at e
      case h_1 _ hb => cases e; exact readsInRange_readBit h0 hb
      case h_2 _ hb =>
        have h1 := readsInRange_readBit h0 hb
        split at e
        case h_1 _ hbs => cases e; exact readsInRange_readBitsN h1 hbs
        case h_2 _ _ hbs =>
          have h2 := readsInRange_readBitsN h1 hbs
          cases e; exact h2
      case h_3 _ hb =>
        have h1 := readsInRange_readBit h0 hb
        split at e
        case h_1 _ hl => cases e; exact ih (s := setNode _ _ _) h1 hl
        case h_2 _ _ hl =>
          have h2 := ih (s := setNode _ _ _) h1 hl
          split at e
          case h_1 _ hr => cases e; exact ih (s := setNode _ _ _) h2 hr
          case h_2 _ _ hr =>
            have h3 := ih (s := setNode _ _ _) h2 hr
            cases e; exact h3

/-! ## The operations that read no source -/

theorem readsInRange_nextByte {s : State} (h : s.ReadsInRange) : (nextByte s).ReadsInRange := by
  unfold nextByte
  split <;> exact h

theorem readsInRange_writeBit (b : Bool) {s : State} (h : s.ReadsInRange) : (writeBit b s).ReadsInRange := by
  simp only [writeBit]
  split
  · exact readsInRange_nextByte h
  · exact h

theorem readsInRange_writeByte (v : Byte) {s : State} (h : s.ReadsInRange) : (writeByte v s).ReadsInRange :=
  readsInRange_nextByte h

theorem readsInRange_writeBits (bs : List Bool) {s : State} (h : s.ReadsInRange) : (writeBits bs s).ReadsInRange :=
  List.foldlRecOn bs _ h fun _ ht b _ => readsInRange_writeBit b ht

theorem readsInRange_writeBytes (vs : List Byte) {s : State} (h : s.ReadsInRange) : (writeBytes vs s).ReadsInRange :=
  List.foldlRecOn vs _ h fun _ ht v _ => readsInRange_writeByte v ht

theorem readsInRange_flushBuf {s : State} (h : s.ReadsInRange) : (flushBuf s).ReadsInRange := by
  unfold flushBuf
  split <;> exact h

theorem readsInRange_emitTimes (b : Byte) (n : Nat) {s : State} (h : s.ReadsInRange) :
    (emitTimes b n s).ReadsInRange := by
  induction n generalizing s with
  | zero => exact h
  | succ n ih => exact ih (s := emit b s) h

theorem readsInRange_walkBit (b : Bool) {s : State} (h : s.ReadsInRange) : (walkBit b s).ReadsInRange := by
  unfold walkBit
  extract_lets n w m
  split <;> exact h

theorem readsInRange_walkPayload {n : Nat} {s t : State} (h : s.ReadsInRange) (e : walkPayload n s = some t) :
    t.ReadsInRange := by
  induction n generalizing s with
  | zero => cases e; exact h
  | succ n ih =>
    rw [walkPayload] at e
    split at e
    case h_1 => cases e
    case h_2 _ _ hb => exact ih (readsInRange_walkBit _ (readsInRange_readBit h hb)) e

/-! ## The commands -/

section
variable {s : State} (h : s.ReadsInRange)
include h

theorem readsInRange_execWopen : EveryNext State.ReadsInRange (execWopen s) :=
  h.guarded fun _ => .ite (fun _ => .next h) fun _ => .next h

theorem readsInRange_execWflush : EveryNext State.ReadsInRange (execWflush s) :=
  h.guarded fun _ => .next (readsInRange_flushBuf h)

theorem readsInRange_execRopen : EveryNext State.ReadsInRange (execRopen s) :=
  h.guarded fun _ => .ite (fun _ => .next h) fun _ =>
    .next (readsInRange_loadBuf (s := clearSession s) h (Nat.min_le_right _ _))

theorem readsInRange_execRbit : EveryNext State.ReadsInRange (execRbit s) := by
  refine h.guarded fun _ => ?_
  split
  all_goals
    have h1 := readsInRange_readBit h ‹_›
    exact .next h1

theorem readsInRange_execRclose : EveryNext State.ReadsInRange (execRclose s) :=
  h.guarded fun _ => .next h

theorem readsInRange_execTbuild : EveryNext State.ReadsInRange (execTbuild s) :=
  h.guarded fun _ => .ite (fun _ => .next h) fun _ => .ite (fun _ => .next h) fun _ => .next h

theorem readsInRange_execTser : EveryNext State.ReadsInRange (execTser s) := by
  refine h.guarded fun _ => ?_
  split
  · exact .fault _
  · exact .next (readsInRange_writeBits _ h)

theorem readsInRange_execTdes : EveryNext State.ReadsInRange (execTdes s) := by
  refine h.guarded fun _ => ?_
  have h0 : State.ReadsInRange { s with treeV := false, codeV := false, nodes := [] } := h
  split
  all_goals
    have h1 := readsInRange_desNode h0 ‹_›
    exact .next h1

theorem readsInRange_execCgen : EveryNext State.ReadsInRange (execCgen s) := by
  refine h.guarded fun _ => ?_
  split
  · exact .fault _
  · split <;> exact .next h

theorem readsInRange_execFscan : EveryNext State.ReadsInRange (execFscan s) :=
  h.guarded fun _ => .next (readsInRange_noteScan h)

theorem readsInRange_execEsingle : EveryNext State.ReadsInRange (execEsingle s) :=
  h.guarded fun _ => .next (readsInRange_writeBytes _ h)

theorem readsInRange_execEpay : EveryNext State.ReadsInRange (execEpay s) :=
  h.guarded fun _ => .next (readsInRange_writeBits _ (readsInRange_noteScan h))

theorem readsInRange_execEtrail : EveryNext State.ReadsInRange (execEtrail s) :=
  h.guarded fun _ => .ite (fun _ => .next (readsInRange_writeBits _ h)) fun _ =>
    .next (readsInRange_writeByte _ (readsInRange_writeBits _ h))

theorem readsInRange_execEncode : EveryNext State.ReadsInRange (execEncode s) :=
  h.guarded fun _ =>
    (readsInRange_execWopen h).andThen fun _ h1 =>
    (readsInRange_execFscan h1).andThen fun _ h2 =>
    .ite (fun _ => .next h2) fun _ =>
    .ite (fun _ => (readsInRange_execEsingle h2).andThen fun _ h3 => readsInRange_execWflush h3) fun _ =>
    (readsInRange_execTbuild h2).andThen fun _ h3 =>
    (readsInRange_execCgen h3).andThen fun _ h4 =>
    (readsInRange_execTser h4).andThen fun _ h5 =>
    (readsInRange_execEpay h5).andThen fun _ h6 =>
    (readsInRange_execEtrail h6).andThen fun _ h7 => readsInRange_execWflush h7

theorem readsInRange_execDsingle : EveryNext State.ReadsInRange (execDsingle s) := by
  refine h.guarded fun _ => .ite (fun _ => .next h) fun _ => ?_
  split
  · exact .fault _
  · exact .next (readsInRange_emitTimes _ _ (readsInRange_readBitsN h ‹_›))

/-- DPAY peeks at the last source byte only where its guard has excluded the empty source (R119). -/
theorem readsInRange_execDpay : EveryNext State.ReadsInRange (execDpay s) := by
  refine h.guarded fun hg => ?_
  have h0 : s.srcLen ≠ 0 := fun e => hg (.inr (.inr (.inl e)))
  split
  case h_1 _ ht =>
    have h1 := readsInRange_checkTrailer h h0 ht
    exact .next h1
  case h_2 _ s1 ht =>
    have h1 := readsInRange_checkTrailer h h0 ht
    split
    · exact .fault _
    · exact .next (readsInRange_walkPayload (s := { s1 with walk := s.root }) h1 ‹_›)

theorem readsInRange_execDecode : EveryNext State.ReadsInRange (execDecode s) :=
  h.guarded fun _ =>
    (readsInRange_execRopen h).andThen fun _ h1 =>
    .ite (fun _ => .next h1) fun _ =>
    .ite (fun _ => (readsInRange_execDsingle h1).andThen fun _ h2 => readsInRange_execRclose h2) fun _ =>
    (readsInRange_execTdes h1).andThen fun _ h2 =>
    (readsInRange_execDpay h2).andThen fun _ h3 => readsInRange_execRclose h3

theorem readsInRange_execClrerr : EveryNext State.ReadsInRange (execClrerr s) := by
  refine .next ?_
  unfold acknowledge
  split <;> exact h

/-- No command notes a read outside the source. -/
theorem readsInRange_exec {i : Instr} (hc : i.isCommand = true) : EveryNext State.ReadsInRange (exec i s) := by
  cases i with
  | wopen => exact readsInRange_execWopen h
  | wbit b => exact h.guarded fun _ => .next (readsInRange_writeBit b h)
  | wbits n => exact h.guarded fun _ => .next (readsInRange_writeBits _ h)
  | wbyte v => exact h.guarded fun _ => .next (readsInRange_writeByte v h)
  | wflush => exact readsInRange_execWflush h
  | ropen => exact readsInRange_execRopen h
  | rbit => exact readsInRange_execRbit h
  | rclose => exact readsInRange_execRclose h
  | tbuild => exact readsInRange_execTbuild h
  | tser => exact readsInRange_execTser h
  | tdes => exact readsInRange_execTdes h
  | cgen => exact readsInRange_execCgen h
  | fscan => exact readsInRange_execFscan h
  | esingle => exact readsInRange_execEsingle h
  | epay => exact readsInRange_execEpay h
  | etrail => exact readsInRange_execEtrail h
  | encode => exact readsInRange_execEncode h
  | dsingle => exact readsInRange_execDsingle h
  | dpay => exact readsInRange_execDpay h
  | decode => exact readsInRange_execDecode h
  | clrerr => exact readsInRange_execClrerr h
  | wireSingle m sym count => cases hc
  | wireInternal => cases hc
  | wireLeaf sym => cases hc
  | wireCode k => cases hc
  | wireTrailerPacked d c => cases hc
  | wireTrailerZero d => cases hc

/-! ## One step -/

/-- A newly attached source has no reads yet; every other host access but a command leaves the noted reads alone. -/
theorem readsInRange_taken {a : HostAccess} {t : State} (ht : Taken s a t) : t.ReadsInRange := by
  cases ht with
  | command v i t hi hc he => exact readsInRange_exec h hc t he
  | reserved v hi => exact h
  | arg0 v => exact h
  | ignored off v h0 h8 => exact h
  | read off => exact h
  | reset => exact h
  | source bytes hs hl => exact fun r hr => absurd hr List.not_mem_nil
  | sink bytes hs => exact h
  | alloc b p => exact h

end

/-- Settles O48: the noted reads stay in range through whatever the step takes from the host's queue. -/
theorem sourceReadsStayInRange : Obligations.SourceReadsStayInRange := by
  intro s t _ h hstep
  obtain ⟨-, rfl⟩ | ⟨a, rest, -, htaken⟩ := step_cases hstep
  · exact h
  · exact readsInRange_taken (s := { s with host := rest }) h htaken

end Sys2Proof.Machine

/-! PROOF. What the shared operations may change, in every state: no invariant of the cursor is needed for that. -/

namespace Sys2Proof.Machine

theorem WriterFrame.treeV {s t : State} (h : WriterFrame s t) : t.treeV = s.treeV := by rw [h.2]
theorem ReaderFrame.treeV {s t : State} (h : ReaderFrame s t) : t.treeV = s.treeV := by rw [h]

theorem nextByte_writerFrame (s : State) : WriterFrame s (nextByte s) := by
  unfold nextByte
  split
  · exact ⟨storesAtEnd_memWrite _ { s with curByte := s.curByte + 1 }, rfl⟩
  · exact ⟨StoresAtEnd.refl s, rfl⟩

/-- WriteBit stays inside the writer's frame, in every state (R76). -/
theorem writeBit_writerFrame (b : Bool) (s : State) : WriterFrame s (writeBit b s) := by
  have h1 : WriterFrame s { s with buf := s.buf.modify s.curByte (putBit s.curBit b), curBit := s.curBit + 1 } :=
    ⟨StoresAtEnd.refl s, rfl⟩
  simp only [writeBit]
  split
  · exact h1.trans (nextByte_writerFrame _)
  · exact h1

theorem stepBit_readerFrame (s : State) : ReaderFrame s (stepBit s) := by
  unfold stepBit
  split <;> rfl

/-- ReadBit stays inside the reader's frame, in every state (R85). -/
theorem readBit_readerFrame (s : State) : ReaderFrame s (readBit s).2 := by
  have hr : ReaderFrame s (refill s) := rfl
  simp only [readBit]
  split
  · split
    · exact hr.trans (t := refill s) rfl
    · exact hr.trans (stepBit_readerFrame _)
  · exact stepBit_readerFrame s

theorem nextByte_curBit (s : State) : (nextByte s).curBit = s.curBit := by
  unfold nextByte
  split <;> rfl

theorem writeBit_curBit (b : Bool) (s : State) : (writeBit b s).curBit = s.curBit + 1 := by
  simp only [writeBit]
  split
  · rw [nextByte_curBit]
  · rfl

/-- A run of WriteBits moves CUR_BIT on by its length, modulo 8 (R20). -/
theorem writeBits_curBit (bs : List Bool) (s : State) :
    (writeBits bs s).curBit = s.curBit + BitVec.ofNat 3 bs.length := by
  induction bs generalizing s with
  | nil => simp [writeBits]
  | cons b bs ih =>
    have hcons : writeBits (b :: bs) s = writeBits bs (writeBit b s) := rfl
    rw [hcons, ih, writeBit_curBit, List.length_cons, BitVec.add_assoc, Nat.add_comm bs.length, BitVec.ofNat_add]
    rfl

/-- Padding of `8 - CUR_BIT` bits completes the current byte (R112). -/
theorem writeBits_padding_curBit (s : State) :
    (writeBits (List.replicate (8 - s.curBit.toNat) false) s).curBit = 0 := by
  have hk := s.curBit.isLt
  apply BitVec.eq_of_toNat_eq
  rw [writeBits_curBit, BitVec.toNat_add, BitVec.toNat_ofNat, List.length_replicate]
  show (s.curBit.toNat + (8 - s.curBit.toNat) % 8) % 8 = 0
  omega

/-- Whole bytes at a byte-aligned cursor are written as their bits (R76). -/
theorem writeBytes_eq_writeBits (vs : List Byte) {s : State} (h0 : s.curBit = 0) :
    writeBytes vs s = writeBits (vs.flatMap bitsMsb) s := by
  induction vs generalizing s with
  | nil => rfl
  | cons v vs ih =>
    have h1 : (writeBits (bitsMsb v) s).curBit = 0 := by
      rw [writeBits_curBit, h0, length_bitsMsb]
      rfl
    have hcons : writeBytes (v :: vs) s = writeBytes vs (writeByte v s) := rfl
    rw [hcons, writeByte_eq_writeBits v h0, ih h1, List.flatMap_cons, writeBits_append]

theorem checkTrailer_state (s : State) : (checkTrailer s).2 = noteRead (s.srcLen.toNat - 1) 1 s := by
  simp only [checkTrailer]
  split
  · rfl
  · split <;> rfl

end Sys2Proof.Machine

/-! PROOF. R27, R97: the tree that stands in a pool. The reading `State.tree` and the walk `reach` agree with it; TDES
and TBUILD both leave a pool that is exactly one tree. -/

namespace Sys2Proof.Machine

/-! ## The tree that stands at an index -/

/-- The tree `t` stands in the pool at index `i`, and its pre-order walk meets the indices `js` (R27, R97). -/
inductive Spans (nodes : List Node) : PoolIx → CodeTree → List Nat → Prop
  | leaf {i : PoolIx} {n : Node} (hn : nodes[i.toNat]? = some n) (hk : n.kind = true) :
      Spans nodes i (.leaf n.sym) [i.toNat]
  | internal {i : PoolIx} {n : Node} {l r : CodeTree} {ls rs : List Nat} (hn : nodes[i.toNat]? = some n)
      (hk : n.kind = false) (hl : Spans nodes n.left l ls) (hr : Spans nodes n.right r rs) :
      Spans nodes i (.internal l r) (i.toNat :: (ls ++ rs))

/-- The pool holds exactly one tree, rooted at `root`: it uses each entry once (R27). -/
def PoolIsTree (nodes : List Node) (root : PoolIx) : Prop :=
  nodes.length ≤ Config.poolN ∧ ∃ t js, Spans nodes root t js ∧ js.Perm (List.range nodes.length)

/-- Entries outside the tree do not matter. -/
theorem Spans.congr {nodes more : List Node} {i : PoolIx} {t : CodeTree} {js : List Nat} (h : Spans nodes i t js)
    (heq : ∀ j ∈ js, more[j]? = nodes[j]?) : Spans more i t js := by
  induction h with
  | leaf hn hk => exact .leaf ((heq _ (by simp)).trans hn) hk
  | internal hn hk hl hr ihl ihr =>
    exact .internal ((heq _ (by simp)).trans hn) hk (ihl fun j hj => heq j (by simp [hj]))
      (ihr fun j hj => heq j (by simp [hj]))

theorem Spans.lt_length {nodes : List Node} {i : PoolIx} {t : CodeTree} {js : List Nat} (h : Spans nodes i t js) :
    ∀ j ∈ js, j < nodes.length := by
  induction h with
  | leaf hn hk => simpa using (List.getElem?_eq_some_iff.mp hn).1
  | internal hn hk hl hr ihl ihr =>
    intro j hj
    rw [List.mem_cons, List.mem_append] at hj
    rcases hj with rfl | hj | hj
    · exact (List.getElem?_eq_some_iff.mp hn).1
    · exact ihl j hj
    · exact ihr j hj

theorem Spans.append {nodes : List Node} {i : PoolIx} {t : CodeTree} {js : List Nat} (h : Spans nodes i t js)
    (more : List Node) : Spans (nodes ++ more) i t js :=
  h.congr fun j hj => List.getElem?_append_left (h.lt_length j hj)

/-- A tree is less than half as deep as it has nodes. -/
theorem Spans.depth_lt {nodes : List Node} {i : PoolIx} {t : CodeTree} {js : List Nat} (h : Spans nodes i t js) :
    2 * t.depth < js.length := by
  induction h with
  | leaf hn hk => simp [CodeTree.depth]
  | internal hn hk hl hr ihl ihr =>
    simp only [CodeTree.depth, List.length_cons, List.length_append]
    omega

/-- The reading and the walk find the tree when the bound exceeds its depth. -/
theorem Spans.read {nodes : List Node} {i : PoolIx} {t : CodeTree} {js : List Nat} (h : Spans nodes i t js) {f : Nat}
    (hf : t.depth < f) : treeAt nodes f i = some t ∧ reach nodes f i = js := by
  induction h generalizing f with
  | leaf hn hk =>
    obtain ⟨f, rfl⟩ := Nat.exists_eq_add_of_lt hf
    simp [treeAt, reach, hn, hk]
  | internal hn hk hl hr ihl ihr =>
    obtain ⟨f, rfl⟩ : ∃ g, f = g + 1 := ⟨f - 1, by omega⟩
    simp only [CodeTree.depth] at hf
    obtain ⟨htl, hrl⟩ := ihl (f := f) (by omega)
    obtain ⟨htr, hrr⟩ := ihr (f := f) (by omega)
    simp [treeAt, reach, hn, hk, htl, htr, hrl, hrr]

/-- A pool that is one tree reads back as that tree, at the depth bound of R27. -/
theorem PoolIsTree.read {nodes : List Node} {root : PoolIx} (h : PoolIsTree nodes root) :
    (∃ t, treeAt nodes (Config.depthMax + 1) root = some t) ∧
      (reach nodes (Config.depthMax + 1) root).Perm (List.range nodes.length) := by
  obtain ⟨hlen, t, js, hsp, hperm⟩ := h
  have hd : 2 * t.depth < 511 := by
    have := hsp.depth_lt
    rw [hperm.length_eq, List.length_range] at this
    exact this.trans_le hlen
  obtain ⟨ht, hr⟩ := hsp.read (f := Config.depthMax + 1) (by simp only [Config.depthMax]; omega)
  exact ⟨⟨t, ht⟩, hr ▸ hperm⟩

/-! ## TDES -/

theorem readBit_nodes {s t : State} {o : Option Bool} (e : readBit s = (o, t)) : t.nodes = s.nodes := by
  obtain rfl : (readBit s).2 = t := congrArg Prod.snd e
  have h := readBit_readerFrame s
  rw [h]

theorem readBitsN_nodes {n : Nat} {s t : State} {o : Option (List Bool)} (e : readBitsN n s = (o, t)) :
    t.nodes = s.nodes := by
  induction n generalizing s t o with
  | zero => cases e; rfl
  | succ n ih =>
    rw [readBitsN] at e
    split at e
    case h_1 _ hb => cases e; exact readBit_nodes hb
    case h_2 _ _ hb => split at e <;> cases e <;> exact (ih ‹_›).trans (readBit_nodes hb)

theorem modify_concat_length {α : Type} (l : List α) (x : α) (f : α → α) :
    (l ++ [x]).modify l.length f = l ++ [f x] := by
  induction l with
  | nil => rfl
  | cons a l ih => simp [ih]

/-- A subtree of `k` entries has been added at the end of the pool, in pre-order, its root first (R100, R101). -/
structure SubtreeAdded (s t : State) (root : PoolIx) (k : Nat) : Prop where
  length : t.nodes.length = s.nodes.length + k
  bound  : t.nodes.length ≤ Config.poolN
  kept   : ∀ j < s.nodes.length, t.nodes[j]? = s.nodes[j]?
  spans  : ∃ tr, Spans t.nodes root tr (List.range' s.nodes.length k)

/-- A Leaf entry at the end of the pool. -/
theorem SubtreeAdded.leaf {s t : State} {n : Node} (hfull : s.nodes.length < 511)
    (hnodes : t.nodes = s.nodes ++ [n]) (hk : n.kind = true) :
    SubtreeAdded s t (BitVec.ofNat 9 s.nodes.length) 1 := by
  have hix : (BitVec.ofNat 9 s.nodes.length).toNat = s.nodes.length := Nat.mod_eq_of_lt (by omega)
  have hsp := Spans.leaf (nodes := t.nodes) (i := BitVec.ofNat 9 s.nodes.length) (n := n) (by simp [hix, hnodes]) hk
  rw [hix] at hsp
  refine ⟨by simp [hnodes], by simp [hnodes, Config.poolN]; omega, fun j hj => ?_, .leaf n.sym, hsp⟩
  rw [hnodes, List.getElem?_append_left hj]

/-- An Internal entry at the end of the pool, then its left and its right subtree, each linked to it when it is
complete. -/
theorem SubtreeAdded.internal {s u v w t : State} {n : Node} {l r : PoolIx} {k m : Nat}
    (hfull : s.nodes.length < 511) (hu : u.nodes = s.nodes ++ [n]) (hk : n.kind = false)
    (hl : SubtreeAdded u v l k)
    (hr : SubtreeAdded (setNode s.nodes.length (fun n => { n with left := l }) v) w r m)
    (ht : t = setNode s.nodes.length (fun n => { n with right := r }) w) :
    SubtreeAdded s t (BitVec.ofNat 9 s.nodes.length) (1 + k + m) := by
  subst ht
  have hix : (BitVec.ofNat 9 s.nodes.length).toNat = s.nodes.length := Nat.mod_eq_of_lt (by omega)
  have hulen : u.nodes.length = s.nodes.length + 1 := by simp [hu]
  have hvlen := hl.length
  have hwlen := hr.length
  simp only [setNode_nodes, List.length_modify] at hwlen
  have hbound := hr.bound
  -- below the entry nothing changes, above it each subtree stays as it was built
  have hw : ∀ j, j ≠ s.nodes.length →
      (w.nodes.modify s.nodes.length fun n => { n with right := r })[j]? = w.nodes[j]? := fun j hj => by simp [Ne.symm hj]
  have hv : ∀ j, j ≠ s.nodes.length → j < v.nodes.length → w.nodes[j]? = v.nodes[j]? := fun j hj hlt => by
    rw [hr.kept j (by simpa using hlt)]
    simp [Ne.symm hj]
  have hentry : (w.nodes.modify s.nodes.length fun n => { n with right := r })[s.nodes.length]? =
      some { n with left := l, right := r } := by
    rw [List.getElem?_modify, hr.kept _ (by simp; omega), setNode_nodes, List.getElem?_modify,
      hl.kept _ (by omega), hu]
    simp
  obtain ⟨tl, hspl⟩ := hl.spans
  obtain ⟨tr, hspr⟩ := hr.spans
  simp only [setNode_nodes, List.length_modify] at hspr
  have hsp := Spans.internal (i := BitVec.ofNat 9 s.nodes.length) (n := { n with left := l, right := r })
    ((congrArg _ hix).trans hentry) hk
    (hspl.congr fun j hj => by
      have := List.mem_range'_1.mp hj
      rw [hw j (by omega), hv j (by omega) (by omega)])
    (hspr.congr fun j hj => by
      have := List.mem_range'_1.mp hj
      exact hw j (by omega))
  refine ⟨?_, ?_, fun j hj => ?_, .internal tl tr, ?_⟩
  · simp only [setNode_nodes, List.length_modify]; omega
  · simpa using hbound
  · rw [setNode_nodes, hw j (by omega), hv j (by omega) (by omega), hl.kept j (by omega), hu,
      List.getElem?_append_left hj]
  · have hidx : List.range' s.nodes.length (1 + k + m) =
        s.nodes.length :: (List.range' u.nodes.length k ++ List.range' v.nodes.length m) := by
      rw [hvlen, hulen, List.range'_append_1, Nat.add_assoc, Nat.add_comm 1, List.range'_succ]
    rw [hidx]
    rwa [hix] at hsp

/-- Where `DesNode()` answers an index, it has added the subtree at that index. -/
theorem desNode_added {fuel : Nat} {s t : State} {root : PoolIx} (e : desNode fuel s = (some root, t)) :
    root = BitVec.ofNat 9 s.nodes.length ∧ ∃ k, SubtreeAdded s t root k := by
  induction fuel generalizing s t root with
  | zero => cases e
  | succ fuel ih =>
    simp only [desNode] at e
    split at e
    · cases e
    case isFalse hfull =>
      have hfull : s.nodes.length < 511 := Nat.lt_of_not_le hfull
      split at e
      case h_1 => cases e
      case h_2 s1 hb =>
        split at e
        case h_1 => cases e
        case h_2 bs s2 hbs =>
          have h2 : s2.nodes = s.nodes ++ [freeNode s.draw s.nodes.length] :=
            (readBitsN_nodes hbs).trans (readBit_nodes hb)
          cases e
          exact ⟨rfl, 1, .leaf hfull (by rw [setNode_nodes, h2, modify_concat_length]) rfl⟩
      case h_3 s1 hb =>
        have h1 : s1.nodes = s.nodes ++ [freeNode s.draw s.nodes.length] := readBit_nodes hb
        split at e
        case h_1 => cases e
        case h_2 l s2 hl =>
          obtain ⟨-, k, hl⟩ := ih hl
          split at e
          case h_1 => cases e
          case h_2 r s3 hr =>
            obtain ⟨-, m, hr⟩ := ih hr
            cases e
            exact ⟨rfl, 1 + k + m, .internal hfull (by rw [setNode_nodes, h1, modify_concat_length]) rfl hl hr rfl⟩

/-- The pool that `DesNode()` leaves from an empty one is one tree. -/
theorem poolIsTree_desNode {fuel : Nat} {s t : State} {root : PoolIx} (h0 : s.nodes = [])
    (e : desNode fuel s = (some root, t)) : PoolIsTree t.nodes root := by
  obtain ⟨-, k, h⟩ := desNode_added e
  obtain ⟨tr, hsp⟩ := h.spans
  have hlen := h.length
  rw [h0, List.length_nil, Nat.zero_add] at hlen
  rw [h0, List.length_nil, ← List.range_eq_range', ← hlen] at hsp
  exact ⟨h.bound, tr, _, hsp, .refl _⟩

/-! ## TBUILD -/

/-- The trees that stand at the indices of a working list, and the pool indices they use, list entry by list entry
(R28, R92). -/
inductive Grove (nodes : List Node) : List PoolIx → List Nat → Prop
  | nil : Grove nodes [] []
  | cons {i : PoolIx} {t : CodeTree} {js : List Nat} {wl : List PoolIx} {rest : List Nat} (hi : Spans nodes i t js)
      (hwl : Grove nodes wl rest) : Grove nodes (i :: wl) (js ++ rest)

/-- The order of the working list does not matter. -/
theorem Grove.perm {nodes : List Node} {wl wl' : List PoolIx} {js : List Nat} (h : Grove nodes wl js)
    (hp : wl.Perm wl') : ∃ js', Grove nodes wl' js' ∧ js'.Perm js := by
  induction hp generalizing js with
  | nil => exact ⟨js, h, .refl js⟩
  | cons i _ ih =>
    cases h with
    | cons hi hwl =>
      obtain ⟨rest', hwl', hperm⟩ := ih hwl
      exact ⟨_, .cons hi hwl', hperm.append_left _⟩
  | swap i k wl =>
    cases h with
    | cons hk hwl =>
      cases hwl with
      | cons hi hwl =>
        refine ⟨_, .cons hi (.cons hk hwl), ?_⟩
        rw [← List.append_assoc, ← List.append_assoc]
        exact List.perm_append_comm.append_right _
  | trans _ _ ih1 ih2 =>
    obtain ⟨js1, h1, hp1⟩ := ih1 h
    obtain ⟨js2, h2, hp2⟩ := ih2 h1
    exact ⟨js2, h2, hp2.trans hp1⟩

theorem Grove.append {nodes : List Node} {wl : List PoolIx} {js : List Nat} (h : Grove nodes wl js)
    (more : List Node) : Grove (nodes ++ more) wl js := by
  induction h with
  | nil => exact .nil
  | cons hi _ ih => exact .cons (hi.append more) ih

/-- Each entry of the pool is used exactly once by the trees of the working list (R27, R95). -/
def UsesPoolOnce (pool : List Node × List PoolIx) : Prop :=
  ∃ js, Grove pool.1 pool.2 js ∧ js.Perm (List.range pool.1.length)

theorem insertMerged_perm (tie : Config.Tie) (fq : PoolIx → Word64) (f : Word64) (n : PoolIx) (wl : List PoolIx) :
    (insertMerged tie fq f n wl).Perm (n :: wl) := by
  unfold insertMerged
  extract_lets ahead
  exact List.perm_middle.trans (by rw [List.takeWhile_append_dropWhile])

/-- The merged entry is the root of the two trees it joins, whichever of them is the left child (R92). -/
theorem spans_mergedNode (draw : Nat) (order : Config.ChildOrder) (f : Word64) {nodes : List Node} {t q : PoolIx}
    {tt tq : CodeTree} {ts qs : List Nat} (hlen : nodes.length < 511) (ht : Spans nodes t tt ts)
    (hq : Spans nodes q tq qs) :
    ∃ tr js, Spans (nodes ++ [mergedNode draw order nodes.length t q f]) (BitVec.ofNat 9 nodes.length) tr js ∧
      js.Perm (nodes.length :: (ts ++ qs)) := by
  have hix : (BitVec.ofNat 9 nodes.length).toNat = nodes.length := Nat.mod_eq_of_lt (by omega)
  have hn (m : Node) : (nodes ++ [m])[(BitVec.ofNat 9 nodes.length).toNat]? = some m := by simp [hix]
  cases order with
  | tailLeft =>
    refine ⟨_, _, .internal (hn _) rfl (ht.append _) (hq.append _), ?_⟩
    rw [hix]
  | tailRight =>
    refine ⟨_, _, .internal (hn _) rfl (hq.append _) (ht.append _), ?_⟩
    rw [hix]
    exact List.perm_append_comm.cons _

/-- One merge of a list of two or more: the pool grows by one entry, the list shrinks by one, and the pool stays used
exactly once (R92, R93). -/
theorem mergeOnce_usesPoolOnce (draw : Nat) (p : Config.Params) {pool : List Node × List PoolIx}
    (hwl : 2 ≤ pool.2.length) (hlen : pool.1.length < 511) (h : UsesPoolOnce pool) :
    UsesPoolOnce (mergeOnce draw p pool) ∧ (mergeOnce draw p pool).1.length = pool.1.length + 1 ∧
      (mergeOnce draw p pool).2.length + 1 = pool.2.length := by
  obtain ⟨nodes, wl⟩ := pool
  obtain ⟨t, q, rest, hrev⟩ : ∃ t q rest, wl.reverse = t :: q :: rest := by
    have hwl' : 2 ≤ wl.reverse.length := by simpa using hwl
    rcases hr : wl.reverse with _ | ⟨t, _ | ⟨q, rest⟩⟩
    · simp [hr] at hwl'
    · simp [hr] at hwl'
    · exact ⟨t, q, rest, rfl⟩
  have hperm : wl.Perm (t :: q :: rest.reverse) :=
    (List.reverse_perm wl).symm.trans (hrev ▸ ((List.reverse_perm rest).symm.cons q).cons t)
  obtain ⟨js, hgrove, hjs⟩ := h
  obtain ⟨js', hgrove', hjs'⟩ := hgrove.perm hperm
  cases hgrove' with
  | cons ht hgrove' =>
    cases hgrove' with
    | @cons _ _ qs _ rs hq hrest =>
      simp only [mergeOnce, hrev]
      set f := (nodeAt nodes t).freq + (nodeAt nodes q).freq
      obtain ⟨tr, ks, hsp, hks⟩ := spans_mergedNode draw p.childOrder f hlen ht hq
      have hins := insertMerged_perm p.tie (fun j => (nodeAt nodes j).freq) f (BitVec.ofNat 9 nodes.length) rest.reverse
      obtain ⟨ls, hgrove2, hls⟩ := (Grove.cons hsp (hrest.append _)).perm hins.symm
      refine ⟨⟨ls, hgrove2, ?_⟩, by simp, ?_⟩
      · rw [List.length_append, List.length_singleton, List.range_succ]
        have hused : (ks ++ rs).Perm (nodes.length :: List.range nodes.length) := by
          refine (hks.append_right rs).trans ?_
          rw [List.cons_append, List.append_assoc]
          exact (hjs'.trans hjs).cons _
        exact hls.trans (hused.trans (List.perm_append_singleton _ _).symm)
      · rw [hins.length_eq, hperm.length_eq]
        simp

/-- `n` merges of a list of `n + 1` leave a list of one entry (R94, R95 (a)). -/
theorem mergeAll_usesPoolOnce (draw : Nat) (p : Config.Params) {n : Nat} {pool : List Node × List PoolIx}
    (hwl : pool.2.length = n + 1) (hlen : pool.1.length + n ≤ 511) (h : UsesPoolOnce pool) :
    UsesPoolOnce (mergeAll draw p n pool) ∧ (mergeAll draw p n pool).1.length = pool.1.length + n ∧
      (mergeAll draw p n pool).2.length = 1 := by
  induction n generalizing pool with
  | zero => exact ⟨h, rfl, hwl⟩
  | succ n ih =>
    obtain ⟨h1, hlen1, hwl1⟩ := mergeOnce_usesPoolOnce draw p (by omega) (by omega) h
    obtain ⟨h2, hlen2, hwl2⟩ := ih (pool := mergeOnce draw p pool) (by omega) (by omega) h1
    exact ⟨h2, by rw [mergeAll, hlen2, hlen1]; omega, hwl2⟩

theorem insertLeaf_perm (fq : PoolIx → Word64) (i : PoolIx) (wl : List PoolIx) :
    (insertLeaf fq i wl).Perm (i :: wl) := by
  unfold insertLeaf
  extract_lets fromTail
  refine List.perm_middle.trans (.cons i ?_)
  rw [← List.reverse_append, List.takeWhile_append_dropWhile, List.reverse_reverse]

/-- The initial list holds the leaves, each once (R91). -/
theorem initialList_perm (fq : PoolIx → Word64) (n : Nat) :
    (initialList fq n).Perm ((List.range n).map (BitVec.ofNat 9)) := by
  have key : ∀ xs wl : List PoolIx, (xs.foldl (fun wl i => insertLeaf fq i wl) wl).Perm (xs ++ wl) := by
    intro xs
    induction xs with
    | nil => exact fun wl => .refl wl
    | cons x xs ih => exact fun wl => (ih _).trans (((insertLeaf_perm fq x wl).append_left xs).trans List.perm_middle)
  exact (key ((List.range n).map (BitVec.ofNat 9)) []).trans (by rw [List.append_nil])

/-- LEAFCOUNT counts the symbols of non-zero frequency (R24, R91). -/
theorem length_usedSymbols (freq : Vector Word64 256) : (usedSymbols freq).length = countNonZero freq := by
  have hmap : allSymbols.map (entry freq) = freq.toList := by
    apply List.ext_getElem
    · simp [allSymbols]
    · intro i h1 h2
      have hi : i < 256 := by simpa [allSymbols] using h1
      simp [allSymbols, entry, Nat.mod_eq_of_lt hi]
  rw [countNonZero, ← hmap, List.filter_map, List.length_map]
  rfl

theorem countNonZero_le (freq : Vector Word64 256) : countNonZero freq ≤ 256 := by
  have := List.length_filter_le (fun c => c != 0) freq.toList
  simpa [countNonZero] using this

/-- Every leaf is a tree of its own. -/
theorem grove_leaves {nodes : List Node} (hk : ∀ n ∈ nodes, n.kind = true) (hlen : nodes.length ≤ 511) :
    Grove nodes ((List.range nodes.length).map (BitVec.ofNat 9)) (List.range nodes.length) := by
  have key : ∀ xs : List Nat, (∀ x ∈ xs, x < nodes.length) → Grove nodes (xs.map (BitVec.ofNat 9)) xs := by
    intro xs hxs
    induction xs with
    | nil => exact .nil
    | cons x xs ih =>
      have hx : x < nodes.length := hxs x List.mem_cons_self
      have hix : (BitVec.ofNat 9 x).toNat = x := Nat.mod_eq_of_lt (by omega)
      have hsp := Spans.leaf (i := BitVec.ofNat 9 x) (by rw [hix]; exact List.getElem?_eq_getElem hx)
        (hk _ (List.getElem_mem hx))
      rw [hix] at hsp
      exact .cons hsp (ih fun y hy => hxs y (List.mem_cons_of_mem x hy))
  exact key _ fun x hx => List.mem_range.mp hx

/-- The pool TBUILD leaves for `n` leaves, two or more, is one tree, rooted at the one entry of the working list
(R94, R95). -/
theorem poolIsTree_buildTree (draw : Nat) (p : Config.Params) {freq : Vector Word64 256} (root : PoolIx)
    (h0 : countNonZero freq ≠ 0) :
    PoolIsTree (buildTree draw p freq (countNonZero freq)).1
      ((buildTree draw p freq (countNonZero freq)).2.headD root) := by
  have hle := countNonZero_le freq
  have hlen : (leafNodes draw freq).length = countNonZero freq := by rw [leafNodes, List.length_map, length_usedSymbols]
  have hinit := initialList_perm (fun j => (nodeAt (leafNodes draw freq) j).freq) (countNonZero freq)
  have hleaves : UsesPoolOnce (leafNodes draw freq,
      initialList (fun j => (nodeAt (leafNodes draw freq) j).freq) (countNonZero freq)) := by
    have hg := grove_leaves (nodes := leafNodes draw freq) (by simp [leafNodes, leafNode]) (by omega)
    exact hg.perm (by rw [hlen]; exact hinit.symm)
  obtain ⟨⟨js, hgrove, hjs⟩, hlen', hwl⟩ := mergeAll_usesPoolOnce draw p (n := countNonZero freq - 1)
    (by rw [hinit.length_eq]; simp; omega) (by rw [hlen]; omega) hleaves
  have hbuild : mergeAll draw p (countNonZero freq - 1) (leafNodes draw freq,
      initialList (fun j => (nodeAt (leafNodes draw freq) j).freq) (countNonZero freq)) =
      buildTree draw p freq (countNonZero freq) := rfl
  rw [hbuild] at hgrove hjs hlen' hwl
  obtain ⟨i, hi⟩ := List.length_eq_one_iff.mp hwl
  rw [hi] at hgrove ⊢
  cases hgrove with
  | cons hsp hnil =>
    cases hnil
    rw [List.append_nil] at hjs
    refine ⟨hlen'.trans_le ?_, _, _, hsp, hjs⟩
    show (leafNodes draw freq).length + (countNonZero freq - 1) ≤ 511
    omega

end Sys2Proof.Machine

/-! PROOF. What a command is made of. Every command of R56 runs as a sequence of micro-operations, each with the
condition under which the machine performs it; an invariant that every micro-operation keeps is kept by every command. -/

namespace Sys2Proof.Machine

/-! ## Micro-operations -/

/-- The state in which TDES starts its walk: no tree, an empty pool (R100). -/
def dropTree (s : State) : State := { s with treeV := false, codeV := false, nodes := [] }

/-- What FSCAN leaves in the Frequency Table and LEAFCOUNT (R108). -/
def sourceCounted (s : State) : State :=
  { s with
    freq := frequencies s.srcBytes, leafCount := BitVec.ofNat 9 (countNonZero (frequencies s.srcBytes)), freqV := true }

/-- What TBUILD leaves for two or more symbols (R94). -/
def treeBuilt (s : State) : State :=
  { s with
    nodes := (buildTree s.draw s.params s.freq s.leafCount.toNat).1
    wl := (buildTree s.draw s.params s.freq s.leafCount.toNat).2
    root := (buildTree s.draw s.params s.freq s.leafCount.toNat).2.headD (Config.freeIx s.draw 0)
    treeV := true
    codeV := false
    draw := s.draw + 1 }

/-- The write session WOPEN opens (R77). -/
def writeOpened (s : State) : State :=
  { clearSession s with buf := List.replicate s.params.bufSize 0, mode := .write }

/-- The read session ROPEN opens (R86). -/
def readOpened (s : State) : State :=
  { loadBuf 0 (min s.params.bufSize s.srcLen.toNat) (clearSession s) with
    bufLen := min s.params.bufSize s.srcLen.toNat, mark := markOf s, mode := .read }

/-- One micro-operation of the command `i`, with what holds of the machine when a command performs it. -/
inductive Micro (i : Instr) (s : State) : State → Prop
  /-- The command is refused (R125). -/
  | refuse : Micro i s (refuse s)
  /-- The command raises an error (R131). -/
  | raise (e : ErrKind) (he : e ≠ .none) : Micro i s (raise e s)
  /-- CLRERR (R126). -/
  | acknowledge : Micro i s (acknowledge s)
  /-- WOPEN opens a session (R77). -/
  | openWrite (hm : s.mode = .idle) (ha : s.allocOk = true) : Micro i s (writeOpened s)
  /-- ROPEN opens a session (R86). -/
  | openRead (hm : s.mode = .idle) (ha : s.allocOk = true) : Micro i s (readOpened s)
  /-- WFLUSH and RCLOSE end the session (R81, R88). -/
  | close (hs : s.sessionOpen = true) : Micro i s (closeSession s)
  /-- WriteBit (R76). -/
  | writeBit (hm : s.mode = .write) (b : Bool) : Micro i s (writeBit b s)
  /-- ReadBit (R85). -/
  | readBit (hm : s.mode = .read) : Micro i s (readBit s).2
  /-- A sink write that is no transfer: the last one of a write session, an emitted byte (R81, R117). -/
  | store (hs : s.sessionOpen = true) (bs : List Byte) : Micro i s (memWrite bs s)
  /-- The byte-by-byte read of the whole source (R36 (b)). -/
  | scan (hm : s.mode = .write) : Micro i s (noteScan s)
  /-- The peek at the last source byte (R36 (c)). -/
  | peek (hm : s.mode = .read) (h0 : s.srcLen ≠ 0) : Micro i s (noteRead (s.srcLen.toNat - 1) 1 s)
  /-- RES is written, by RBIT alone (R17, R87). -/
  | res (hi : i = .rbit) (hm : s.mode = .read) (v : Word64) : Micro i s { s with res := v }
  /-- The decoder's walk moves (R119). -/
  | walk (hm : s.mode = .read) (w : PoolIx) : Micro i s { s with walk := w }
  /-- FSCAN fills the Frequency Table (R108). -/
  | frequencies (hm : s.mode = .write) : Micro i s (sourceCounted s)
  /-- TBUILD builds a tree (R94). -/
  | build (hm : s.mode = .write) (hf : s.freqV = true) (h0 : s.leafCount ≠ 0) (h1 : s.leafCount ≠ 1) :
      Micro i s (treeBuilt s)
  /-- CGEN fills the Code Table (R104). -/
  | codes (hs : s.sessionOpen = true) (hv : s.treeV = true) (t : CodeTree) (tab : CodeTable) (ht : s.tree = some t)
      (hc : codeWalk t 0 0 CodeTable.zero = some tab) :
      Micro i s { s with codeVal := tab.1, codeLen := tab.2, codeV := true }
  /-- TDES empties the pool (R100). -/
  | dropTree (hm : s.mode = .read) : Micro i s (dropTree s)
  /-- TDES allocates and fills pool entries while no tree is valid (R100). -/
  | pool (hm : s.mode = .read) (hv : s.treeV = false) (nodes : List Node) (draw : Nat) :
      Micro i s { s with nodes := nodes, draw := draw }
  /-- TDES completes its tree (R100). -/
  | plant (hm : s.mode = .read) (hv : s.treeV = false) (root : PoolIx) (ht : PoolIsTree s.nodes root) :
      Micro i s { s with root := root, treeV := true }

/-- What the command `i` can do: micro-operations one after the other. -/
abbrev Steps (i : Instr) : State → State → Prop := Relation.ReflTransGen (Micro i)

/-- An invariant of every micro-operation is one of every command. -/
theorem Steps.keeps {i : Instr} {P : State → Prop} {s t : State} (h : Steps i s t)
    (hP : ∀ u v, Micro i u v → P u → P v) (hs : P s) : P t := by
  induction h with
  | refl => exact hs
  | tail _ hm ih => exact hP _ _ hm ih

/-- A command refused under its guard. -/
theorem Steps.guarded {i : Instr} {s u : State} (h : Steps i s u) {c : Prop} [Decidable c]
    {o : Host.Outcome State Fault Refusal} (ho : ¬ c → EveryNext (Steps i s) o) :
    EveryNext (Steps i s) (if c then .next (Machine.refuse u) else o) :=
  .ite (fun _ => .next (h.tail .refuse)) ho

/-- Micro-operations of a session that leave MODE and TREE_V as they are. -/
structure Stays (i : Instr) (s t : State) : Prop where
  steps : Steps i s t
  mode  : t.mode = s.mode
  treeV : t.treeV = s.treeV

theorem Stays.refl {i : Instr} (s : State) : Stays i s s := ⟨.refl, rfl, rfl⟩

theorem Stays.trans {i : Instr} {s t u : State} (h : Stays i s t) (k : Stays i t u) : Stays i s u :=
  ⟨h.steps.trans k.steps, k.mode.trans h.mode, k.treeV.trans h.treeV⟩

theorem Micro.stays {i : Instr} {s t : State} (h : Micro i s t) (hm : t.mode = s.mode) (hv : t.treeV = s.treeV) :
    Stays i s t := ⟨.single h, hm, hv⟩

/-! ## Runs of micro-operations -/

section
variable {i : Instr} {s : State}

theorem sessionOpen_of_write (hm : s.mode = .write) : s.sessionOpen = true := by simp [State.sessionOpen, hm]

theorem sessionOpen_of_read (hm : s.mode = .read) : s.sessionOpen = true := by simp [State.sessionOpen, hm]

theorem stays_writeBits (hm : s.mode = .write) (bs : List Bool) : Stays i s (writeBits bs s) := by
  induction bs generalizing s with
  | nil => exact .refl s
  | cons b bs ih =>
    have h1 : Stays i s (writeBit b s) :=
      (Micro.writeBit hm b).stays (writeBit_writerFrame b s).mode (writeBit_writerFrame b s).treeV
    exact h1.trans (ih (h1.mode.trans hm))

theorem stays_writeByte (hm : s.mode = .write) (h0 : s.curBit = 0) (v : Byte) : Stays i s (writeByte v s) :=
  writeByte_eq_writeBits v h0 ▸ stays_writeBits hm _

theorem stays_writeBytes (hm : s.mode = .write) (h0 : s.curBit = 0) (vs : List Byte) : Stays i s (writeBytes vs s) :=
  writeBytes_eq_writeBits vs h0 ▸ stays_writeBits hm _

theorem stays_readBit {t : State} {o : Option Bool} (hm : s.mode = .read) (e : readBit s = (o, t)) : Stays i s t := by
  obtain rfl : (readBit s).2 = t := congrArg Prod.snd e
  exact (Micro.readBit hm).stays (readBit_readerFrame s).mode (readBit_readerFrame s).treeV

theorem stays_readBitsN {n : Nat} {t : State} {o : Option (List Bool)} (hm : s.mode = .read)
    (e : readBitsN n s = (o, t)) : Stays i s t := by
  induction n generalizing s t o with
  | zero => cases e; exact .refl _
  | succ n ih =>
    rw [readBitsN] at e
    split at e
    case h_1 _ hb => cases e; exact stays_readBit hm hb
    case h_2 _ _ hb =>
      have h1 := stays_readBit (i := i) hm hb
      split at e <;> cases e <;> exact h1.trans (ih (h1.mode.trans hm) ‹_›)

theorem stays_emitTimes (hm : s.mode = .read) (b : Byte) (n : Nat) : Stays i s (emitTimes b n s) := by
  induction n generalizing s with
  | zero => exact .refl s
  | succ n ih =>
    have h1 : Stays i s (emit b s) := (Micro.store (sessionOpen_of_read hm) [b]).stays rfl rfl
    exact h1.trans (ih hm)

theorem stays_walk (hm : s.mode = .read) (w : PoolIx) : Stays i s { s with walk := w } :=
  (Micro.walk hm w).stays rfl rfl

theorem stays_walkBit (hm : s.mode = .read) (b : Bool) : Stays i s (walkBit b s) := by
  unfold walkBit
  extract_lets n w m
  split
  · have h1 : Stays i s (emit m.sym s) := (Micro.store (sessionOpen_of_read hm) [m.sym]).stays rfl rfl
    exact h1.trans (stays_walk (s := emit m.sym s) hm s.root)
  · exact stays_walk hm w

theorem stays_walkPayload {n : Nat} {t : State} (hm : s.mode = .read) (e : walkPayload n s = some t) :
    Stays i s t := by
  induction n generalizing s with
  | zero => cases e; exact .refl _
  | succ n ih =>
    rw [walkPayload] at e
    split at e
    case h_1 => cases e
    case h_2 b _ hb =>
      have h1 := stays_readBit (i := i) hm hb
      have h2 := h1.trans (stays_walkBit (h1.mode.trans hm) b)
      exact h2.trans (ih (h2.mode.trans hm) e)

theorem stays_checkTrailer {t : State} {o : Option Nat} (hm : s.mode = .read) (h0 : s.srcLen ≠ 0)
    (e : checkTrailer s = (o, t)) : Stays i s t := by
  obtain rfl : noteRead (s.srcLen.toNat - 1) 1 s = t := (checkTrailer_state s).symm.trans (congrArg Prod.snd e)
  exact (Micro.peek hm h0).stays rfl rfl

theorem stays_setNode (hm : s.mode = .read) (hv : s.treeV = false) (k : Nat) (f : Node → Node) :
    Stays i s (setNode k f s) :=
  (Micro.pool hm hv (s.nodes.modify k f) s.draw).stays rfl rfl

theorem stays_allocNode (hm : s.mode = .read) (hv : s.treeV = false) : Stays i s (allocNode s) :=
  (Micro.pool hm hv _ _).stays rfl rfl

/-- `DesNode()` reads bits and fills pool entries. -/
theorem stays_desNode {fuel : Nat} {t : State} {o : Option PoolIx} (hm : s.mode = .read) (hv : s.treeV = false)
    (e : desNode fuel s = (o, t)) : Stays i s t := by
  induction fuel generalizing s t o with
  | zero => cases e; exact .refl _
  | succ fuel ih =>
    have fill {u : State} (h : Stays i s u) (k : Nat) (f : Node → Node) : Stays i s (setNode k f u) :=
      h.trans (stays_setNode (h.mode.trans hm) (h.treeV.trans hv) k f)
    have subtree {u v : State} {o : Option PoolIx} (h : Stays i s u) (e : desNode fuel u = (o, v)) : Stays i s v :=
      h.trans (ih (h.mode.trans hm) (h.treeV.trans hv) e)
    have h0 : Stays i s (allocNode s) := stays_allocNode hm hv
    simp only [desNode] at e
    split at e
    · cases e; exact .refl s
    · split at e
      case h_1 _ hb => cases e; exact h0.trans (stays_readBit hm hb)
      case h_2 _ hb =>
        have h1 := h0.trans (stays_readBit hm hb)
        split at e
        case h_1 _ hbs => cases e; exact h1.trans (stays_readBitsN (h1.mode.trans hm) hbs)
        case h_2 _ _ hbs => cases e; exact fill (h1.trans (stays_readBitsN (h1.mode.trans hm) hbs)) _ _
      case h_3 _ hb =>
        have h1 := fill (h0.trans (stays_readBit hm hb)) s.nodes.length
          fun n => { n with kind := false, freqP := false }
        split at e
        case h_1 _ hl => cases e; exact subtree h1 hl
        case h_2 l _ hl =>
          have h2 := fill (subtree h1 hl) s.nodes.length fun n => { n with left := l }
          split at e
          case h_1 _ hr => cases e; exact subtree h2 hr
          case h_2 _ _ hr => cases e; exact fill (subtree h2 hr) _ _

end

/-! ## The commands as micro-operations -/

section
variable {i : Instr} {s u : State} (h : Steps i s u)
include h

theorem steps_execWopen : EveryNext (Steps i s) (execWopen u) :=
  h.guarded fun hm => .ite (fun _ => .next (h.tail (.raise .allocation nofun))) fun ha =>
    .next (h.tail (.openWrite (not_not.mp hm) (by simpa using ha)))

theorem steps_execWbit (b : Bool) : EveryNext (Steps i s) (execWbit b u) :=
  h.guarded fun hm => .next (h.tail (.writeBit (not_not.mp hm) b))

theorem steps_execWbits (n : BitVec 7) : EveryNext (Steps i s) (execWbits n u) :=
  h.guarded fun hg => .next (h.trans (stays_writeBits (by tauto) _).steps)

theorem steps_execWbyte (v : Byte) : EveryNext (Steps i s) (execWbyte v u) :=
  h.guarded fun hg => .next (h.trans (stays_writeByte (by tauto) (by tauto) v).steps)

theorem steps_execWflush : EveryNext (Steps i s) (execWflush u) := by
  refine h.guarded fun hm => .next ?_
  have ho : u.sessionOpen = true := sessionOpen_of_write (not_not.mp hm)
  unfold flushBuf
  split
  · exact (h.tail (.store ho _)).tail (.close ho)
  · exact h.tail (.close ho)

theorem steps_execRopen : EveryNext (Steps i s) (execRopen u) :=
  h.guarded fun hm => .ite (fun _ => .next (h.tail (.raise .allocation nofun))) fun ha =>
    .next (h.tail (.openRead (not_not.mp hm) (by simpa using ha)))

theorem steps_execRbit (hi : i = .rbit) : EveryNext (Steps i s) (execRbit u) := by
  refine h.guarded fun hm => ?_
  split
  all_goals
    have h1 : Stays i u _ := stays_readBit (not_not.mp hm) ‹_›
    exact .next ((h.trans h1.steps).tail (.res hi (h1.mode.trans (not_not.mp hm)) _))

theorem steps_execRclose : EveryNext (Steps i s) (execRclose u) :=
  h.guarded fun hm => .next (h.tail (.close (sessionOpen_of_read (not_not.mp hm))))

theorem steps_execTbuild : EveryNext (Steps i s) (execTbuild u) :=
  h.guarded fun hg => .ite (fun _ => .next (h.tail (.raise .emptyInput nofun))) fun h0 =>
    .ite (fun _ => .next h) fun h1 => .next (h.tail (.build (by tauto) (by simpa using (not_or.mp hg).2) h0 h1))

theorem steps_execTser : EveryNext (Steps i s) (execTser u) := by
  refine h.guarded fun hg => ?_
  split
  · exact .fault _
  · exact .next (h.trans (stays_writeBits (by tauto) _).steps)

theorem steps_execTdes : EveryNext (Steps i s) (execTdes u) := by
  refine h.guarded fun hm => ?_
  have h0 : Steps i s (dropTree u) := h.tail (.dropTree (not_not.mp hm))
  have hm0 : (dropTree u).mode = .read := not_not.mp hm
  split
  case h_1 _ hd =>
    have h1 : Stays i (dropTree u) _ := stays_desNode hm0 rfl hd
    exact .next ((h0.trans h1.steps).tail (.raise .invalidFormat nofun))
  case h_2 root _ hd =>
    have h1 : Stays i (dropTree u) _ := stays_desNode hm0 rfl hd
    have ht := poolIsTree_desNode (s := dropTree u) rfl hd
    exact .next ((h0.trans h1.steps).tail (.plant (h1.mode.trans hm0) h1.treeV root ht))

theorem steps_execCgen : EveryNext (Steps i s) (execCgen u) := by
  refine h.guarded fun hg => ?_
  have ho : u.sessionOpen = true := by
    simp only [State.sessionOpen, Bool.or_eq_true, beq_iff_eq]
    tauto
  split
  · exact .fault _
  case h_2 t ht =>
    split
    · exact .next (h.tail (.raise .codeOverflow nofun))
    case h_2 tab hc => exact .next (h.tail (.codes ho (by simpa using (not_or.mp hg).1) t tab ht hc))

theorem steps_execFscan : EveryNext (Steps i s) (execFscan u) :=
  h.guarded fun hm =>
    .next ((h.tail (.scan (not_not.mp hm))).tail (.frequencies (s := noteScan u) (not_not.mp hm)))

theorem steps_execEsingle : EveryNext (Steps i s) (execEsingle u) :=
  h.guarded fun hg => .next (h.trans (stays_writeBytes (by tauto) (by tauto) _).steps)

theorem steps_execEpay : EveryNext (Steps i s) (execEpay u) :=
  h.guarded fun hg =>
    have hm : u.mode = .write := by tauto
    .next ((h.tail (.scan hm)).trans (stays_writeBits (s := noteScan u) hm _).steps)

theorem steps_execEtrail : EveryNext (Steps i s) (execEtrail u) :=
  h.guarded fun hm =>
    have hw (bs : List Bool) : Stays i u (writeBits bs u) := stays_writeBits (not_not.mp hm) bs
    .ite (fun _ => .next (h.trans (hw _).steps)) fun _ =>
      .next (h.trans ((hw _).trans
        (stays_writeByte ((hw _).mode.trans (not_not.mp hm)) (writeBits_padding_curBit u) 0)).steps)

theorem steps_execEncode : EveryNext (Steps i s) (execEncode u) :=
  h.guarded fun _ =>
    (steps_execWopen h).andThen fun _ h1 =>
    (steps_execFscan h1).andThen fun _ h2 =>
    .ite (fun _ => .next (h2.tail (.raise .emptyInput nofun))) fun _ =>
    .ite (fun _ => (steps_execEsingle h2).andThen fun _ h3 => steps_execWflush h3) fun _ =>
    (steps_execTbuild h2).andThen fun _ h3 =>
    (steps_execCgen h3).andThen fun _ h4 =>
    (steps_execTser h4).andThen fun _ h5 =>
    (steps_execEpay h5).andThen fun _ h6 =>
    (steps_execEtrail h6).andThen fun _ h7 => steps_execWflush h7

theorem steps_execDsingle : EveryNext (Steps i s) (execDsingle u) := by
  refine h.guarded fun hg => .ite (fun _ => .next (h.tail (.raise .invalidFormat nofun))) fun _ => ?_
  have hm : u.mode = .read := by tauto
  split
  · exact .fault _
  · have h1 : Stays i u _ := stays_readBitsN hm ‹_›
    exact .next (h.trans (h1.trans (stays_emitTimes (h1.mode.trans hm) _ _)).steps)

theorem steps_execDpay : EveryNext (Steps i s) (execDpay u) := by
  refine h.guarded fun hg => ?_
  have hm : u.mode = .read := by tauto
  have h0 : u.srcLen ≠ 0 := by tauto
  split
  case h_1 _ ht =>
    have h1 : Stays i u _ := stays_checkTrailer hm h0 ht
    exact .next ((h.trans h1.steps).tail (.raise .invalidFormat nofun))
  case h_2 _ s1 ht =>
    have h1 : Stays i u s1 := stays_checkTrailer hm h0 ht
    have h2 := h1.trans (stays_walk (h1.mode.trans hm) u.root)
    split
    · exact .fault _
    · exact .next (h.trans (h2.trans (stays_walkPayload (h2.mode.trans hm) ‹_›)).steps)

theorem steps_execDecode : EveryNext (Steps i s) (execDecode u) :=
  h.guarded fun _ =>
    (steps_execRopen h).andThen fun _ h1 =>
    .ite (fun _ => .next (h1.tail (.raise .emptyInput nofun))) fun _ =>
    .ite (fun _ => (steps_execDsingle h1).andThen fun _ h2 => steps_execRclose h2) fun _ =>
    (steps_execTdes h1).andThen fun _ h2 =>
    (steps_execDpay h2).andThen fun _ h3 => steps_execRclose h3

end

/-- Every command runs as micro-operations. -/
theorem steps_exec {i : Instr} {s t : State} (hc : i.isCommand = true) (ht : exec i s = .next t) : Steps i s t := by
  have h : Steps i s s := .refl
  suffices hs : EveryNext (Steps i s) (exec i s) from hs t ht
  cases i with
  | wopen => exact steps_execWopen h
  | wbit b => exact steps_execWbit h b
  | wbits n => exact steps_execWbits h n
  | wbyte v => exact steps_execWbyte h v
  | wflush => exact steps_execWflush h
  | ropen => exact steps_execRopen h
  | rbit => exact steps_execRbit h rfl
  | rclose => exact steps_execRclose h
  | tbuild => exact steps_execTbuild h
  | tser => exact steps_execTser h
  | tdes => exact steps_execTdes h
  | cgen => exact steps_execCgen h
  | fscan => exact steps_execFscan h
  | esingle => exact steps_execEsingle h
  | epay => exact steps_execEpay h
  | etrail => exact steps_execEtrail h
  | encode => exact steps_execEncode h
  | dsingle => exact steps_execDsingle h
  | dpay => exact steps_execDpay h
  | decode => exact steps_execDecode h
  | clrerr => exact .next (h.tail .acknowledge)
  | wireSingle m sym count => cases hc
  | wireInternal => cases hc
  | wireLeaf sym => cases hc
  | wireCode k => cases hc
  | wireTrailerPacked d c => cases hc
  | wireTrailerZero d => cases hc

end Sys2Proof.Machine

/-! PROOF. The invariants of the state: each holds at reset and is kept by every micro-operation and every other host
access, so by every step. -/

namespace Sys2Proof.Machine

/-! ## The fields an invariant speaks of

An invariant holds of every state that agrees on its fields; the other fields do not matter to it. -/

/-- The fields Release clears (R32). -/
def State.heldPart (s : State) : State :=
  { State.reset with
    freqV := s.freqV, treeV := s.treeV, codeV := s.codeV, eof := s.eof, mark := s.mark, leafCount := s.leafCount
    curByte := s.curByte, curBit := s.curBit, bufLen := s.bufLen, rdBase := s.rdBase
    nodes := s.nodes, root := s.root, wl := s.wl, walk := s.walk }

theorem State.Closed.congr {s t : State} (h : s.Closed) (e : t.heldPart = s.heldPart) : t.Closed := by
  have field {α : Type} (f : State → α) : f t.heldPart = f s.heldPart := congrArg f e
  exact
    { freqV := (field State.freqV).trans h.freqV
      treeV := (field State.treeV).trans h.treeV
      codeV := (field State.codeV).trans h.codeV
      eof := (field State.eof).trans h.eof
      mark := (field State.mark).trans h.mark
      leafCount := (field State.leafCount).trans h.leafCount
      curByte := (field State.curByte).trans h.curByte
      curBit := (field State.curBit).trans h.curBit
      bufLen := (field State.bufLen).trans h.bufLen
      rdBase := (field State.rdBase).trans h.rdBase
      nodes := (field State.nodes).trans h.nodes
      root := (field State.root).trans h.root
      wl := (field State.wl).trans h.wl
      walk := (field State.walk).trans h.walk }

/-- The fields of BUF, the Bit Cursor and the source (R19 to R22). -/
def State.cursorPart (s : State) : State :=
  { State.reset with
    params := s.params, mode := s.mode, eof := s.eof, buf := s.buf, curByte := s.curByte, curBit := s.curBit
    bufLen := s.bufLen, rdBase := s.rdBase, src := s.src, srcLen := s.srcLen }

theorem State.CursorInv.congr {s t : State} (h : s.CursorInv) (e : t.cursorPart = s.cursorPart) : t.CursorInv := by
  have key (u : State) : u.cursorPart.CursorInv ↔ u.CursorInv :=
    ⟨fun ⟨h1, h2, h3, h4, h5, h6, h7⟩ => ⟨h1, h2, h3, h4, h5, h6, h7⟩,
     fun ⟨h1, h2, h3, h4, h5, h6, h7⟩ => ⟨h1, h2, h3, h4, h5, h6, h7⟩⟩
  exact (key t).mp (e ▸ (key s).mpr h)

/-- The fields of the tables, their validity flags and the source (R23 to R29). -/
def State.tablesPart (s : State) : State :=
  { State.reset with
    mode := s.mode, freqV := s.freqV, treeV := s.treeV, codeV := s.codeV, leafCount := s.leafCount, freq := s.freq
    nodes := s.nodes, root := s.root, codeVal := s.codeVal, codeLen := s.codeLen, src := s.src, srcLen := s.srcLen }

theorem State.TablesInv.congr {s t : State} (h : s.TablesInv) (e : t.tablesPart = s.tablesPart) : t.TablesInv := by
  have key (u : State) : u.tablesPart.TablesInv ↔ u.TablesInv :=
    ⟨fun ⟨h1, h2, h3⟩ => ⟨h1, h2, h3⟩, fun ⟨h1, h2, h3⟩ => ⟨h1, h2, h3⟩⟩
  exact (key t).mp (e ▸ (key s).mpr h)

theorem WriterFrame.tablesPart {s t : State} (h : WriterFrame s t) : t.tablesPart = s.tablesPart := by
  rw [h.2]
  rfl

theorem ReaderFrame.tablesPart {s t : State} (h : ReaderFrame s t) : t.tablesPart = s.tablesPart := by
  rw [h]
  rfl

/-! ## Release -/

theorem closed_release (s : State) : (release s).Closed :=
  ⟨rfl, rfl, rfl, rfl, rfl, rfl, rfl, rfl, rfl, rfl, rfl, rfl, rfl, rfl⟩

/-- Settles O38: Release sets each of these fields, and leaves every other one but the unspecified arrays alone. -/
theorem releaseClearsTheSession : Obligations.ReleaseClearsTheSession :=
  fun s => ⟨closed_release s, rfl, rfl, rfl⟩

/-! ## Sessions -/

/-- An operation of an open session that leaves MODE and ERRCODE alone leaves the session open. -/
theorem State.SessionInv.inSession {s t : State} (h : s.SessionInv) (ho : s.sessionOpen = true) (hm : t.mode = s.mode)
    (he : t.errCode = s.errCode) : t.SessionInv where
  closed_outside hc := by
    simp only [State.sessionOpen, hm] at hc ho
    rw [ho] at hc
    cases hc
  fault_iff_kind := by rw [hm, he, h.fault_iff_kind]

/-- The rule speaks of MODE, ERRCODE and the fields Release clears. -/
theorem State.SessionInv.congr {s t : State} (h : s.SessionInv) (e : t.heldPart = s.heldPart) (hm : t.mode = s.mode)
    (he : t.errCode = s.errCode) : t.SessionInv where
  closed_outside hc := (h.closed_outside (by simpa only [State.sessionOpen, hm] using hc)).congr e
  fault_iff_kind := by rw [hm, he, h.fault_iff_kind]

/-- Outside MODE FAULT no error is recorded. -/
theorem State.SessionInv.errCode_none {s : State} (h : s.SessionInv) (hm : s.mode ≠ .fault) : s.errCode = .none := by
  by_contra he
  exact hm (h.fault_iff_kind.mpr he)

/-- MODE other than FAULT goes with ERRCODE 0. -/
theorem fault_iff_kind_of_none {s : State} (hm : s.mode ≠ .fault) (he : s.errCode = .none) :
    s.mode = .fault ↔ s.errCode ≠ .none :=
  ⟨fun h => absurd h hm, fun h => absurd he h⟩

theorem mode_ne_fault_of_sessionOpen {s : State} (ho : s.sessionOpen = true) : s.mode ≠ .fault := by
  intro hm
  simp [State.sessionOpen, hm] at ho

/-- A session that opens from IDLE. -/
theorem State.SessionInv.opened {s t : State} (h : s.SessionInv) (hi : s.mode = .idle) (ho : t.sessionOpen = true)
    (he : t.errCode = s.errCode) : t.SessionInv where
  closed_outside hc := by rw [ho] at hc; cases hc
  fault_iff_kind := fault_iff_kind_of_none (mode_ne_fault_of_sessionOpen ho)
    (he.trans (h.errCode_none (by simp [hi])))

theorem sessionInv_acknowledge {s : State} (h : s.SessionInv) : (acknowledge s).SessionInv := by
  unfold acknowledge
  split
  case isTrue hm =>
    have hc : s.Closed := h.closed_outside (by simp [State.sessionOpen, hm])
    exact ⟨fun _ => hc.congr rfl, fault_iff_kind_of_none nofun rfl⟩
  · exact h.congr rfl rfl rfl

/-- Opening starts from IDLE, where ERRCODE is 0; raising and closing release; the rest happens inside a session. -/
theorem sessionInv_micro {i : Instr} {s t : State} (hmic : Micro i s t) (h : s.SessionInv) : t.SessionInv := by
  cases hmic with
  | refuse => exact h.congr rfl rfl rfl
  | raise e he => exact ⟨fun _ => (closed_release s).congr rfl, fun _ => he, fun _ => rfl⟩
  | acknowledge => exact sessionInv_acknowledge h
  | openWrite hm ha => exact h.opened hm rfl rfl
  | openRead hm ha => exact h.opened hm rfl rfl
  | close ho =>
    exact ⟨fun _ => (closed_release s).congr rfl,
      fault_iff_kind_of_none nofun (h.errCode_none (mode_ne_fault_of_sessionOpen ho))⟩
  | writeBit hm b =>
    have hf := writeBit_writerFrame b s
    exact h.inSession (sessionOpen_of_write hm) hf.mode (by rw [hf.2])
  | readBit hm =>
    have hf := readBit_readerFrame s
    exact h.inSession (sessionOpen_of_read hm) hf.mode (by rw [hf])
  | store ho bs => exact h.inSession ho rfl rfl
  | scan hm => exact h.inSession (sessionOpen_of_write hm) rfl rfl
  | peek hm h0 => exact h.inSession (sessionOpen_of_read hm) rfl rfl
  | res hi hm v => exact h.inSession (sessionOpen_of_read hm) rfl rfl
  | walk hm w => exact h.inSession (sessionOpen_of_read hm) rfl rfl
  | frequencies hm => exact h.inSession (sessionOpen_of_write hm) rfl rfl
  | build hm hf h0 h1 => exact h.inSession (sessionOpen_of_write hm) rfl rfl
  | codes ho hv t tab ht hc => exact h.inSession ho rfl rfl
  | dropTree hm => exact h.inSession (sessionOpen_of_read hm) rfl rfl
  | pool hm hv nodes draw => exact h.inSession (sessionOpen_of_read hm) rfl rfl
  | plant hm hv root ht => exact h.inSession (sessionOpen_of_read hm) rfl rfl

theorem sessionInv_taken {a : HostAccess} {s t : State} (ht : Taken s a t) (h : s.SessionInv) : t.SessionInv := by
  cases ht with
  | command v i t hi hc he => exact (steps_exec hc he).keeps (fun _ _ => sessionInv_micro) h
  | reset => exact ⟨fun _ => (closed_release s).congr rfl, fault_iff_kind_of_none nofun rfl⟩
  | reserved v hi => exact h.congr rfl rfl rfl
  | arg0 v => exact h.congr rfl rfl rfl
  | ignored off v h0 h8 => exact h
  | read off => exact h.congr rfl rfl rfl
  | source bytes hs hl => exact h.congr rfl rfl rfl
  | sink bytes hs => exact h.congr rfl rfl rfl
  | alloc b p => exact h.congr rfl rfl rfl

/-- Settles O57: MODE FAULT is entered by `raise` alone, and every way out of a session releases it. -/
theorem stepKeepsSessions : Obligations.StepKeepsSessions := by
  intro s t h hstep
  obtain ⟨-, rfl⟩ | ⟨a, rest, -, htaken⟩ := step_cases hstep
  · exact h
  · exact sessionInv_taken htaken (h.congr rfl rfl rfl)

/-! ## The Bit Cursor -/

/-- Outside a session only the size of BUF matters. -/
theorem cursorInv_outside {s : State} (hB : 1 ≤ s.params.bufSize) (hl : s.buf.length = s.params.bufSize)
    (ho : s.sessionOpen = false) (he : s.eof = false) : s.CursorInv := by
  simp only [State.sessionOpen, Bool.or_eq_false_iff, beq_eq_false_iff_ne] at ho
  obtain ⟨hw, hr⟩ := ho
  exact ⟨hB, hl, fun h => absurd h hw, fun h => absurd h hw, fun h => absurd h hr, fun h => absurd h hr,
    by simp [he]⟩

theorem length_freeBytes (draw start n : Nat) : (freeBytes draw start n).length = n := by simp [freeBytes]

/-- EOF is set in a read session only. -/
theorem State.CursorInv.eof_outside {s : State} (h : s.CursorInv) (hm : s.mode ≠ .read) : s.eof = false := by
  cases he : s.eof
  · rfl
  · exact absurd (h.eof_at_end he).1 hm

theorem cursorInv_acknowledge {s : State} (h : s.CursorInv) : (acknowledge s).CursorInv := by
  unfold acknowledge
  split
  case isTrue hm => exact cursorInv_outside h.bufSize_pos h.buf_length rfl (h.eof_outside (by simp [hm]))
  · exact h.congr rfl

theorem cursorInv_readBit {s : State} (hm : s.mode = .read) (h : s.CursorInv) : (readBit s).2.CursorInv := by
  rcases (pos_le hm h).lt_or_eq with hp | hp
  · obtain ⟨t, ht, hc, -⟩ := readBit_of_lt hm h hp
    exact ht ▸ hc.inv
  · obtain ⟨t, ht, -, hc, -⟩ := readBit_of_end hm h hp
    exact ht ▸ hc.inv

/-- Outside the writer's and the reader's micro-operations the cursor stays, or the session is over. -/
theorem cursorInv_micro {i : Instr} {s t : State} (hmic : Micro i s t) (h : s.CursorInv) : t.CursorInv := by
  cases hmic with
  | refuse => exact h.congr rfl
  | raise e he => exact cursorInv_outside h.bufSize_pos (length_freeBytes ..) rfl rfl
  | acknowledge => exact cursorInv_acknowledge h
  | openWrite hm ha =>
    exact (cursorInv_wopen (by simp [exec, execWopen, hm, ha, writeOpened]) hm ha h.bufSize_pos).2.1
  | openRead hm ha =>
    exact (cursorInv_ropen (by simp [exec, execRopen, hm, ha, readOpened]) hm ha h.bufSize_pos).2.1
  | close ho => exact cursorInv_outside h.bufSize_pos (length_freeBytes ..) rfl rfl
  | writeBit hm b => exact (appended_writeBit b hm h).inv
  | readBit hm => exact cursorInv_readBit hm h
  | store ho bs => exact h.congr rfl
  | scan hm => exact h.congr rfl
  | peek hm h0 => exact h.congr rfl
  | res hi hm v => exact h.congr rfl
  | walk hm w => exact h.congr rfl
  | frequencies hm => exact h.congr rfl
  | build hm hf h0 h1 => exact h.congr rfl
  | codes ho hv t tab ht hc => exact h.congr rfl
  | dropTree hm => exact h.congr rfl
  | pool hm hv nodes draw => exact h.congr rfl
  | plant hm hv root ht => exact h.congr rfl

theorem cursorInv_taken {a : HostAccess} {s t : State} (ht : Taken s a t) (h : s.CursorInv) : t.CursorInv := by
  cases ht with
  | command v i t hi hc he => exact (steps_exec hc he).keeps (fun _ _ => cursorInv_micro) h
  | reset => exact cursorInv_outside h.bufSize_pos (length_freeBytes ..) rfl rfl
  | source bytes hs hl =>
    have hm : s.mode ≠ .read := fun hm => by rw [sessionOpen_of_read hm] at hs; cases hs
    exact cursorInv_outside h.bufSize_pos h.buf_length hs (h.eof_outside hm)
  | reserved v hi => exact h.congr rfl
  | arg0 v => exact h.congr rfl
  | ignored off v h0 h8 => exact h
  | read off => exact h.congr rfl
  | sink bytes hs => exact h.congr rfl
  | alloc b p => exact h.congr rfl

/-- Settles O58: only WriteBit, ReadBit and the two opening commands move the cursor inside a session. -/
theorem stepKeepsTheCursor : Obligations.StepKeepsTheCursor := by
  intro s t h hstep
  obtain ⟨-, rfl⟩ | ⟨a, rest, -, htaken⟩ := step_cases hstep
  · exact h
  · exact cursorInv_taken htaken (h.congr rfl)

/-! ## The tables -/

/-- With no flag set there is nothing to keep. -/
theorem tablesInv_of_noFlags {s : State} (hf : s.freqV = false) (ht : s.treeV = false) (hc : s.codeV = false) :
    s.TablesInv :=
  ⟨by simp [hf], by simp [ht], by simp [hc]⟩

/-- Outside a write session FREQ_V is clear. -/
theorem State.TablesInv.freqV_false {s : State} (h : s.TablesInv) (hm : s.mode ≠ .write) : s.freqV = false := by
  by_contra hf
  exact hm (h.freq_valid (by simpa using hf)).1

/-- There is no Code Table without a tree. -/
theorem State.TablesInv.codeV_false {s : State} (h : s.TablesInv) (hv : s.treeV = false) : s.codeV = false := by
  by_contra hc
  rw [(h.code_valid (by simpa using hc)).1] at hv
  cases hv

/-- Outside a session no validity flag is set. -/
theorem State.TablesInv.noFlags {s : State} (h : s.TablesInv) (ho : s.sessionOpen = false) :
    s.freqV = false ∧ s.treeV = false ∧ s.codeV = false := by
  have ht : s.treeV = false := by
    by_contra ht
    rw [(h.tree_valid (by simpa using ht)).1] at ho
    cases ho
  have hm : s.mode ≠ .write := fun hm => by rw [sessionOpen_of_write hm] at ho; cases ho
  exact ⟨h.freqV_false hm, ht, h.codeV_false ht⟩

theorem tablesInv_acknowledge {s : State} (h : s.TablesInv) : (acknowledge s).TablesInv := by
  unfold acknowledge
  split
  case isTrue hm =>
    obtain ⟨hf, ht, hc⟩ := h.noFlags (by simp [State.sessionOpen, hm])
    exact tablesInv_of_noFlags hf ht hc
  · exact h.congr rfl

/-- TBUILD leaves a tree, since LEAFCOUNT is the number of symbols that FREQ counts (R24, R94). -/
theorem tablesInv_treeBuilt {s : State} (h : s.TablesInv) (hf : s.freqV = true) (h0 : s.leafCount ≠ 0) :
    (treeBuilt s).TablesInv := by
  obtain ⟨hm, hfreq, hcount⟩ := h.freq_valid hf
  have hL : s.leafCount.toNat = countNonZero s.freq := by
    rw [hcount]
    exact Nat.mod_eq_of_lt (by have := countNonZero_le s.freq; omega)
  have ht : PoolIsTree (treeBuilt s).nodes (treeBuilt s).root := by
    have hne : countNonZero s.freq ≠ 0 := fun e => h0 (BitVec.eq_of_toNat_eq (hL.trans e))
    simp only [treeBuilt, hL]
    exact poolIsTree_buildTree s.draw s.params _ hne
  exact ⟨fun _ => ⟨hm, hfreq, hcount⟩, fun _ => ⟨sessionOpen_of_write hm, ht.1, ht.read⟩, nofun⟩

/-- Each flag is set by the micro-operation that makes it true; the pool changes only while TREE_V is clear. -/
theorem tablesInv_micro {i : Instr} {s t : State} (hmic : Micro i s t) (h : s.TablesInv) : t.TablesInv := by
  cases hmic with
  | refuse => exact h.congr rfl
  | raise e he => exact tablesInv_of_noFlags rfl rfl rfl
  | acknowledge => exact tablesInv_acknowledge h
  | openWrite hm ha => exact tablesInv_of_noFlags rfl rfl rfl
  | openRead hm ha => exact tablesInv_of_noFlags rfl rfl rfl
  | close ho => exact tablesInv_of_noFlags rfl rfl rfl
  | writeBit hm b => exact h.congr (writeBit_writerFrame b s).tablesPart
  | readBit hm => exact h.congr (readBit_readerFrame s).tablesPart
  | store ho bs => exact h.congr rfl
  | scan hm => exact h.congr rfl
  | peek hm h0 => exact h.congr rfl
  | res hi hm v => exact h.congr rfl
  | walk hm w => exact h.congr rfl
  | frequencies hm => exact ⟨fun _ => ⟨hm, rfl, rfl⟩, h.tree_valid, h.code_valid⟩
  | build hm hf h0 h1 => exact tablesInv_treeBuilt h hf h0
  | codes ho hv t tab ht hc => exact ⟨h.freq_valid, h.tree_valid, fun _ => ⟨hv, t, ht, hc⟩⟩
  | dropTree hm => exact tablesInv_of_noFlags (h.freqV_false (by simp [hm])) rfl rfl
  | pool hm hv nodes draw => exact tablesInv_of_noFlags (h.freqV_false (by simp [hm])) hv (h.codeV_false hv)
  | plant hm hv root ht =>
    have hf := h.freqV_false (by simp [hm])
    have hc := h.codeV_false hv
    exact ⟨by simp [hf], fun _ => ⟨sessionOpen_of_read hm, ht.1, ht.read⟩, by simp [hc]⟩

theorem tablesInv_taken {a : HostAccess} {s t : State} (ht : Taken s a t) (h : s.TablesInv) : t.TablesInv := by
  cases ht with
  | command v i t hi hc he => exact (steps_exec hc he).keeps (fun _ _ => tablesInv_micro) h
  | reset => exact tablesInv_of_noFlags rfl rfl rfl
  | source bytes hs hl =>
    obtain ⟨hf, ht, hc⟩ := h.noFlags hs
    exact tablesInv_of_noFlags hf ht hc
  | reserved v hi => exact h.congr rfl
  | arg0 v => exact h.congr rfl
  | ignored off v h0 h8 => exact h
  | read off => exact h.congr rfl
  | sink bytes hs => exact h.congr rfl
  | alloc b p => exact h.congr rfl

/-- Settles O59: a flag is set only by FSCAN, TBUILD, TDES and CGEN, each over the table it has just filled. -/
theorem stepKeepsTheTables : Obligations.StepKeepsTheTables := by
  intro s t h hstep
  obtain ⟨-, rfl⟩ | ⟨a, rest, -, htaken⟩ := step_cases hstep
  · exact h
  · exact tablesInv_taken htaken (h.congr rfl)

/-! ## Reset -/

/-- Settles O55: at reset the memories are empty, no session is open and no flag is set. -/
theorem invariantsHoldAtReset : Obligations.InvariantsHoldAtReset := by
  refine ⟨⟨Memory.wf_empty, Memory.wf_empty, nofun, nofun⟩, ⟨fun _ => ?_, fault_iff_kind_of_none nofun rfl⟩,
    cursorInv_outside (by decide) (by simp [State.reset]) rfl rfl, tablesInv_of_noFlags rfl rfl rfl⟩
  exact ⟨rfl, rfl, rfl, rfl, rfl, rfl, rfl, rfl, rfl, rfl, rfl, rfl, rfl, rfl⟩

end Sys2Proof.Machine

/-! PROOF. The register map: what the host reads and writes at each offset, and the fields of STATUS (R14 to R16). -/

namespace Sys2Proof.Machine

/-- What a host read returns, offset by offset (R14). -/
theorem regRead_eq (s : State) (off : Nat) :
    regRead s off = if off = 0x04 then s.status.setWidth 64 else if off = 0x08 then s.arg0
      else if off = 0x10 then s.res else 0 := by
  by_cases h0 : off = 0
  · subst h0; rfl
  · unfold regRead regAt
    rw [if_neg h0]
    split_ifs <;> rfl

/-- Settles O44: one clause per kind of access, each an unfolding of the register map. -/
theorem hostRegisterAccess : Obligations.HostRegisterAccess := by
  intro s off v rest
  refine ⟨fun h => ?_, fun h h0 => ?_, fun h h8 => ?_, fun h h0 h8 => ?_⟩
  · rw [← regRead_eq]
    simp only [step, h]
    rfl
  · subst h0
    simp only [step, h]
    rfl
  · subst h8
    simp only [step, h]
    rfl
  · simp only [step, h, takeAccess, hostWrite, regAt, if_neg h0, if_neg h8]
    split_ifs <;> rfl

/-- The operands of STATUS at the sum of their widths, so that the lemmas on concatenation apply to them. -/
def statusParts (s : State) : BitVec (7 + 9 + 1 + 3 + 4 + 1 + 1 + 1 + 1 + 1 + 1 + 2) :=
  (0 : BitVec 7) ++ s.leafCount ++ (0 : BitVec 1) ++ s.curBit ++ s.errCode.code ++ flagBit s.codeV ++
    flagBit s.treeV ++ flagBit s.freqV ++ flagBit s.mark ++ flagBit s.eof ++ flagBit s.cmdErr ++ s.mode.code

theorem status_extractLsb' (s : State) (start len : Nat) :
    s.status.extractLsb' start len = (statusParts s).extractLsb' start len := rfl

theorem status_getLsbD (s : State) (i : Nat) : s.status.getLsbD i = (statusParts s).getLsbD i := rfl

theorem getLsbD_append_of_lt {n m i : Nat} (x : BitVec n) (y : BitVec m) (h : i < m) :
    (x ++ y).getLsbD i = y.getLsbD i := by rw [BitVec.getLsbD_append, if_pos h]

theorem getLsbD_append_of_le {n m i : Nat} (x : BitVec n) (y : BitVec m) (h : m ≤ i) :
    (x ++ y).getLsbD i = x.getLsbD (i - m) := by rw [BitVec.getLsbD_append, if_neg (by omega)]

/-- Settles O43: each field is one operand of the concatenation. -/
theorem statusFields : Obligations.StatusFields := by
  intro s
  simp only [status_extractLsb', status_getLsbD]
  refine ⟨?_, ?_, ?_, ?_, ?_, ?_, ?_, ?_, ?_, ?_, ?_, ?_, rfl, rfl, rfl, rfl, rfl⟩
  all_goals
    simp (disch := decide) only [statusParts, flagBit, BitVec.extractLsb'_append_eq_of_le,
      BitVec.extractLsb'_append_eq_of_add_le, getLsbD_append_of_lt, getLsbD_append_of_le]
    simp

end Sys2Proof.Machine

/-! PROOF. R16, R17, R31: what no command touches. The 21 commands are covered by their micro-operations; the
wire-format records use the same shared operations and are taken one by one. -/

namespace Sys2Proof.Machine

/-- What lies outside the reach of a command: ARG0, the parameters, the source, the allocation inputs, the host. -/
def State.outside (s : State) : State :=
  { State.reset with
    params := s.params, arg0 := s.arg0, src := s.src, srcLen := s.srcLen
    allocBufOk := s.allocBufOk, allocPoolOk := s.allocPoolOk, host := s.host, hostReads := s.hostReads }

/-- The outside is as it was, and so is RES unless the command is RBIT (R17). -/
structure Untouched (i : Instr) (s t : State) : Prop where
  outside : t.outside = s.outside
  res     : i ≠ .rbit → t.res = s.res

theorem Untouched.refl {i : Instr} (s : State) : Untouched i s s := ⟨rfl, fun _ => rfl⟩

theorem Untouched.trans {i : Instr} {s t u : State} (h : Untouched i s t) (k : Untouched i t u) : Untouched i s u :=
  ⟨k.outside.trans h.outside, fun hi => (k.res hi).trans (h.res hi)⟩

theorem WriterFrame.untouched {i : Instr} {s t : State} (h : WriterFrame s t) : Untouched i s t := by
  rw [h.2]
  exact ⟨rfl, fun _ => rfl⟩

theorem ReaderFrame.untouched {i : Instr} {s t : State} (h : ReaderFrame s t) : Untouched i s t := by
  rw [h]
  exact ⟨rfl, fun _ => rfl⟩

theorem untouched_micro {i : Instr} {s t : State} (hmic : Micro i s t) : Untouched i s t := by
  cases hmic with
  | acknowledge =>
    unfold acknowledge
    split <;> exact ⟨rfl, fun _ => rfl⟩
  | writeBit hm b => exact (writeBit_writerFrame b s).untouched
  | readBit hm => exact (readBit_readerFrame s).untouched
  | res hi hm v => exact ⟨rfl, fun hne => absurd hi hne⟩
  | _ => exact ⟨rfl, fun _ => rfl⟩

theorem Steps.untouched {i : Instr} {s t : State} (h : Steps i s t) : Untouched i s t :=
  h.keeps (P := Untouched i s) (fun _ _ hmic hu => hu.trans (untouched_micro hmic)) (.refl s)

/-! ## Wire-format records -/

section
variable {i : Instr} {s : State}

theorem stays_matchBits {bits : List Bool} {t : State} (hm : s.mode = .read) (e : matchBits bits s = some t) :
    Stays i s t := by
  induction bits generalizing s with
  | nil => cases e; exact .refl _
  | cons b bs ih =>
    rw [matchBits] at e
    split at e
    case h_1 => cases e
    case h_2 _ _ hb =>
      have h1 := stays_readBit (i := i) hm hb
      split at e
      · exact h1.trans (ih (h1.mode.trans hm) e)
      · cases e

theorem untouched_linkChild (j : Nat) (s : State) : Untouched i s (linkChild j s) := by
  unfold linkChild
  split <;> exact ⟨rfl, fun _ => rfl⟩

theorem untouched_completeTree (s : State) : Untouched i s (completeTree s) := by
  unfold completeTree
  split <;> exact ⟨rfl, fun _ => rfl⟩

theorem untouched_readNodeRecord (hm : s.mode = .read) (bits : List Bool) (fields : Node → Node) :
    EveryNext (Untouched i s) (readNodeRecord bits fields s) := by
  unfold readNodeRecord
  extract_lets s0
  have h0 : Untouched i s s0 ∧ s0.mode = .read := by
    unfold s0
    split <;> exact ⟨⟨rfl, fun _ => rfl⟩, hm⟩
  refine .ite (fun _ => .next (h0.1.trans ⟨rfl, fun _ => rfl⟩)) fun _ => ?_
  split
  · exact .next ⟨rfl, fun _ => rfl⟩
  case h_2 s1 hb =>
    have h1 := h0.1.trans (stays_matchBits (i := i) h0.2 hb).steps.untouched
    have h2 := h1.trans (untouched_linkChild s1.nodes.length s1)
    have h3 : Untouched i s (setNode s1.nodes.length fields (allocNode (linkChild s1.nodes.length s1))) :=
      h2.trans ⟨rfl, fun _ => rfl⟩
    exact .next (h3.trans (untouched_completeTree _))

theorem untouched_readTrailer (hm : s.mode = .read) (h0 : s.srcLen ≠ 0) :
    EveryNext (Untouched i s) (readTrailer s) := by
  unfold readTrailer
  split
  all_goals have h1 : Untouched i s _ := (stays_checkTrailer (i := i) hm h0 ‹_›).steps.untouched
  · exact .next (h1.trans (untouched_micro (.raise .invalidFormat nofun)))
  · exact .next h1

theorem untouched_refuse : EveryNext (Untouched i s) (.next (refuse s)) := .next ⟨rfl, fun _ => rfl⟩

/-- A record refused under its guard. -/
theorem Untouched.guarded {c : Prop} [Decidable c] {o : Host.Outcome State Fault Refusal}
    (ho : ¬ c → EveryNext (Untouched i s) o) : EveryNext (Untouched i s) (if c then .next (refuse s) else o) :=
  .ite (fun _ => untouched_refuse) ho

theorem untouched_writeBits (hm : s.mode = .write) (bs : List Bool) :
    EveryNext (Untouched i s) (.next (writeBits bs s)) :=
  .next (stays_writeBits hm bs).steps.untouched

theorem untouched_wireSingle (m : BitVec 7) (sym : Byte) (count : Word64) :
    EveryNext (Untouched i s) (execWireSingle m sym count s) := by
  unfold execWireSingle
  split
  case h_1 hm => exact Untouched.guarded fun _ => untouched_writeBits hm _
  case h_2 hm =>
    refine Untouched.guarded fun _ => .ite (fun _ => .next (untouched_micro (.raise .invalidFormat nofun))) fun _ => ?_
    split
    · exact untouched_refuse
    case h_2 s1 hb =>
      have h1 : Stays i s s1 := stays_matchBits hm hb
      exact .next (h1.trans (stays_emitTimes (h1.mode.trans hm) sym _)).steps.untouched
  all_goals exact untouched_refuse

theorem untouched_wireInternal : EveryNext (Untouched i s) (execWireInternal s) := by
  unfold execWireInternal
  split
  case h_1 hm => exact untouched_writeBits hm _
  case h_2 hm => exact untouched_readNodeRecord hm _ _
  all_goals exact untouched_refuse

theorem untouched_wireLeaf (sym : Byte) : EveryNext (Untouched i s) (execWireLeaf sym s) := by
  unfold execWireLeaf
  split
  case h_1 hm => exact untouched_writeBits hm _
  case h_2 hm => exact untouched_readNodeRecord hm _ _
  all_goals exact untouched_refuse

theorem stays_walkBits (hm : s.mode = .read) (k : List Bool) : Stays i s (k.foldl (fun t b => walkBit b t) s) := by
  induction k generalizing s with
  | nil => exact .refl s
  | cons b k ih =>
    have h1 : Stays i s (walkBit b s) := stays_walkBit hm b
    exact h1.trans (ih (h1.mode.trans hm))

theorem untouched_wireCode (k : List Bool) : EveryNext (Untouched i s) (execWireCode k s) := by
  unfold execWireCode
  split
  case h_1 hm => exact untouched_writeBits hm _
  case h_2 hm =>
    refine Untouched.guarded fun hg => ?_
    have h0 : s.srcLen ≠ 0 := by tauto
    split
    case h_1 _ ht =>
      have h1 : Untouched i s _ := (stays_checkTrailer (i := i) hm h0 ht).steps.untouched
      exact .next (h1.trans (untouched_micro (.raise .invalidFormat nofun)))
    case h_2 _ s1 ht =>
      refine Untouched.guarded fun _ => ?_
      have h1 : Stays i s s1 := stays_checkTrailer hm h0 ht
      split
      · exact untouched_refuse
      case h_2 s2 hb =>
        have h2 := h1.trans (stays_matchBits (h1.mode.trans hm) hb)
        have h3 := h2.trans (stays_walk (h2.mode.trans hm) s.root)
        exact .next (h3.trans (stays_walkBits (h3.mode.trans hm) k)).steps.untouched
  all_goals exact untouched_refuse

theorem untouched_wireTrailerPacked (d : BitVec 5) (c : BitVec 3) :
    EveryNext (Untouched i s) (execWireTrailerPacked d c s) := by
  unfold execWireTrailerPacked
  split
  case h_1 hm => exact Untouched.guarded fun _ => untouched_writeBits hm _
  case h_2 hm => exact Untouched.guarded fun hg => untouched_readTrailer hm (by tauto)
  all_goals exact untouched_refuse

theorem untouched_wireTrailerZero (d : Byte) : EveryNext (Untouched i s) (execWireTrailerZero d s) := by
  unfold execWireTrailerZero
  split
  case h_1 hm =>
    refine Untouched.guarded fun _ => .next ?_
    have h1 : Stays i s _ := stays_writeBits hm (List.replicate (8 - s.curBit.toNat) false)
    exact (h1.trans (stays_writeByte (h1.mode.trans hm) (writeBits_padding_curBit s) 0)).steps.untouched
  case h_2 hm =>
    refine Untouched.guarded fun hg => untouched_readTrailer hm fun e => hg (.inl ?_)
    rw [e]
    decide
  all_goals exact untouched_refuse

end

/-- Every instruction leaves the outside alone. -/
theorem untouched_exec {i : Instr} {s t : State} (ht : exec i s = .next t) : Untouched i s t := by
  cases i with
  | wireSingle m sym count => exact untouched_wireSingle m sym count t ht
  | wireInternal => exact untouched_wireInternal t ht
  | wireLeaf sym => exact untouched_wireLeaf sym t ht
  | wireCode k => exact untouched_wireCode k t ht
  | wireTrailerPacked d c => exact untouched_wireTrailerPacked d c t ht
  | wireTrailerZero d => exact untouched_wireTrailerZero d t ht
  | _ => exact (steps_exec rfl ht).untouched

/-- Settles O46: the agreement on the outside, field by field. -/
theorem commandsLeaveRegistersAlone : Obligations.CommandsLeaveRegistersAlone := by
  intro i s t ht
  obtain ⟨h, hres⟩ := untouched_exec ht
  have field {α : Type} (f : State → α) : f t.outside = f s.outside := congrArg f h
  exact ⟨field State.arg0, hres, field State.params, field State.src, field State.srcLen, field State.allocBufOk,
    field State.allocPoolOk, field State.host, field State.hostReads⟩

end Sys2Proof.Machine

/-! PROOF. R31, R35: the two memories. A micro-operation leaves both as they are or appends one write to the sink; only
the host's attaching replaces one. -/

namespace Sys2Proof.Machine

/-! ## What a micro-operation does to the memories -/

/-- The source, the sink and the noted sink writes (R31, R35, R37). -/
def State.memoryPart (s : State) : State :=
  { State.reset with
    src := s.src, srcLen := s.srcLen, sink := s.sink, sinkLen := s.sinkLen, sinkWrites := s.sinkWrites }

/-- The memories are as they were, or one write has been appended to the sink (R9, R35). -/
def KeepsOrAppends (s t : State) : Prop :=
  t.memoryPart = s.memoryPart ∨ ∃ bs, t.memoryPart = (memWrite bs s).memoryPart

theorem ReaderFrame.memoryPart {s t : State} (h : ReaderFrame s t) : t.memoryPart = s.memoryPart := by
  rw [h]
  rfl

/-- Stepping past the last byte of BUF is the writer's one sink write inside a session (R76). -/
theorem keepsOrAppends_nextByte (s : State) : KeepsOrAppends s (nextByte s) := by
  unfold nextByte
  split
  · exact .inr ⟨s.buf.take s.params.bufSize, rfl⟩
  · exact .inl rfl

theorem keepsOrAppends_writeBit (b : Bool) (s : State) : KeepsOrAppends s (writeBit b s) := by
  unfold writeBit
  extract_lets s1
  split
  · exact keepsOrAppends_nextByte s1
  · exact .inl rfl

theorem acknowledge_memoryPart (s : State) : (acknowledge s).memoryPart = s.memoryPart := by
  unfold acknowledge
  split <;> rfl

/-- Only WriteBit and a sink write touch the memories. -/
theorem keepsOrAppends_micro {i : Instr} {s t : State} (hmic : Micro i s t) : KeepsOrAppends s t := by
  cases hmic with
  | acknowledge => exact .inl (acknowledge_memoryPart s)
  | writeBit hm b => exact keepsOrAppends_writeBit b s
  | readBit hm => exact .inl (readBit_readerFrame s).memoryPart
  | store hs bs => exact .inr ⟨bs, rfl⟩
  | _ => exact .inl rfl

/-! ## The sink grows at its end -/

/-- The sink and the noted sink writes have changed by growing at their end only (R35, R37). -/
structure SinkGrows (s t : State) : Prop where
  stores : StoresAtEnd s t
  writes : s.sinkWrites <+: t.sinkWrites

theorem SinkGrows.refl (s : State) : SinkGrows s s := ⟨.refl s, List.prefix_rfl⟩

theorem SinkGrows.trans {s t u : State} (h : SinkGrows s t) (k : SinkGrows t u) : SinkGrows s u :=
  ⟨h.stores.trans k.stores, h.writes.trans k.writes⟩

theorem SinkGrows.congr {s t u : State} (h : SinkGrows s t) (e : u.memoryPart = t.memoryPart) : SinkGrows s u := by
  have key (v : State) : SinkGrows s v.memoryPart ↔ SinkGrows s v :=
    ⟨fun ⟨h1, h2⟩ => ⟨h1, h2⟩, fun ⟨h1, h2⟩ => ⟨h1, h2⟩⟩
  exact (key u).mp (e ▸ (key t).mpr h)

theorem sinkGrows_memWrite (bs : List Byte) (s : State) : SinkGrows s (memWrite bs s) :=
  ⟨storesAtEnd_memWrite bs s, List.prefix_append ..⟩

theorem KeepsOrAppends.sinkGrows {s t : State} (h : KeepsOrAppends s t) : SinkGrows s t := by
  obtain e | ⟨bs, e⟩ := h
  · exact (SinkGrows.refl s).congr e
  · exact (sinkGrows_memWrite bs s).congr e

theorem Steps.sinkGrows {i : Instr} {s t : State} (h : Steps i s t) : SinkGrows s t :=
  h.keeps (P := SinkGrows s) (fun _ _ hmic hg => hg.trans (keepsOrAppends_micro hmic).sinkGrows) (.refl s)

theorem sinkGrows_taken {a : HostAccess} {s t : State} (ht : Taken s a t) (ha : ∀ bytes, a ≠ .attachSink bytes) :
    SinkGrows s t := by
  cases ht with
  | command v i t hi hc he => exact (steps_exec hc he).sinkGrows
  | source bytes hs hl => exact ⟨.refl s, List.prefix_rfl⟩
  | sink bytes hs => exact absurd rfl (ha bytes)
  | _ => exact (SinkGrows.refl s).congr rfl

theorem source_taken {a : HostAccess} {s t : State} (ht : Taken s a t) (ha : ∀ bytes, a ≠ .attachSource bytes) :
    t.src = s.src ∧ t.srcLen = s.srcLen := by
  cases ht with
  | command v i t hi hc he =>
    obtain ⟨-, -, -, hsrc, hlen, -⟩ := commandsLeaveRegistersAlone i s t he
    exact ⟨hsrc, hlen⟩
  | source bytes hs hl => exact absurd rfl (ha bytes)
  | _ => exact ⟨rfl, rfl⟩

/-- Settles O47: what the step takes from the host's queue is no attaching, so it appends to the sink and keeps the
source. -/
theorem sinkOnlyGrows : Obligations.SinkOnlyGrows := by
  intro s t hstep
  obtain ⟨-, rfl⟩ | ⟨a, rest, hhost, htaken⟩ := step_cases hstep
  · exact ⟨fun _ => ⟨.refl t, List.prefix_rfl, List.prefix_rfl⟩, fun _ => ⟨rfl, rfl⟩⟩
  · have hhead : s.host.head? = some a := by rw [hhost]; rfl
    constructor
    · intro hsink
      obtain ⟨hstores, hwrites⟩ := sinkGrows_taken htaken fun bytes e => hsink bytes (e ▸ hhead)
      exact ⟨hstores, hstores.sinkBytes_le, hwrites⟩
    · intro hsource
      exact source_taken (s := { s with host := rest }) htaken fun bytes e => hsource bytes (e ▸ hhead)

/-! ## Canonical form -/

theorem State.MemoryInv.congr {s t : State} (h : s.MemoryInv) (e : t.memoryPart = s.memoryPart) : t.MemoryInv := by
  have key (u : State) : u.memoryPart.MemoryInv ↔ u.MemoryInv :=
    ⟨fun ⟨h1, h2, h3, h4⟩ => ⟨h1, h2, h3, h4⟩, fun ⟨h1, h2, h3, h4⟩ => ⟨h1, h2, h3, h4⟩⟩
  exact (key t).mp (e ▸ (key s).mpr h)

/-- An appended byte lies below the new SINK_LEN. -/
theorem memoryInv_memWrite (bs : List Byte) {s : State} (h : s.MemoryInv) : (memWrite bs s).MemoryInv where
  src_wf := h.src_wf
  sink_wf := Memory.wf_writeBytes h.sink_wf s.sinkLen bs
  src_bound := h.src_bound
  sink_bound := Memory.writeBytes_bound s.sinkLen bs (fun c hc => Nat.lt_add_right _ (h.sink_bound c hc)) le_rfl

theorem KeepsOrAppends.memoryInv {s t : State} (hk : KeepsOrAppends s t) (h : s.MemoryInv) : t.MemoryInv := by
  obtain e | ⟨bs, e⟩ := hk
  · exact h.congr e
  · exact (memoryInv_memWrite bs h).congr e

/-- An attached memory is built byte by byte from the empty one; an attached source is shorter than 2^64 bytes, so SRC_LEN
holds its length (R154). -/
theorem memoryInv_taken {a : HostAccess} {s t : State} (ht : Taken s a t) (h : s.MemoryInv) : t.MemoryInv := by
  cases ht with
  | command v i t hi hc he =>
    exact (steps_exec hc he).keeps (fun _ _ hmic => (keepsOrAppends_micro hmic).memoryInv) h
  | source bytes hs hl =>
    have hlen : (BitVec.ofNat 64 bytes.length).toNat = bytes.length := Nat.mod_eq_of_lt hl
    exact ⟨Memory.wf_ofBytes bytes, h.sink_wf, hlen.symm ▸ Memory.ofBytes_bound bytes, h.sink_bound⟩
  | sink bytes hs => exact ⟨h.src_wf, Memory.wf_ofBytes bytes, h.src_bound, Memory.ofBytes_bound bytes⟩
  | _ => exact h.congr rfl

/-- Settles O56: a step appends to the sink, attaches a memory built in canonical form, or leaves both memories. -/
theorem stepKeepsMemory : Obligations.StepKeepsMemory := by
  intro s t h hstep
  obtain ⟨-, rfl⟩ | ⟨a, rest, -, htaken⟩ := step_cases hstep
  · exact h
  · exact memoryInv_taken htaken (h.congr rfl)

end Sys2Proof.Machine

/-! PROOF. R53 to R57: command words. A word is its OPC and its IMM; a row of the opcode map fixes the OPC and
leaves free the bits of IMM that its mask leaves out. -/

namespace Sys2Proof

/-! ## OPC and IMM -/

@[simp] theorem opcOf_cmdWord (opc imm : Byte) : opcOf (cmdWord opc imm) = opc := BitVec.extractLsb'_append_eq_left

@[simp] theorem immOf_cmdWord (opc imm : Byte) : immOf (cmdWord opc imm) = imm := BitVec.extractLsb'_append_eq_right

theorem cmdWord_opcOf_immOf (w : CmdWord) : cmdWord (opcOf w) (immOf w) = w :=
  BitVec.extractLsb'_append_extractLsb' (w := 8) (len := 8)

theorem cmdWord_inj {opc imm opc' imm' : Byte} :
    cmdWord opc imm = cmdWord opc' imm' ↔ opc = opc' ∧ imm = imm' := by
  constructor
  · intro h
    exact ⟨by rw [← opcOf_cmdWord opc imm, h, opcOf_cmdWord], by rw [← immOf_cmdWord opc imm, h, immOf_cmdWord]⟩
  · rintro ⟨rfl, rfl⟩
    rfl

/-! ## The rows of the opcode map -/

/-- The word lies in the row: its OPC is the row's, and the bits of IMM that must be 0 are 0 (R56, R57). -/
def CmdRow.Selects (r : CmdRow) (w : CmdWord) : Prop :=
  opcOf w = opcOf r.pattern ∧ immOf w &&& immOf r.mask = 0

/-- Every row tests the whole OPC, and its pattern has IMM 0. -/
theorem cmdRows_form : ∀ r ∈ cmdRows, opcOf r.mask = 0xFF ∧ immOf r.pattern = 0 := by decide

/-- No two rows share an OPC. -/
theorem cmdRows_distinct : cmdRows.Pairwise fun r r' => opcOf r.pattern ≠ opcOf r'.pattern := by decide

theorem selects_iff {r : CmdRow} (hr : r ∈ cmdRows) (w : CmdWord) :
    (w &&& r.mask == r.pattern) = true ↔ r.Selects w := by
  obtain ⟨hmask, hpattern⟩ := cmdRows_form r hr
  have hand : w &&& r.mask = cmdWord (opcOf w) (immOf w &&& immOf r.mask) := by
    conv_lhs => rw [← cmdWord_opcOf_immOf w, ← cmdWord_opcOf_immOf r.mask, hmask]
    rw [cmdWord, cmdWord, BitVec.and_append, show (0xFF : Byte) = BitVec.allOnes 8 from rfl, BitVec.and_allOnes]
    rfl
  rw [beq_iff_eq, hand, ← cmdWord_opcOf_immOf r.pattern, hpattern, cmdWord_inj, CmdRow.Selects]

/-- A word lies in at most one row. -/
theorem selects_unique {r r' : CmdRow} (hr : r ∈ cmdRows) (hr' : r' ∈ cmdRows) {w : CmdWord}
    (h : r.Selects w) (h' : r'.Selects w) : r = r' := by
  by_contra hne
  have hsymm : Std.Symm fun r r' : CmdRow => opcOf r.pattern ≠ opcOf r'.pattern := ⟨fun _ _ hab => hab.symm⟩
  exact cmdRows_distinct.forall hr hr' hne (h.1.symm.trans h'.1)

/-- A word decodes to what the row it lies in builds from its IMM (R56). -/
theorem decodeCmd_eq_ok_iff {w : CmdWord} {i : Instr} :
    decodeCmd w = .ok i ↔ ∃ r ∈ cmdRows, r.Selects w ∧ r.build (immOf w) = i := by
  cases hfind : cmdRows.find? fun r => w &&& r.mask == r.pattern with
  | some r =>
    have hr := List.mem_of_find?_eq_some hfind
    have hsel := (selects_iff hr w).mp (List.find?_some (p := fun r : CmdRow => w &&& r.mask == r.pattern) hfind)
    have hok : decodeCmd w = .ok (r.build (immOf w)) := by simp only [decodeCmd, hfind]
    rw [hok, Except.ok.injEq]
    constructor
    · exact fun h => ⟨r, hr, hsel, h⟩
    · rintro ⟨r', hr', hsel', h⟩
      exact selects_unique hr hr' hsel hsel' ▸ h
  | none =>
    have herr : decodeCmd w ≠ .ok i := by
      simp only [decodeCmd, hfind]
      split <;> nofun
    refine iff_of_false herr ?_
    rintro ⟨r, hr, hsel, -⟩
    exact List.find?_eq_none.mp hfind r hr ((selects_iff hr w).mpr hsel)

/-! ## Encoding a row -/

/-- The row's instructions have the words of the row as their images (R54, R55). -/
def CmdRow.Encodes (r : CmdRow) : Prop :=
  ∀ imm, imm &&& immOf r.mask = 0 → encode (r.build imm) = .word (cmdWord (opcOf r.pattern) imm)

/-- A row without an operand, whose IMM is 0. -/
theorem encodes_of_fixed {p : CmdWord} {i : Instr} (h : encode i = .word (cmdWord (opcOf p) 0)) :
    CmdRow.Encodes ⟨p, 0xFFFF, fun _ => i⟩ := by
  have key : ∀ imm : Byte, imm &&& immOf 0xFFFF = 0 → imm = 0 := by decide
  intro imm himm
  obtain rfl : imm = 0 := key imm himm
  exact h

theorem encodes_wbit : CmdRow.Encodes ⟨0x1100, 0xFFFE, fun imm => .wbit (immBit imm)⟩ := by
  have key : ∀ imm : Byte, imm &&& 0xFE = 0 → BitVec.ofNat 8 (immBit imm).toNat = imm := by decide
  intro imm himm
  simp only [encode, key imm himm]
  rfl

theorem encodes_wbits : CmdRow.Encodes ⟨0x1200, 0xFF80, fun imm => .wbits (immCount imm)⟩ := by
  have key : ∀ imm : Byte, imm &&& 0x80 = 0 → (immCount imm).setWidth 8 = imm := by decide
  intro imm himm
  simp only [encode, key imm himm]
  rfl

theorem cmdRows_encode : ∀ r ∈ cmdRows, r.Encodes := by
  simp only [cmdRows, List.forall_mem_cons, encodes_wbit, encodes_wbits, true_and, List.not_mem_nil, false_imp_iff,
    implies_true, and_true]
  have wbyte : CmdRow.Encodes ⟨0x1300, 0xFF00, fun imm => .wbyte imm⟩ := fun _ _ => rfl
  refine ⟨?_, wbyte, ?_, ?_, ?_, ?_, ?_, ?_, ?_, ?_, ?_, ?_, ?_, ?_, ?_, ?_, ?_, ?_, ?_⟩
  all_goals exact encodes_of_fixed rfl

/-- The word of a command that decodes is the command's own image. -/
theorem encode_of_decodeCmd {w : CmdWord} {i : Instr} (h : decodeCmd w = .ok i) : encode i = .word w := by
  obtain ⟨r, hr, ⟨hopc, himm⟩, rfl⟩ := decodeCmd_eq_ok_iff.mp h
  rw [cmdRows_encode r hr (immOf w) himm, ← hopc, cmdWord_opcOf_immOf]

/-! ## Decoding a command's own word -/

theorem decodeCmd_wbyte (v : Byte) : decodeCmd (cmdWord 0x13 v) = .ok (.wbyte v) :=
  decodeCmd_eq_ok_iff.mpr ⟨⟨0x1300, 0xFF00, fun imm => .wbyte imm⟩, by simp [cmdRows],
    ⟨opcOf_cmdWord 0x13 v, by rw [immOf_cmdWord]; exact BitVec.and_zero⟩, by rw [immOf_cmdWord]⟩

/-- Every 7-bit count has a word, the counts above 64 included (R57, log entry 18). -/
theorem decodeCmd_wbits (n : BitVec 7) : decodeCmd (cmdWord 0x12 (n.setWidth 8)) = .ok (.wbits n) := by
  have hmask : n.setWidth 8 &&& 0x80 = 0 := by revert n; decide
  have hcount : immCount (n.setWidth 8) = n := by revert n; decide
  exact decodeCmd_eq_ok_iff.mpr ⟨⟨0x1200, 0xFF80, fun imm => .wbits (immCount imm)⟩, by simp [cmdRows],
    ⟨opcOf_cmdWord 0x12 _, by rw [immOf_cmdWord]; exact hmask⟩, by simp only [immOf_cmdWord, hcount]⟩

/-! ## Reserved words (R57) -/

/-- The word lies in some row, in the table of R56: OPC and the values of IMM it admits. -/
theorem exists_selects_iff (w : CmdWord) :
    (∃ r ∈ cmdRows, r.Selects w) ↔
      ((opcOf w).toNat = 0x13 ∨ ((opcOf w).toNat = 0x12 ∧ (immOf w).toNat < 128) ∨
        ((opcOf w).toNat = 0x11 ∧ (immOf w).toNat < 2) ∨
        ((immOf w).toNat = 0 ∧ (opcOf w).toNat ∈ [0x10, 0x14, 0x20, 0x21, 0x22, 0x30, 0x40, 0x41, 0x50, 0x60, 0x61,
          0x62, 0x63, 0x6F, 0x70, 0x71, 0x7F, 0xF0])) := by
  have hopc (p : CmdWord) : opcOf w = opcOf p ↔ (opcOf w).toNat = p.toNat / 256 := by
    have hp : (opcOf p).toNat = p.toNat / 256 := by
      have := p.isLt
      rw [opcOf, BitVec.extractLsb'_toNat, Nat.shiftRight_eq_div_pow]
      omega
    rw [← BitVec.toNat_inj, hp]
  have himm : ∀ imm : Byte, (imm &&& immOf 0xFFFF = 0 ↔ imm.toNat = 0) ∧ (imm &&& immOf 0xFFFE = 0 ↔ imm.toNat < 2) ∧
      (imm &&& immOf 0xFF80 = 0 ↔ imm.toNat < 128) ∧ (imm &&& immOf 0xFF00 = 0 ↔ True) := by decide
  obtain ⟨hfixed, hbit, hcount, hbyte⟩ := himm (immOf w)
  simp only [cmdRows, List.mem_cons, List.not_mem_nil, or_false, exists_eq_or_imp, exists_eq_left, CmdRow.Selects,
    hopc, hfixed, hbit, hcount, hbyte]
  simp only [BitVec.reduceToNat, Nat.reduceDiv, and_true]
  grind

end Sys2Proof

/-! PROOF. R40 to R42, R60 to R66: groups of bits in stream order. Bits taken eight at a time are bytes and back,
the count of the frame is its 64 bits most significant byte first, and the trailer byte is two groups side by side. -/

namespace Sys2Proof.Machine

/-! ## Bytes of a stream -/

theorem bitsMsb_append {m n : Nat} (v : BitVec m) (w : BitVec n) : bitsMsb (v ++ w) = bitsMsb v ++ bitsMsb w := by
  apply List.ext_getElem
  · simp
  · intro i h1 h2
    rw [List.getElem_append, bitsMsb_getElem, BitVec.getMsbD_append]
    by_cases hi : i < m
    · rw [if_neg (by omega), dif_pos (by simpa using hi), bitsMsb_getElem]
    · rw [if_pos (by omega), dif_neg (by simpa using hi), bitsMsb_getElem, length_bitsMsb]

/-- The bytes of a whole number of bytes are its bits, eight at a time (R60). -/
theorem flatMap_byteOfBits {n : Nat} {bits : List Bool} (h : bits.length = 8 * n) :
    ((List.range n).map (byteOfBits bits)).flatMap bitsMsb = bits := by
  induction n generalizing bits with
  | zero => exact (List.length_eq_zero_iff.mp h).symm
  | succ n ih =>
    have hhead : bitsMsb (byteOfBits bits 0) = bits.take 8 := by
      rw [byteOfBits, bitsMsb_ofBitsMsb _ (by simp; omega)]
      rfl
    have htail : (List.range n).map (byteOfBits bits ∘ Nat.succ) = (List.range n).map (byteOfBits (bits.drop 8)) :=
      List.map_congr_left fun j _ => by simp [byteOfBits, List.drop_drop, Nat.mul_succ, Nat.add_comm]
    rw [List.range_succ_eq_map, List.map_cons, List.map_map, List.flatMap_cons, hhead, htail,
      ih (by rw [List.length_drop]; omega), List.take_append_drop]

/-- Bytes are determined by their bits. -/
theorem flatMap_bitsMsb_injective {vs ws : List Byte} (h : vs.flatMap bitsMsb = ws.flatMap bitsMsb) : vs = ws := by
  induction vs generalizing ws with
  | nil =>
    have := congrArg List.length h
    rw [length_flatMap_bitsMsb, length_flatMap_bitsMsb] at this
    exact (List.length_eq_zero_iff.mp (by simpa using this.symm)).symm
  | cons v vs ih =>
    cases ws with
    | nil => simpa [length_flatMap_bitsMsb] using congrArg List.length h
    | cons w ws =>
      obtain ⟨hv, hvs⟩ := List.append_inj h (by simp)
      rw [bitsMsb_injective hv, ih hvs]

/-- Reading back the bytes of a stream. -/
theorem map_byteOfBits (vs : List Byte) :
    (List.range vs.length).map (byteOfBits (vs.flatMap bitsMsb)) = vs :=
  flatMap_bitsMsb_injective (flatMap_byteOfBits (length_flatMap_bitsMsb vs))

/-! ## The count of the frame (R42) -/

theorem foldl_bits_eq (bs : List Bool) (a : Nat) :
    bs.foldl (fun a b => 2 * a + b.toNat) a = a * 2 ^ bs.length + bs.foldl (fun a b => 2 * a + b.toNat) 0 := by
  induction bs generalizing a with
  | nil => simp
  | cons b bs ih =>
    rw [List.foldl_cons, List.foldl_cons, ih, ih (2 * 0 + b.toNat), List.length_cons]
    ring

theorem foldl_bitsMsb {n : Nat} (v : BitVec n) (a : Nat) :
    (bitsMsb v).foldl (fun a b => 2 * a + b.toNat) a = a * 2 ^ n + v.toNat := by
  have hlt := foldl_bits_lt (bitsMsb v) 0
  rw [length_bitsMsb, Nat.zero_add, Nat.one_mul] at hlt
  have hv : (bitsMsb v).foldl (fun a b => 2 * a + b.toNat) 0 = v.toNat := by
    conv_rhs => rw [← ofBitsMsb_bitsMsb v, ofBitsMsb, BitVec.toNat_ofNat, Nat.mod_eq_of_lt hlt]
  rw [foldl_bits_eq, length_bitsMsb, hv]

theorem foldl_flatMap_bitsMsb (vs : List Byte) (a : Nat) :
    (vs.flatMap bitsMsb).foldl (fun a b => 2 * a + b.toNat) a = vs.foldl (fun a v => 256 * a + v.toNat) a := by
  induction vs generalizing a with
  | nil => rfl
  | cons v vs ih =>
    rw [List.flatMap_cons, List.foldl_append, foldl_bitsMsb, ih, List.foldl_cons, Nat.mul_comm a]
    rfl

theorem countOfBytes_big (bs : List Byte) : countOfBytes .big bs = ofBitsMsb 64 (bs.flatMap bitsMsb) := by
  rw [ofBitsMsb, foldl_flatMap_bitsMsb]
  rfl

theorem countOfBytes_little (bs : List Byte) : countOfBytes .little bs = countOfBytes .big bs.reverse := rfl

theorem countBytes_little (c : Word64) : countBytes .little c = (countBytes .big c).reverse :=
  (List.reverse_reverse _).symm

@[simp] theorem length_countBytes (e : Config.CountEndian) (c : Word64) : (countBytes e c).length = 8 := by
  cases e <;> simp [countBytes]

/-- Byte `j` of the count's bits. -/
theorem extractLsb'_eq_byteOfBits (c : Word64) {j : Nat} (hj : j < 8) :
    c.extractLsb' (8 * (7 - j)) 8 = byteOfBits (bitsMsb c) j := by
  apply bitsMsb_injective
  rw [byteOfBits, bitsMsb_ofBitsMsb _ (by simp; omega)]
  apply List.ext_getElem
  · simp; omega
  · intro i h1 h2
    have hi : i < 8 := by simpa using h1
    rw [List.getElem_take, List.getElem_drop, bitsMsb_getElem, bitsMsb_getElem, BitVec.getMsbD, BitVec.getMsbD,
      BitVec.getLsbD_extractLsb', show 8 * (7 - j) + (8 - 1 - i) = 64 - 1 - (8 * j + i) by omega]
    simp [hi, show 8 * j + i < 64 by omega, show 7 - i < 8 by omega]

/-- The most significant byte first, the count's bytes are its bits. -/
theorem flatMap_countBytes_big (c : Word64) : (countBytes .big c).flatMap bitsMsb = bitsMsb c := by
  have hbytes : countBytes .big c = (List.range 8).map (byteOfBits (bitsMsb c)) := by
    apply List.ext_getElem
    · simp
    · intro j h1 h2
      have hj : j < 8 := by simpa using h2
      have hbyte : (countBytes .big c)[j] = c.extractLsb' (8 * (7 - j)) 8 := by simp [countBytes]
      refine hbyte.trans ?_
      rw [List.getElem_map, List.getElem_range, extractLsb'_eq_byteOfBits c hj]
  rw [hbytes, flatMap_byteOfBits (by simp)]

theorem countOfBytes_countBytes (e : Config.CountEndian) (c : Word64) : countOfBytes e (countBytes e c) = c := by
  have hbig : countOfBytes .big (countBytes .big c) = c := by
    rw [countOfBytes_big, flatMap_countBytes_big, ofBitsMsb_bitsMsb]
  cases e with
  | little => rw [countOfBytes_little, countBytes_little, List.reverse_reverse, hbig]
  | big => exact hbig

theorem countBytes_countOfBytes (e : Config.CountEndian) {bs : List Byte} (h : bs.length = 8) :
    countBytes e (countOfBytes e bs) = bs := by
  have hbig {bs : List Byte} (h : bs.length = 8) : countBytes .big (countOfBytes .big bs) = bs := by
    apply flatMap_bitsMsb_injective
    rw [flatMap_countBytes_big, countOfBytes_big, bitsMsb_ofBitsMsb _ (by rw [length_flatMap_bitsMsb, h])]
  cases e with
  | little =>
    rw [countBytes_little, countOfBytes_little, hbig (by rw [List.length_reverse, h]), List.reverse_reverse]
  | big => exact hbig h

end Sys2Proof.Machine

/-! PROOF. R53 to R57, R60 to R66: decoding and encoding are inverse. Each kind of image is taken apart once in each
direction. -/

namespace Sys2Proof.Machine

/-! ## Decoding an encoding -/

theorem take_bitsMsb_append {n : Nat} (v : BitVec n) (rest : List Bool) : (bitsMsb v ++ rest).take n = bitsMsb v :=
  List.take_left' (length_bitsMsb v)

theorem drop_bitsMsb_append {n : Nat} (v : BitVec n) (rest : List Bool) : (bitsMsb v ++ rest).drop n = rest :=
  List.drop_left' (length_bitsMsb v)

theorem map_byteOfBits_drop (bits : List Bool) (a n : Nat) :
    (List.range n).map (byteOfBits (bits.drop a)) =
      (List.range n).map fun j => ofBitsMsb 8 ((bits.drop (a + 8 * j)).take 8) :=
  List.map_congr_left fun j _ => by rw [byteOfBits, List.drop_drop]

theorem length_frameBits (e : Config.CountEndian) (m : BitVec 7) (sym : Byte) (count : Word64) :
    (frameBits e m sym count).length = 80 := by
  simp [frameBits]

theorem parseFrame_frameBits (e : Config.CountEndian) (m : BitVec 7) (sym : Byte) (count : Word64) :
    parseFrame e (frameBits e m sym count) = .ok (.wireSingle m sym count) := by
  have hbits : frameBits e m sym count =
      true :: (bitsMsb m ++ (bitsMsb sym ++ (countBytes e count).flatMap bitsMsb)) := by simp [frameBits]
  have hm : ((frameBits e m sym count).drop 1).take 7 = bitsMsb m := by
    rw [hbits, List.drop_succ_cons, List.drop_zero, take_bitsMsb_append]
  have htail : (frameBits e m sym count).drop 8 = bitsMsb sym ++ (countBytes e count).flatMap bitsMsb := by
    rw [hbits, List.drop_succ_cons, drop_bitsMsb_append]
  have hsym : ((frameBits e m sym count).drop 8).take 8 = bitsMsb sym := by
    rw [htail, take_bitsMsb_append]
  have hbytes : ((List.range 8).map fun j => ofBitsMsb 8 (((frameBits e m sym count).drop (16 + 8 * j)).take 8)) =
      countBytes e count := by
    have hcount : (frameBits e m sym count).drop 16 = (countBytes e count).flatMap bitsMsb := by
      rw [show 16 = 8 + 8 from rfl, ← List.drop_drop, htail, drop_bitsMsb_append]
    have h := map_byteOfBits (countBytes e count)
    rw [length_countBytes, ← hcount, map_byteOfBits_drop] at h
    exact h
  rw [parseFrame, if_pos ⟨length_frameBits e m sym count, rfl⟩]
  simp only [hm, hsym, hbytes, ofBitsMsb_bitsMsb, countOfBytes_countBytes]

theorem parseNode_leafBits (sym : Byte) : parseNode (leafBits sym) = some (.wireLeaf sym, []) := by
  have htake := take_bitsMsb_append sym []
  have hdrop := drop_bitsMsb_append sym []
  rw [List.append_nil] at htake hdrop
  rw [leafBits, parseNode, if_pos (length_bitsMsb sym).ge, htake, hdrop, ofBitsMsb_bitsMsb]

theorem parseTrailer_packedBits (d : BitVec 5) {c : BitVec 3} (hc : c.toNat ≤ Config.trailerMax) :
    parseTrailer (packedBits d c) = .ok (.wireTrailerPacked d c) := by
  have hlen : (packedBits d c).length = 8 := by simp [packedBits]
  rw [parseTrailer, if_pos hlen]
  simp only [packedBits, take_bitsMsb_append, drop_bitsMsb_append, ofBitsMsb_bitsMsb, if_pos hc]

theorem parseTrailer_zeroTrailerBits (d : Byte) : parseTrailer (zeroTrailerBits d) = .ok (.wireTrailerZero d) := by
  have hlen : (zeroTrailerBits d).length = 16 := by simp [zeroTrailerBits]
  rw [parseTrailer, if_neg (by omega), if_pos ⟨hlen, drop_bitsMsb_append d _⟩]
  simp only [zeroTrailerBits, take_bitsMsb_append, ofBitsMsb_bitsMsb]

/-- Settles O50: the rows of the opcode map by evaluation, the operands and the records by reading back their bits. -/
theorem encodeDecodeAgree : Obligations.EncodeDecodeAgree := by
  intro i hwf
  cases i with
  | wbit b => cases b <;> rfl
  | wbits n => exact decodeCmd_wbits n
  | wbyte v => exact decodeCmd_wbyte v
  | wireSingle m sym count => exact parseFrame_frameBits .little m sym count
  | wireLeaf sym => simp only [encode, decode, parseNode_leafBits]
  | wireCode k =>
    simp only [Instr.wellFormed, Bool.and_eq_true, decide_eq_true_eq] at hwf
    simp only [encode, decode, if_pos hwf]
  | wireTrailerPacked d c =>
    simp only [Instr.wellFormed, Bool.and_eq_true, decide_eq_true_eq] at hwf
    exact parseTrailer_packedBits d hwf.1
  | wireTrailerZero d => exact parseTrailer_zeroTrailerBits d
  | _ => rfl

/-! ## Encoding a decoding -/

theorem encode_of_parseFrame {bits : List Bool} {i : Instr} (h : parseFrame .little bits = .ok i) :
    encode i = .frame bits := by
  unfold parseFrame at h
  split at h
  case isTrue hbits =>
    obtain ⟨hlen, hhead⟩ := hbits
    obtain ⟨rest, rfl⟩ := List.head?_eq_some_iff.mp hhead
    rw [← map_byteOfBits_drop] at h
    cases h
    simp only [List.length_cons, List.drop_succ_cons, List.drop_zero] at hlen ⊢
    simp only [encode, frameBits]
    rw [bitsMsb_ofBitsMsb _ (by simp; omega), bitsMsb_ofBitsMsb _ (by simp; omega),
      countBytes_countOfBytes _ (by simp), flatMap_byteOfBits (by simp; omega)]
    have hsym : (rest.drop 7).take 8 ++ rest.drop 15 = rest.drop 7 := by
      rw [← List.drop_drop (i := 8) (j := 7), List.take_append_drop]
    rw [List.append_assoc, hsym, List.append_assoc, List.take_append_drop, List.singleton_append]
  case isFalse => cases h

theorem encode_of_parseNode {bits : List Bool} {i : Instr} (h : parseNode bits = some (i, [])) :
    encode i = .node bits := by
  match bits with
  | [] => cases h
  | false :: rest =>
    cases h
    rfl
  | true :: rest =>
    simp only [parseNode] at h
    split at h
    case isTrue hlen =>
      obtain ⟨rfl, hdrop⟩ := Prod.mk.inj (Option.some.inj h)
      have hexact : rest.take 8 = rest := List.take_of_length_le (List.drop_eq_nil_iff.mp hdrop)
      rw [encode, leafBits, hexact, bitsMsb_ofBitsMsb rest (le_antisymm (List.drop_eq_nil_iff.mp hdrop) hlen)]
    case isFalse => cases h

theorem encode_of_parseTrailer {bits : List Bool} {i : Instr} (h : parseTrailer bits = .ok i) :
    encode i = .trailer bits := by
  simp only [parseTrailer] at h
  split at h
  case isTrue hlen =>
    split at h
    · cases h
      rw [encode, packedBits, bitsMsb_ofBitsMsb _ (by simp; omega), bitsMsb_ofBitsMsb _ (by simp; omega),
        List.take_append_drop]
    · cases h
  case isFalse =>
    split at h
    case isTrue hbits =>
      obtain ⟨hlen, hzero⟩ := hbits
      cases h
      rw [encode, zeroTrailerBits, bitsMsb_ofBitsMsb _ (by simp; omega), ← hzero, List.take_append_drop]
    case isFalse => cases h

theorem encode_of_decode {img : Image} {i : Instr} (h : decode img = .ok i) : encode i = img := by
  cases img with
  | word w => exact encode_of_decodeCmd h
  | frame bits => exact encode_of_parseFrame h
  | node bits =>
    simp only [decode] at h
    split at h
    case h_1 _ hp =>
      cases h
      exact encode_of_parseNode hp
    all_goals cases h
  | code bits =>
    simp only [decode] at h
    split at h
    · cases h; rfl
    · cases h
  | trailer bits => exact encode_of_parseTrailer h

/-- The commands are the instructions whose images are words. -/
theorem isCommand_iff_encode_word (i : Instr) : i.isCommand = true ↔ ∃ w, encode i = .word w := by
  cases i <;> simp [Instr.isCommand, encode]

/-- Settles O51: each kind of image is the encoding of what it decodes to. -/
theorem decodedImagesEncodeBack : Obligations.DecodedImagesEncodeBack := by
  intro img i h
  have himg : encode i = img := encode_of_decode h
  exact ⟨himg, himg ▸ isCommand_iff_encode_word i⟩

/-! ## Reserved words (R57) -/

theorem runWord_of_decode_none {w : CmdWord} (h : ∀ i, decode (.word w) ≠ .ok i) (s : State) :
    runWord w s = .next (refuse s) := by
  unfold runWord
  split
  · exact absurd ‹_› (h _)
  · rfl

/-- Settles O41: the words in no row are the reserved ones, and WBITS refuses a count above 64 in every mode. -/
theorem reservedWordsAreRefused : Obligations.ReservedWordsAreRefused := by
  refine ⟨fun w => ?_, fun w s h => runWord_of_decode_none h s, fun w n s h hn => ?_⟩
  · refine Iff.trans ?_ (not_congr (exists_selects_iff w))
    simp only [decode, ne_eq, decodeCmd_eq_ok_iff]
    exact ⟨fun h ⟨r, hr, hsel⟩ => h _ ⟨r, hr, hsel, rfl⟩, fun h i ⟨r, hr, hsel, _⟩ => h ⟨r, hr, hsel⟩⟩
  · simp only [runWord, h, exec, execWbits, hn, or_true, if_true]
    rfl

/-- Settles O52: each word and record is the image of the instruction named. -/
theorem specWordsDecode : Obligations.SpecWordsDecode :=
  ⟨encodeDecodeAgree .wopen rfl, encodeDecodeAgree (.wbits 64) rfl, encodeDecodeAgree (.wbyte 0xAB) rfl,
    encodeDecodeAgree .rbit rfl, encodeDecodeAgree .tbuild rfl, encodeDecodeAgree .tdes rfl,
    encodeDecodeAgree .cgen rfl, encodeDecodeAgree .encode rfl, encodeDecodeAgree .decode rfl,
    encodeDecodeAgree .clrerr rfl, encodeDecodeAgree (.wireLeaf 0x61) rfl,
    encodeDecodeAgree (.wireTrailerPacked 0b00110 5) rfl⟩

end Sys2Proof.Machine

/-! PROOF. R62, R65 to R67: the bytes of the general form. With the trailer the form is a whole number of bytes, and
the low three bits of its last byte are the trailer's count. -/

namespace Sys2Proof.Machine

/-! ## Packing whole bytes -/

/-- A whole number of bytes packs without padding. -/
theorem packBits_eq_map {bits : List Bool} {n : Nat} (h : bits.length = 8 * n) :
    packBits bits = (List.range n).map (byteOfBits bits) := by
  rw [packBits, h, show (8 * n + 7) / 8 = n by omega]
  refine List.map_congr_left fun j hj => ?_
  have hj : j < n := List.mem_range.mp hj
  rw [byteOfBits, List.take_append_of_le_length (by simp; omega), List.take_take, min_self]

theorem length_packBits {bits : List Bool} {n : Nat} (h : bits.length = 8 * n) : (packBits bits).length = n := by
  simp [packBits_eq_map h]

theorem flatMap_packBits {bits : List Bool} {n : Nat} (h : bits.length = 8 * n) :
    (packBits bits).flatMap bitsMsb = bits := by
  rw [packBits_eq_map h, flatMap_byteOfBits h]

theorem getLastD_packBits {front last : List Bool} {n : Nat} (hfront : front.length = 8 * n) (hlast : last.length = 8) :
    (packBits (front ++ last)).getLastD 0 = ofBitsMsb 8 last := by
  have hlen : (front ++ last).length = 8 * (n + 1) := by rw [List.length_append]; omega
  rw [packBits_eq_map hlen, List.range_succ, List.map_append, List.map_singleton, List.getLastD_concat, byteOfBits,
    List.drop_left' hfront, List.take_of_length_le hlast.le]

/-- The low three bits of a byte are its last three in stream order. -/
theorem extractLsb'_ofBitsMsb_append {front : List Bool} (h : front.length = 5) (c : BitVec 3) :
    (ofBitsMsb 8 (front ++ bitsMsb c)).extractLsb' 0 3 = c := by
  have hbyte : ofBitsMsb 8 (front ++ bitsMsb c) = ofBitsMsb 5 front ++ c := by
    apply bitsMsb_injective
    rw [bitsMsb_ofBitsMsb _ (by simp [h]), bitsMsb_append, bitsMsb_ofBitsMsb front h]
  rw [hbyte, BitVec.extractLsb'_append_eq_right]

/-! ## The trailer (R65, R66) -/

/-- The packed trailer: it completes the byte, and the count is the number of payload bits in that byte (R65). -/
theorem packed_form {body : List Bool} (hu : body.length % 8 ≤ 5) :
    (body ++ trailerBits (body.length % 8)).length = 8 * (body.length / 8 + 1) ∧
      ((packBits (body ++ trailerBits (body.length % 8))).getLastD 0).extractLsb' 0 3 =
        BitVec.ofNat 3 (body.length % 8) := by
  set u := body.length % 8 with hudef
  have htrailer : trailerBits u = List.replicate (5 - u) false ++ bitsMsb (BitVec.ofNat 3 u) := if_pos hu
  constructor
  · rw [htrailer]
    simp
    omega
  · have hsplit : body ++ trailerBits u = body.take (8 * (body.length / 8)) ++
        ((body.drop (8 * (body.length / 8)) ++ List.replicate (5 - u) false) ++ bitsMsb (BitVec.ofNat 3 u)) := by
      rw [htrailer, ← List.append_assoc, ← List.append_assoc, ← List.append_assoc, List.take_append_drop]
    have hfront : (body.drop (8 * (body.length / 8)) ++ List.replicate (5 - u) false).length = 5 := by
      simp
      omega
    rw [hsplit, getLastD_packBits (n := body.length / 8) (by simp; omega) (by rw [List.length_append, hfront]; rfl),
      extractLsb'_ofBitsMsb_append hfront]

/-- The zero-byte trailer: the padding completes the byte and the last byte is 0 (R66). -/
theorem zero_form {body : List Bool} (hu : 6 ≤ body.length % 8) :
    (body ++ trailerBits (body.length % 8)).length = 8 * (body.length / 8 + 2) ∧
      ((packBits (body ++ trailerBits (body.length % 8))).getLastD 0).extractLsb' 0 3 = 0 := by
  set u := body.length % 8 with hudef
  have htrailer : trailerBits u = List.replicate (8 - u) false ++ List.replicate 8 false := if_neg (by omega)
  constructor
  · rw [htrailer]
    simp
    omega
  · rw [htrailer, ← List.append_assoc, getLastD_packBits (n := body.length / 8 + 1) (by simp; omega) (by simp)]
    rfl

/-- Settles O28: the two trailers, by the number of payload bits in the last byte. -/
theorem generalFormLength : Obligations.GeneralFormLength := by
  intro tr bytes B u file c
  have hB : B = (tr.ser ++ tr.payload bytes).length := List.length_append.symm
  have hform : generalForm tr bytes = (tr.ser ++ tr.payload bytes) ++ trailerBits u := by rw [generalForm, ← hB]
  rcases Nat.lt_or_ge 5 u with hu | hu
  · obtain ⟨hlen, hcount⟩ := zero_form (body := tr.ser ++ tr.payload bytes) (by rw [← hB]; exact hu)
    rw [← hB, ← hform] at hlen hcount
    have hc : c = 0 := congrArg BitVec.toNat hcount
    have hfile : file.length = B / 8 + 2 := length_packBits hlen
    exact ⟨flatMap_packBits hlen, by omega, by omega, fun _ => ⟨hfile, by omega⟩⟩
  · obtain ⟨hlen, hcount⟩ := packed_form (body := tr.ser ++ tr.payload bytes) (by rw [← hB]; exact hu)
    rw [← hB, ← hform] at hlen hcount
    have hc : c = u := (congrArg BitVec.toNat hcount).trans (Nat.mod_eq_of_lt (by omega))
    have hfile : file.length = B / 8 + 1 := length_packBits hlen
    exact ⟨flatMap_packBits hlen, by omega, fun _ => ⟨hfile, by omega⟩, by omega⟩

end Sys2Proof.Machine

/-! PROOF. R59: commands that are sequences of others. WBITS is its WBITs; ENCODE and DECODE choose their sequence by
what the first commands of it leave. -/

namespace Sys2Proof.Machine

/-! ## Sequences -/

theorem andThen_next_right (o : Host.Outcome State Fault Refusal) : andThen o .next = o := by
  cases o with
  | next s => simp only [andThen, ite_self]
  | fault r => rfl
  | refused r => rfl

theorem runCommands_singleton (i : Instr) (s : State) : runCommands [i] s = exec i s := andThen_next_right _

/-- The first command completes outside MODE FAULT, and the rest runs from there. -/
theorem runCommands_cons {i : Instr} {s t : State} (h : exec i s = .next t) (hm : t.mode ≠ .fault) (is : List Instr) :
    runCommands (i :: is) s = runCommands is t := by rw [runCommands, h, andThen_of_next _ hm]

/-! ## WBITS and WBYTE -/

theorem exec_wbit {s : State} (hm : s.mode = .write) (b : Bool) : exec (.wbit b) s = .next (writeBit b s) :=
  if_neg (not_not.mpr hm)

theorem exec_wbits {s : State} (hm : s.mode = .write) {n : BitVec 7} (hn : n.toNat ≤ 64) :
    exec (.wbits n) s = .next (writeBits (topBits s.arg0 n.toNat) s) := by
  simp only [exec, execWbits, hm, ne_eq, not_true_eq_false, Nat.not_lt.mpr hn, or_self, if_false]

theorem exec_wbyte {s : State} (hm : s.mode = .write) (h0 : s.curBit = 0) (v : Byte) :
    exec (.wbyte v) s = .next (writeByte v s) := by
  simp only [exec, execWbyte, hm, h0, ne_eq, not_true_eq_false, or_self, if_false]

theorem writeBits_writerFrame (bs : List Bool) (s : State) : WriterFrame s (writeBits bs s) :=
  List.foldlRecOn bs _ (WriterFrame.refl s) fun t ht b _ => ht.trans (writeBit_writerFrame b t)

/-- A run of WBITs is a run of WriteBits (R78). -/
theorem runCommands_wbits (bs : List Bool) {s : State} (hm : s.mode = .write) :
    runCommands (bs.map .wbit) s = .next (writeBits bs s) := by
  induction bs generalizing s with
  | nil => rfl
  | cons b bs ih =>
    have hm' : (writeBit b s).mode = .write := (writeBit_writerFrame b s).mode.trans hm
    rw [List.map_cons, runCommands_cons (exec_wbit hm b) (by simp [hm']), ih hm']
    rfl

/-- The top bits of a left-justified byte are the byte's bits (R59). -/
theorem topBits_of_byte (v : Byte) : topBits (v.setWidth 64 <<< 56) 8 = bitsMsb v := by
  refine List.map_congr_left fun i hi => ?_
  have hi : i < 8 := List.mem_range.mp hi
  rw [BitVec.getMsbD_shiftLeft, BitVec.getMsbD_setWidth]
  simp

theorem topBits_eq_map (v : Word64) {n : Nat} (hn : n ≤ 64) :
    topBits v n = (List.range n).map fun i => v.getLsbD (63 - i) := by
  refine List.map_congr_left fun i hi => ?_
  have hi : i < 64 := (List.mem_range.mp hi).trans_le hn
  simp only [BitVec.getMsbD, hi, decide_true, Bool.true_and]

/-- The writer does not look at ARG0. -/
theorem writeBit_arg0 (b : Bool) (s : State) (a : Word64) :
    writeBit b { s with arg0 := a } = { writeBit b s with arg0 := a } := by
  simp only [writeBit, nextByte]
  split
  · split <;> rfl
  · rfl

theorem writeBits_arg0 (bs : List Bool) (s : State) (a : Word64) :
    writeBits bs { s with arg0 := a } = { writeBits bs s with arg0 := a } := by
  induction bs generalizing s with
  | nil => rfl
  | cons b bs ih =>
    show writeBits bs (writeBit b { s with arg0 := a }) = _
    rw [writeBit_arg0, ih]
    rfl

theorem wbyte_eq_wbits (v : Byte) {s : State} (hm : s.mode = .write) (h0 : s.curBit = 0) :
    exec (.wbyte v) s = andThen (exec (.wbits 8) { s with arg0 := v.setWidth 64 <<< 56 })
      (fun t => .next { t with arg0 := s.arg0 }) := by
  have hbits : exec (.wbits 8) { s with arg0 := v.setWidth 64 <<< 56 } =
      .next { writeBits (bitsMsb v) s with arg0 := v.setWidth 64 <<< 56 } := by
    rw [exec_wbits (s := { s with arg0 := v.setWidth 64 <<< 56 }) hm (by decide), ← writeBits_arg0]
    exact congrArg (fun bs => Host.Outcome.next (writeBits bs { s with arg0 := v.setWidth 64 <<< 56 }))
      (topBits_of_byte v)
  have hframe := writeBits_writerFrame (bitsMsb v) s
  have hmode : (writeBits (bitsMsb v) s).mode = .write := hframe.mode.trans hm
  have harg0 : (writeBits (bitsMsb v) s).arg0 = s.arg0 := by rw [hframe.2]
  rw [hbits, andThen_of_next _ (by simp [hmode]), exec_wbyte hm h0, writeByte_eq_writeBits v h0, ← harg0]

/-! ## The number of distinct source bytes (R24, R108) -/

theorem entry_setEntry {α : Type} (t : Vector α 256) (sym a : Byte) (x : α) :
    entry (setEntry t a x) sym = if sym = a then x else entry t sym := by
  simp only [entry, setEntry, Vector.getElem_set, BitVec.toNat_inj, eq_comm]

/-- The Frequency Table counts, modulo 2^64. -/
theorem entry_frequencies (bytes : List Byte) (sym : Byte) :
    entry (frequencies bytes) sym = BitVec.ofNat 64 (bytes.count sym) := by
  have key : ∀ t : Vector Word64 256,
      entry (bytes.foldl countByte t) sym = entry t sym + BitVec.ofNat 64 (bytes.count sym) := by
    induction bytes with
    | nil => simp
    | cons b bytes ih =>
      intro t
      rw [List.foldl_cons, ih, countByte, entry_setEntry, List.count_cons]
      by_cases hb : sym = b
      · subst hb
        simp [BitVec.ofNat_add]
        ring
      · simp [hb, Ne.symm hb]
  refine (key (Vector.replicate 256 0)).trans ?_
  simp [entry]

/-- The symbols of non-zero frequency are the ones that occur: a source has fewer than 2^64 bytes (R154). -/
theorem usedSymbols_frequencies {bytes : List Byte} (h : bytes.length < 2 ^ 64) :
    usedSymbols (frequencies bytes) = allSymbols.filter fun sym => sym ∈ bytes := by
  refine List.filter_congr fun sym _ => ?_
  have hlt : bytes.count sym < 2 ^ 64 := List.count_le_length.trans_lt h
  rw [entry_frequencies, Bool.eq_iff_iff, bne_iff_ne, decide_eq_true_eq, ← List.count_pos_iff, ne_eq,
    ← BitVec.toNat_inj, BitVec.toNat_ofNat, Nat.mod_eq_of_lt hlt]
  exact Nat.pos_iff_ne_zero.symm

theorem length_srcBytes_lt (s : State) : s.srcBytes.length < 2 ^ 64 := by
  rw [State.srcBytes, Memory.length_readBytes]
  exact s.srcLen.isLt

theorem countNonZero_srcBytes (s : State) :
    countNonZero (frequencies s.srcBytes) = (allSymbols.filter fun sym => sym ∈ s.srcBytes).length := by
  rw [← length_usedSymbols, usedSymbols_frequencies (length_srcBytes_lt s)]

/-! ## ENCODE and DECODE -/

theorem exec_wopen {s : State} (hm : s.mode = .idle) (ha : s.allocOk = true) :
    exec .wopen s = .next (writeOpened s) := by
  simp [exec, execWopen, hm, ha, writeOpened]

theorem exec_ropen {s : State} (hm : s.mode = .idle) (ha : s.allocOk = true) :
    exec .ropen s = .next (readOpened s) := by
  simp [exec, execRopen, hm, ha, readOpened]

theorem exec_wopen_unallocated {s : State} (hm : s.mode = .idle) (ha : s.allocOk = false) :
    exec .wopen s = .next (raise .allocation s) := by
  simp [exec, execWopen, hm, ha]

theorem exec_ropen_unallocated {s : State} (hm : s.mode = .idle) (ha : s.allocOk = false) :
    exec .ropen s = .next (raise .allocation s) := by
  simp [exec, execRopen, hm, ha]

theorem exec_fscan {s : State} (hm : s.mode = .write) : exec .fscan s = .next (sourceCounted (noteScan s)) := by
  simp only [exec, execFscan, hm, ne_eq, not_true_eq_false, if_false]
  rfl

/-- What ENCODE has scanned before it chooses a form (R113). -/
def encodeScanned (s : State) : State := sourceCounted (noteScan (writeOpened s))

theorem writeOpened_ne_fault (s : State) : (writeOpened s).mode ≠ .fault := mode_ne_fault_of_sessionOpen rfl

theorem readOpened_ne_fault (s : State) : (readOpened s).mode ≠ .fault := mode_ne_fault_of_sessionOpen rfl

theorem encodeScanned_ne_fault (s : State) : (encodeScanned s).mode ≠ .fault := mode_ne_fault_of_sessionOpen rfl

theorem runCommands_encodeScanned {s : State} (hm : s.mode = .idle) (ha : s.allocOk = true) (is : List Instr) :
    runCommands (.wopen :: .fscan :: is) s = runCommands is (encodeScanned s) := by
  rw [runCommands_cons (exec_wopen hm ha) (writeOpened_ne_fault s),
    runCommands_cons (exec_fscan rfl) (encodeScanned_ne_fault s)]
  rfl

theorem leafCount_encodeScanned (s : State) :
    (encodeScanned s).leafCount.toNat = (allSymbols.filter fun sym => sym ∈ s.srcBytes).length := by
  have hsrc : (noteScan (writeOpened s)).srcBytes = s.srcBytes := rfl
  have hlen : (encodeScanned s).leafCount = BitVec.ofNat 9 (countNonZero (frequencies s.srcBytes)) := hsrc ▸ rfl
  have := countNonZero_le (frequencies s.srcBytes)
  rw [hlen, BitVec.toNat_ofNat, Nat.mod_eq_of_lt (by omega), countNonZero_srcBytes]

/-- ENCODE after its scan, form by form (R113). -/
theorem exec_encode {s : State} (hm : s.mode = .idle) (ha : s.allocOk = true) :
    exec .encode s =
      if (encodeScanned s).leafCount = 0 then .next (raise .emptyInput (encodeScanned s))
      else if (encodeScanned s).leafCount = 1 then runCommands [.esingle, .wflush] (encodeScanned s)
      else runCommands [.tbuild, .cgen, .tser, .epay, .etrail, .wflush] (encodeScanned s) := by
  have hopen : execWopen s = .next (writeOpened s) := exec_wopen hm ha
  have hscan : execFscan (writeOpened s) = .next (encodeScanned s) := exec_fscan rfl
  simp only [exec, execEncode, hm, ne_eq, not_true_eq_false, if_false, hopen,
    andThen_of_next _ (writeOpened_ne_fault s), hscan, andThen_of_next _ (encodeScanned_ne_fault s)]
  simp only [runCommands, andThen_next_right, exec]

/-- DECODE after ROPEN, form by form (R121). -/
theorem exec_decode {s : State} (hm : s.mode = .idle) (ha : s.allocOk = true) :
    exec .decode s =
      if s.srcLen = 0 then .next (raise .emptyInput (readOpened s))
      else if markOf s then runCommands [.dsingle, .rclose] (readOpened s)
      else runCommands [.tdes, .dpay, .rclose] (readOpened s) := by
  have hopen : execRopen s = .next (readOpened s) := exec_ropen hm ha
  simp only [exec, execDecode, hm, ne_eq, not_true_eq_false, if_false, hopen,
    andThen_of_next _ (readOpened_ne_fault s)]
  simp only [runCommands, andThen_next_right, exec]
  rfl

theorem markOf_of_srcLen {s : State} (h : s.srcLen ≠ 0) : markOf s = (s.src.read 0).getLsbD 7 := by
  have hpos : s.srcLen.toNat ≠ 0 := fun e => h (BitVec.eq_of_toNat_eq e)
  exact if_pos (Nat.pos_of_ne_zero hpos)

/-- Without its storage a session does not open, and the composite command ends with its first one (R77, R86). -/
theorem composites_unallocated {s : State} (hm : s.mode = .idle) (ha : s.allocOk = false) :
    exec .encode s = runCommands [.wopen] s ∧ exec .decode s = runCommands [.ropen] s := by
  have hw : execWopen s = .next (raise .allocation s) := exec_wopen_unallocated hm ha
  have hr : execRopen s = .next (raise .allocation s) := exec_ropen_unallocated hm ha
  simp [runCommands_singleton, exec, execEncode, execDecode, hm, hw, hr, andThen, raise]

/-- Settles O29: WBYTE and WBITS as runs of WriteBits; ENCODE and DECODE by what their first commands leave. -/
theorem equivalentCommandSequences : Obligations.EquivalentCommandSequences := by
  refine ⟨fun v s hm h0 => wbyte_eq_wbits v hm h0, fun n s hm hn => ?_, fun s hm => ?_⟩
  · rw [exec_wbits hm hn, topBits_eq_map _ hn, ← runCommands_wbits _ hm, List.map_map]
    rfl
  · intro distinct
    have hleaves (n : BitVec 9) : (encodeScanned s).leafCount = n ↔ distinct = n.toNat := by
      rw [← BitVec.toNat_inj, leafCount_encodeScanned]
    refine ⟨composites_unallocated hm, fun ha => ⟨fun h => ?_, fun h => ?_, fun h => ?_, fun h => ?_, fun h hmark => ?_,
      fun h hmark => ?_⟩⟩
    · refine ⟨encodeScanned s, runCommands_encodeScanned hm ha [], ?_⟩
      rw [exec_encode hm ha, if_pos ((hleaves 0).mpr h)]
    · have h0 : (encodeScanned s).leafCount ≠ 0 := fun e => absurd ((hleaves 0).mp e) (by simp [h])
      rw [runCommands_encodeScanned hm ha, exec_encode hm ha, if_neg h0, if_pos ((hleaves 1).mpr h)]
    · have h0 : (encodeScanned s).leafCount ≠ 0 := fun e => absurd ((hleaves 0).mp e) (by simp; omega)
      have h1 : (encodeScanned s).leafCount ≠ 1 := fun e => absurd ((hleaves 1).mp e) (by simp; omega)
      rw [runCommands_encodeScanned hm ha, exec_encode hm ha, if_neg h0, if_neg h1]
    · refine ⟨readOpened s, (runCommands_singleton .ropen s).trans (exec_ropen hm ha), ?_⟩
      rw [exec_decode hm ha, if_pos h]
    · rw [runCommands_cons (exec_ropen hm ha) (readOpened_ne_fault s), exec_decode hm ha, if_neg h,
        if_pos ((markOf_of_srcLen h).trans hmark)]
    · rw [runCommands_cons (exec_ropen hm ha) (readOpened_ne_fault s), exec_decode hm ha, if_neg h,
        if_neg (Bool.eq_false_iff.mp ((markOf_of_srcLen h).trans hmark))]

end Sys2Proof.Machine

/-! PROOF. R61, R63 to R66, R112: a wire record written (log entry 16). A record is a run of WriteBits; a trailer writes
what the bits already in its byte leave over. -/

namespace Sys2Proof.Machine

/-- Outside a session there is no stream, and a record is refused. -/
theorem exec_record_outside {i : Instr} {s : State} (hi : i.isCommand = false) (hm : s.mode = .idle ∨ s.mode = .fault) :
    exec i s = .next (refuse s) := by
  cases i with
  | wireSingle m sym count => rcases hm with hm | hm <;> simp only [exec, execWireSingle, hm]
  | wireInternal => rcases hm with hm | hm <;> simp only [exec, execWireInternal, hm]
  | wireLeaf sym => rcases hm with hm | hm <;> simp only [exec, execWireLeaf, hm]
  | wireCode k => rcases hm with hm | hm <;> simp only [exec, execWireCode, hm]
  | wireTrailerPacked d c => rcases hm with hm | hm <;> simp only [exec, execWireTrailerPacked, hm]
  | wireTrailerZero d => rcases hm with hm | hm <;> simp only [exec, execWireTrailerZero, hm]
  | _ => cases hi

/-! ## The bits already in the byte (R75) -/

/-- The stream up to a place inside byte `i`: the bytes before it, and the first bits of that byte. -/
theorem take_flatMap_bitsMsb {vs : List Byte} {i k : Nat} (hi : i < vs.length) (hk : k ≤ 8) :
    (vs.flatMap bitsMsb).take (8 * i + k) = (vs.take i).flatMap bitsMsb ++ (bitsMsb vs[i]).take k := by
  have hlen : ((vs.take i).flatMap bitsMsb).length = 8 * i := by
    rw [length_flatMap_bitsMsb, List.length_take_of_le hi.le]
  conv_lhs => rw [← List.take_append_drop i vs, List.drop_eq_getElem_cons hi, List.flatMap_append, List.flatMap_cons]
  rw [← hlen, List.take_length_add_append, List.take_append_of_le_length (by rwa [length_bitsMsb])]

section
variable {s : State} (hm : s.mode = .write) (h : s.CursorInv)
include hm h

theorem length_usedBits : (usedBits s).length = s.curBit.toNat := by
  have hlt : s.curByte < s.buf.length := h.buf_length ▸ (h.write_cursor hm).1
  have hk : s.curBit.toNat ≤ 8 := s.curBit.isLt.le
  rw [usedBits, List.length_take, length_bitsMsb, Nat.min_eq_left hk]

/-- The last CUR_BIT bits of the stream are the ones in the byte under the cursor. -/
theorem drop_streamBits : s.streamBits.drop (s.streamBits.length - s.curBit.toNat) = usedBits s := by
  have hlt : s.curByte < s.buf.length := h.buf_length ▸ (h.write_cursor hm).1
  have hk : s.curBit.toNat ≤ 8 := s.curBit.isLt.le
  have hused : usedBits s = (bitsMsb s.buf[s.curByte]).take s.curBit.toNat := by
    rw [usedBits, List.getD_eq_getElem _ _ hlt]
  have hstream : s.streamBits =
      (s.sinkBytes.flatMap bitsMsb ++ (s.buf.take s.curByte).flatMap bitsMsb) ++ usedBits s := by
    rw [State.streamBits, State.bufBits, State.bitPlace, take_flatMap_bitsMsb hlt hk, hused, List.append_assoc]
  rw [hstream]
  refine List.drop_left' ?_
  simp only [List.length_append, length_usedBits hm h, Nat.add_sub_cancel]

/-! ## The records -/

theorem wireSingle_written (m : BitVec 7) (sym : Byte) (count : Word64) (h0 : s.curBit = 0) :
    ∃ t, exec (.wireSingle m sym count) s = .next t ∧
      Appended s t ((0x80 :: sym :: countBytes s.params.countEndian count).flatMap bitsMsb) := by
  have hmarker : bitsMsb (0x80 : Byte) = true :: bitsMsb (0 : BitVec 7) := by decide
  have hbits : frameBits s.params.countEndian 0 sym count =
      (0x80 :: sym :: countBytes s.params.countEndian count).flatMap bitsMsb := by
    rw [List.flatMap_cons, List.flatMap_cons, hmarker]
    simp [frameBits]
  rw [← hbits]
  refine ⟨_, ?_, appended_writeBits _ hm h⟩
  simp only [exec, execWireSingle, hm, h0, ne_eq, not_true_eq_false, if_false]

/-- What completes the byte of a packed trailer (R65). -/
theorem wireTrailerPacked_written (d : BitVec 5) (c : BitVec 3) (hc : s.curBit = c) (hmax : c.toNat ≤ 5)
    (hd : usedBits s ++ List.replicate (5 - c.toNat) false = bitsMsb d) :
    ∃ t, exec (.wireTrailerPacked d c) s = .next t ∧ t.curBit = 0 ∧
      Appended s t ((bitsMsb d ++ bitsMsb c).drop c.toNat) := by
  have hrest : (bitsMsb d ++ bitsMsb c).drop c.toNat = List.replicate (5 - c.toNat) false ++ bitsMsb c := by
    rw [← hd, List.append_assoc]
    exact List.drop_left' (hc ▸ length_usedBits hm h)
  have happ : Appended s (writeBits (List.replicate (5 - c.toNat) false ++ bitsMsb c) s) _ := appended_writeBits _ hm h
  rw [hrest]
  refine ⟨_, ?_, ?_, happ⟩
  · simp only [exec, execWireTrailerPacked, hm]
    exact if_neg (by simp [hc, hd, hmax])
  · apply BitVec.eq_of_toNat_eq
    rw [happ.curBit, hc]
    simp
    omega

/-- The padding that completes the byte, and the zero byte (R66). -/
theorem wireTrailerZero_written (d : Byte) (hk : 5 < s.curBit.toNat)
    (hd : usedBits s ++ List.replicate (8 - s.curBit.toNat) false = bitsMsb d) :
    ∃ t, exec (.wireTrailerZero d) s = .next t ∧ t.curBit = 0 ∧
      Appended s t ((bitsMsb d).drop s.curBit.toNat ++ List.replicate 8 false) := by
  have hrest : (bitsMsb d).drop s.curBit.toNat = List.replicate (8 - s.curBit.toNat) false := by
    rw [← hd]
    exact List.drop_left' (length_usedBits hm h)
  have hpad : Appended s (writeBits (List.replicate (8 - s.curBit.toNat) false) s) _ := appended_writeBits _ hm h
  have h0 := writeBits_padding_curBit s
  have hbyte := appended_writeByte 0 (hpad.mode.trans hm) hpad.inv h0
  rw [hrest]
  refine ⟨_, ?_, ?_, hpad.trans hbyte⟩
  · simp only [exec, execWireTrailerZero, hm]
    exact if_neg (by simp [hd, hk])
  · apply BitVec.eq_of_toNat_eq
    rw [hbyte.curBit, h0]
    simp

end

/-- Settles O53: each record is refused outside a session, and in MODE WRITE is its run of WriteBits. -/
theorem wireRecordsAreWritten : Obligations.WireRecordsAreWritten := by
  refine ⟨fun i s => exec_record_outside, fun s hm h => ⟨wireSingle_written hm h, ?_, fun sym => ?_, fun k => ?_,
    fun d c hc hmax hd => ?_, fun d hk hd => ?_⟩⟩
  · exact ⟨_, by simp only [exec, execWireInternal, hm], appended_writeBits _ hm h⟩
  · exact ⟨_, by simp only [exec, execWireLeaf, hm], appended_writeBits (leafBits sym) hm h⟩
  · exact ⟨_, by simp only [exec, execWireCode, hm], appended_writeBits _ hm h⟩
  · subst hc
    rw [drop_streamBits hm h] at hd
    exact wireTrailerPacked_written hm h d _ rfl hmax hd
  · rw [drop_streamBits hm h] at hd
    exact wireTrailerZero_written hm h d hk hd

end Sys2Proof.Machine

/-! PROOF. R61, R64 to R66, R117 to R120: a frame, a code or a trailer read (log entry 16). The record's bits are the
next ones of the source; a code is the payload walk along it, and what the walk emits is its decoding. -/

namespace Sys2Proof.Machine

/-! ## Bits that stand at the cursor -/

/-- The next bits are consumed when they are the ones asked for. -/
theorem matchBits_append {bits rest : List Bool} {s : State} (hm : s.mode = .read) (h : s.CursorInv)
    (hu : s.unread = bits ++ rest) :
    ∃ t, matchBits bits s = some t ∧ Consumed s t bits.length ∧ t.eof = s.eof := by
  induction bits generalizing s with
  | nil => exact ⟨s, rfl, Consumed.zero h, rfl⟩
  | cons b bs ih =>
    obtain ⟨t, ht, hc, he, hr⟩ := readBit_cons hm h hu
    obtain ⟨u, hu', hc', he'⟩ := ih (hc.mode.trans hm) hc.inv hr
    refine ⟨u, ?_, ?_, he'.trans he⟩
    · simp only [matchBits, ht, if_true, hu']
    · rw [List.length_cons, Nat.add_comm]
      exact hc.trans hc'

/-- Noting a read leaves the cursor alone (R36). -/
theorem consumed_noteRead (a n : Nat) {s : State} (h : s.CursorInv) : Consumed s (noteRead a n s) 0 :=
  ⟨rfl, h.congr rfl, rfl⟩

/-! ## Emitted bytes (R37) -/

theorem Emitted.refl (s : State) : Emitted s s [] := ⟨by simp, rfl, by simp, .refl s⟩

theorem Emitted.trans {s t u : State} {as bs : List Byte} (h : Emitted s t as) (k : Emitted t u bs) :
    Emitted s u (as ++ bs) where
  bytes := by rw [k.bytes, h.bytes, List.append_assoc]
  len := by rw [k.len, h.len, List.length_append, Nat.add_assoc]
  writes := by rw [k.writes, h.writes, List.length_append, List.replicate_add, List.append_assoc]
  stores := h.stores.trans k.stores

theorem emitted_emit (b : Byte) (s : State) : Emitted s (emit b s) [b] :=
  ⟨sinkBytes_memWrite [b] s, rfl, rfl, storesAtEnd_memWrite [b] s⟩

theorem emitted_emitTimes (b : Byte) (n : Nat) (s : State) : Emitted s (emitTimes b n s) (List.replicate n b) := by
  induction n generalizing s with
  | zero => exact .refl s
  | succ n ih => exact (emitted_emit b s).trans (ih (emit b s))

/-- Only the memories count. -/
theorem Emitted.congr {s s' t t' : State} {bs : List Byte} (h : Emitted s t bs) (hs : s'.memoryPart = s.memoryPart)
    (ht : t'.memoryPart = t.memoryPart) : Emitted s' t' bs := by
  have key (u v : State) : Emitted u.memoryPart v.memoryPart bs ↔ Emitted u v bs :=
    ⟨fun ⟨h1, h2, h3, h4⟩ => ⟨h1, h2, h3, h4⟩, fun ⟨h1, h2, h3, h4⟩ => ⟨h1, h2, h3, h4⟩⟩
  exact (key s' t').mp (by rw [hs, ht]; exact (key s t).mpr h)

/-- What the decoder's output path may change: the sink and WALK (R119). -/
def OutputFrame (s t : State) : Prop :=
  t = { s with sink := t.sink, sinkLen := t.sinkLen, sinkWrites := t.sinkWrites, walk := t.walk }

theorem OutputFrame.trans {s t u : State} (h : OutputFrame s t) (k : OutputFrame t u) : OutputFrame s u := by
  unfold OutputFrame at *
  rw [k]
  conv_lhs => rw [h]

theorem outputFrame_emitTimes (b : Byte) (n : Nat) (s : State) :
    OutputFrame s (emitTimes b n s) ∧ (emitTimes b n s).walk = s.walk := by
  induction n generalizing s with
  | zero => exact ⟨rfl, rfl⟩
  | succ n ih =>
    have hemit : OutputFrame s (emit b s) := rfl
    exact ⟨hemit.trans (ih (emit b s)).1, (ih (emit b s)).2⟩

/-- Output after reading consumes no more bits. -/
theorem Consumed.output {s u t : State} {n : Nat} (h : Consumed s u n) (hf : OutputFrame u t) :
    Consumed { s with sink := t.sink, sinkLen := t.sinkLen, sinkWrites := t.sinkWrites, walk := t.walk } t n where
  pos := by
    rw [hf]
    exact h.pos
  inv := by
    rw [hf]
    exact h.inv.congr rfl
  frame := by
    have hu := h.frame
    unfold ReaderFrame at *
    rw [hf]
    conv_lhs => rw [hu]

/-! ## The payload walk (R119, R120) -/

theorem decFrom_leaf (root : CodeTree) {l r : CodeTree} {b : Bool} {sym : Byte} (h : (if b then r else l) = .leaf sym)
    (bs : List Bool) : root.decFrom (.internal l r) (b :: bs) = sym :: root.decFrom root bs := by
  rw [CodeTree.decFrom, h]

theorem decFrom_internal (root : CodeTree) {l r l' r' : CodeTree} {b : Bool}
    (h : (if b then r else l) = .internal l' r')
    (bs : List Bool) : root.decFrom (.internal l r) (b :: bs) = root.decFrom (.internal l' r') bs := by
  rw [CodeTree.decFrom, h]

theorem nodeAt_of_getElem? {nodes : List Node} {i : PoolIx} {n : Node} (h : nodes[i.toNat]? = some n) :
    nodeAt nodes i = n := by
  rw [nodeAt, List.getD_eq_getElem?_getD, h, Option.getD_some]

/-- The child that a payload bit leads to from an Internal node, and its tree. -/
theorem exists_child {nodes : List Node} {f : Nat} {i : PoolIx} {l r : CodeTree}
    (h : treeAt nodes f i = some (.internal l r)) (b : Bool) :
    ∃ n g, nodeAt nodes i = n ∧ n.kind = false ∧
      treeAt nodes g (if b then n.right else n.left) = some (if b then r else l) := by
  obtain ⟨g, rfl⟩ : ∃ g, f = g + 1 := ⟨f - 1, by cases f <;> simp [treeAt] at h ⊢⟩
  obtain ⟨n, hn, ⟨-, ht⟩ | ⟨hk, l', r', hl, hr, ht⟩⟩ := treeAt_succ.mp h
  · cases ht
  · cases ht
    exact ⟨n, g, nodeAt_of_getElem? hn, hk, by cases b <;> assumption⟩

theorem treeAt_leaf {nodes : List Node} {f : Nat} {i : PoolIx} {sym : Byte} (h : treeAt nodes f i = some (.leaf sym)) :
    (nodeAt nodes i).kind = true ∧ (nodeAt nodes i).sym = sym := by
  obtain ⟨g, rfl⟩ : ∃ g, f = g + 1 := ⟨f - 1, by cases f <;> simp [treeAt] at h ⊢⟩
  obtain ⟨n, hn, ⟨hk, ht⟩ | ⟨-, l', r', -, -, ht⟩⟩ := treeAt_succ.mp h
  · cases ht
    rw [nodeAt_of_getElem? hn]
    exact ⟨hk, rfl⟩
  · cases ht

theorem treeAt_internal_kind {nodes : List Node} {f : Nat} {i : PoolIx} {l r : CodeTree}
    (h : treeAt nodes f i = some (.internal l r)) : (nodeAt nodes i).kind = false := by
  obtain ⟨n, -, hn, hk, -⟩ := exists_child h true
  exact hn ▸ hk

/-- The walk from WALK emits what the bits decode to from the tree there. -/
theorem walkBits_decFrom {F f : Nat} {s : State} {L R l r : CodeTree} (bits : List Bool)
    (hroot : treeAt s.nodes F s.root = some (.internal L R)) (hwalk : treeAt s.nodes f s.walk = some (.internal l r)) :
    Emitted s (bits.foldl (fun t b => walkBit b t) s) ((CodeTree.internal L R).decFrom (.internal l r) bits) ∧
      OutputFrame s (bits.foldl (fun t b => walkBit b t) s) := by
  induction bits generalizing s f l r with
  | nil => exact ⟨by simpa [CodeTree.decFrom] using Emitted.refl s, rfl⟩
  | cons b bs ih =>
    obtain ⟨n, g, hn, -, hchild⟩ := exists_child hwalk b
    rw [List.foldl_cons]
    cases hc : (if b then r else l) with
    | leaf sym =>
      rw [hc] at hchild
      obtain ⟨hk, hsym⟩ := treeAt_leaf hchild
      have hstep : walkBit b s = { emit sym s with walk := s.root } := by
        simp only [walkBit, hn, hk, hsym, if_true]
      have hemit : Emitted s { emit sym s with walk := s.root } [sym] := (emitted_emit sym s).congr rfl rfl
      have hframe : OutputFrame s { emit sym s with walk := s.root } := rfl
      obtain ⟨he, hf⟩ := ih (s := { emit sym s with walk := s.root }) hroot hroot
      rw [hstep, decFrom_leaf _ hc]
      exact ⟨hemit.trans he, hframe.trans hf⟩
    | internal l' r' =>
      rw [hc] at hchild
      have hk := treeAt_internal_kind hchild
      have hstep : walkBit b s = { s with walk := if b then n.right else n.left } := by
        simp only [walkBit, hn, hk, Bool.false_eq_true, if_false]
      have hemit : Emitted s { s with walk := if b then n.right else n.left } [] := (Emitted.refl s).congr rfl rfl
      have hframe : OutputFrame s { s with walk := if b then n.right else n.left } := rfl
      obtain ⟨he, hf⟩ := ih (s := { s with walk := if b then n.right else n.left }) hroot hchild
      rw [hstep, decFrom_internal _ hc]
      exact ⟨hemit.trans he, hframe.trans hf⟩

/-! ## The records -/

/-- The trailer checks pass: a count of 0 to 5, and a cursor not beyond the end it marks (R118, R119). -/
theorem checkTrailer_of_le {s : State} {c : BitVec 3} (hlast : (s.src.read (s.srcLen.toNat - 1)).extractLsb' 0 3 = c)
    (hc : c.toNat ≤ 5) (hpos : s.pos ≤ endPos s c) :
    checkTrailer s = (some (endPos s c), noteRead (s.srcLen.toNat - 1) 1 s) := by
  simp only [checkTrailer, peekLast, hlast, Nat.not_lt.mpr hc, Nat.not_lt.mpr hpos, if_false]

theorem readTrailer_of_le {s : State} {c : BitVec 3} (hlast : (s.src.read (s.srcLen.toNat - 1)).extractLsb' 0 3 = c)
    (hc : c.toNat ≤ 5) (hpos : s.pos ≤ endPos s c) :
    readTrailer s = .next (noteRead (s.srcLen.toNat - 1) 1 s) := by
  simp only [readTrailer, checkTrailer_of_le hlast hc hpos]

section
variable {s : State} (hm : s.mode = .read)
include hm

theorem wireTrailerPacked_read (d : BitVec 5) {c : BitVec 3} (h0 : s.srcLen ≠ 0)
    (hlast : s.src.read (s.srcLen.toNat - 1) = d ++ c) (hc : c.toNat ≤ 5) (hpos : s.pos ≤ endPos s c) :
    exec (.wireTrailerPacked d c) s = .next (noteRead (s.srcLen.toNat - 1) 1 s) := by
  have hcount : (s.src.read (s.srcLen.toNat - 1)).extractLsb' 0 3 = c := by
    rw [hlast, BitVec.extractLsb'_append_eq_right]
  simp only [exec, execWireTrailerPacked, hm]
  rw [if_neg (not_or.mpr ⟨h0, not_not.mpr hlast⟩), readTrailer_of_le hcount hc hpos]

theorem wireTrailerZero_read {d : Byte} (hlen : 2 ≤ s.srcLen.toNat) (hd : s.src.read (s.srcLen.toNat - 2) = d)
    (hlast : s.src.read (s.srcLen.toNat - 1) = 0) (hpos : s.pos ≤ endPos s 0) :
    exec (.wireTrailerZero d) s = .next (noteRead (s.srcLen.toNat - 1) 1 s) := by
  have hcount : (s.src.read (s.srcLen.toNat - 1)).extractLsb' 0 3 = 0 := by
    rw [hlast]
    rfl
  simp only [exec, execWireTrailerZero, hm]
  rw [if_neg (not_or.mpr ⟨Nat.not_lt.mpr hlen, not_or.mpr ⟨not_not.mpr hd, not_not.mpr hlast⟩⟩),
    readTrailer_of_le hcount (by decide) hpos]

/-- A source that is the frame has its ten bytes (R61, R117). -/
theorem wireSingle_read (h : s.CursorInv) (m : BitVec 7) (sym : Byte) (count : Word64) (hpos : s.pos = 0)
    (hmark : s.mark = true) (hsrc : s.srcBits = frameBits s.params.countEndian m sym count) :
    ∃ t, exec (.wireSingle m sym count) s = .next t ∧ Emitted s t (List.replicate count.toNat sym) ∧
      Consumed { s with sink := t.sink, sinkLen := t.sinkLen, sinkWrites := t.sinkWrites } t 80 ∧ t.eof = s.eof := by
  have hlen : s.srcLen.toNat = 10 := by
    have hbits := congrArg List.length hsrc
    rw [length_srcBits, length_frameBits] at hbits
    omega
  have h0 : s.srcLen ≠ 0 := fun e => by simp [e] at hlen
  have hunread : s.unread = frameBits s.params.countEndian m sym count ++ [] := by
    rw [State.unread, hpos, List.drop_zero, hsrc, List.append_nil]
  obtain ⟨u, hu, hc, he⟩ := matchBits_append hm h hunread
  rw [length_frameBits] at hc
  obtain ⟨hf, hwalk⟩ := outputFrame_emitTimes sym count.toNat u
  refine ⟨emitTimes sym count.toNat u, ?_, ?_, ?_, ?_⟩
  · simp only [exec, execWireSingle, hm, hpos, h0, hmark, hlen, hu, ne_eq, not_true_eq_false, Bool.true_eq_false,
      or_self, if_false]
  · exact (emitted_emitTimes sym count.toNat u).congr hc.frame.memoryPart.symm rfl
  · have hw : s.walk = (emitTimes sym count.toNat u).walk := by
      rw [hwalk, hc.frame]
    have hout := hc.output hf
    rw [← hw] at hout
    exact hout
  · rw [hf]
    exact he

/-- A code whose bits end before END is walked from ROOT (R64, R119). -/
theorem wireCode_read (h : s.CursorInv) {l r : CodeTree} {k rest : List Bool} (hv : s.treeV = true)
    (ht : s.tree = some (.internal l r)) (hunread : s.unread = k ++ rest) (h0 : s.srcLen ≠ 0) {c : BitVec 3}
    (hlast : (s.src.read (s.srcLen.toNat - 1)).extractLsb' 0 3 = c) (hc : c.toNat ≤ 5)
    (hend : s.pos + k.length ≤ endPos s c) :
    ∃ t, exec (.wireCode k) s = .next t ∧ Emitted s t ((CodeTree.internal l r).dec k) ∧
      Consumed { s with
        sink := t.sink, sinkLen := t.sinkLen, sinkWrites := t.sinkWrites, walk := t.walk } t k.length ∧
      t.eof = s.eof := by
  have htrailer := checkTrailer_of_le hlast hc (by omega)
  have hnote := consumed_noteRead (s.srcLen.toNat - 1) 1 h
  obtain ⟨u, hu, hcons, he⟩ := matchBits_append (s := noteRead (s.srcLen.toNat - 1) 1 s) hm hnote.inv hunread
  have hread : Consumed s u k.length := Nat.zero_add k.length ▸ hnote.trans hcons
  have hnodes : u.nodes = s.nodes := by rw [hread.frame]
  have hroot : treeAt u.nodes (Config.depthMax + 1) s.root = some (.internal l r) := hnodes ▸ ht
  have hroot' : u.root = s.root := by rw [hread.frame]
  obtain ⟨hemit, hframe⟩ := walkBits_decFrom (s := { u with walk := s.root }) k (hroot' ▸ hroot) hroot
  have hwalk : OutputFrame u { u with walk := s.root } := rfl
  refine ⟨_, ?_, hemit.congr hread.frame.memoryPart.symm rfl, hread.output (hwalk.trans hframe), ?_⟩
  · simp only [exec, execWireCode, hm, hv, h0, treeAt_internal_kind ht, Bool.true_eq_false, Bool.false_eq_true, or_self,
      if_false, htrailer, Nat.not_lt.mpr hend, hu]
  · rw [hframe]
    exact he

end

end Sys2Proof.Machine

/-! PROOF. R63, R100: the node records of a tree, read in order (log entry 16). Each record adds one entry and links it
to the innermost Internal node that waits for a child; a subtree read from any such place stands at the end of the pool,
and the parent it is linked to is then one child further. -/

namespace Sys2Proof.Machine

/-! ## Links -/

/-- The Internal nodes that wait for a child (R63). -/
def State.pending (s : State) : List (Nat × Bool) := pendingNodes s.nodes 0 []

/-- The pool with entry `j` linked as the child that the innermost waiting node waits for (R100). -/
def linkNodes : List (Nat × Bool) → Nat → List Node → List Node
  | [], _, nodes => nodes
  | (p, false) :: _, j, nodes => nodes.modify p fun n => { n with left := BitVec.ofNat 9 j }
  | (p, true) :: _, j, nodes => nodes.modify p fun n => { n with right := BitVec.ofNat 9 j }

theorem linkChild_eq (j : Nat) (s : State) : linkChild j s = { s with nodes := linkNodes s.pending j s.nodes } := by
  unfold linkChild State.pending
  split
  all_goals
    rename_i hwaiting
    rw [hwaiting]
    rfl

@[simp] theorem length_linkNodes (waiting : List (Nat × Bool)) (j : Nat) (nodes : List Node) :
    (linkNodes waiting j nodes).length = nodes.length := by
  rcases waiting with _ | ⟨⟨p, _ | _⟩, waiting⟩ <;> simp [linkNodes]

theorem modify_concat_of_length {α : Type} {l : List α} {i : Nat} (h : l.length = i) (x : α) (f : α → α) :
    (l ++ [x]).modify i f = l ++ [f x] := h ▸ modify_concat_length l x f

theorem getElem?_concat_of_length {α : Type} {l : List α} {i : Nat} (h : l.length = i) (x : α) :
    (l ++ [x])[i]? = some x := h ▸ List.getElem?_concat_length

/-- Only the kinds of the entries say which nodes wait. -/
theorem pendingNodes_congr {ns ms : List Node} (h : ns.map Node.kind = ms.map Node.kind) (i : Nat)
    (waiting : List (Nat × Bool)) : pendingNodes ns i waiting = pendingNodes ms i waiting := by
  induction ns generalizing ms i waiting with
  | nil =>
    obtain rfl : ms = [] := List.map_eq_nil_iff.mp h.symm
    rfl
  | cons n ns ih =>
    obtain ⟨m, ms, rfl, hk, hks⟩ := List.map_eq_cons_iff.mp h.symm
    rw [pendingNodes, pendingNodes, hk]
    exact ih hks.symm _ _

theorem map_kind_linkNodes (waiting : List (Nat × Bool)) (j : Nat) (nodes : List Node) :
    (linkNodes waiting j nodes).map Node.kind = nodes.map Node.kind := by
  have key (p : Nat) (f : Node → Node) (hf : ∀ n, (f n).kind = n.kind) :
      (nodes.modify p f).map Node.kind = nodes.map Node.kind := by
    apply List.ext_getElem?
    intro i
    rw [List.getElem?_map, List.getElem?_map, List.getElem?_modify]
    cases nodes[i]? with
    | none => rfl
    | some n => by_cases hp : p = i <;> simp [hp, hf]
  rcases waiting with _ | ⟨⟨p, _ | _⟩, waiting⟩
  · rfl
  · exact key p _ fun _ => rfl
  · exact key p _ fun _ => rfl

theorem pendingNodes_concat (ns : List Node) (n : Node) (i : Nat) (waiting : List (Nat × Bool)) :
    pendingNodes (ns ++ [n]) i waiting =
      if n.kind then closeSubtree (pendingNodes ns i waiting)
      else (i + ns.length, false) :: pendingNodes ns i waiting := by
  induction ns generalizing i waiting with
  | nil => rfl
  | cons m ns ih =>
    rw [List.cons_append, pendingNodes, ih, pendingNodes, List.length_cons, Nat.add_right_comm, Nat.add_assoc]

/-! ## One record -/

/-- The state in which a record is read: without a tree's pool and its codes (R100). -/
def recordPool (s : State) : State := if s.treeV then dropTree s else { s with codeV := false }

theorem recordPool_of_noTree {s : State} (hv : s.treeV = false) (hc : s.codeV = false) : recordPool s = s := by
  rw [recordPool, if_neg (by simp [hv]), ← hc]

theorem recordPool_codeV (s : State) : (recordPool s).codeV = false := by
  unfold recordPool
  split <;> rfl

theorem recordPool_treeV (s : State) : (recordPool s).treeV = false := by
  unfold recordPool
  split
  · rfl
  case isFalse hv => exact Bool.eq_false_iff.mpr hv

theorem recordPool_unread (s : State) : (recordPool s).unread = s.unread := by
  unfold recordPool
  split <;> rfl

theorem recordPool_mode (s : State) : (recordPool s).mode = s.mode := by
  unfold recordPool
  split <;> rfl

theorem recordPool_cursorInv {s : State} (h : s.CursorInv) : (recordPool s).CursorInv := by
  unfold recordPool
  split <;> exact h.congr rfl

/-- A record's entry added to the pool after its bits are read (R100). -/
def recordAdded (fields : Node → Node) (s : State) : State :=
  completeTree (setNode s.nodes.length fields (allocNode (linkChild s.nodes.length s)))

theorem readNodeRecord_of_match {bits : List Bool} {fields : Node → Node} {s u : State}
    (hlen : (recordPool s).nodes.length < 511) (hu : matchBits bits (recordPool s) = some u) :
    readNodeRecord bits fields s = .next (recordAdded fields u) := by
  have hfull : ¬ Config.poolN ≤ (recordPool s).nodes.length := Nat.not_le.mpr hlen
  unfold readNodeRecord
  extract_lets pool
  have hpool : pool = recordPool s := rfl
  rw [hpool, if_neg hfull, hu]
  rfl

/-- The pool, its root and the two flags of the tree, taken from another state. -/
def State.withPool (s t : State) : State :=
  { s with nodes := t.nodes, root := t.root, treeV := t.treeV, codeV := t.codeV }

/-- Records of `n` bits have been read, after which the nodes in `waiting` wait for a child; when none does the tree is
complete (R63, R100). -/
structure RecordsRead (s t : State) (n : Nat) (waiting : List (Nat × Bool)) : Prop where
  consumed   : Consumed (s.withPool t) t n
  eof        : t.eof = s.eof
  codeV      : t.codeV = false
  pending    : t.pending = waiting
  complete   : waiting = [] → t.root = 0 ∧ t.treeV = true
  incomplete : waiting ≠ [] → t.treeV = false

theorem RecordsRead.trans {s t u : State} {m n : Nat} {ws vs : List (Nat × Bool)} (h : RecordsRead s t m ws)
    (k : RecordsRead t u n vs) : RecordsRead s u (m + n) vs where
  consumed :=
    { pos := by
        have hpos : u.pos = t.pos + n := k.consumed.pos
        have hpos' : t.pos = s.pos + m := h.consumed.pos
        rw [hpos, hpos', Nat.add_assoc]
        rfl
      inv := k.consumed.inv
      frame := by
        have hf := h.consumed.frame
        have kf := k.consumed.frame
        unfold ReaderFrame State.withPool at *
        rw [kf]
        conv_lhs => rw [hf] }
  eof := k.eof.trans h.eof
  codeV := k.codeV
  pending := k.pending
  complete := k.complete
  incomplete := k.incomplete

theorem RecordsRead.mode {s t : State} {n : Nat} {ws : List (Nat × Bool)} (h : RecordsRead s t n ws) :
    t.mode = s.mode := h.consumed.mode

theorem RecordsRead.unread {s t : State} {n : Nat} {ws : List (Nat × Bool)} (h : RecordsRead s t n ws) :
    t.unread = s.unread.drop n := h.consumed.unread

theorem completeTree_frame (s : State) :
    completeTree s = { s with root := (completeTree s).root, treeV := (completeTree s).treeV } := by
  unfold completeTree
  split <;> rfl

theorem recordAdded_nodes (fields : Node → Node) (s : State) :
    (recordAdded fields s).nodes =
      linkNodes s.pending s.nodes.length s.nodes ++ [fields (freeNode s.draw s.nodes.length)] := by
  rw [recordAdded, completeTree_frame, setNode_nodes, allocNode_nodes, linkChild_eq]
  rw [modify_concat_of_length (length_linkNodes _ _ _), length_linkNodes]

/-- What adding an entry may change: the pool, the root, the tree's flag. -/
def PoolFrame (s t : State) : Prop :=
  t = { s with nodes := t.nodes, root := t.root, treeV := t.treeV, draw := t.draw }

theorem poolFrame_recordAdded (fields : Node → Node) (s : State) : PoolFrame s (recordAdded fields s) := by
  rw [recordAdded, completeTree_frame, linkChild_eq]
  rfl

/-- An entry added after reading consumes no more bits. -/
theorem Consumed.addEntry {s u t : State} {n : Nat} (h : Consumed s u n) (hf : PoolFrame u t) :
    Consumed (s.withPool t) t n where
  pos := by
    rw [hf]
    exact h.pos
  inv := by
    rw [hf]
    exact h.inv.congr rfl
  frame := by
    have hu := h.frame
    unfold ReaderFrame State.withPool at *
    rw [hf, hu]

/-- The tree is complete when no node waits. -/
theorem recordAdded_flags (fields : Node → Node) {s : State} (hv : s.treeV = false) :
    ((recordAdded fields s).pending = [] → (recordAdded fields s).root = 0 ∧ (recordAdded fields s).treeV = true) ∧
      ((recordAdded fields s).pending ≠ [] → (recordAdded fields s).treeV = false) := by
  set x := setNode s.nodes.length fields (allocNode (linkChild s.nodes.length s)) with hx
  have hxv : x.treeV = false := by rwa [hx, linkChild_eq]
  have hadded : recordAdded fields s = completeTree x := rfl
  have hpending : (completeTree x).pending = pendingNodes x.nodes 0 [] := by rw [completeTree_frame]; rfl
  rw [hadded, hpending]
  constructor
  · intro h
    rw [completeTree, if_pos h]
    exact ⟨rfl, rfl⟩
  · intro h
    rw [completeTree, if_neg h]
    exact hxv

/-- One record read: its entry waits for its children, or closes the subtrees it completes (R63). -/
theorem recordsRead_recordAdded {fields : Node → Node} {s u : State} {n : Nat} {kind : Bool} (hv : s.treeV = false)
    (hc : s.codeV = false) (hu : Consumed s u n) (he : u.eof = s.eof) (hkind : ∀ m, (fields m).kind = kind) :
    RecordsRead s (recordAdded fields u) n
      (if kind then closeSubtree s.pending else (s.nodes.length, false) :: s.pending) := by
  have hnodes : u.nodes = s.nodes := by rw [hu.frame]
  have huv : u.treeV = false := hu.frame.treeV.trans hv
  have huc : u.codeV = false := by rw [hu.frame]; exact hc
  have hframe := poolFrame_recordAdded fields u
  have hpending : (recordAdded fields u).pending =
      if kind then closeSubtree s.pending else (s.nodes.length, false) :: s.pending := by
    rw [State.pending, recordAdded_nodes, pendingNodes_concat, hkind, length_linkNodes,
      pendingNodes_congr (map_kind_linkNodes _ _ _), State.pending, hnodes, Nat.zero_add]
  obtain ⟨hcomplete, hincomplete⟩ := recordAdded_flags fields huv
  rw [hpending] at hcomplete hincomplete
  refine ⟨hu.addEntry hframe, ?_, ?_, hpending, hcomplete, hincomplete⟩
  · rw [hframe]
    exact he
  · rw [hframe]
    exact huc

/-- The node record whose bits stand at the cursor is read. -/
theorem readNodeRecord_read {bits rest : List Bool} {fields : Node → Node} {s : State} {kind : Bool}
    (hm : s.mode = .read) (h : s.CursorInv) (hu : s.unread = bits ++ rest) (hlen : (recordPool s).nodes.length < 511)
    (hkind : ∀ m, (fields m).kind = kind) :
    ∃ t x, readNodeRecord bits fields s = .next t ∧
      RecordsRead (recordPool s) t bits.length (if kind then closeSubtree (recordPool s).pending
        else ((recordPool s).nodes.length, false) :: (recordPool s).pending) ∧
      t.nodes = linkNodes (recordPool s).pending (recordPool s).nodes.length (recordPool s).nodes ++ [fields x] := by
  obtain ⟨u, hmatch, hc, he⟩ := matchBits_append ((recordPool_mode s).trans hm) (recordPool_cursorInv h)
    ((recordPool_unread s).trans hu)
  have hnodes : u.nodes = (recordPool s).nodes := by rw [hc.frame]
  refine ⟨_, freeNode u.draw u.nodes.length, readNodeRecord_of_match hlen hmatch,
    recordsRead_recordAdded (recordPool_treeV s) (recordPool_codeV s) hc he hkind, ?_⟩
  rw [recordAdded_nodes, State.pending, hnodes]
  rfl

/-! ## The records of a tree -/

theorem runCommands_append {is js : List Instr} {s t : State} (h : runCommands is s = .next t) (hm : t.mode ≠ .fault) :
    runCommands (is ++ js) s = runCommands js t := by
  induction is generalizing s with
  | nil => cases h; rfl
  | cons i is ih =>
    obtain ⟨u, hu, ⟨hfault, rfl⟩ | ⟨hne, hrest⟩⟩ := andThen_next.mp h
    · exact absurd hfault hm
    · rw [List.cons_append, runCommands_cons hu hne, ih hrest]

/-- The records of a subtree have been read: it stands at the end of the pool in pre-order, its root linked to the node
that waited for it. -/
structure SubtreeRead (s t : State) (tr : CodeTree) : Prop where
  records : RecordsRead s t tr.ser.length (closeSubtree s.pending)
  length  : t.nodes.length = s.nodes.length + tr.size
  kept    : ∀ i < s.nodes.length, t.nodes[i]? = (linkNodes s.pending s.nodes.length s.nodes)[i]?
  spans   : Spans t.nodes (BitVec.ofNat 9 s.nodes.length) tr (List.range' s.nodes.length tr.size)

theorem SubtreeRead.leaf {s t : State} {n : Node} (hlen : s.nodes.length < 511)
    (hr : RecordsRead s t (CodeTree.leaf n.sym).ser.length (closeSubtree s.pending))
    (hn : t.nodes = linkNodes s.pending s.nodes.length s.nodes ++ [n]) (hk : n.kind = true) :
    SubtreeRead s t (.leaf n.sym) := by
  have hix : (BitVec.ofNat 9 s.nodes.length).toNat = s.nodes.length := Nat.mod_eq_of_lt (by omega)
  have hsp := Spans.leaf (nodes := t.nodes) (i := BitVec.ofNat 9 s.nodes.length) (n := n)
    (by rw [hix, hn, getElem?_concat_of_length (length_linkNodes _ _ _)]) hk
  rw [hix] at hsp
  refine ⟨hr, by simp [hn, CodeTree.size], fun i hi => ?_, hsp⟩
  rw [hn, List.getElem?_append_left (by simpa using hi)]

/-- An Internal record, then the records of its two subtrees. -/
theorem SubtreeRead.internal {s u v t : State} {n : Node} {l r : CodeTree} (hlen : s.nodes.length < 511)
    (hr : RecordsRead s u 1 ((s.nodes.length, false) :: s.pending))
    (hn : u.nodes = linkNodes s.pending s.nodes.length s.nodes ++ [n]) (hk : n.kind = false) (hl : SubtreeRead u v l)
    (ht : SubtreeRead v t r) : SubtreeRead s t (.internal l r) := by
  have hix : (BitVec.ofNat 9 s.nodes.length).toNat = s.nodes.length := Nat.mod_eq_of_lt (by omega)
  have hulen : u.nodes.length = s.nodes.length + 1 := by simp [hn]
  have hvlen := hl.length
  have htlen := ht.length
  have hvpending : v.pending = (s.nodes.length, true) :: s.pending := by
    rw [hl.records.pending, hr.pending]
    rfl
  -- the entry is linked to its left subtree by that subtree's first record, to its right subtree likewise
  have hv (i : Nat) (hi : i < u.nodes.length) : v.nodes[i]? =
      (u.nodes.modify s.nodes.length fun n => { n with left := BitVec.ofNat 9 u.nodes.length })[i]? := by
    rw [hl.kept i hi, hr.pending]
    rfl
  have ht' (i : Nat) (hi : i < v.nodes.length) : t.nodes[i]? =
      (v.nodes.modify s.nodes.length fun n => { n with right := BitVec.ofNat 9 v.nodes.length })[i]? := by
    rw [ht.kept i hi, hvpending]
    rfl
  have hentry : t.nodes[s.nodes.length]? =
      some { n with left := BitVec.ofNat 9 u.nodes.length, right := BitVec.ofNat 9 v.nodes.length } := by
    rw [ht' _ (by omega), List.getElem?_modify_eq, hv _ (by omega), List.getElem?_modify_eq, hn,
      getElem?_concat_of_length (length_linkNodes _ _ _)]
    rfl
  have hother (i : Nat) (hi : i < v.nodes.length) (hne : i ≠ s.nodes.length) : t.nodes[i]? = v.nodes[i]? := by
    rw [ht' i hi, List.getElem?_modify_ne _ _ hne.symm]
  have hsp := Spans.internal (i := BitVec.ofNat 9 s.nodes.length) ((congrArg _ hix).trans hentry) hk
    (hl.spans.congr fun i hi => by
      have := List.mem_range'_1.mp hi
      exact hother i (by omega) (by omega)) ht.spans
  refine ⟨?_, ?_, fun i hi => ?_, ?_⟩
  · have hrec := (hr.trans hl.records).trans ht.records
    rw [hvpending] at hrec
    have hbits : (CodeTree.internal l r).ser.length = 1 + l.ser.length + r.ser.length := by
      simp only [CodeTree.ser, List.length_cons, List.length_append]
      omega
    rw [hbits]
    exact hrec
  · simp only [CodeTree.size]
    omega
  · rw [hother i (by omega) (by omega), hv i (by omega), List.getElem?_modify_ne _ _ (by omega), hn,
      List.getElem?_append_left (by rwa [length_linkNodes])]
  · have hidx : List.range' s.nodes.length (1 + l.size + r.size) =
        s.nodes.length :: (List.range' u.nodes.length l.size ++ List.range' v.nodes.length r.size) := by
      rw [hvlen, hulen, List.range'_append_1, Nat.add_assoc, Nat.add_comm 1, List.range'_succ]
    rw [CodeTree.size, hidx]
    rwa [hix] at hsp

/-- The records of a tree that stands at the cursor are read, in any pool that has room for them. -/
theorem runCommands_records (tr : CodeTree) {s : State} {rest : List Bool} (hm : s.mode = .read) (h : s.CursorInv)
    (hu : s.unread = tr.ser ++ rest) (hlen : (recordPool s).nodes.length + tr.size ≤ 511) :
    ∃ t, runCommands tr.records s = .next t ∧ SubtreeRead (recordPool s) t tr := by
  induction tr generalizing s rest with
  | leaf sym =>
    simp only [CodeTree.size] at hlen
    obtain ⟨t, x, he, hr, hn⟩ := readNodeRecord_read (kind := true)
      (fields := fun n => { n with kind := true, sym := sym, freqP := false }) hm h hu (by omega) fun _ => rfl
    rw [if_pos rfl] at hr
    refine ⟨t, ?_, SubtreeRead.leaf (n := { x with kind := true, sym := sym, freqP := false }) (by omega) hr hn rfl⟩
    rw [CodeTree.records, runCommands_singleton]
    simp only [exec, execWireLeaf, hm]
    exact he
  | internal l r ihl ihr =>
    simp only [CodeTree.size] at hlen
    simp only [CodeTree.ser, List.cons_append, List.append_assoc] at hu
    obtain ⟨u, x, he, hr, hn⟩ := readNodeRecord_read (bits := [false]) (kind := false)
      (fields := fun n => { n with kind := false, freqP := false }) hm h hu (by omega) fun _ => rfl
    rw [if_neg Bool.false_ne_true] at hr
    have hexec : exec .wireInternal s = .next u := by simp only [exec, execWireInternal, hm, he]
    have hulen : u.nodes.length = (recordPool s).nodes.length + 1 := by simp [hn]
    have humode : u.mode = .read := hr.mode.trans ((recordPool_mode s).trans hm)
    have hupool := recordPool_of_noTree (hr.incomplete (by simp)) hr.codeV
    have huunread : u.unread = l.ser ++ (r.ser ++ rest) := by
      rw [hr.unread, recordPool_unread, hu]
      rfl
    obtain ⟨v, hv, hl⟩ := ihl humode hr.consumed.inv huunread (by rw [hupool]; omega)
    rw [hupool] at hl
    have hvlen := hl.length
    have hvmode : v.mode = .read := hl.records.mode.trans humode
    have hvpool := recordPool_of_noTree (hl.records.incomplete (by simp [hr.pending, closeSubtree])) hl.records.codeV
    have hvunread : v.unread = r.ser ++ rest := by
      rw [hl.records.unread, huunread, List.drop_left]
    obtain ⟨t, ht, hrt⟩ := ihr hvmode hl.records.consumed.inv hvunread (by rw [hvpool]; omega)
    rw [hvpool] at hrt
    refine ⟨t, ?_, .internal (by omega) hr hn rfl hl hrt⟩
    rw [CodeTree.records, runCommands_cons hexec (by simp [humode]), runCommands_append hv (by simp [hvmode]), ht]

/-- The tree that the records of a whole tree leave is the one TDES leaves (R100). -/
theorem wireNodes_read {tr : CodeTree} {s : State} {rest : List Bool} (hm : s.mode = .read) (h : s.CursorInv)
    (hu : s.unread = tr.ser ++ rest) (hsize : tr.size ≤ 511) (hpool : s.treeV = true ∨ s.nodes = []) :
    ∃ t, runCommands tr.records s = .next t ∧ t.tree = some tr ∧
      Consumed { s with nodes := t.nodes, root := 0, treeV := true, codeV := false } t tr.ser.length ∧
      t.eof = s.eof := by
  have hdrop : recordPool s = dropTree s := by
    rcases hpool with hv | hnil
    · exact if_pos hv
    · unfold recordPool
      split
      · rfl
      case isFalse hv => rw [dropTree, ← hnil, ← Bool.eq_false_iff.mpr hv]
  have hnil : (recordPool s).nodes = [] := by
    rw [hdrop]
    rfl
  have hpending : (recordPool s).pending = [] := by
    rw [State.pending, hnil]
    rfl
  obtain ⟨t, ht, hrecords, hlength, -, hspans⟩ := runCommands_records tr hm h hu (by rw [hnil]; simpa using hsize)
  rw [hpending] at hrecords
  rw [hnil] at hlength hspans
  obtain ⟨hroot, hv⟩ := hrecords.complete rfl
  refine ⟨t, ht, ?_, ?_, ?_⟩
  · have hdepth := hspans.depth_lt
    rw [List.length_range'] at hdepth
    rw [State.tree, hroot]
    exact (hspans.read (by simp only [Config.depthMax]; omega)).1
  · have hc := hrecords.consumed
    rw [hdrop, State.withPool, hroot, hv, hrecords.codeV] at hc
    exact hc
  · rw [hrecords.eof, hdrop]
    rfl

/-- Settles O54: each record read, by the bits that stand at the cursor. -/
theorem wireRecordsAreRead : Obligations.WireRecordsAreRead := by
  intro s hm h
  refine ⟨fun tr rest hu hsize hpool => wireNodes_read hm h hu hsize hpool, ?_, ?_, ?_, ?_⟩
  · intro l r k rest hv ht hu h0 last c hc hend
    exact wireCode_read hm h hv ht hu h0 rfl hc hend
  · exact fun m sym count hpos hmark hsrc => wireSingle_read hm h m sym count hpos hmark hsrc
  · exact fun d c h0 hlast hc hpos => wireTrailerPacked_read hm d h0 hlast hc hpos
  · exact fun d hlen hd hlast hpos => wireTrailerZero_read hm hlen hd hlast hpos

end Sys2Proof.Machine

/-! PROOF. R75 to R82: the writer's commands. Each command of an open session is a run of WriteBits; WFLUSH writes the
bytes that hold the bits before the cursor, which with the session's transfers are all its bits, packed. -/

namespace Sys2Proof.Machine

/-! ## Words with an operand in IMM (R54, R55) -/

theorem cmdWord_eq_or (opc imm : Byte) : cmdWord opc imm = (opc.setWidth 16 <<< 8) ||| imm.setWidth 16 := by
  rw [cmdWord, BitVec.append_def, BitVec.shiftLeftZeroExtend_eq, BitVec.setWidth'_eq]

theorem decode_wbits_word (n : BitVec 7) : decode (.word (0x1200 ||| n.setWidth 16)) = .ok (.wbits n) := by
  have hword : cmdWord 0x12 (n.setWidth 8) = 0x1200 ||| n.setWidth 16 := by
    rw [cmdWord_eq_or, BitVec.setWidth_setWidth (by decide)]
    rfl
  exact hword ▸ decodeCmd_wbits n

theorem decode_wbyte_word (v : Byte) : decode (.word (0x1300 ||| v.setWidth 16)) = .ok (.wbyte v) := by
  have hword : cmdWord 0x13 v = 0x1300 ||| v.setWidth 16 := cmdWord_eq_or 0x13 v
  exact hword ▸ decodeCmd_wbyte v

/-! ## WOPEN (R77) -/

theorem raised_raise (e : ErrKind) (s : State) : Raised e s (raise e s) :=
  ⟨rfl, rfl, (closed_release s).congr rfl, rfl⟩

theorem allocOk_iff (s : State) : s.allocOk = true ↔ s.allocBufOk = true ∧ s.allocPoolOk = true :=
  Bool.and_eq_true_iff

theorem allocOk_false_iff (s : State) : s.allocOk = false ↔ s.allocBufOk = false ∨ s.allocPoolOk = false :=
  Bool.and_eq_false_iff

/-- Settles O1: refused outside IDLE; in IDLE the allocation inputs decide between the error and the session. -/
theorem wopenOpensWriteSession : Obligations.WopenOpensWriteSession := by
  refine ⟨rfl, fun s => ⟨fun hm => if_pos hm, fun hm ha => ?_, fun hm hb hp => ?_⟩⟩
  · exact ⟨_, exec_wopen_unallocated hm ((allocOk_false_iff s).mpr ha), raised_raise .allocation s⟩
  · exact exec_wopen hm ((allocOk_iff s).mpr ⟨hb, hp⟩)

/-! ## WriteBit (R76) -/

theorem bufBits_writeBit_of_lt (b : Bool) {s : State} (h : s.bitPlace + 1 < 8 * s.params.bufSize) :
    (writeBit b s).bufBits = s.bufBits.set s.bitPlace b ∧ (writeBit b s).sink = s.sink := by
  rw [writeBit_of_lt b h]
  exact ⟨flatMap_bits_modify s.buf s.curByte s.curBit b, rfl⟩

theorem sinkBytes_writeBit_of_last (b : Bool) {s : State} (h : s.bitPlace + 1 = 8 * s.params.bufSize)
    (hl : s.buf.length = s.params.bufSize) : (writeBit b s).sinkBytes.flatMap bitsMsb =
      s.sinkBytes.flatMap bitsMsb ++ s.bufBits.set s.bitPlace b := by
  have hsink : (writeBit b s).sinkBytes = s.sinkBytes ++ s.buf.modify s.curByte (putBit s.curBit b) := by
    rw [writeBit_of_last b h hl]
    exact sinkBytes_memWrite _ s
  rw [hsink, List.flatMap_append, flatMap_bits_modify]
  rfl

/-- Settles O2: the two forms of WriteBit's step, inside BUF and at its last bit. -/
theorem writeBitSetsOneBitAndAdvances : Obligations.WriteBitSetsOneBitAndAdvances := by
  intro s hm h
  have hl := h.buf_length
  refine ⟨fun b => appended_writeBit b hm h, fun b hlt => bufBits_writeBit_of_lt b hlt, fun b hlast => ?_,
    fun v h0 => writeByte_eq_writeBits v h0⟩
  have hstep := writeBit_of_last b hlast hl
  have hwrites : (writeBit b s).sinkWrites = s.sinkWrites ++ [s.params.bufSize] := by
    rw [hstep]
    simp [hl]
  exact ⟨by rw [hstep], by rw [hstep], by rw [hstep], hwrites, sinkBytes_writeBit_of_last b hlast hl⟩

/-! ## WBIT, WBITS, WBYTE (R78 to R80) -/

/-- Settles O3: WBIT is one WriteBit. -/
theorem wbitAppendsItsBit : Obligations.WbitAppendsItsBit :=
  ⟨rfl, rfl, fun b _ => ⟨fun hm => if_pos hm, fun hm h => ⟨_, exec_wbit hm b, appended_writeBit b hm h⟩⟩⟩

/-- Settles O4: WBITS is the run of WriteBits of the top bits of ARG0. -/
theorem wbitsAppendsTheTopBits : Obligations.WbitsAppendsTheTopBits := by
  refine ⟨decode_wbits_word, fun n s => ⟨fun hrefused => if_pos hrefused, ?_, fun hm hn h => ?_⟩⟩
  · rintro hm rfl
    exact exec_wbits hm (Nat.zero_le 64)
  · rw [← topBits_eq_map s.arg0 hn]
    refine ⟨_, exec_wbits hm hn, appended_writeBits _ hm h, ?_⟩
    rintro rfl
    rw [writeBits_curBit, topBits, List.length_map, List.length_range]
    exact BitVec.add_zero s.curBit

theorem writeByte_curBit (v : Byte) (s : State) : (writeByte v s).curBit = s.curBit := nextByte_curBit _

/-- Settles O5: WBYTE is the eight WriteBits of its byte. -/
theorem wbyteAppendsItsByte : Obligations.WbyteAppendsItsByte := by
  refine ⟨decode_wbyte_word, fun v s => ⟨fun hrefused => if_pos hrefused, fun hm h0 h => ?_⟩⟩
  exact ⟨_, exec_wbyte hm h0 v, appended_writeByte v hm h h0, (writeByte_curBit v s).trans h0⟩

/-! ## The end of a session (R81) -/

theorem exec_wflush {s : State} (hm : s.mode = .write) : exec .wflush s = .next (closeSession (flushBuf s)) :=
  if_neg (not_not.mpr hm)

/-- WFLUSH writes the bytes that hold the bits before the cursor. -/
theorem flushLen_eq (s : State) : flushLen s = (s.bitPlace + 7) / 8 := by
  have hk := s.curBit.isLt
  unfold flushLen State.bitPlace
  by_cases h0 : s.curBit = 0
  · rw [h0]
    simp
    omega
  · have hpos : s.curBit.toNat ≠ 0 := fun e => h0 (BitVec.eq_of_toNat_eq e)
    rw [if_pos h0]
    omega

theorem flushLen_eq_zero_iff (s : State) : flushLen s = 0 ↔ s.bitPlace = 0 := by
  rw [flushLen_eq]
  omega

theorem flushLen_le {s : State} (hm : s.mode = .write) (h : s.CursorInv) : flushLen s ≤ s.buf.length := by
  have hlt := bitPlace_lt hm h
  have hl := h.buf_length
  rw [flushLen_eq]
  omega

theorem flushBuf_of_empty {s : State} (h : flushLen s = 0) : flushBuf s = s := if_neg (by omega)

theorem flushBuf_of_pos {s : State} (h : flushLen s ≠ 0) : flushBuf s = memWrite (s.buf.take (flushLen s)) s :=
  if_pos (Nat.pos_of_ne_zero h)

theorem flushBuf_writerFrame (s : State) : WriterFrame s (flushBuf s) := by
  by_cases h : flushLen s = 0
  · rw [flushBuf_of_empty h]
    exact .refl s
  · rw [flushBuf_of_pos h]
    exact ⟨storesAtEnd_memWrite _ s, rfl⟩

theorem sessionEnded_closeSession (s : State) : SessionEnded s (closeSession s) :=
  ⟨rfl, (closed_release s).congr rfl, .refl s, rfl⟩

/-- What the writer does before the end belongs to the session. -/
theorem SessionEnded.of_writerFrame {s u t : State} (h : SessionEnded u t) (k : WriterFrame s u) :
    SessionEnded s t where
  mode := h.mode
  closed := h.closed
  stores := k.1.trans h.stores
  frame := by
    rw [h.frame]
    conv_lhs => rw [k.2]

/-- Opening the session belongs to it. -/
theorem SessionEnded.of_writeOpened {s t : State} (h : SessionEnded (writeOpened s) t) : SessionEnded s t :=
  ⟨h.mode, h.closed, h.stores, h.frame⟩

/-- The write session has ended with its final write (R81). -/
structure Flushed (s t : State) : Prop where
  ended   : SessionEnded s t
  bytes   : t.sinkBytes = s.sinkBytes ++ s.buf.take (flushLen s)
  sinkLen : t.sinkLen = s.sinkLen + flushLen s
  writes  : t.sinkWrites = s.sinkWrites ++ if flushLen s = 0 then [] else [flushLen s]
  reads   : t.srcReads = s.srcReads

theorem flushed_closeSession {s : State} (hm : s.mode = .write) (h : s.CursorInv) :
    Flushed s (closeSession (flushBuf s)) := by
  have hended := (sessionEnded_closeSession (flushBuf s)).of_writerFrame (flushBuf_writerFrame s)
  by_cases h0 : flushLen s = 0
  · rw [flushBuf_of_empty h0] at hended ⊢
    have hnone : s.sinkBytes = s.sinkBytes ++ s.buf.take (flushLen s) := by simp [h0]
    exact ⟨hended, hnone, by simp [h0], by simp [h0], rfl⟩
  · have hlen : (s.buf.take (flushLen s)).length = flushLen s := List.length_take_of_le (flushLen_le hm h)
    rw [flushBuf_of_pos h0] at hended ⊢
    exact ⟨hended, sinkBytes_memWrite _ s, by simp [hlen], by simp [hlen, h0], rfl⟩

/-- Settles O6: the number of bytes that WFLUSH writes is `flushLen`. -/
theorem wflushWritesTheRestAndCloses : Obligations.WflushWritesTheRestAndCloses := by
  refine ⟨rfl, fun s => ⟨fun hm => if_pos hm, fun hm h => ?_⟩⟩
  intro k
  have hk : flushLen s = k := congrArg (s.curByte + ·) (ite_not ..)
  obtain ⟨hended, hbytes, hlen, hwrites, hreads⟩ := flushed_closeSession hm h
  rw [hk] at hbytes hlen hwrites
  exact ⟨_, exec_wflush hm, hended, hbytes, hlen, hwrites, hreads⟩

/-! ## Bits and the bytes that hold them (R45, R82) -/

theorem flatMap_take_bitsMsb {vs : List Byte} {n : Nat} (hn : n ≤ vs.length) :
    (vs.take n).flatMap bitsMsb = (vs.flatMap bitsMsb).take (8 * n) := by
  conv_rhs => rw [← List.take_append_drop n vs, List.flatMap_append]
  rw [List.take_left' (by rw [length_flatMap_bitsMsb, List.length_take_of_le hn])]

/-- The final write holds the bits of BUF before the cursor, and zeros after them. -/
theorem flatMap_take_flushLen {s : State} (hm : s.mode = .write) (h : s.CursorInv) :
    (s.buf.take (flushLen s)).flatMap bitsMsb =
      s.bufBits.take s.bitPlace ++ List.replicate (8 * flushLen s - s.bitPlace) false := by
  have hle := flushLen_le hm h
  have hk := flushLen_eq s
  have hzeros : (s.bufBits.drop s.bitPlace).take (8 * flushLen s - s.bitPlace) =
      List.replicate (8 * flushLen s - s.bitPlace) false := by
    rw [List.eq_replicate_iff]
    refine ⟨?_, fun b hb => h.write_zeros hm b (List.mem_of_mem_take hb)⟩
    rw [List.length_take, List.length_drop, bufBits_length]
    omega
  rw [flatMap_take_bitsMsb hle, ← hzeros, ← List.take_add, State.bufBits]
  congr 1
  omega

/-- The bits of the packed bytes are the bits, with zeros up to the next whole byte. -/
theorem flatMap_packBits_zeros (bits : List Bool) : (packBits bits).flatMap bitsMsb =
    bits ++ List.replicate (8 * ((bits.length + 7) / 8) - bits.length) false := by
  set n := (bits.length + 7) / 8 with hn
  set zeros := List.replicate (8 * n - bits.length) false with hz
  have hbytes : packBits bits = (List.range n).map (byteOfBits (bits ++ zeros)) := by
    refine List.map_congr_left fun j hj => ?_
    have hj : j < n := List.mem_range.mp hj
    rw [byteOfBits, List.drop_append_of_le_length (by omega), List.take_append, List.take_append, List.take_take,
      min_self, hz, List.take_replicate, List.take_replicate]
    congr 3
    simp only [List.length_take, List.length_drop]
    omega
  rw [hbytes, flatMap_byteOfBits (by simp [hz]; omega)]

theorem length_packBits_eq (bits : List Bool) : (packBits bits).length = (bits.length + 7) / 8 := by
  simp [packBits]

theorem getElem?_append_replicate {α : Type} (l : List α) (x : α) {n p : Nat} (hp : p < l.length + n) :
    (l ++ List.replicate n x)[p]? = some (l.getD p x) := by
  rcases Nat.lt_or_ge p l.length with h | h
  · rw [List.getElem?_append_left h, List.getD_eq_getElem l x h, List.getElem?_eq_getElem h]
  · rw [List.getElem?_append_right h, List.getElem?_replicate_of_lt (by omega), List.getD_eq_default l x h]

/-- The packed bytes have the bits at their places, and zeros at the places beyond. -/
theorem packBits_getElem? (bits : List Bool) {p : Nat} (hp : p < 8 * ((bits.length + 7) / 8)) :
    ((packBits bits).flatMap bitsMsb)[p]? = some (bits.getD p false) := by
  rw [flatMap_packBits_zeros, getElem?_append_replicate _ _ (by omega)]

/-! ## A session of WBIT and WBYTE (R82) -/

/-- An item at its place is accepted, appends its bits, and leaves the places of the items after it aligned. -/
theorem exec_itemCommand {x : WriteItem} {xs : List WriteItem} {n : Nat} {s : State} (hm : s.mode = .write)
    (h : s.CursorInv) (hn : n % 8 = s.curBit.toNat) (hal : bytesAligned n (x :: xs) = true) :
    ∃ t, exec (itemCommand x) s = .next t ∧ Appended s t (itemBits x) ∧
      bytesAligned (n + (itemBits x).length) xs = true := by
  cases x with
  | inl b => exact ⟨_, exec_wbit hm b, appended_writeBit b hm h, hal⟩
  | inr v =>
    obtain ⟨h8, hrest⟩ := Bool.and_eq_true_iff.mp hal
    have h0 : s.curBit = 0 := BitVec.eq_of_toNat_eq (hn.symm.trans (beq_iff_eq.mp h8))
    exact ⟨_, exec_wbyte hm h0 v, appended_writeByte v hm h h0, hrest⟩

/-- The items' commands append the items' bits, when no byte item is refused. -/
theorem runCommands_items (items : List WriteItem) {n : Nat} {s : State} (hm : s.mode = .write) (h : s.CursorInv)
    (hn : n % 8 = s.curBit.toNat) (hal : bytesAligned n items = true) :
    ∃ t, runCommands (items.map itemCommand) s = .next t ∧ Appended s t (items.flatMap itemBits) := by
  induction items generalizing n s with
  | nil => exact ⟨s, rfl, .nil hm h⟩
  | cons x xs ih =>
    obtain ⟨u, hu, happ, hrest⟩ := exec_itemCommand hm h hn hal
    have humode : u.mode = .write := happ.mode.trans hm
    obtain ⟨t, ht, happ'⟩ := ih humode happ.inv (by rw [happ.curBit, ← hn, Nat.mod_add_mod]) hrest
    refine ⟨t, ?_, happ.trans happ'⟩
    rw [List.map_cons, runCommands_cons hu (by simp [humode]), ht]

/-- What a session has transferred and flushed, after appending `bits` at the start of BUF, is its bits packed. -/
theorem sinkBytes_packed {s u t : State} {bits : List Bool} (hm : u.mode = .write) (h0 : s.bitPlace = 0)
    (happ : Appended s u bits) (hfl : Flushed u t) : t.sinkBytes = s.sinkBytes ++ packBits bits := by
  have hstream : u.sinkBytes.flatMap bitsMsb ++ u.bufBits.take u.bitPlace =
      s.sinkBytes.flatMap bitsMsb ++ bits := by
    have happend := happ.stream
    rwa [State.streamBits, State.streamBits, h0, List.take_zero, List.append_nil] at happend
  have hplace : u.bitPlace = bits.length % (8 * s.params.bufSize) := by
    rw [happ.cursor, h0, Nat.zero_add]
  have hpad : 8 * flushLen u - u.bitPlace = 8 * ((bits.length + 7) / 8) - bits.length := by
    have hdiv := Nat.mod_add_div bits.length (8 * s.params.bufSize)
    rw [← hplace, Nat.mul_assoc] at hdiv
    have hk := flushLen_eq u
    omega
  apply flatMap_bitsMsb_injective
  rw [hfl.bytes, List.flatMap_append, flatMap_take_flushLen hm happ.inv, ← List.append_assoc, hstream, hpad,
    List.append_assoc, ← flatMap_packBits_zeros, ← List.flatMap_append]

/-- Settles O7: WOPEN empties BUF, the items are appended, and WFLUSH writes what the transfers left. -/
theorem writeSessionProducesThePackedBits : Obligations.WriteSessionProducesThePackedBits := by
  intro s items hm ha hB hal bits m r
  obtain ⟨hwrite, hinv, h0, -, -⟩ := cursorInv_wopen (exec_wopen hm ha) hm ha hB
  obtain ⟨u, hu, happ⟩ := runCommands_items items hwrite hinv rfl hal
  have humode : u.mode = .write := happ.mode.trans hwrite
  have hfl := flushed_closeSession humode happ.inv
  have hplace : u.bitPlace = r := by
    rw [happ.cursor, h0, Nat.zero_add]
    rfl
  have hbytes : _ = s.sinkBytes ++ packBits bits := sinkBytes_packed (s := writeOpened s) humode h0 happ hfl
  refine ⟨_, ?_, (hfl.ended.of_writerFrame happ.frame).of_writeOpened, hbytes, length_packBits_eq bits,
    fun p => packBits_getElem? bits, ?_⟩
  · rw [List.cons_append, runCommands_cons (exec_wopen hm ha) (writeOpened_ne_fault s),
      runCommands_append hu (by simp [humode]), runCommands_singleton, exec_wflush humode]
  · rw [hfl.writes, happ.writes, h0, Nat.zero_add]
    simp only [flushLen_eq_zero_iff, hplace]
    rw [flushLen_eq, hplace]
    rfl

end Sys2Proof.Machine

/-! PROOF. R83 to R89: the reader's commands. Refill moves the window of BUF to the next source bytes; a session of
RBITs refills only when its next bit lies beyond the window, so it fetches the source's buffers in order, each once. -/

namespace Sys2Proof.Machine

/-! ## Refill (R84) -/

/-- RD_BASE moves on by BUF_LEN; it never passes SRC_LEN, so the sum does not wrap. -/
theorem rdBase_refill {s : State} (hm : s.mode = .read) (h : s.CursorInv) :
    (refill s).rdBase.toNat = s.rdBase.toNat + s.bufLen := by
  obtain ⟨hle, hlen, -⟩ := h.read_window hm
  have hsrc := s.srcLen.isLt
  show (s.rdBase + BitVec.ofNat 64 s.bufLen).toNat = _
  rw [BitVec.toNat_add, BitVec.toNat_ofNat, Nat.add_mod_mod, Nat.mod_eq_of_lt (by omega)]

theorem bufLen_refill (s : State) :
    (refill s).bufLen = min s.params.bufSize (s.srcLen.toNat - (refill s).rdBase.toNat) := rfl

theorem srcReads_refill (s : State) : (refill s).srcReads = s.srcReads ++
    (if (refill s).bufLen = 0 then [] else [((refill s).rdBase.toNat, (refill s).bufLen)]) := rfl

/-- At an exhausted buffer POS is the end of its window. -/
theorem pos_of_exhausted {s : State} (hm : s.mode = .read) (h : s.CursorInv) (he : s.curByte = s.bufLen) :
    s.pos = 8 * (s.rdBase.toNat + s.bufLen) := by
  rw [State.pos, curBit_of_exhausted hm h he, he]
  rfl

/-- An exhausted buffer of no byte is one at the end of the source, and Refill leaves it so. -/
theorem refill_of_bufLen_zero {s : State} (hm : s.mode = .read) (h : s.CursorInv) (h0 : s.bufLen = 0) :
    (refill s).rdBase = s.rdBase ∧ (refill s).bufLen = 0 := by
  have hbase : (refill s).rdBase = s.rdBase := BitVec.eq_of_toNat_eq (by rw [rdBase_refill hm h, h0, Nat.add_zero])
  have hwindow := (h.read_window hm).2.1
  exact ⟨hbase, by rw [bufLen_refill, hbase, ← hwindow, h0]⟩

/-- Settles O8: RD_BASE moves on by BUF_LEN, and the load reads what is left from there. -/
theorem refillLoadsTheNextBytes : Obligations.RefillLoadsTheNextBytes := by
  intro s hm h he _
  have hpos : (refill s).pos = s.pos := by
    rw [pos_of_exhausted hm h he, ← rdBase_refill hm h]
    rfl
  exact ⟨rdBase_refill hm h, bufLen_refill s, take_buf_loadBuf _ _ s, rfl, rfl, hpos, srcReads_refill s,
    refill_of_bufLen_zero hm h, rfl, rfl⟩

/-! ## ReadBit (R85) -/

/-- Settles O9: POS stays within the source, and ReadBit delivers the bit there or meets the end. -/
theorem readBitDeliversTheNextSourceBit : Obligations.ReadBitDeliversTheNextSourceBit := by
  refine fun s hm h => ⟨pos_le hm h, fun hp => ?_, readBit_of_end hm h⟩
  obtain ⟨t, ht, hc, heof, hinside⟩ := readBit_of_lt hm h hp
  exact ⟨_, t, ht, rfl, hc, heof, hinside⟩

/-! ## ROPEN (R86) -/

theorem markOf_eq (s : State) : markOf s = if s.srcLen = 0 then false else (s.src.read 0).getLsbD 7 := by
  split
  case isTrue h => simp [markOf, h]
  case isFalse h => exact markOf_of_srcLen h

theorem readOpened_eq (s : State) : readOpened s = { s with
    buf := (readOpened s).buf, draw := (readOpened s).draw
    srcReads := s.srcReads ++
      (if min s.params.bufSize s.srcLen.toNat = 0 then [] else [(0, min s.params.bufSize s.srcLen.toNat)])
    freqV := false, treeV := false, codeV := false, eof := false
    leafCount := 0, nodes := [], root := 0, wl := [], walk := 0
    rdBase := 0, curByte := 0, curBit := 0, bufLen := min s.params.bufSize s.srcLen.toNat
    mark := if s.srcLen = 0 then false else (s.src.read 0).getLsbD 7
    mode := .read } := by
  rw [← markOf_eq]
  rfl

/-- Settles O10: refused outside IDLE; in IDLE the allocation inputs decide between the error and the session. -/
theorem ropenLoadsTheFirstBuffer : Obligations.RopenLoadsTheFirstBuffer := by
  refine ⟨rfl, fun s => ⟨fun hm => if_pos hm, fun hm ha => ?_, fun hm hb hp => ?_⟩⟩
  · exact ⟨_, exec_ropen_unallocated hm ((allocOk_false_iff s).mpr ha), raised_raise .allocation s⟩
  · exact ⟨readOpened s, exec_ropen hm ((allocOk_iff s).mpr ⟨hb, hp⟩), take_buf_loadBuf 0 _ (clearSession s),
      length_buf_loadBuf 0 (clearSession s) (Nat.min_le_left _ _), readOpened_eq s⟩

/-! ## RBIT (R87) -/

theorem exec_rbit_of_some {s t : State} {b : Bool} (hm : s.mode = .read) (h : readBit s = (some b, t)) :
    exec .rbit s = .next { t with res := if b then 1 else 0 } := by
  have hres : (BitVec.ofBool b).setWidth 64 = if b then 1 else 0 := by cases b <;> rfl
  simp only [exec, execRbit, hm, ne_eq, not_true_eq_false, if_false, h, hres]

theorem exec_rbit_of_none {s t : State} (hm : s.mode = .read) (h : readBit s = (none, t)) :
    exec .rbit s = .next { t with res := 0 } := by
  simp only [exec, execRbit, hm, ne_eq, not_true_eq_false, if_false, h]

/-- The reader does not look at RES. -/
theorem Consumed.setRes {s t : State} {n : Nat} (h : Consumed s t n) (v : Word64) :
    Consumed { s with res := v } { t with res := v } n :=
  ⟨h.pos, h.inv.congr rfl, by
    unfold ReaderFrame
    conv_lhs => rw [h.frame]⟩

/-- Settles O11: RBIT is one ReadBit, whose answer goes into RES. -/
theorem rbitReadsOneBitIntoRes : Obligations.RbitReadsOneBitIntoRes := by
  refine ⟨rfl, fun s => ⟨fun hm => if_pos hm, fun hm h hp => ?_, fun hm h hp => ?_⟩⟩
  · obtain ⟨t, ht, hc, heof, -⟩ := readBit_of_lt hm h hp
    exact ⟨_, exec_rbit_of_some hm ht, rfl, hc.setRes _, heof⟩
  · obtain ⟨t, ht, heof, hc, -⟩ := readBit_of_end hm h hp
    exact ⟨_, exec_rbit_of_none hm ht, rfl, heof, hc.setRes 0⟩

/-! ## RCLOSE (R88) -/

/-- Settles O12: RCLOSE is Release and MODE IDLE. -/
theorem rcloseEndsTheSession : Obligations.RcloseEndsTheSession :=
  ⟨rfl, fun s => ⟨fun hm => if_pos hm, fun hm =>
    ⟨closeSession s, if_neg (not_not.mpr hm), sessionEnded_closeSession s, rfl, rfl, rfl, rfl⟩⟩⟩

/-! ## The fetches of a read session (R89) -/

theorem bufferReads_succ (B len k : Nat) :
    bufferReads B len (k + 1) = bufferReads B len k ++ [(k * B, min B (len - k * B))] := by
  simp [bufferReads, List.range_succ]

/-- After the noted reads `before`, the source has been fetched in its first `k` buffer reads; POS lies in the window of
the last of them or at its end. -/
structure Fetched (before : List (Nat × Nat)) (s : State) (k : Nat) : Prop where
  reads : s.srcReads = before ++ bufferReads s.params.bufSize s.srcLen.toNat k
  empty : k = 0 ↔ s.srcLen.toNat = 0
  base  : s.pos < 8 * s.srcLen.toNat → s.rdBase.toNat + s.params.bufSize = k * s.params.bufSize
  lower : 1 < k → 8 * (k * s.params.bufSize) < s.pos + 8 * s.params.bufSize
  upper : s.pos ≤ 8 * (k * s.params.bufSize)

section
variable {before : List (Nat × Nat)} {s : State} {k : Nat}

theorem Fetched.setRes (hf : Fetched before s k) (v : Word64) : Fetched before { s with res := v } k :=
  ⟨hf.reads, hf.empty, hf.base, hf.lower, hf.upper⟩

/-- The number of fetches is the number of buffers that the bits up to POS touch, and at least the one of ROPEN. -/
theorem Fetched.count (hf : Fetched before s k) (hB : 1 ≤ s.params.bufSize) :
    k = if s.srcLen.toNat = 0 then 0
      else max 1 ((s.pos + 8 * s.params.bufSize - 1) / (8 * s.params.bufSize)) := by
  obtain ⟨-, hempty, -, hlower, hupper⟩ := hf
  split
  case isTrue h0 => exact hempty.mpr h0
  case isFalse h0 =>
    have hk : 1 ≤ k := Nat.one_le_iff_ne_zero.mpr (mt hempty.mp h0)
    have hle : (s.pos + 8 * s.params.bufSize - 1) / (8 * s.params.bufSize) ≤ k := by
      refine Nat.lt_succ_iff.mp (Nat.div_lt_of_lt_mul ?_)
      rw [Nat.mul_succ, Nat.mul_assoc, Nat.mul_comm s.params.bufSize k]
      omega
    rcases hk.eq_or_lt with h1 | h1
    · omega
    · have hge : k ≤ (s.pos + 8 * s.params.bufSize - 1) / (8 * s.params.bufSize) := by
        rw [Nat.le_div_iff_mul_le (by omega), Nat.mul_left_comm]
        have := hlower h1
        omega
      omega

/-- ROPEN fetches the first buffer, and none of an empty source. -/
theorem fetched_readOpened (hB : 1 ≤ s.params.bufSize) :
    Fetched s.srcReads (readOpened s) (if s.srcLen.toNat = 0 then 0 else 1) := by
  have hreads : (readOpened s).srcReads = s.srcReads ++
      (if min s.params.bufSize s.srcLen.toNat = 0 then [] else [(0, min s.params.bufSize s.srcLen.toNat)]) := rfl
  have hpos : (readOpened s).pos = 0 := rfl
  have hlen : (readOpened s).srcLen = s.srcLen := rfl
  have hbase : (readOpened s).rdBase.toNat = 0 := rfl
  split
  case isTrue h0 =>
    refine ⟨?_, by simp [hlen, h0], by simp [hpos, hlen, h0], by simp, by simp [hpos]⟩
    simp [hreads, h0, bufferReads]
  case isFalse h0 =>
    have hmin : min s.params.bufSize s.srcLen.toNat ≠ 0 := by omega
    refine ⟨?_, by simp [hlen, h0], fun _ => by rw [hbase]; omega, by simp, by simp [hpos]⟩
    rw [hreads, if_neg hmin]
    simp [bufferReads, readOpened, clearSession]

theorem stepBit_srcReads (s : State) : (stepBit s).srcReads = s.srcReads := by
  unfold stepBit
  split <;> rfl

theorem stepBit_rdBase (s : State) : (stepBit s).rdBase = s.rdBase := by
  unfold stepBit
  split <;> rfl

theorem readBit_state_of_inside (hc : s.curByte ≠ s.bufLen) : (readBit s).2 = stepBit s := by
  rw [readBit, if_neg hc]

theorem readBit_state_of_refilled (hc : s.curByte = s.bufLen) (h0 : (refill s).bufLen ≠ 0) :
    (readBit s).2 = stepBit (refill s) := by
  rw [readBit, if_pos hc]
  simp only [if_neg h0]

/-- A bit inside the window is delivered without a fetch. -/
theorem Fetched.readBit_of_inside (hf : Fetched before s k) (hm : s.mode = .read) (h : s.CursorInv)
    (hp : s.pos < 8 * s.srcLen.toNat) (hc : s.curByte ≠ s.bufLen) : Fetched before (readBit s).2 k := by
  obtain ⟨hreads, hempty, hbase, hlower, hupper⟩ := hf
  have hle := (h.read_cursor hm).1
  have hlen := (h.read_window hm).2.1
  have hbit := s.curBit.isLt
  have hstep := consumed_stepBit hm h (hle.lt_of_ne hc)
  have hend : s.pos + 1 ≤ 8 * (s.rdBase.toNat + s.params.bufSize) := by
    unfold State.pos
    omega
  rw [readBit_state_of_inside hc]
  constructor <;> simp only [hstep.frame.params, hstep.frame.srcLen, hstep.pos, stepBit_srcReads, stepBit_rdBase]
  · exact hreads
  · exact hempty
  · exact fun _ => hbase hp
  · exact fun hk => (hlower hk).trans_le (by omega)
  · exact hbase hp ▸ hend

/-- A bit behind an exhausted window is in the next buffer read; the window, which does not reach the end of the source,
was a whole buffer. -/
theorem Fetched.readBit_of_exhausted (hf : Fetched before s k) (hm : s.mode = .read) (h : s.CursorInv)
    (hp : s.pos < 8 * s.srcLen.toNat) (hc : s.curByte = s.bufLen) : Fetched before (readBit s).2 (k + 1) := by
  obtain ⟨hreads, -, hbase, -, -⟩ := hf
  have hB := h.bufSize_pos
  have hpos := pos_of_exhausted hm h hc
  have hlen := (h.read_window hm).2.1
  have hfull : s.rdBase.toNat + s.bufLen = k * s.params.bufSize := by
    rw [← hbase hp]
    omega
  have hnext : (refill s).rdBase.toNat = k * s.params.bufSize := (rdBase_refill hm h).trans hfull
  have hload : (refill s).bufLen ≠ 0 := by
    rw [bufLen_refill, hnext]
    omega
  have hstate := readBit_state_of_refilled hc hload
  obtain ⟨t, ht, hstep, -⟩ := readBit_of_lt hm h hp
  have hframe : ReaderFrame s (readBit s).2 := readBit_readerFrame s
  have hpos' : (readBit s).2.pos = s.pos + 1 := by rw [ht, hstep.pos]
  have hreads' : (readBit s).2.srcReads = before ++ bufferReads s.params.bufSize s.srcLen.toNat (k + 1) := by
    rw [hstate, stepBit_srcReads, srcReads_refill, if_neg hload, bufLen_refill, hnext, hreads, bufferReads_succ,
      List.append_assoc]
  have hbase' : (readBit s).2.rdBase.toNat = k * s.params.bufSize := by rw [hstate, stepBit_rdBase, hnext]
  constructor <;> simp only [hframe.params, hframe.srcLen, hpos', hbase', Nat.succ_mul]
  · exact hreads'
  · omega
  · exact fun _ => trivial
  · omega
  · omega

/-- ReadBit keeps the fetches in order; at the end of the source it makes none. -/
theorem Fetched.readBit (hf : Fetched before s k) (hm : s.mode = .read) (h : s.CursorInv) :
    ∃ k', Fetched before (readBit s).2 k' := by
  rcases (pos_le hm h).lt_or_eq with hp | hp
  · by_cases hc : s.curByte = s.bufLen
    · exact ⟨k + 1, hf.readBit_of_exhausted hm h hp hc⟩
    · exact ⟨k, hf.readBit_of_inside hm h hp hc⟩
  · obtain ⟨t, ht, -, hstay, hreads⟩ := readBit_of_end hm h hp
    have hpos : t.pos = s.pos := hstay.pos
    refine ⟨k, ?_⟩
    rw [ht]
    constructor <;> simp only [hstay.frame.params, hstay.frame.srcLen, hpos, hreads]
    · exact hf.reads
    · exact hf.empty
    · exact fun hlt => absurd hp hlt.ne
    · exact hf.lower
    · exact hf.upper

end

/-! ## A session of RBITs (R89) -/

/-- The read session that ROPEN opened in `s`, after `n` commands RBIT. -/
structure Delivered (s : State) (n : Nat) (t : State) : Prop where
  frame   : ReaderFrame { readOpened s with res := t.res } t
  inv     : t.CursorInv
  pos     : t.pos = min n (8 * s.srcLen.toNat)
  eof     : t.eof = true ↔ 8 * s.srcLen.toNat < n
  res     : 1 ≤ n → t.res =
    if n ≤ 8 * s.srcLen.toNat ∧ (s.src.read ((n - 1) / 8)).getLsbD (7 - (n - 1) % 8) = true then 1 else 0
  fetched : ∃ k, Fetched s.srcReads t k

section
variable {s t : State} {n : Nat}

theorem Delivered.mode (h : Delivered s n t) : t.mode = .read := h.frame.mode
theorem Delivered.src (h : Delivered s n t) : t.src = s.src := h.frame.src
theorem Delivered.srcLen (h : Delivered s n t) : t.srcLen = s.srcLen := h.frame.srcLen
theorem Delivered.params (h : Delivered s n t) : t.params = s.params := h.frame.params

theorem delivered_readOpened (hm : s.mode = .idle) (ha : s.allocOk = true) (hB : 1 ≤ s.params.bufSize) :
    Delivered s 0 (readOpened s) where
  frame := rfl
  inv := (cursorInv_ropen (exec_ropen hm ha) hm ha hB).2.1
  pos := (Nat.zero_min _).symm
  eof := by simp [readOpened, clearSession]
  res := nofun
  fetched := ⟨_, fetched_readOpened hB⟩

/-- What ReadBit consumes of the session, and RES written, belongs to the session. -/
theorem Delivered.consumed {u : State} {m : Nat} (h : Delivered s n t) (hc : Consumed t u m) (v : Word64) :
    ReaderFrame { readOpened s with res := v } { u with res := v } := by
  have hframe : ReaderFrame { readOpened s with res := v } { t with res := v } := by
    unfold ReaderFrame
    conv_lhs => rw [h.frame]
  exact hframe.trans (hc.setRes v).frame

/-- One more RBIT: a bit before the end of the source, 0 and EOF at it. -/
theorem Delivered.rbit (h : Delivered s n t) : ∃ u, exec .rbit t = .next u ∧ Delivered s (n + 1) u := by
  obtain ⟨k, hk⟩ := h.fetched
  obtain ⟨k', hfetched⟩ := hk.readBit h.mode h.inv
  have hpos := h.pos
  have heof := h.eof
  rcases Nat.lt_or_ge n (8 * s.srcLen.toNat) with hn | hn
  · have hp : t.pos = n := by omega
    obtain ⟨u, hu, hc, hueof, -⟩ := readBit_of_lt h.mode h.inv (by rw [hp, h.srcLen]; exact hn)
    rw [hu] at hfetched
    refine ⟨_, exec_rbit_of_some h.mode hu, h.consumed hc _, (hc.setRes _).inv, hc.pos.trans (by omega), ?_, ?_,
      k', hfetched.setRes _⟩
    · exact hueof ▸ heof.trans (by omega)
    · intro _
      have hle : n + 1 ≤ 8 * s.srcLen.toNat := hn
      simp only [hp, h.src, hle, true_and, Nat.add_sub_cancel]
  · obtain ⟨u, hu, hueof, hc, -⟩ := readBit_of_end h.mode h.inv (by rw [h.srcLen]; omega)
    rw [hu] at hfetched
    refine ⟨_, exec_rbit_of_none h.mode hu, h.consumed hc 0, (hc.setRes 0).inv, hc.pos.trans (by omega), ?_, ?_,
      k', hfetched.setRes 0⟩
    · exact iff_of_true hueof (by omega)
    · intro _
      rw [if_neg (fun hbit => by omega)]

theorem runCommands_rbits (hm : s.mode = .idle) (ha : s.allocOk = true) (hB : 1 ≤ s.params.bufSize) (n : Nat) :
    ∃ t, runCommands (List.replicate n .rbit) (readOpened s) = .next t ∧ Delivered s n t := by
  induction n with
  | zero => exact ⟨readOpened s, rfl, delivered_readOpened hm ha hB⟩
  | succ n ih =>
    obtain ⟨t, ht, hd⟩ := ih
    obtain ⟨u, hu, hd'⟩ := hd.rbit
    refine ⟨u, ?_, hd'⟩
    rw [List.replicate_succ', runCommands_append ht (by simp [hd.mode]), runCommands_singleton, hu]

end

/-- Settles O13: ROPEN makes the first fetch, and each RBIT delivers its bit and keeps the fetches in order. -/
theorem readSessionFetchesInOrder : Obligations.ReadSessionFetchesInOrder := by
  intro s n hm ha hB len needed
  obtain ⟨t, ht, hd⟩ := runCommands_rbits hm ha hB n
  obtain ⟨k, hk⟩ := hd.fetched
  have hcount : k = if len = 0 then 0 else max 1 needed := by
    have hcount := hk.count (hd.params ▸ hB)
    rwa [hd.params, hd.srcLen, hd.pos] at hcount
  have hreads := hk.reads
  rw [hd.params, hd.srcLen, hcount] at hreads
  refine ⟨t, ?_, hd.mode, hd.pos, hd.eof, hd.res, hreads⟩
  rw [runCommands_cons (exec_ropen hm ha) (readOpened_ne_fault s), ht]

end Sys2Proof.Machine

/-! PROOF. R91 to R93: the working list of TBUILD. The initial list is built by insertions from the tail, a merge
inserts from the head; either keeps the list in its order. -/

namespace Sys2Proof.Machine

/-! ## The pool -/

theorem nodeAt_append_left {nodes : List Node} {j : PoolIx} (h : j.toNat < nodes.length) (more : List Node) :
    nodeAt (nodes ++ more) j = nodeAt nodes j := by
  rw [nodeAt, nodeAt, List.getD_append _ _ _ _ h]

/-- The entry a merge allocates (R92). -/
theorem nodeAt_concat {nodes : List Node} (h : nodes.length < 511) (n : Node) :
    nodeAt (nodes ++ [n]) (BitVec.ofNat 9 nodes.length) = n := by
  have hix : (BitVec.ofNat 9 nodes.length).toNat = nodes.length := Nat.mod_eq_of_lt (by omega)
  exact nodeAt_of_getElem? (by rw [hix, List.getElem?_concat_length])

/-! ## The leaves (R91) -/

theorem length_leafNodes (draw : Nat) (freq : Vector Word64 256) :
    (leafNodes draw freq).length = countNonZero freq := by
  rw [leafNodes, List.length_map, length_usedSymbols]

theorem map_sym_leafNodes (draw : Nat) (freq : Vector Word64 256) :
    (leafNodes draw freq).map (fun n => n.sym) = usedSymbols freq := by
  rw [leafNodes, List.map_map]
  exact List.map_id _

theorem map_freq_leafNodes (draw : Nat) (freq : Vector Word64 256) :
    (leafNodes draw freq).map (fun n => n.freq) = (usedSymbols freq).map (entry freq) := by
  rw [leafNodes, List.map_map]
  rfl

theorem kind_of_mem_leafNodes {draw : Nat} {freq : Vector Word64 256} {n : Node} (h : n ∈ leafNodes draw freq) :
    n.kind = true ∧ n.freq = entry freq n.sym ∧ n.freqP = true := by
  obtain ⟨sym, -, rfl⟩ := List.mem_map.mp h
  exact ⟨rfl, rfl, rfl⟩

/-! ## The initial working list (R91) -/

/-- The order of the initial list: descending frequency, and the older leaf first among equal ones (R91). -/
def LeafBefore (fq : PoolIx → Word64) (i j : PoolIx) : Prop := fq j < fq i ∨ (fq i = fq j ∧ i < j)

theorem insertLeaf_eq (fq : PoolIx → Word64) (i : PoolIx) (wl : List PoolIx) :
    insertLeaf fq i wl = wl.rdropWhile (fun j => fq j < fq i) ++ i :: wl.rtakeWhile (fun j => fq j < fq i) := rfl

/-- The new leaf goes behind every element of no smaller frequency (R91). -/
theorem le_of_mem_rdropWhile {fq : PoolIx → Word64} {i : PoolIx} {wl : List PoolIx} (h : wl.Pairwise (LeafBefore fq)) :
    ∀ j ∈ wl.rdropWhile (fun j => fq j < fq i), fq i ≤ fq j := by
  intro j hj
  have hne : wl.rdropWhile (fun j => fq j < fq i) ≠ [] := List.ne_nil_of_mem hj
  have hlast : fq i ≤ fq ((wl.rdropWhile (fun j => fq j < fq i)).getLast hne) := by
    simpa using List.rdropWhile_last_not _ wl hne
  have hsorted := h.sublist (List.rdropWhile_prefix (fun j => fq j < fq i) wl).sublist
  rw [← List.dropLast_append_getLast hne] at hj hsorted
  rcases List.mem_append.mp hj with hinit | hend
  · rcases (List.pairwise_append.mp hsorted).2.2 j hinit _ (List.mem_singleton_self _) with hgt | ⟨heq, -⟩
    · exact BitVec.le_trans hlast (BitVec.le_of_lt hgt)
    · exact heq ▸ hlast
  · exact List.mem_singleton.mp hend ▸ hlast

/-- Inserting the newest leaf keeps the order. -/
theorem pairwise_insertLeaf {fq : PoolIx → Word64} {i : PoolIx} {wl : List PoolIx} (h : wl.Pairwise (LeafBefore fq))
    (hnew : ∀ j ∈ wl, j < i) : (insertLeaf fq i wl).Pairwise (LeafBefore fq) := by
  have hfront := le_of_mem_rdropWhile (i := i) h
  rw [← List.rdropWhile_append_rtakeWhile (l := wl) (p := fun j => fq j < fq i)] at h hnew
  obtain ⟨hf, ht, hcross⟩ := List.pairwise_append.mp h
  rw [insertLeaf_eq]
  refine List.pairwise_append.mpr ⟨hf, List.pairwise_cons.mpr ⟨fun j hj => .inl ?_, ht⟩, fun a ha b hb => ?_⟩
  · simpa using List.mem_rtakeWhile_imp hj
  · rcases List.mem_cons.mp hb with rfl | hb
    · by_cases hlt : fq b < fq a
      · exact .inl hlt
      · have heq : fq a = fq b := BitVec.le_antisymm (BitVec.not_lt.mp hlt) (hfront a ha)
        exact .inr ⟨heq, hnew a (List.mem_append_left _ ha)⟩
    · exact hcross a ha b hb

theorem initialList_succ (fq : PoolIx → Word64) (n : Nat) :
    initialList fq (n + 1) = insertLeaf fq (BitVec.ofNat 9 n) (initialList fq n) := by
  simp [initialList, List.range_succ]

/-- The initial list is sorted: each leaf is inserted after all the older ones (R91). -/
theorem pairwise_initialList (fq : PoolIx → Word64) {n : Nat} (hn : n ≤ 256) :
    (initialList fq n).Pairwise (LeafBefore fq) := by
  induction n with
  | zero => exact .nil
  | succ n ih =>
    rw [initialList_succ]
    refine pairwise_insertLeaf (ih (by omega)) fun j hj => ?_
    obtain ⟨k, hk, rfl⟩ := List.mem_map.mp ((initialList_perm fq n).mem_iff.mp hj)
    have hkn := List.mem_range.mp hk
    rw [BitVec.lt_def, BitVec.toNat_ofNat, BitVec.toNat_ofNat, Nat.mod_eq_of_lt (by omega), Nat.mod_eq_of_lt (by omega)]
    exact hkn

/-- Settles O14: the leaves are the used symbols in order, and insertion sort of them is stable. -/
theorem initialListIsTheStableSort : Obligations.InitialListIsTheStableSort := by
  intro draw freq leaves fq wl
  refine ⟨length_leafNodes draw freq, ?_, fun n hn => kind_of_mem_leafNodes hn, initialList_perm fq _,
    pairwise_initialList fq (countNonZero_le freq)⟩
  rw [map_sym_leafNodes, usedSymbols]
  exact List.filter_congr fun sym _ => by rw [bne, beq_eq_decide, decide_not]

/-! ## Re-insertion (R93) -/

/-- Descending frequency from head to tail (R95 (d)). -/
abbrev Descending (fq : PoolIx → Word64) (wl : List PoolIx) : Prop := wl.Pairwise fun i j => fq j ≤ fq i

theorem Descending.congr {fq fq' : PoolIx → Word64} {wl : List PoolIx} (h : Descending fq wl)
    (heq : ∀ j ∈ wl, fq' j = fq j) : Descending fq' wl :=
  h.imp_of_mem fun hi hj hle => by rwa [heq _ hi, heq _ hj]

/-- The place of a node of frequency `f`: the first element of no larger frequency (R93). -/
def mergedPlace (fq : PoolIx → Word64) (f : Word64) (wl : List PoolIx) : Nat := wl.findIdx fun j => fq j ≤ f

theorem mergedPlace_le (fq : PoolIx → Word64) (f : Word64) (wl : List PoolIx) : mergedPlace fq f wl ≤ wl.length :=
  List.findIdx_le_length

theorem lt_of_mem_take_mergedPlace {fq : PoolIx → Word64} {f : Word64} {wl : List PoolIx} :
    ∀ j ∈ wl.take (mergedPlace fq f wl), f < fq j := by
  intro j hj
  obtain ⟨k, hk, rfl⟩ := List.mem_take_iff_getElem.mp hj
  simpa using List.not_of_lt_findIdx (xs := wl) (p := fun j => fq j ≤ f) (i := k) (by unfold mergedPlace at hk; omega)

theorem le_of_head_drop_mergedPlace {fq : PoolIx → Word64} {f : Word64} {wl : List PoolIx} :
    ∀ j ∈ (wl.drop (mergedPlace fq f wl)).head?, fq j ≤ f := by
  intro j hj
  rw [List.head?_drop] at hj
  obtain ⟨hlt, rfl⟩ := List.getElem?_eq_some_iff.mp hj
  exact of_decide_eq_true (List.findIdx_getElem (p := fun j => fq j ≤ f) (w := hlt))

theorem insertMerged_newestFirst (fq : PoolIx → Word64) (f : Word64) (n : PoolIx) (wl : List PoolIx) :
    insertMerged .newestFirst fq f n wl =
      wl.take (mergedPlace fq f wl) ++ n :: wl.drop (mergedPlace fq f wl) := by
  have hplace : mergedPlace fq f wl = wl.findIdx fun j => !decide (f < fq j) := by
    simp only [mergedPlace, ← decide_not, BitVec.not_lt]
  rw [hplace, ← List.takeWhile_eq_take_findIdx_not, ← List.dropWhile_eq_drop_findIdx_not]
  rfl

/-- Everything behind that place has no larger frequency either. -/
theorem le_of_mem_drop_mergedPlace {fq : PoolIx → Word64} {f : Word64} {wl : List PoolIx} (h : Descending fq wl) :
    ∀ j ∈ wl.drop (mergedPlace fq f wl), fq j ≤ f := by
  have hhead := le_of_head_drop_mergedPlace (fq := fq) (f := f) (wl := wl)
  have hdrop := h.sublist (List.drop_sublist (mergedPlace fq f wl) wl)
  generalize wl.drop (mergedPlace fq f wl) = back at hhead hdrop
  cases back with
  | nil => exact List.forall_mem_nil _
  | cons x xs =>
    have hx : fq x ≤ f := hhead x rfl
    exact List.forall_mem_cons.mpr ⟨hx, fun j hj => BitVec.le_trans ((List.pairwise_cons.mp hdrop).1 j hj) hx⟩

/-- Re-insertion keeps a descending list descending (R95 (d)). -/
theorem descending_insertMerged {fq fq' : PoolIx → Word64} {f : Word64} {n : PoolIx} {wl : List PoolIx}
    (h : Descending fq wl) (hn : fq' n = f) (heq : ∀ j ∈ wl, fq' j = fq j) :
    Descending fq' (insertMerged .newestFirst fq f n wl) := by
  have hlater := le_of_mem_drop_mergedPlace (f := f) h
  have h' := h.congr heq
  rw [← List.take_append_drop (mergedPlace fq f wl) wl] at h' heq
  obtain ⟨hfront, hback, hcross⟩ := List.pairwise_append.mp h'
  rw [insertMerged_newestFirst]
  refine List.pairwise_append.mpr ⟨hfront, List.pairwise_cons.mpr ⟨fun j hj => ?_, hback⟩, fun i hi j hj => ?_⟩
  · rw [hn, heq j (List.mem_append_right _ hj)]
    exact hlater j hj
  · rcases List.mem_cons.mp hj with rfl | hj
    · rw [hn, heq i (List.mem_append_left _ hi)]
      exact BitVec.le_of_lt (lt_of_mem_take_mergedPlace i hi)
    · exact hcross i hi j hj

/-! ## One merge (R92, R93) -/

theorem mergeOnce_concat (draw : Nat) (p : Config.Params) (nodes : List Node) (rest : List PoolIx) (q t : PoolIx) :
    mergeOnce draw p (nodes, rest ++ [q, t]) =
      (nodes ++ [mergedNode draw p.childOrder nodes.length t q ((nodeAt nodes t).freq + (nodeAt nodes q).freq)],
        insertMerged p.tie (fun j => (nodeAt nodes j).freq) ((nodeAt nodes t).freq + (nodeAt nodes q).freq)
          (BitVec.ofNat 9 nodes.length) rest) := by
  simp [mergeOnce]

theorem mergedNode_spec (draw : Nat) (order : Config.ChildOrder) (place : Nat) (t q : PoolIx) (f : Word64) :
    let n := mergedNode draw order place t q f
    n.kind = false ∧ n.freq = f ∧ n.freqP = true ∧ (order = .tailLeft → n.left = t ∧ n.right = q) ∧
      (order = .tailRight → n.left = q ∧ n.right = t) := by
  cases order <;> simp [mergedNode]

/-- Settles O15: the merged node goes to its place in what is left of the list, and a descending list stays so. -/
theorem mergeJoinsTheTwoTails : Obligations.MergeJoinsTheTwoTails := by
  intro draw p nodes rest q t hlen hmem htie fq pool
  have hpool : pool = (nodes ++ [mergedNode draw p.childOrder nodes.length t q (fq t + fq q)],
      insertMerged .newestFirst fq (fq t + fq q) (BitVec.ofNat 9 nodes.length) rest) :=
    htie ▸ mergeOnce_concat draw p nodes rest q t
  obtain ⟨hkind, hfreq, hfreqP, hleft, hright⟩ := mergedNode_spec draw p.childOrder nodes.length t q (fq t + fq q)
  rw [hpool]
  refine ⟨_, mergedPlace fq (fq t + fq q) rest, rfl, hkind, hfreq, hfreqP, hleft, hright, mergedPlace_le fq _ rest, ?_,
    ?_, insertMerged_newestFirst fq _ _ rest, fun hsorted => ?_⟩
  · exact hfreq.symm ▸ lt_of_mem_take_mergedPlace
  · exact hfreq.symm ▸ le_of_head_drop_mergedPlace
  · refine descending_insertMerged (hsorted.sublist (List.sublist_append_left rest [q, t])) ?_ fun j hj => ?_
    · rw [nodeAt_concat hlen, hfreq]
    · rw [nodeAt_append_left (hmem j (List.mem_append_left _ hj))]

end Sys2Proof.Machine

/-! PROOF. R94, R95: the tree TBUILD builds. The merges extend the pool by Internal entries and keep the sum of the
frequencies of the working list; the tree's leaves are the pool's, and no field that R25 leaves unspecified matters. -/

namespace Sys2Proof.Machine

/-! ## The leaves of a tree and the leaves of its pool -/

/-- The symbol of a Leaf entry (R25). -/
def Node.leafSym (n : Node) : Option Byte := if n.kind then some n.sym else none

/-- The leaves of a tree in walk order are the Leaf entries that its walk meets (R27, R103). -/
theorem Spans.symbols {nodes : List Node} {i : PoolIx} {t : CodeTree} {js : List Nat} (h : Spans nodes i t js) :
    t.codes.map (fun c => c.1) = js.filterMap fun j => nodes[j]?.bind Node.leafSym := by
  induction h with
  | leaf hn hk => simp [CodeTree.codes, hn, Node.leafSym, hk]
  | internal hn hk hl hr ihl ihr =>
    rw [List.filterMap_cons_none (by simp [hn, Node.leafSym, hk]), List.filterMap_append, ← ihl, ← ihr, CodeTree.codes,
      List.map_append, List.map_map, List.map_map]
    rfl

/-- The Leaf entries of a pool, in the order of their indices. -/
theorem filterMap_range_leafSym (nodes : List Node) :
    (List.range nodes.length).filterMap (fun j => nodes[j]?.bind Node.leafSym) = nodes.filterMap Node.leafSym := by
  have hnodes : (List.range nodes.length).map (fun j => nodes[j]?) = nodes.map some :=
    List.ext_getElem (by simp) fun j h _ => by simp
  calc (List.range nodes.length).filterMap (fun j => nodes[j]?.bind Node.leafSym)
    _ = ((List.range nodes.length).map fun j => nodes[j]?).filterMap fun n => n.bind Node.leafSym := by
      rw [List.filterMap_map]; rfl
    _ = nodes.filterMap Node.leafSym := by rw [hnodes, List.filterMap_map]; rfl

/-- The leaves of a tree that uses each entry of its pool once are the Leaf entries of the pool (R27). -/
theorem symbols_perm_of_poolIsTree {nodes : List Node} {root : PoolIx} (h : PoolIsTree nodes root) :
    ∃ t, treeAt nodes (Config.depthMax + 1) root = some t ∧ 2 * t.depth < nodes.length ∧
      (t.codes.map fun c => c.1).Perm (nodes.filterMap Node.leafSym) := by
  obtain ⟨hlen, t, js, hsp, hperm⟩ := h
  have hjs : js.length = nodes.length := by rw [hperm.length_eq, List.length_range]
  have hdepth := hsp.depth_lt
  rw [hjs] at hdepth
  refine ⟨t, (hsp.read ?_).1, hdepth, ?_⟩
  · have : nodes.length ≤ 511 := hlen
    simp only [Config.depthMax]
    omega
  · rw [hsp.symbols, ← filterMap_range_leafSym]
    exact hperm.filterMap _

/-- A code is no longer than the tree is deep (R95 (e)). -/
theorem length_code_le_depth {t : CodeTree} : ∀ c ∈ t.codes, c.2.length ≤ t.depth := by
  induction t with
  | leaf sym => simp [CodeTree.codes]
  | internal l r ihl ihr =>
    intro c hc
    rw [CodeTree.depth]
    rcases List.mem_append.mp hc with hc | hc
    · obtain ⟨d, hd, rfl⟩ := List.mem_map.mp hc
      have := ihl d hd
      rw [List.length_cons]
      omega
    · obtain ⟨d, hd, rfl⟩ := List.mem_map.mp hc
      have := ihr d hd
      rw [List.length_cons]
      omega

/-- In a tree of more than one leaf no code is empty (R95 (e)). -/
theorem length_code_pos {t : CodeTree} (h : 2 ≤ t.codes.length) : ∀ c ∈ t.codes, 1 ≤ c.2.length := by
  cases t with
  | leaf sym => simp [CodeTree.codes] at h
  | internal l r =>
    intro c hc
    rcases List.mem_append.mp hc with hc | hc
    · obtain ⟨d, -, rfl⟩ := List.mem_map.mp hc
      exact Nat.le_add_left 1 _
    · obtain ⟨d, -, rfl⟩ := List.mem_map.mp hc
      exact Nat.le_add_left 1 _

/-! ## The fields that R25 states -/

/-- A node with the fields that R25 leaves unspecified cleared: LEFT and RIGHT of a Leaf, SYM of an Internal node. -/
def Node.stated (n : Node) : Node := if n.kind then { n with left := 0, right := 0 } else { n with sym := 0 }

/-- The pool and the working list without what R25 leaves unspecified. -/
def statedPool (pool : List Node × List PoolIx) : List Node × List PoolIx := (pool.1.map Node.stated, pool.2)

@[simp] theorem Node.stated_kind (n : Node) : n.stated.kind = n.kind := by unfold Node.stated; split <;> rfl
@[simp] theorem Node.stated_freq (n : Node) : n.stated.freq = n.freq := by unfold Node.stated; split <;> rfl

theorem Node.stated_of_leaf {n : Node} (h : n.kind = true) : n.stated = { n with left := 0, right := 0 } := if_pos h
theorem Node.stated_of_internal {n : Node} (h : n.kind = false) : n.stated = { n with sym := 0 } := by
  simp [Node.stated, h]

theorem Node.stated_comp_stated : Node.stated ∘ Node.stated = Node.stated := by
  funext n
  cases hk : n.kind <;> simp [Node.stated, hk]

theorem statedPool_statedPool (pool : List Node × List PoolIx) : statedPool (statedPool pool) = statedPool pool := by
  simp only [statedPool, List.map_map, Node.stated_comp_stated]

theorem freq_nodeAt_stated (nodes : List Node) (i : PoolIx) :
    (nodeAt (nodes.map Node.stated) i).freq = (nodeAt nodes i).freq := by
  rw [nodeAt, nodeAt, List.getD_eq_getElem?_getD, List.getD_eq_getElem?_getD, List.getElem?_map]
  cases nodes[i.toNat]? with
  | none => rfl
  | some n => exact n.stated_freq

/-- The tree read off a pool depends on the stated fields only. -/
theorem treeAt_stated (nodes : List Node) (fuel : Nat) (i : PoolIx) :
    treeAt (nodes.map Node.stated) fuel i = treeAt nodes fuel i := by
  induction fuel generalizing i with
  | zero => rfl
  | succ fuel ih =>
    simp only [treeAt, List.getElem?_map]
    cases nodes[i.toNat]? with
    | none => rfl
    | some n =>
      cases hk : n.kind with
      | true => simp [Node.stated_of_leaf hk, hk]
      | false => simp [Node.stated_of_internal hk, hk, ih]

theorem stated_mergedNode (draw draw' : Nat) (order : Config.ChildOrder) (place : Nat) (t q : PoolIx) (f : Word64) :
    (mergedNode draw order place t q f).stated = (mergedNode draw' order place t q f).stated := by
  cases order <;> rfl

theorem stated_leafNodes (draw draw' : Nat) (freq : Vector Word64 256) :
    (leafNodes draw freq).map Node.stated = (leafNodes draw' freq).map Node.stated := by
  rw [leafNodes, leafNodes, List.map_map, List.map_map]
  rfl

/-- A list of two or more has its two tails. -/
theorem exists_two_tails {wl : List PoolIx} (h : 2 ≤ wl.length) : ∃ rest q t, wl = rest ++ [q, t] := by
  obtain rfl | ⟨init, t, rfl⟩ := wl.eq_nil_or_concat'
  · simp at h
  obtain rfl | ⟨rest, q, rfl⟩ := init.eq_nil_or_concat'
  · simp at h
  exact ⟨rest, q, t, by simp⟩

theorem mergeOnce_of_length_lt (draw : Nat) (p : Config.Params) {pool : List Node × List PoolIx}
    (h : pool.2.length < 2) : mergeOnce draw p pool = pool := by
  obtain ⟨nodes, wl⟩ := pool
  rcases wl with _ | ⟨t, _ | ⟨q, wl⟩⟩
  · rfl
  · rfl
  · simp at h

/-- The stated fields after a merge depend on the stated fields before it. -/
theorem statedPool_mergeOnce (draw draw' : Nat) (p : Config.Params) (pool : List Node × List PoolIx) :
    statedPool (mergeOnce draw p pool) = statedPool (mergeOnce draw' p (statedPool pool)) := by
  rcases Nat.lt_or_ge pool.2.length 2 with hlt | hge
  · rw [mergeOnce_of_length_lt draw p hlt, mergeOnce_of_length_lt draw' p (pool := statedPool pool) hlt,
      statedPool_statedPool]
  · obtain ⟨nodes, wl⟩ := pool
    obtain ⟨rest, q, t, rfl⟩ := exists_two_tails hge
    simp only [statedPool, mergeOnce_concat, freq_nodeAt_stated, List.length_map, List.map_append, List.map_cons,
      List.map_nil, List.map_map, Node.stated_comp_stated, stated_mergedNode draw draw']

theorem mergeAll_eq_iterate (draw : Nat) (p : Config.Params) (n : Nat) (pool : List Node × List PoolIx) :
    mergeAll draw p n pool = (mergeOnce draw p)^[n] pool := by
  induction n generalizing pool with
  | zero => rfl
  | succ n ih => exact ih _

/-- The pool and the working list before the first merge (R94 steps (1) and (2)). -/
def initialPool (draw : Nat) (freq : Vector Word64 256) (leafCount : Nat) : List Node × List PoolIx :=
  (leafNodes draw freq, initialList (fun j => (nodeAt (leafNodes draw freq) j).freq) leafCount)

theorem buildTree_eq_iterate (draw : Nat) (p : Config.Params) (freq : Vector Word64 256) (leafCount : Nat) :
    buildTree draw p freq leafCount = (mergeOnce draw p)^[leafCount - 1] (initialPool draw freq leafCount) :=
  mergeAll_eq_iterate draw p _ _

theorem statedPool_initialPool (draw draw' : Nat) (freq : Vector Word64 256) (leafCount : Nat) :
    statedPool (initialPool draw freq leafCount) = statedPool (initialPool draw' freq leafCount) := by
  have hfreq : ∀ j, (nodeAt (leafNodes draw freq) j).freq = (nodeAt (leafNodes draw' freq) j).freq := fun j => by
    rw [← freq_nodeAt_stated, stated_leafNodes draw draw', freq_nodeAt_stated]
  rw [statedPool, statedPool, initialPool, initialPool, stated_leafNodes draw draw']
  simp only [hfreq]

/-- The free values do not reach the stated fields (R94). -/
theorem statedPool_buildTree (draw draw' : Nat) (p : Config.Params) (freq : Vector Word64 256) (leafCount : Nat) :
    statedPool (buildTree draw p freq leafCount) = statedPool (buildTree draw' p freq leafCount) := by
  have key (d : Nat) : Function.Semiconj statedPool (mergeOnce d p) fun pool => statedPool (mergeOnce 0 p pool) :=
    fun pool => statedPool_mergeOnce d 0 p pool
  rw [buildTree_eq_iterate, buildTree_eq_iterate, ((key draw).iterate_right _).eq, ((key draw').iterate_right _).eq,
    statedPool_initialPool draw draw']

/-- The tree of a byte sequence is the one TBUILD builds, whatever the free values are (R94). -/
theorem huffmanTree_eq (draw : Nat) (p : Config.Params) (bytes : List Byte) :
    let pool := buildTree draw p (frequencies bytes) (countNonZero (frequencies bytes))
    huffmanTree p bytes = treeAt pool.1 (Config.depthMax + 1) (pool.2.headD 0) := by
  intro pool
  have h := statedPool_buildTree 0 draw p (frequencies bytes) (countNonZero (frequencies bytes))
  rw [statedPool, statedPool, Prod.mk.injEq] at h
  obtain ⟨hnodes, hwl⟩ := h
  simp only [huffmanTree, hwl]
  rw [← treeAt_stated, hnodes, treeAt_stated]

/-! ## The sum of the frequencies (R95 (b)) -/

theorem nodup_allSymbols : allSymbols.Nodup := by
  refine List.Nodup.map_on (fun a ha b hb hab => ?_) List.nodup_range
  have ha := List.mem_range.mp ha
  have hb := List.mem_range.mp hb
  have := congrArg BitVec.toNat hab
  rwa [BitVec.toNat_ofNat, BitVec.toNat_ofNat, Nat.mod_eq_of_lt ha, Nat.mod_eq_of_lt hb] at this

theorem mem_allSymbols (sym : Byte) : sym ∈ allSymbols :=
  List.mem_map.mpr ⟨sym.toNat, List.mem_range.mpr sym.isLt, BitVec.ofNat_toNat 8 sym⟩

/-- The frequencies of the used symbols add up to the length of the source (R95 (b), R108). -/
theorem sum_frequencies {bytes : List Byte} (h : bytes.length < 2 ^ 64) :
    ((usedSymbols (frequencies bytes)).map (entry (frequencies bytes))).sum = BitVec.ofNat 64 bytes.length := by
  have hperm : (usedSymbols (frequencies bytes)).Perm bytes.dedup := by
    rw [usedSymbols_frequencies h]
    exact (List.perm_ext_iff_of_nodup (nodup_allSymbols.filter _) bytes.nodup_dedup).mpr fun sym => by
      simp [mem_allSymbols]
  have hentry : entry (frequencies bytes) = fun sym => ((bytes.count sym : Nat) : Word64) :=
    funext fun sym => entry_frequencies bytes sym
  rw [(hperm.map _).sum_eq, hentry, ← List.sum_map_count_dedup_eq_length, ← BitVec.natCast_eq_ofNat, Nat.cast_list_sum,
    List.map_map]
  rfl

/-! ## The merges (R94 step (3)) -/

/-- The sum of the frequencies of the working list. -/
def listFreq (pool : List Node × List PoolIx) : Word64 := (pool.2.map fun j => (nodeAt pool.1 j).freq).sum

/-- A merge replaces two frequencies by their sum (R92). -/
theorem listFreq_mergeOnce (draw : Nat) (p : Config.Params) {nodes : List Node} {rest : List PoolIx} {q t : PoolIx}
    (huse : ∀ j ∈ rest ++ [q, t], j.toNat < nodes.length) (hlen : nodes.length < 511) :
    listFreq (mergeOnce draw p (nodes, rest ++ [q, t])) = listFreq (nodes, rest ++ [q, t]) := by
  rw [mergeOnce_concat]
  set f := (nodeAt nodes t).freq + (nodeAt nodes q).freq with hf
  set n := mergedNode draw p.childOrder nodes.length t q f
  have hperm := insertMerged_perm p.tie (fun j => (nodeAt nodes j).freq) f (BitVec.ofNat 9 nodes.length) rest
  have hnew : (nodeAt (nodes ++ [n]) (BitVec.ofNat 9 nodes.length)).freq = f := by
    rw [nodeAt_concat hlen]
    exact (mergedNode_spec draw p.childOrder nodes.length t q f).2.1
  have hkept : (rest.map fun j => (nodeAt (nodes ++ [n]) j).freq) = rest.map fun j => (nodeAt nodes j).freq :=
    List.map_congr_left fun j hj => by rw [nodeAt_append_left (huse j (List.mem_append_left _ hj))]
  rw [listFreq, listFreq, (hperm.map _).sum_eq, List.map_cons, List.sum_cons, hnew, hkept, hf, List.map_append,
    List.sum_append, List.map_cons, List.map_singleton, List.sum_cons, List.sum_singleton]
  ring

/-- The pool after `k` merges: the leaves, then one Internal entry for each merge; the working list has lost one element
for each merge, its elements are in use, the newest entry is among them, and its frequencies add up to those of the
leaves (R94, R95). -/
structure Merged (leaves : List Node) (k : Nat) (pool : List Node × List PoolIx) : Prop where
  nodes  : ∃ more, pool.1 = leaves ++ more ∧ more.length = k ∧ ∀ n ∈ more, n.kind = false ∧ n.freqP = true
  length : pool.2.length + k = leaves.length
  in_use : ∀ j ∈ pool.2, j.toNat < pool.1.length
  newest : k ≠ 0 → BitVec.ofNat 9 (pool.1.length - 1) ∈ pool.2
  total  : listFreq pool = (leaves.map fun n => n.freq).sum

theorem Merged.length_nodes {leaves : List Node} {k : Nat} {pool : List Node × List PoolIx} (h : Merged leaves k pool) :
    pool.1.length = leaves.length + k := by
  obtain ⟨more, hnodes, hlen, -⟩ := h.nodes
  rw [hnodes, List.length_append, hlen]

/-- Before the first merge (R91). -/
theorem merged_initialPool (draw : Nat) (freq : Vector Word64 256) :
    Merged (leafNodes draw freq) 0 (initialPool draw freq (countNonZero freq)) := by
  have hle := countNonZero_le freq
  have hlen := length_leafNodes draw freq
  have hix {j : Nat} (hj : j < countNonZero freq) : (BitVec.ofNat 9 j).toNat = j := Nat.mod_eq_of_lt (by omega)
  have hperm := initialList_perm (fun j => (nodeAt (leafNodes draw freq) j).freq) (countNonZero freq)
  refine ⟨⟨[], by simp [initialPool]⟩, ?_, fun j hj => ?_, fun h0 => absurd rfl h0, ?_⟩
  · rw [initialPool, hperm.length_eq, List.length_map, List.length_range, hlen]
    rfl
  · obtain ⟨k, hk, rfl⟩ := List.mem_map.mp (hperm.mem_iff.mp hj)
    have hk := List.mem_range.mp hk
    rwa [hix hk, initialPool, hlen]
  · rw [listFreq, initialPool, (hperm.map _).sum_eq, List.map_map]
    refine congrArg List.sum (List.ext_getElem (by simp [hlen]) fun j h h' => ?_)
    have hj : j < countNonZero freq := by simpa [hlen] using h'
    simp [nodeAt, hix hj, hlen, hj]

/-- One more merge (R92, R93). -/
theorem Merged.next {leaves : List Node} {k : Nat} {pool : List Node × List PoolIx} (h : Merged leaves k pool)
    (hk : k + 1 < leaves.length) (hlen : leaves.length ≤ 256) (draw : Nat) (p : Config.Params) :
    Merged leaves (k + 1) (mergeOnce draw p pool) := by
  have hcnt : pool.1.length = leaves.length + k := h.length_nodes
  obtain ⟨⟨more, hnodes, hmore, hinternal⟩, hwl, huse, -, htotal⟩ := h
  obtain ⟨nodes, wl⟩ := pool
  obtain ⟨rest, q, t, rfl⟩ := exists_two_tails (wl := wl) (by simp only at hwl; omega)
  dsimp only at hnodes hwl huse hcnt
  rw [mergeOnce_concat]
  set f := (nodeAt nodes t).freq + (nodeAt nodes q).freq
  obtain ⟨hkind, -, hfreqP, -⟩ := mergedNode_spec draw p.childOrder nodes.length t q f
  set n := mergedNode draw p.childOrder nodes.length t q f
  have hperm := insertMerged_perm p.tie (fun j => (nodeAt nodes j).freq) f (BitVec.ofNat 9 nodes.length) rest
  have hrest : ∀ j ∈ rest, j.toNat < nodes.length := fun j hj => huse j (List.mem_append_left _ hj)
  refine ⟨⟨more ++ [n], ?_, ?_, ?_⟩, ?_, ?_, fun _ => ?_, ?_⟩
  · rw [hnodes, List.append_assoc]
  · rw [List.length_append, hmore, List.length_singleton]
  · simp only [List.forall_mem_append, List.forall_mem_singleton]
    exact ⟨hinternal, hkind, hfreqP⟩
  · simp only [List.length_append, List.length_cons, List.length_nil] at hwl
    rw [hperm.length_eq, List.length_cons]
    omega
  · intro j hj
    rw [List.length_append, List.length_singleton]
    rcases List.mem_cons.mp (hperm.mem_iff.mp hj) with rfl | hj
    · rw [BitVec.toNat_ofNat, Nat.mod_eq_of_lt (by omega)]
      exact Nat.lt_succ_self _
    · exact Nat.lt_succ_of_lt (hrest j hj)
  · rw [List.length_append, List.length_singleton, Nat.add_sub_cancel]
    exact hperm.mem_iff.mpr List.mem_cons_self
  · rw [← htotal, ← listFreq_mergeOnce draw p huse (by omega), mergeOnce_concat]

theorem merged_iterate (draw : Nat) (p : Config.Params) (freq : Vector Word64 256) {k : Nat}
    (hk : k < countNonZero freq) :
    Merged (leafNodes draw freq) k ((mergeOnce draw p)^[k] (initialPool draw freq (countNonZero freq))) := by
  induction k with
  | zero => exact merged_initialPool draw freq
  | succ k ih =>
    rw [Function.iterate_succ_apply']
    have hlen := length_leafNodes draw freq
    have := countNonZero_le freq
    exact (ih (by omega)).next (by omega) (by omega) draw p

/-- The pool TBUILD leaves (R94, R95). -/
theorem merged_buildTree (draw : Nat) (p : Config.Params) {freq : Vector Word64 256} (h : 2 ≤ countNonZero freq) :
    Merged (leafNodes draw freq) (countNonZero freq - 1) (buildTree draw p freq (countNonZero freq)) := by
  rw [buildTree_eq_iterate]
  exact merged_iterate draw p freq (by omega)

section
variable {freq : Vector Word64 256} (draw : Nat) (p : Config.Params) (h : 2 ≤ countNonZero freq)
include h

theorem length_nodes_buildTree :
    (buildTree draw p freq (countNonZero freq)).1.length = 2 * countNonZero freq - 1 := by
  rw [(merged_buildTree draw p h).length_nodes, length_leafNodes]
  omega

/-- One element is left, and it is the newest entry of the pool (R95 (a)). -/
theorem wl_buildTree :
    (buildTree draw p freq (countNonZero freq)).2 = [BitVec.ofNat 9 (2 * countNonZero freq - 2)] := by
  have hm := merged_buildTree draw p h
  have hlen := hm.length
  have hnew := hm.newest (by omega)
  rw [length_leafNodes] at hlen
  rw [length_nodes_buildTree draw p h, Nat.sub_sub] at hnew
  obtain ⟨i, hi⟩ := List.length_eq_one_iff.mp (show (buildTree draw p freq (countNonZero freq)).2.length = 1 by omega)
  rw [hi] at hnew ⊢
  rw [List.mem_singleton.mp hnew]

/-- The leaves come first, as step (1) left them, then the Internal entries (R95 (a)). -/
theorem nodes_buildTree :
    let nodes := (buildTree draw p freq (countNonZero freq)).1
    nodes.take (countNonZero freq) = leafNodes draw freq ∧
      ∀ n ∈ nodes.drop (countNonZero freq), n.kind = false ∧ n.freqP = true := by
  obtain ⟨more, hnodes, -, hmore⟩ := (merged_buildTree draw p h).nodes
  have hlen := length_leafNodes draw freq
  simp only [hnodes]
  exact ⟨List.take_left' hlen, List.drop_left' hlen ▸ hmore⟩

/-- The root carries the sum of the used frequencies (R95 (b)). -/
theorem freq_root_buildTree :
    (nodeAt (buildTree draw p freq (countNonZero freq)).1 (BitVec.ofNat 9 (2 * countNonZero freq - 2))).freq =
      ((usedSymbols freq).map (entry freq)).sum := by
  have htotal := (merged_buildTree draw p h).total
  rw [map_freq_leafNodes, listFreq, wl_buildTree draw p h, List.map_singleton, List.sum_singleton] at htotal
  exact htotal

/-- The Leaf entries hold the used symbols, in ascending order (R95 (a)). -/
theorem leafSyms_buildTree :
    (buildTree draw p freq (countNonZero freq)).1.filterMap Node.leafSym = usedSymbols freq := by
  obtain ⟨more, hnodes, -, hmore⟩ := (merged_buildTree draw p h).nodes
  have hinternal : more.filterMap Node.leafSym = [] :=
    List.filterMap_eq_nil_iff.mpr fun n hn => by simp [Node.leafSym, (hmore n hn).1]
  have hleaf : (leafNodes draw freq).filterMap Node.leafSym = (leafNodes draw freq).map fun n => n.sym := by
    rw [← List.filterMap_eq_map]
    exact List.filterMap_congr fun n hn => if_pos (kind_of_mem_leafNodes hn).1
  rw [hnodes, List.filterMap_append, hinternal, List.append_nil, hleaf, map_sym_leafNodes]

/-- The tree of the pool: its leaves are the used symbols, each between 1 and LEAFCOUNT - 1 deep (R95 (c), (e)). -/
theorem tree_buildTree :
    ∃ tr, treeAt (buildTree draw p freq (countNonZero freq)).1 (Config.depthMax + 1)
        (BitVec.ofNat 9 (2 * countNonZero freq - 2)) = some tr ∧
      (tr.codes.map fun c => c.1).Perm (usedSymbols freq) ∧
      ∀ c ∈ tr.codes, 1 ≤ c.2.length ∧ c.2.length ≤ countNonZero freq - 1 := by
  have hpool := poolIsTree_buildTree draw p (freq := freq) 0 (by omega)
  rw [wl_buildTree draw p h, List.headD_cons] at hpool
  obtain ⟨tr, htree, hdepth, hsyms⟩ := symbols_perm_of_poolIsTree hpool
  rw [leafSyms_buildTree draw p h] at hsyms
  rw [length_nodes_buildTree draw p h] at hdepth
  have hcodes : tr.codes.length = countNonZero freq := by
    rw [← length_usedSymbols, ← hsyms.length_eq, List.length_map]
  refine ⟨tr, htree, hsyms, fun c hc => ⟨length_code_pos (by omega) c hc, ?_⟩⟩
  exact (length_code_le_depth c hc).trans (by omega)

end

/-! ## TBUILD (R94) -/

theorem exec_tbuild {s : State} (hm : s.mode = .write) (hf : s.freqV = true) :
    exec .tbuild s =
      if s.leafCount = 0 then .next (raise .emptyInput s)
      else if s.leafCount = 1 then .next s
      else .next (treeBuilt s) :=
  if_neg (by simp [hm, hf])

/-- LEAFCOUNT is the number of symbols that FREQ counts (R24). -/
theorem leafCount_eq {s : State} (h : s.TablesInv) (hf : s.freqV = true) :
    s.leafCount.toNat = countNonZero s.freq := by
  have := countNonZero_le s.freq
  rw [(h.freq_valid hf).2.2, BitVec.toNat_ofNat, Nat.mod_eq_of_lt (by omega)]

theorem length_srcBytes (s : State) : s.srcBytes.length = s.srcLen.toNat := Memory.length_readBytes ..

/-- The pool, the working list and ROOT after TBUILD (R94). -/
theorem treeBuilt_pool {s : State} (hinv : s.TablesInv) (hf : s.freqV = true) (h : 2 ≤ s.leafCount.toNat) :
    (treeBuilt s).nodes = (buildTree s.draw s.params s.freq (countNonZero s.freq)).1 ∧
      (treeBuilt s).wl = [BitVec.ofNat 9 (2 * countNonZero s.freq - 2)] ∧
      (treeBuilt s).root = BitVec.ofNat 9 (2 * countNonZero s.freq - 2) := by
  have hcount := leafCount_eq hinv hf
  have hwl := wl_buildTree s.draw s.params (hcount ▸ h)
  simp only [treeBuilt, hcount, hwl, List.headD_cons, and_self]

/-- The root carries SRC_LEN (R95 (b)). -/
theorem freq_root_treeBuilt {s : State} (hinv : s.TablesInv) (hf : s.freqV = true) (h : 2 ≤ s.leafCount.toNat) :
    (nodeAt (treeBuilt s).nodes (treeBuilt s).root).freq = s.srcLen := by
  obtain ⟨hnodes, -, hroot⟩ := treeBuilt_pool hinv hf h
  have hfreq : s.freq = frequencies s.srcBytes := (hinv.freq_valid hf).2.1
  rw [hnodes, hroot, freq_root_buildTree s.draw s.params (leafCount_eq hinv hf ▸ h), hfreq,
    sum_frequencies (length_srcBytes_lt s), length_srcBytes, BitVec.ofNat_toNat, BitVec.setWidth_eq]

/-- The pool holds the tree of the source (R27, R94, R95 (c), (e)). -/
theorem tree_treeBuilt {s : State} (hinv : s.TablesInv) (hf : s.freqV = true) (h : 2 ≤ s.leafCount.toNat) :
    ∃ tr, (treeBuilt s).tree = some tr ∧ huffmanTree s.params s.srcBytes = some tr ∧
      (tr.codes.map fun c => c.1).Perm (usedSymbols s.freq) ∧
      ∀ c ∈ tr.codes, 1 ≤ c.2.length ∧ c.2.length ≤ countNonZero s.freq - 1 := by
  have h2 : 2 ≤ countNonZero s.freq := leafCount_eq hinv hf ▸ h
  have hfreq : s.freq = frequencies s.srcBytes := (hinv.freq_valid hf).2.1
  obtain ⟨hnodes, -, hroot⟩ := treeBuilt_pool hinv hf h
  obtain ⟨tr, htree, hsyms, hcodes⟩ := tree_buildTree s.draw s.params h2
  refine ⟨tr, ?_, ?_, hsyms, hcodes⟩
  · rw [State.tree, hnodes, hroot, htree]
  · rw [huffmanTree_eq s.draw, ← hfreq, wl_buildTree s.draw s.params h2, List.headD_cons, htree]

/-- Settles O16: the merges are those of `merged_buildTree`, and the tree is the one of the source bytes. -/
theorem tbuildBuildsTheTree : Obligations.TbuildBuildsTheTree := by
  refine ⟨rfl, fun s => ⟨fun hrefused => if_pos hrefused, fun hm hf h0 => ?_, fun hm hf h1 => ?_,
    fun hm hf hinv h2 => ?_⟩⟩
  · exact ⟨_, by rw [exec_tbuild hm hf, if_pos h0], raised_raise .emptyInput s⟩
  · rw [exec_tbuild hm hf, if_neg (by simp [h1]), if_pos h1]
  · intro L leaves
    have h0 : s.leafCount ≠ 0 := fun h0 => by simp [h0] at h2
    have h1 : s.leafCount ≠ 1 := fun h1 => by simp [h1] at h2
    have hcount : L = countNonZero s.freq := leafCount_eq hinv hf
    have hL : 2 ≤ countNonZero s.freq := hcount.symm ▸ h2
    have hle := countNonZero_le s.freq
    have hmerges : ((treeBuilt s).nodes, (treeBuilt s).wl) =
      (mergeOnce s.draw s.params)^[L - 1] (initialPool s.draw s.freq L) := buildTree_eq_iterate s.draw s.params s.freq L
    obtain ⟨hnodes, hwl, hroot⟩ := treeBuilt_pool hinv hf h2
    have hlen := length_nodes_buildTree s.draw s.params hL
    obtain ⟨htake, hdrop⟩ := nodes_buildTree s.draw s.params hL
    rw [← hnodes] at hlen htake hdrop
    obtain ⟨tr, htree, hsame, hsyms, hcodes⟩ := tree_treeBuilt hinv hf h2
    rw [← hcount] at hlen htake hdrop hcodes hwl hroot hle
    refine ⟨treeBuilt s, tr, by rw [exec_tbuild hm hf, if_neg h0, if_neg h1], rfl, hmerges, by rw [hwl, hroot], ?_, ?_,
      hlen, ?_, htake, hdrop, freq_root_treeBuilt hinv hf h2, htree, hsame, hsyms, hcodes⟩
    · rw [State.wlLen, hwl, List.length_singleton]
    · rw [hroot, BitVec.toNat_ofNat, Nat.mod_eq_of_lt (by omega)]
    · rw [State.nodeCnt, hlen, BitVec.toNat_ofNat, Nat.mod_eq_of_lt (by omega)]

end Sys2Proof.Machine

/-! PROOF. R97 to R102: the serialized tree. TSER writes it bit by bit. `DesNode()` moves records from the source to the
pool, so what it consumes is the records of the entries it adds; in pre-order these are the serialized form of the tree
that stands there, and that form is self-delimiting. -/

namespace Sys2Proof.Machine

/-! ## The shape of a tree (R99) -/

theorem length_ser_succ (t : CodeTree) : t.ser.length + 1 = 10 * t.leaves := by
  induction t with
  | leaf sym => simp [CodeTree.ser, leafBits, CodeTree.leaves]
  | internal l r ihl ihr =>
    simp only [CodeTree.ser, CodeTree.leaves, List.length_cons, List.length_append]
    omega

theorem size_succ (t : CodeTree) : t.size + 1 = 2 * t.leaves := by
  induction t with
  | leaf sym => rfl
  | internal l r ihl ihr =>
    simp only [CodeTree.size, CodeTree.leaves]
    omega

theorem depth_lt_leaves (t : CodeTree) : t.depth < t.leaves := by
  induction t with
  | leaf sym => exact Nat.one_pos
  | internal l r ihl ihr =>
    have := leaves_pos l
    have := leaves_pos r
    simp only [CodeTree.depth, CodeTree.leaves]
    omega

/-- Settles O18: the lengths by induction on the tree; a tree of two leaves has an Internal root. -/
theorem serializedTreeLength : Obligations.SerializedTreeLength := by
  refine fun tr => ⟨length_ser_succ tr, size_succ tr, fun h => ?_, depth_lt_leaves tr⟩
  cases tr with
  | leaf sym => exact absurd h (Nat.not_succ_le_self 1)
  | internal l r => rfl

/-! ## TSER (R97, R98) -/

theorem exec_tser {s : State} {tr : CodeTree} (hm : s.mode = .write) (hv : s.treeV = true) (ht : s.tree = some tr) :
    exec .tser s = .next (writeBits tr.ser s) := by
  simp only [exec, execTser, hm, hv, ht, ne_eq, not_true_eq_false, Bool.true_eq_false, or_self, if_false]

/-- Settles O17: the serialized form is written bit by bit at the writer's cursor. -/
theorem tserWritesThePreOrder : Obligations.TserWritesThePreOrder := by
  refine ⟨rfl, fun sym => rfl, fun l r => rfl, fun s => ⟨fun hrefused => if_pos hrefused, fun hm hv h hinv => ?_⟩⟩
  obtain ⟨-, -, ⟨tr, ht⟩, -⟩ := hinv.tree_valid hv
  exact ⟨tr, _, ht, exec_tser hm hv ht, appended_writeBits tr.ser hm h⟩

/-! ## Pre-order (R97, R101) -/

/-- The record of a pool entry (R63). -/
def Node.record (n : Node) : List Bool := if n.kind then leafBits n.sym else [false]

/-- The serialized form is the records of the entries that the walk meets (R97). -/
theorem Spans.ser {nodes : List Node} {i : PoolIx} {t : CodeTree} {js : List Nat} (h : Spans nodes i t js) :
    t.ser = (js.filterMap fun j => nodes[j]?).flatMap Node.record := by
  induction h with
  | leaf hn hk => simp [CodeTree.ser, hn, Node.record, hk]
  | internal hn hk hl hr ihl ihr => simp [CodeTree.ser, hn, Node.record, hk, ihl, ihr]

theorem Spans.length_eq_size {nodes : List Node} {i : PoolIx} {t : CodeTree} {js : List Nat} (h : Spans nodes i t js) :
    js.length = t.size := by
  induction h with
  | leaf hn hk => rfl
  | internal hn hk hl hr ihl ihr =>
    simp only [CodeTree.size, List.length_cons, List.length_append, ihl, ihr]
    omega

/-- The walk meets its root first. -/
theorem Spans.root_eq {nodes : List Node} {i : PoolIx} {t : CodeTree} {js : List Nat} (h : Spans nodes i t js)
    {a k : Nat} (hjs : js = List.range' a k) : i.toNat = a ∧ 1 ≤ k := by
  obtain ⟨rest, hrest⟩ : ∃ rest, js = i.toNat :: rest := by cases h <;> exact ⟨_, rfl⟩
  rw [hjs] at hrest
  cases k with
  | zero => cases hrest
  | succ k => exact ⟨(List.cons.inj hrest).1.symm, Nat.le_add_left 1 k⟩

/-- Where the walk meets the entries one after the other, an Internal entry is followed by its left subtree, then its
right one. -/
theorem Spans.children {nodes : List Node} {i : PoolIx} {t : CodeTree} {js : List Nat} (h : Spans nodes i t js)
    {a k : Nat} (hjs : js = List.range' a k) {j : Nat} (hj : j ∈ js) {n : Node} (hn : nodes[j]? = some n)
    (hk : n.kind = false) : n.left.toNat = j + 1 ∧ j + 1 < n.right.toNat ∧ n.right.toNat < a + k := by
  induction h generalizing a k with
  | leaf hm hkm =>
    obtain rfl := List.mem_singleton.mp hj
    rw [hm] at hn
    cases hn
    rw [hk] at hkm
    cases hkm
  | @internal i m l r ls rs hm hkm hl hr ihl ihr =>
    -- the indices of the two subtrees follow the root's
    have hlen : k = 1 + ls.length + rs.length := by
      have := congrArg List.length hjs
      simp only [List.length_cons, List.length_append, List.length_range'] at this
      omega
    have hidx : List.range' a k =
        a :: (List.range' (a + 1) ls.length ++ List.range' (a + 1 + ls.length) rs.length) := by
      rw [List.range'_append_1, hlen, Nat.add_assoc, Nat.add_comm 1, List.range'_succ]
    rw [hidx] at hjs
    obtain ⟨ha, htail⟩ := List.cons.inj hjs
    obtain ⟨hls, hrs⟩ := List.append_inj htail (by simp)
    rw [List.mem_cons, List.mem_append] at hj
    rcases hj with rfl | hj | hj
    · rw [hm] at hn
      cases hn
      obtain ⟨hleft, hpos⟩ := hl.root_eq hls
      obtain ⟨hright, hpos'⟩ := hr.root_eq hrs
      omega
    · have := ihl hls hj
      omega
    · have := ihr hrs hj
      omega

/-- The part of a pool from an index on. -/
theorem filterMap_range'_getElem? {α : Type} (l : List α) (a : Nat) {k : Nat} (hk : l.length = a + k) :
    ((List.range' a k).filterMap fun j => l[j]?) = l.drop a := by
  have hdrop : (List.range' a k).map (fun j => l[j]?) = (l.drop a).map some :=
    List.ext_getElem (by simp; omega) fun j _ _ => by simp
  calc (List.range' a k).filterMap (fun j => l[j]?)
    _ = ((List.range' a k).map fun j => l[j]?).filterMap id := by rw [List.filterMap_map]; rfl
    _ = l.drop a := by rw [hdrop, List.filterMap_map]; exact List.filterMap_some

/-! ## Bits that ReadBit answered (R85) -/

theorem length_unread (s : State) : s.unread.length = 8 * s.srcLen.toNat - s.pos := by
  rw [State.unread, List.length_drop, length_srcBits]

/-- A bit answered was the next source bit. -/
theorem unread_of_readBit {s t : State} {b : Bool} (hm : s.mode = .read) (h : s.CursorInv)
    (e : readBit s = (some b, t)) : Consumed s t 1 ∧ t.eof = s.eof ∧ s.unread = b :: t.unread := by
  cases hu : s.unread with
  | nil =>
    have hend : s.pos = 8 * s.srcLen.toNat := by
      have := pos_le hm h
      have := length_unread s
      rw [hu, List.length_nil] at this
      omega
    obtain ⟨u, hn, -⟩ := readBit_of_end hm h hend
    rw [hn] at e
    cases e
  | cons c rest =>
    obtain ⟨u, hc, hcons, heof, hrest⟩ := readBit_cons hm h hu
    rw [hc] at e
    cases e
    exact ⟨hcons, heof, by rw [hrest]⟩

/-- Bits answered were the next source bits. -/
theorem unread_of_readBitsN {n : Nat} {s t : State} {bs : List Bool} (hm : s.mode = .read) (h : s.CursorInv)
    (e : readBitsN n s = (some bs, t)) :
    bs.length = n ∧ Consumed s t n ∧ t.eof = s.eof ∧ s.unread = bs ++ t.unread := by
  induction n generalizing s bs with
  | zero =>
    cases e
    exact ⟨rfl, .zero h, rfl, rfl⟩
  | succ n ih =>
    rw [readBitsN] at e
    split at e
    case h_1 => cases e
    case h_2 b u hb =>
      obtain ⟨hc, he, hu⟩ := unread_of_readBit hm h hb
      split at e
      case h_1 => cases e
      case h_2 cs v hbs =>
        cases e
        obtain ⟨hlen, hc', he', hu'⟩ := ih (hc.mode.trans hm) hc.inv hbs
        refine ⟨congrArg (· + 1) hlen, Nat.add_comm 1 n ▸ hc.trans hc', he'.trans he, ?_⟩
        rw [hu, hu', List.cons_append]

/-! ## DesNode (R100) -/

/-- What `DesNode()` may change: the pool and what a reader operation may change. -/
def DesFrame (s t : State) : Prop := ReaderFrame { s with nodes := t.nodes } t

theorem DesFrame.trans {s t u : State} (h : DesFrame s t) (k : DesFrame t u) : DesFrame s u := by
  unfold DesFrame ReaderFrame at *
  rw [k]
  conv_lhs => rw [h]

theorem desFrame_readBit {s t : State} {o : Option Bool} (e : readBit s = (o, t)) : DesFrame s t := by
  obtain rfl : (readBit s).2 = t := congrArg Prod.snd e
  have h := readBit_readerFrame s
  unfold DesFrame ReaderFrame at *
  rw [h]

theorem desFrame_readBitsN {n : Nat} {s t : State} {o : Option (List Bool)} (e : readBitsN n s = (o, t)) :
    DesFrame s t := by
  induction n generalizing s t o with
  | zero => cases e; rfl
  | succ n ih =>
    rw [readBitsN] at e
    split at e
    case h_1 hb => cases e; exact desFrame_readBit hb
    case h_2 hb => split at e <;> cases e <;> exact (desFrame_readBit hb).trans (ih ‹_›)

/-- The frame of `DesNode()`, whatever it answers. -/
theorem desFrame_desNode {fuel : Nat} {s t : State} {o : Option PoolIx} (e : desNode fuel s = (o, t)) :
    DesFrame s t := by
  induction fuel generalizing s t o with
  | zero => cases e; rfl
  | succ fuel ih =>
    have fill {u : State} (h : DesFrame s u) (k : Nat) (f : Node → Node) : DesFrame s (setNode k f u) := h.trans rfl
    have read {u : State} {o : Option Bool} (e : readBit (allocNode s) = (o, u)) : DesFrame s u :=
      DesFrame.trans (t := allocNode s) rfl (desFrame_readBit e)
    simp only [desNode] at e
    split at e
    · cases e; rfl
    split at e
    case h_1 hb => cases e; exact read hb
    case h_2 hb =>
      split at e
      case h_1 hbs => cases e; exact (read hb).trans (desFrame_readBitsN hbs)
      case h_2 hbs => cases e; exact fill ((read hb).trans (desFrame_readBitsN hbs)) _ _
    case h_3 hb =>
      have h1 := fill (read hb) s.nodes.length fun n => { n with kind := false, freqP := false }
      split at e
      case h_1 hl => cases e; exact h1.trans (ih hl)
      case h_2 l _ hl =>
        have h2 := fill (h1.trans (ih hl)) s.nodes.length fun n => { n with left := l }
        split at e
        case h_1 hr => cases e; exact h2.trans (ih hr)
        case h_2 hr => cases e; exact fill (h2.trans (ih hr)) _ _

/-- A `DesNode()` that answers an index: an entry for each record read, an Internal one linked to each subtree when that
is complete. -/
inductive DesRun : State → State → Prop
  | leaf {s u v : State} {bs : List Bool} (hb : readBit (allocNode s) = (some true, u))
      (hbs : readBitsN 8 u = (some bs, v)) :
      DesRun s (setNode s.nodes.length (fun n => { n with kind := true, sym := ofBitsMsb 8 bs, freqP := false }) v)
  | internal {s u v w : State} (l r : PoolIx) (hb : readBit (allocNode s) = (some false, u))
      (hl : DesRun (setNode s.nodes.length (fun n => { n with kind := false, freqP := false }) u) v)
      (hr : DesRun (setNode s.nodes.length (fun n => { n with left := l }) v) w) :
      DesRun s (setNode s.nodes.length (fun n => { n with right := r }) w)

theorem desRun_of_desNode {fuel : Nat} {s t : State} {root : PoolIx} (e : desNode fuel s = (some root, t)) :
    DesRun s t := by
  induction fuel generalizing s t root with
  | zero => cases e
  | succ fuel ih =>
    simp only [desNode] at e
    split at e
    · cases e
    split at e
    case h_1 => cases e
    case h_2 u hb =>
      split at e
      case h_1 => cases e
      case h_2 bs v hbs =>
        cases e
        exact .leaf hb hbs
    case h_3 u hb =>
      split at e
      case h_1 => cases e
      case h_2 l v hl =>
        split at e
        case h_1 => cases e
        case h_2 r w hr =>
          cases e
          exact .internal l r hb (ih hl) (ih hr)

/-- The pool with the entry of a record just read. -/
theorem nodes_entry {s u : State} (hu : u.nodes = (allocNode s).nodes) (f : Node → Node) :
    (setNode s.nodes.length f u).nodes = s.nodes ++ [f (freeNode s.draw s.nodes.length)] := by
  rw [setNode_nodes, hu, allocNode_nodes, modify_concat_length]

/-- A field written changes nothing else of the pool. -/
theorem map_modify_of_eq {α β : Type} (p : α → β) {f : α → α} (hf : ∀ x, p (f x) = p x) (l : List α) (i : Nat) :
    (l.modify i f).map p = l.map p := by
  induction l generalizing i with
  | nil => rw [List.modify_nil]
  | cons x l ih => cases i <;> simp [hf, ih]

/-- No pool entry has a frequency (R101). -/
def State.NoFreq (s : State) : Prop := ∀ n ∈ s.nodes, n.freqP = false

theorem State.NoFreq.entry {s u : State} (h : s.NoFreq) (hu : u.nodes = (allocNode s).nodes) {f : Node → Node}
    (hf : ∀ n, (f n).freqP = false) : (setNode s.nodes.length f u).NoFreq := by
  rw [State.NoFreq, nodes_entry hu, List.forall_mem_append, List.forall_mem_singleton]
  exact ⟨h, hf _⟩

theorem State.NoFreq.link {s : State} (h : s.NoFreq) (i : Nat) {f : Node → Node}
    (hf : ∀ n, (f n).freqP = n.freqP) : (setNode i f s).NoFreq := by
  intro n hn
  have hmem : n.freqP ∈ s.nodes.map Node.freqP := map_modify_of_eq Node.freqP hf s.nodes i ▸ List.mem_map_of_mem hn
  obtain ⟨m, hm, hmn⟩ := List.mem_map.mp hmem
  exact hmn ▸ h m hm

theorem DesRun.noFreq {s t : State} (h : DesRun s t) (hs : s.NoFreq) : t.NoFreq := by
  induction h with
  | leaf hb hbs => exact hs.entry ((readBitsN_nodes hbs).trans (readBit_nodes hb)) fun _ => rfl
  | internal l r hb hl hr ihl ihr =>
    exact (ihr ((ihl (hs.entry (readBit_nodes hb) fun _ => rfl)).link _ fun _ => rfl)).link _ fun _ => rfl

/-! ## The stream that DesNode reads (R100) -/

/-- Records have moved from the source to the pool: those in the pool and the bits not consumed are together the same
as before. -/
structure RecordsMoved (s t : State) : Prop where
  mode   : t.mode = s.mode
  inv    : t.CursorInv
  eof    : t.eof = s.eof
  stream : t.nodes.flatMap Node.record ++ t.unread = s.nodes.flatMap Node.record ++ s.unread

theorem RecordsMoved.trans {s t u : State} (h : RecordsMoved s t) (k : RecordsMoved t u) : RecordsMoved s u :=
  ⟨k.mode.trans h.mode, k.inv, k.eof.trans h.eof, k.stream.trans h.stream⟩

/-- A record read and its entry written. -/
theorem RecordsMoved.entry {s u : State} {n : Nat} {f : Node → Node} {bits : List Bool}
    (hu : Consumed (allocNode s) u n) (he : u.eof = s.eof) (hs : s.unread = bits ++ u.unread) (hf : ∀ m, (f m).record = bits) :
    RecordsMoved s (setNode s.nodes.length f u) where
  mode := hu.mode
  inv := hu.inv.congr rfl
  eof := he
  stream := by
    have hn : u.nodes = (allocNode s).nodes := by rw [hu.frame]
    have hun : (setNode s.nodes.length f u).unread = u.unread := rfl
    rw [nodes_entry hn, hun, hs, List.flatMap_append]
    simp [hf]

/-- A link written. -/
theorem RecordsMoved.link {s t : State} (h : RecordsMoved s t) (i : Nat) {f : Node → Node}
    (hf : ∀ m, (f m).record = m.record) : RecordsMoved s (setNode i f t) where
  mode := h.mode
  inv := h.inv.congr rfl
  eof := h.eof
  stream := by
    have hun : (setNode i f t).unread = t.unread := rfl
    rw [hun, ← h.stream, setNode_nodes, List.flatMap_def, map_modify_of_eq _ hf, List.flatMap_def]

theorem DesRun.recordsMoved {s t : State} (h : DesRun s t) (hm : s.mode = .read) (hi : s.CursorInv) :
    RecordsMoved s t := by
  induction h with
  | @leaf s u v bs hb hbs =>
    obtain ⟨hc, he, hu⟩ := unread_of_readBit (s := allocNode s) hm (hi.congr rfl) hb
    obtain ⟨hlen, hc', he', hu'⟩ := unread_of_readBitsN (hc.mode.trans hm) hc.inv hbs
    refine .entry (hc.trans hc') (he'.trans he) (bits := true :: bs) ?_ fun m => ?_
    · rw [List.cons_append, ← hu']
      exact hu
    · exact congrArg (true :: ·) (bitsMsb_ofBitsMsb bs hlen)
  | @internal s u v w l r hb hl hr ihl ihr =>
    obtain ⟨hc, he, hu⟩ := unread_of_readBit (s := allocNode s) hm (hi.congr rfl) hb
    have h1 : RecordsMoved s _ := .entry hc he (bits := [false])
      (f := fun n => { n with kind := false, freqP := false }) hu fun m => rfl
    have h2 := (h1.trans (ihl (h1.mode.trans hm) h1.inv)).link s.nodes.length (f := fun n => { n with left := l })
      fun _ => rfl
    exact (h2.trans (ihr (h2.mode.trans hm) h2.inv)).link _ fun _ => rfl


/-! ## The tree that DesNode rebuilds (R100, R101) -/

/-- The tree `tr` has been rebuilt at the end of the pool, in pre-order, from the next bits of the source. -/
structure Rebuilt (s t : State) (root : PoolIx) (tr : CodeTree) : Prop where
  root_eq : root = BitVec.ofNat 9 s.nodes.length
  length  : t.nodes.length = s.nodes.length + tr.size
  bound   : t.nodes.length ≤ Config.poolN
  spans   : Spans t.nodes root tr (List.range' s.nodes.length tr.size)
  unread  : s.unread = tr.ser ++ t.unread
  moved   : RecordsMoved s t

/-- Where `DesNode()` answers an index, the source went on with the serialized form of the tree it rebuilt: that form is
the records of the entries added. -/
theorem rebuilt_of_desNode {fuel : Nat} {s t : State} {root : PoolIx} (hm : s.mode = .read) (h : s.CursorInv)
    (e : desNode fuel s = (some root, t)) : ∃ tr, Rebuilt s t root tr := by
  obtain ⟨hroot, k, hlength, hbound, hkept, tr, hspans⟩ := desNode_added e
  have hmoved := (desRun_of_desNode e).recordsMoved hm h
  obtain rfl : k = tr.size := by rw [← hspans.length_eq_size, List.length_range']
  have htake : t.nodes.take s.nodes.length = s.nodes := by
    apply List.ext_getElem?
    intro j
    rcases Nat.lt_or_ge j s.nodes.length with hj | hj
    · rw [List.getElem?_take_of_lt hj, hkept j hj]
    · simp [hj]
  have hstream := hmoved.stream
  rw [← List.take_append_drop s.nodes.length t.nodes, htake, List.flatMap_append, List.append_assoc,
    ← filterMap_range'_getElem? t.nodes _ hlength, ← hspans.ser] at hstream
  exact ⟨tr, hroot, hlength, hbound, hspans, (List.append_cancel_left hstream).symm, hmoved⟩

/-- Only one tree can stand there. -/
theorem Rebuilt.of_unread {s t : State} {root : PoolIx} {tr tr' : CodeTree} {rest : List Bool}
    (h : Rebuilt s t root tr') (hu : s.unread = tr.ser ++ rest) : Rebuilt s t root tr ∧ t.unread = rest := by
  obtain ⟨rfl, hrest⟩ := ser_append_inj (h.unread.symm.trans hu)
  exact ⟨h, hrest⟩

/-- A Leaf record read (R100). -/
theorem desNode_leaf {fuel : Nat} {s u v : State} {bs : List Bool} (hlen : s.nodes.length < Config.poolN)
    (hb : readBit (allocNode s) = (some true, u)) (hbs : readBitsN 8 u = (some bs, v)) :
    ∃ t, desNode (fuel + 1) s = (some (BitVec.ofNat 9 s.nodes.length), t) := by
  simp only [desNode, if_neg (Nat.not_le.mpr hlen), hb, hbs]
  exact ⟨_, rfl⟩

/-- An Internal record read, then the records of its two subtrees (R100). -/
theorem desNode_internal {fuel : Nat} {s u v w : State} {l r : PoolIx} (hlen : s.nodes.length < Config.poolN)
    (hb : readBit (allocNode s) = (some false, u))
    (hl : desNode fuel (setNode s.nodes.length (fun n => { n with kind := false, freqP := false }) u) = (some l, v))
    (hr : desNode fuel (setNode s.nodes.length (fun n => { n with left := l }) v) = (some r, w)) :
    ∃ t, desNode (fuel + 1) s = (some (BitVec.ofNat 9 s.nodes.length), t) := by
  simp only [desNode, if_neg (Nat.not_le.mpr hlen), hb, hl, hr]
  exact ⟨_, rfl⟩

/-- Where a tree stands in the source and the pool has room for it, `DesNode()` answers an index. -/
theorem desNode_of_ser (tr : CodeTree) {fuel : Nat} {s : State} {rest : List Bool} (hm : s.mode = .read)
    (h : s.CursorInv) (hu : s.unread = tr.ser ++ rest) (hlen : s.nodes.length + tr.size ≤ Config.poolN)
    (hfuel : tr.size ≤ fuel) : ∃ root t, desNode fuel s = (some root, t) := by
  induction tr generalizing fuel s rest with
  | leaf sym =>
    simp only [CodeTree.size] at hfuel
    obtain ⟨fuel, rfl⟩ : ∃ f, fuel = f + 1 := ⟨fuel - 1, by omega⟩
    obtain ⟨u, hb, hc, -, hrest⟩ := readBit_cons (s := allocNode s) hm (h.congr rfl) hu
    obtain ⟨v, hbs, -⟩ := readBitsN_append (hc.mode.trans hm) hc.inv hrest
    rw [length_bitsMsb] at hbs
    exact ⟨_, desNode_leaf hlen hb hbs⟩
  | internal l r ihl ihr =>
    simp only [CodeTree.size] at hlen hfuel
    obtain ⟨fuel, rfl⟩ : ∃ f, fuel = f + 1 := ⟨fuel - 1, by omega⟩
    rw [CodeTree.ser, List.cons_append, List.append_assoc] at hu
    obtain ⟨u, hb, hc, he, hrest⟩ := readBit_cons (s := allocNode s) hm (h.congr rfl) hu
    have h1 : RecordsMoved s (setNode s.nodes.length (fun n => { n with kind := false, freqP := false }) u) :=
      .entry hc he (bits := [false]) (hu.trans (by rw [hrest]; rfl)) fun _ => rfl
    have hm1 := h1.mode.trans hm
    have hlen1 : u.nodes.length = s.nodes.length + 1 := by simp [readBit_nodes hb]
    obtain ⟨jl, v, hl⟩ := ihl (fuel := fuel) hm1 h1.inv hrest (by simp; omega) (by omega)
    obtain ⟨_, hv⟩ := rebuilt_of_desNode hm1 h1.inv hl
    obtain ⟨hv, hvrest⟩ := hv.of_unread hrest
    have h2 := hv.moved.link s.nodes.length (f := fun n => { n with left := jl }) fun _ => rfl
    have hvlen := hv.length
    simp only [setNode_nodes, List.length_modify] at hvlen
    have hvlen2 : (setNode s.nodes.length (fun n => { n with left := jl }) v).nodes.length = v.nodes.length :=
      List.length_modify ..
    obtain ⟨jr, w, hr⟩ := ihr (fuel := fuel) (h2.mode.trans hm1) h2.inv hvrest (by omega) (by omega)
    exact ⟨_, desNode_internal (by omega) hb hl hr⟩

/-! ## TDES (R100 to R102) -/

theorem exec_tdes_of_some {s t : State} {root : PoolIx} (hm : s.mode = .read)
    (e : desNode (Config.poolN + 1) (dropTree s) = (some root, t)) :
    exec .tdes s = .next { t with root := root, treeV := true } := by
  rw [dropTree] at e
  simp only [exec, execTdes, if_neg (not_not.mpr hm), e]

theorem exec_tdes_of_none {s t : State} (hm : s.mode = .read)
    (e : desNode (Config.poolN + 1) (dropTree s) = (none, t)) : exec .tdes s = .next (raise .invalidFormat t) := by
  rw [dropTree] at e
  simp only [exec, execTdes, if_neg (not_not.mpr hm), e]

/-- The error of a TDES that ended inside the tree (R102, R131). -/
theorem raised_of_desNode {fuel : Nat} {s t : State} {o : Option PoolIx} (e : desNode fuel (dropTree s) = (o, t)) :
    Raised .invalidFormat s (raise .invalidFormat t) where
  errCode := rfl
  mode := rfl
  closed := (closed_release t).congr rfl
  frame := by
    have hf := desFrame_desNode e
    unfold DesFrame ReaderFrame at hf
    rw [hf]
    rfl

/-- The bits of a rebuilt tree are consumed (R100). -/
theorem Rebuilt.pos {s t : State} {root : PoolIx} {tr : CodeTree} (h : Rebuilt s t root tr) (hm : s.mode = .read)
    (hi : s.CursorInv) (hf : DesFrame s t) : t.pos = s.pos + tr.ser.length := by
  have hsrc : t.srcLen = s.srcLen := hf.srcLen
  have hlen := congrArg List.length h.unread
  have hs := pos_le hm hi
  have ht := pos_le (h.moved.mode.trans hm) h.moved.inv
  rw [List.length_append, length_unread, length_unread, hsrc] at hlen
  rw [hsrc] at ht
  omega

/-- The walk of R27 reads a tree of at most 511 nodes. -/
theorem Spans.read_of_length_le {nodes : List Node} {i : PoolIx} {t : CodeTree} {js : List Nat} (h : Spans nodes i t js)
    (hlen : js.length ≤ 511) :
    treeAt nodes (Config.depthMax + 1) i = some t ∧ reach nodes (Config.depthMax + 1) i = js := by
  have hdepth := h.depth_lt
  exact h.read (by simp only [Config.depthMax]; omega)

/-- What TDES may change: the tree with its flags, the codes' flag and what a reader operation may change. -/
theorem DesFrame.planted {s t : State} {root : PoolIx} (h : DesFrame (dropTree s) t) :
    ReaderFrame { s with nodes := t.nodes, root := root, treeV := true, codeV := false }
      { t with root := root, treeV := true } := by
  unfold DesFrame ReaderFrame dropTree at *
  rw [h]

/-- TDES where a tree stands at the cursor (R100). -/
theorem exec_tdes_of_ser {s : State} {tr : CodeTree} {rest : List Bool} (hm : s.mode = .read) (h : s.CursorInv)
    (hu : s.unread = tr.ser ++ rest) (hsize : tr.size ≤ 511) :
    ∃ t, exec .tdes s = .next t ∧ t.tree = some tr ∧ t.nodes.length = tr.size ∧ (∀ n ∈ t.nodes, n.freqP = false) ∧
      Consumed { s with nodes := t.nodes, root := 0, treeV := true, codeV := false } t tr.ser.length ∧
      t.eof = s.eof := by
  have hdrop : (dropTree s).CursorInv := h.congr rfl
  obtain ⟨root, t, e⟩ := desNode_of_ser tr (fuel := Config.poolN + 1) (s := dropTree s) hm hdrop hu
    ((Nat.zero_add _).trans_le hsize) (hsize.trans (Nat.le_succ _))
  obtain ⟨_, hreb⟩ := rebuilt_of_desNode (s := dropTree s) hm hdrop e
  obtain ⟨hreb, -⟩ := hreb.of_unread hu
  obtain rfl : root = 0 := hreb.root_eq
  have hframe := desFrame_desNode e
  refine ⟨_, exec_tdes_of_some hm e, (hreb.spans.read_of_length_le (by simpa using hsize)).1,
    hreb.length.trans (Nat.zero_add _), (desRun_of_desNode e).noFreq nofun, ⟨hreb.pos hm hdrop hframe, ?_, ?_⟩,
    hreb.moved.eof⟩
  · exact hreb.moved.inv.congr rfl
  · exact hframe.planted

/-- TDES where no tree that fits the pool stands at the cursor (R100, R102). -/
theorem exec_tdes_of_no_ser {s : State} (hm : s.mode = .read) (h : s.CursorInv)
    (hno : ∀ (tr : CodeTree) (rest : List Bool), s.unread = tr.ser ++ rest → 511 < tr.size) :
    ∃ t, exec .tdes s = .next t ∧ Raised .invalidFormat s t := by
  rcases he : desNode (Config.poolN + 1) (dropTree s) with ⟨o, t⟩
  cases o with
  | none => exact ⟨_, exec_tdes_of_none hm he, raised_of_desNode he⟩
  | some root =>
    obtain ⟨tr, hreb⟩ := rebuilt_of_desNode (s := dropTree s) hm (h.congr rfl) he
    have hsize := hno tr t.unread hreb.unread
    have hbound : t.nodes.length ≤ 511 := hreb.bound
    have hlen : t.nodes.length = 0 + tr.size := hreb.length
    omega

/-- Settles O19: what `DesNode()` consumes is the records it adds, and the serialized form is self-delimiting. -/
theorem tdesRebuildsTheTree : Obligations.TdesRebuildsTheTree :=
  ⟨rfl, fun _ => ⟨fun hm => if_pos hm, fun _ _ hm h hu hsize => exec_tdes_of_ser hm h hu hsize,
    fun hm h hno => exec_tdes_of_no_ser hm h hno⟩⟩

/-- Settles O20: the walk from ROOT meets the pool's indices in order, so the children follow from `Spans.children`. -/
theorem tdesPoolIsInPreOrder : Obligations.TdesPoolIsInPreOrder := by
  intro s t hm ht htm
  rcases he : desNode (Config.poolN + 1) (dropTree s) with ⟨o, u⟩
  cases o with
  | none =>
    rw [exec_tdes_of_none hm he] at ht
    cases ht
    cases htm
  | some root =>
    rw [exec_tdes_of_some hm he] at ht
    cases ht
    obtain ⟨rfl, k, hlength, hbound, -, tr, hspans⟩ := desNode_added he
    obtain rfl : u.nodes.length = k := hlength.trans (Nat.zero_add k)
    have hspans : Spans u.nodes 0 tr (List.range' 0 u.nodes.length) := hspans
    have hsize : u.nodes.length = tr.size := by rw [← hspans.length_eq_size, List.length_range']
    have hodd := size_succ tr
    refine ⟨rfl, ?_, hbound, ?_, (desRun_of_desNode he).noFreq nofun, fun i n hn hk => ?_⟩
    · simp only
      omega
    · exact (hspans.read_of_length_le (by simpa using hbound)).2.trans List.range_eq_range'.symm
    · have hi : i < u.nodes.length := (List.getElem?_eq_some_iff.mp hn).1
      have hchildren := hspans.children rfl (List.mem_range'_1.mpr ⟨Nat.zero_le i, by simpa using hi⟩) hn hk
      simpa using hchildren

end Sys2Proof.Machine

/-! PROOF. R103 to R106, R120: the Code Table and the codes of a tree. The walk of CGEN sets the entries of the codes in
walk order, so of the codes of one symbol the last one counts; the codes of a tree with an Internal root are a complete
prefix code, and the walk along them decodes. -/

namespace Sys2Proof.Machine

/-! ## Left-justified paths (R29, R103) -/

theorem topBits_leftJustified (p : List Bool) :
    topBits (leftJustified p) 64 = (p ++ List.replicate 64 false).take 64 :=
  bitsMsb_ofBitsMsb _ (by simp)

theorem topBits_leftJustified_of_le {p : List Bool} (h : p.length ≤ 64) :
    topBits (leftJustified p) 64 = p ++ List.replicate (64 - p.length) false := by
  rw [topBits_leftJustified, List.take_append, List.take_of_length_le h, List.take_replicate,
    min_eq_left (Nat.sub_le 64 p.length)]

theorem getMsbD_leftJustified (p : List Bool) {i : Nat} (hi : i < 64) :
    (leftJustified p).getMsbD i = p.getD i false := by
  have hbit : (leftJustified p).getMsbD i = (p ++ List.replicate 64 false).getD i false := by
    have h := congrArg (fun bs : List Bool => bs.getD i false) (topBits_leftJustified p)
    simpa only [topBits, List.getD_eq_getElem?_getD, List.getElem?_map, List.getElem?_range hi, Option.map_some,
      Option.getD_some, List.getElem?_take_of_lt hi] using h
  rcases Nat.lt_or_ge i p.length with h | h
  · rw [hbit, List.getD_append _ _ _ _ h]
  · rw [hbit, List.getD_append_right _ _ _ _ h, List.getD_eq_default _ _ h, List.getD_eq_getElem?_getD,
      List.getElem?_getD_replicate_default_eq]

theorem leftJustified_nil : leftJustified [] = 0 := by decide

/-- The edge that leaves the end of a path has the bit of the path's depth. -/
theorem getMsbD_leftJustified_concat (p : List Bool) (b : Bool) {i : Nat} (hi : i < 64) :
    (leftJustified (p ++ [b])).getMsbD i = ((leftJustified p).getMsbD i || (decide (i = p.length) && b)) := by
  rw [getMsbD_leftJustified _ hi, getMsbD_leftJustified _ hi]
  rcases Nat.lt_trichotomy i p.length with h | rfl | h
  · rw [List.getD_append _ _ _ _ h, decide_eq_false h.ne, Bool.false_and, Bool.or_false]
  · simp
  · rw [List.getD_eq_default _ _ (by simpa using h), List.getD_eq_default _ _ h.le, decide_eq_false h.ne',
      Bool.false_and, Bool.or_false]

theorem getMsbD_rightEdge (d : Nat) {i : Nat} (hi : i < 64) : (rightEdge d).getMsbD i = decide (i = d) := by
  unfold rightEdge Config.codeW
  by_cases hd : d < 64
  · rw [if_pos hd, BitVec.getMsbD, BitVec.getLsbD_shiftLeft, BitVec.getLsbD_one]
    refine Bool.eq_iff_iff.mpr ?_
    simp only [Bool.and_eq_true, Bool.not_eq_true', decide_eq_true_eq, decide_eq_false_iff_not]
    omega
  · rw [if_neg hd, decide_eq_false (by omega)]
    simp

/-- A LEFT edge sets no bit. -/
theorem leftJustified_concat_false (p : List Bool) : leftJustified (p ++ [false]) = leftJustified p := by
  refine BitVec.eq_of_getMsbD_eq fun i hi => ?_
  rw [getMsbD_leftJustified_concat _ _ hi, Bool.and_false, Bool.or_false]

/-- A RIGHT edge sets the bit of its depth. -/
theorem leftJustified_concat_true (p : List Bool) :
    leftJustified (p ++ [true]) = leftJustified p ||| rightEdge p.length := by
  refine BitVec.eq_of_getMsbD_eq fun i hi => ?_
  rw [getMsbD_leftJustified_concat _ _ hi, BitVec.getMsbD_or, getMsbD_rightEdge _ hi, Bool.and_true]

/-! ## The walk of CGEN (R104) -/

/-- The table with the entry of one code set (R104). -/
def setCode (tab : CodeTable) (c : Byte × List Bool) : CodeTable :=
  (setEntry tab.1 c.1 (leftJustified c.2), setEntry tab.2 c.1 (BitVec.ofNat 7 c.2.length))

/-- The code set, or none where the field has no room for it (R104). -/
def trySetCode (tab : CodeTable) (c : Byte × List Bool) : Option CodeTable :=
  if 64 < c.2.length then none else some (setCode tab c)

/-- The codes below a node that the path `p` leads to. -/
def CodeTree.codesBelow (t : CodeTree) (p : List Bool) : List (Byte × List Bool) :=
  t.codes.map fun c => (c.1, p ++ c.2)

@[simp] theorem codesBelow_nil (t : CodeTree) : t.codesBelow [] = t.codes := by simp [CodeTree.codesBelow]

theorem codesBelow_leaf (sym : Byte) (p : List Bool) : (CodeTree.leaf sym).codesBelow p = [(sym, p)] := by
  simp [CodeTree.codesBelow, CodeTree.codes]

theorem codesBelow_internal (l r : CodeTree) (p : List Bool) :
    (CodeTree.internal l r).codesBelow p = l.codesBelow (p ++ [false]) ++ r.codesBelow (p ++ [true]) := by
  simp only [CodeTree.codesBelow, CodeTree.codes, List.map_append, List.map_map, Function.comp_def, List.append_assoc,
    List.singleton_append]

theorem codeWalk_internal (l r : CodeTree) (val : Word64) (d : Nat) (tab : CodeTable) :
    codeWalk (.internal l r) val d tab =
      (codeWalk l val (d + 1) tab).bind (codeWalk r (val ||| rightEdge d) (d + 1)) := by
  rw [codeWalk]
  cases codeWalk l val (d + 1) tab <;> rfl

/-- The walk sets the codes one after the other. -/
theorem codeWalk_eq_foldlM (t : CodeTree) (p : List Bool) (tab : CodeTable) :
    codeWalk t (leftJustified p) p.length tab = (t.codesBelow p).foldlM trySetCode tab := by
  induction t generalizing p tab with
  | leaf sym =>
    rw [codesBelow_leaf, List.foldlM_cons, codeWalk, trySetCode]
    split <;> rfl
  | internal l r ihl ihr =>
    have hleft := ihl (p ++ [false])
    have hright := ihr (p ++ [true])
    simp only [leftJustified_concat_false, leftJustified_concat_true, List.length_append] at hleft hright
    rw [codeWalk_internal, codesBelow_internal, List.foldlM_append, ← hleft]
    exact congrArg _ (funext hright)

/-- Setting codes fails exactly where one of them is longer than the field. -/
theorem foldlM_trySetCode (cs : List (Byte × List Bool)) (tab : CodeTable) :
    cs.foldlM trySetCode tab = if ∀ c ∈ cs, c.2.length ≤ 64 then some (cs.foldl setCode tab) else none := by
  induction cs generalizing tab with
  | nil => simp
  | cons c cs ih =>
    rw [List.foldlM_cons, trySetCode]
    by_cases h : c.2.length ≤ 64
    · rw [if_neg (Nat.not_lt.mpr h)]
      simp only [List.forall_mem_cons, h, true_and]
      exact ih (setCode tab c)
    · rw [if_pos (Nat.lt_of_not_le h), if_neg fun hall => h (hall c List.mem_cons_self)]
      rfl

theorem codeWalk_zero (t : CodeTree) : codeWalk t 0 0 CodeTable.zero =
    if ∀ c ∈ t.codes, c.2.length ≤ 64 then some (t.codes.foldl setCode CodeTable.zero) else none := by
  rw [← foldlM_trySetCode, ← codesBelow_nil t, ← codeWalk_eq_foldlM, leftJustified_nil, List.length_nil]

/-! ## The entries of the Code Table (R104 (c)) -/

/-- The last code of a symbol in a list of codes. -/
def lastCode (cs : List (Byte × List Bool)) (sym : Byte) : Option (List Bool) :=
  (cs.reverse.find? fun c => c.1 == sym).map fun c => c.2

theorem codeOf_eq_lastCode (t : CodeTree) (sym : Byte) : t.codeOf sym = lastCode t.codes sym := rfl

theorem lastCode_concat (cs : List (Byte × List Bool)) (c : Byte × List Bool) (sym : Byte) :
    lastCode (cs ++ [c]) sym = if sym = c.1 then some c.2 else lastCode cs sym := by
  rw [lastCode, List.reverse_concat]
  by_cases h : sym = c.1
  · rw [List.find?_cons_of_pos (by simpa using h.symm), if_pos h, Option.map_some]
  · rw [List.find?_cons_of_neg (by simpa using Ne.symm h), if_neg h, lastCode]

/-- After a run of codes an entry holds the last code of its symbol, if there is one. -/
theorem entry_foldl_setCode (cs : List (Byte × List Bool)) (tab : CodeTable) (sym : Byte) :
    entry (cs.foldl setCode tab).1 sym = (lastCode cs sym).elim (entry tab.1 sym) leftJustified ∧
    entry (cs.foldl setCode tab).2 sym =
      (lastCode cs sym).elim (entry tab.2 sym) fun p => BitVec.ofNat 7 p.length := by
  induction cs using List.reverseRecOn with
  | nil => exact ⟨rfl, rfl⟩
  | append_singleton cs c ih =>
    simp only [List.foldl_concat, setCode, entry_setEntry, lastCode_concat]
    split
    · exact ⟨rfl, rfl⟩
    · exact ih

theorem mem_codes_of_codeOf {t : CodeTree} {sym : Byte} {p : List Bool} (h : t.codeOf sym = some p) :
    (sym, p) ∈ t.codes := by
  obtain ⟨c, hc, rfl⟩ := Option.map_eq_some_iff.mp h
  obtain rfl : c.1 = sym := by simpa using List.find?_some hc
  exact List.mem_reverse.mp (List.mem_of_find?_eq_some hc)

/-- What CGEN fills in where no leaf is too deep (R104). -/
theorem codeWalk_entries {t : CodeTree} {tab : CodeTable} (h : codeWalk t 0 0 CodeTable.zero = some tab) (sym : Byte) :
    (t.codeOf sym = none → entry tab.2 sym = 0 ∧ entry tab.1 sym = 0) ∧
    (∀ p, t.codeOf sym = some p → (entry tab.2 sym).toNat = p.length ∧
      topBits (entry tab.1 sym) 64 = p ++ List.replicate (64 - p.length) false) := by
  rw [codeWalk_zero] at h
  split at h
  case isFalse => cases h
  case isTrue hle =>
    cases h
    obtain ⟨hval, hlen⟩ := entry_foldl_setCode t.codes CodeTable.zero sym
    rw [← codeOf_eq_lastCode] at hval hlen
    refine ⟨fun hnone => ?_, fun p hp => ?_⟩
    · rw [hnone] at hval hlen
      exact ⟨hlen.trans (by simp [entry, CodeTable.zero]), hval.trans (by simp [entry, CodeTable.zero])⟩
    · have hfits : p.length ≤ 64 := hle _ (mem_codes_of_codeOf hp)
      have hmod : p.length % 2 ^ 7 = p.length := Nat.mod_eq_of_lt (by omega)
      rw [hval, hlen, hp]
      exact ⟨hmod, topBits_leftJustified_of_le hfits⟩

/-- CGEN with a tree in an open session: the walk decides. -/
theorem exec_cgen {s : State} {tr : CodeTree} (hv : s.treeV = true) (hm : s.mode = .write ∨ s.mode = .read)
    (ht : s.tree = some tr) :
    exec .cgen s = (codeWalk tr 0 0 CodeTable.zero).elim (.next (raise .codeOverflow s)) fun tab =>
      .next { s with codeVal := tab.1, codeLen := tab.2, codeV := true } := by
  have hguard : ¬ (s.treeV = false ∨ (s.mode ≠ .write ∧ s.mode ≠ .read)) := by simp only [hv]; tauto
  simp only [exec, execCgen, if_neg hguard, ht]
  cases codeWalk tr 0 0 CodeTable.zero <;> rfl

/-- Settles O21: the walk sets the codes one after the other, and fails where one of them is longer than the field. -/
theorem cgenFillsTheCodeTable : Obligations.CgenFillsTheCodeTable := by
  refine ⟨rfl, fun s => ⟨fun hrefused => if_pos hrefused, fun tr hv hm ht => ⟨fun ⟨c, hc, hlong⟩ => ?_, fun hle => ?_⟩⟩⟩
  · have hwalk : codeWalk tr 0 0 CodeTable.zero = none := by
      rw [codeWalk_zero, if_neg fun hall => absurd (hall c hc) (Nat.not_le.mpr hlong)]
    exact ⟨_, by rw [exec_cgen hv hm ht, hwalk]; rfl, raised_raise .codeOverflow s⟩
  · have hwalk := (codeWalk_zero tr).trans (if_pos hle)
    exact ⟨_, by rw [exec_cgen hv hm ht, hwalk]; rfl, rfl, codeWalk_entries hwalk⟩

/-! ## The codes of a tree (R105) -/

theorem length_codes (t : CodeTree) : t.codes.length = t.leaves := by
  induction t with
  | leaf sym => rfl
  | internal l r ihl ihr => simp only [CodeTree.codes, CodeTree.leaves, List.length_append, List.length_map, ihl, ihr]

/-- The codes of a tree are a prefix code (R105 (b)): two codes part at an edge or lie below the same child. -/
theorem prefixFree_codes (t : CodeTree) : t.codes.Pairwise fun c d => ¬ c.2 <+: d.2 ∧ ¬ d.2 <+: c.2 := by
  induction t with
  | leaf sym => exact List.pairwise_singleton _ _
  | internal l r ihl ihr =>
    refine List.pairwise_append.mpr ⟨?_, ?_, ?_⟩
    · simpa [List.pairwise_map, List.cons_prefix_cons] using ihl
    · simpa [List.pairwise_map, List.cons_prefix_cons] using ihr
    · intro c hc d hd
      obtain ⟨c, -, rfl⟩ := List.mem_map.mp hc
      obtain ⟨d, -, rfl⟩ := List.mem_map.mp hd
      simp [List.cons_prefix_cons]

/-- The code lengths are complete (R105 (c)), counted in leaves of a full tree of any depth `D` that holds the tree. -/
theorem sum_pow_codes {t : CodeTree} {D : Nat} (h : t.depth ≤ D) :
    (t.codes.map fun c => 2 ^ (D - c.2.length)).sum = 2 ^ D := by
  induction t generalizing D with
  | leaf sym => simp [CodeTree.codes]
  | internal l r ihl ihr =>
    rw [CodeTree.depth] at h
    obtain ⟨D, rfl⟩ : ∃ E, D = E + 1 := ⟨D - 1, by omega⟩
    simp only [CodeTree.codes, List.map_append, List.map_map, Function.comp_def, List.length_cons,
      Nat.add_sub_add_right, List.sum_append, ihl (D := D) (by omega), ihr (D := D) (by omega)]
    rw [pow_succ, Nat.mul_two]

/-! ## The walk along a code (R105 (d), R120) -/

@[simp] theorem decFrom_nil (root t : CodeTree) : root.decFrom t [] = [] := by simp [CodeTree.decFrom]

theorem nil_notMem_codes_internal (l r : CodeTree) (sym : Byte) : (sym, []) ∉ (CodeTree.internal l r).codes := by
  simp [CodeTree.codes]

/-- The first edge of a code leads to its leaf, or to an Internal node below which the rest is a code. -/
theorem child_of_mem_codes {l r : CodeTree} {sym : Byte} {b : Bool} {p : List Bool}
    (h : (sym, b :: p) ∈ (CodeTree.internal l r).codes) :
    ((if b then r else l) = .leaf sym ∧ p = []) ∨
      ∃ l' r', (if b then r else l) = .internal l' r' ∧ (sym, p) ∈ (CodeTree.internal l' r').codes := by
  have hchild : (sym, p) ∈ (if b then r else l).codes := by cases b <;> simpa [CodeTree.codes] using h
  cases hc : (if b then r else l) with
  | leaf sym' =>
    rw [hc, CodeTree.codes, List.mem_singleton] at hchild
    cases hchild
    exact .inl ⟨rfl, rfl⟩
  | internal l' r' => exact .inr ⟨l', r', rfl, hc ▸ hchild⟩

/-- The walk along a code ends on its leaf. -/
theorem decFrom_code (root : CodeTree) {l r : CodeTree} {sym : Byte} {p : List Bool}
    (h : (sym, p) ∈ (CodeTree.internal l r).codes) (rest : List Bool) :
    root.decFrom (.internal l r) (p ++ rest) = sym :: root.decFrom root rest := by
  induction p generalizing l r with
  | nil => exact absurd h (nil_notMem_codes_internal l r sym)
  | cons b p ih =>
    obtain ⟨hc, rfl⟩ | ⟨l', r', hc, h'⟩ := child_of_mem_codes h
    · exact decFrom_leaf root hc rest
    · exact (decFrom_internal root hc _).trans (ih h')

/-- The walk along a code meets no leaf earlier. -/
theorem decFrom_take_code (root : CodeTree) {l r : CodeTree} {sym : Byte} {p : List Bool}
    (h : (sym, p) ∈ (CodeTree.internal l r).codes) {k : Nat} (hk : k < p.length) :
    root.decFrom (.internal l r) (p.take k) = [] := by
  induction p generalizing l r k with
  | nil => exact absurd hk (Nat.not_lt_zero k)
  | cons b p ih =>
    cases k with
    | zero => exact decFrom_nil root _
    | succ k =>
      obtain ⟨-, rfl⟩ | ⟨l', r', hc, h'⟩ := child_of_mem_codes h
      · exact absurd hk (Nat.not_lt.mpr (Nat.le_add_left 1 k))
      · exact (decFrom_internal root hc _).trans (ih h' (Nat.lt_of_succ_lt_succ hk))

/-- The walk along a payload emits its bytes (R120). -/
theorem dec_payload {l r : CodeTree} (bytes : List Byte) (rest : List Bool)
    (h : ∀ b ∈ bytes, ((CodeTree.internal l r).codeOf b).isSome = true) :
    (CodeTree.internal l r).dec ((CodeTree.internal l r).payload bytes ++ rest) =
      bytes ++ (CodeTree.internal l r).dec rest := by
  induction bytes with
  | nil => rfl
  | cons b bytes ih =>
    obtain ⟨hb, hbytes⟩ := List.forall_mem_cons.mp h
    obtain ⟨p, hp⟩ := Option.isSome_iff_exists.mp hb
    rw [CodeTree.payload, List.flatMap_cons, hp, Option.getD_some, List.append_assoc, CodeTree.dec,
      decFrom_code _ (mem_codes_of_codeOf hp)]
    exact congrArg (b :: ·) (ih hbytes)

/-- Settles O22: each clause by induction on the tree, the last one by induction on the bytes. -/
theorem codesFormACompletePrefixCode : Obligations.CodesFormACompletePrefixCode := by
  intro l r tr
  have htwo : 2 ≤ tr.codes.length := by
    rw [length_codes]
    exact Nat.add_le_add (leaves_pos l) (leaves_pos r)
  refine ⟨length_codes tr, prefixFree_codes tr, sum_pow_codes le_rfl, fun c hc => ⟨length_code_pos htwo c hc,
    length_code_le_depth c hc, ?_, fun k hk => decFrom_take_code tr hc hk⟩,
    fun bytes rest h _ => dec_payload bytes rest h⟩
  simpa [CodeTree.dec, tr] using decFrom_code tr hc []

end Sys2Proof.Machine

/-! PROOF. R107 to R115: the encoder. Each of its commands is a scan of the source or a run of WriteBits; ENCODE runs
them in a session that WOPEN opens and WFLUSH ends, so the sink gets the bytes that hold the bits they append. -/

namespace Sys2Proof.Machine

/-! ## FSCAN (R108) -/

/-- A source has fewer than 2^64 bytes, so a counter does not wrap (R108, R154). -/
theorem toNat_entry_frequencies {bytes : List Byte} (h : bytes.length < 2 ^ 64) (sym : Byte) :
    (entry (frequencies bytes) sym).toNat = bytes.count sym := by
  rw [entry_frequencies, BitVec.toNat_ofNat, Nat.mod_eq_of_lt (List.count_le_length.trans_lt h)]

theorem map_entry_allSymbols {α : Type} (t : Vector α 256) : allSymbols.map (entry t) = t.toList := by
  refine List.ext_getElem (by simp [allSymbols]) fun i h h' => ?_
  have hi : i < 256 := by simpa using h'
  simp [allSymbols, entry, Nat.mod_eq_of_lt hi]

/-- Every byte is counted for one symbol. -/
theorem sum_count_allSymbols (bytes : List Byte) : (allSymbols.map fun sym => bytes.count sym).sum = bytes.length := by
  have hcard := Multiset.sum_count_eq_card (s := allSymbols.toFinset) (m := (bytes : Multiset Byte))
    fun sym _ => List.mem_toFinset.mpr (mem_allSymbols sym)
  simpa [List.sum_toFinset _ nodup_allSymbols] using hcard

theorem sum_toNat_frequencies {bytes : List Byte} (h : bytes.length < 2 ^ 64) :
    ((frequencies bytes).toList.map fun c => c.toNat).sum = bytes.length := by
  rw [← map_entry_allSymbols, List.map_map, ← sum_count_allSymbols bytes]
  exact congrArg List.sum (List.map_congr_left fun sym _ => toNat_entry_frequencies h sym)

theorem leafCount_sourceCounted (s : State) :
    (sourceCounted s).leafCount.toNat = (allSymbols.filter fun sym => sym ∈ s.srcBytes).length := by
  have hle := countNonZero_le (frequencies s.srcBytes)
  rw [← countNonZero_srcBytes]
  exact Nat.mod_eq_of_lt (by omega)

/-- Settles O23: the counters are the numbers of occurrences, and these add up to the length of the source. -/
theorem fscanCountsTheSource : Obligations.FscanCountsTheSource := by
  refine ⟨rfl, fun s => ⟨fun hm => if_pos hm, fun hm => ?_⟩⟩
  have hlt := length_srcBytes_lt s
  exact ⟨_, exec_fscan hm, rfl, toNat_entry_frequencies hlt, leafCount_sourceCounted (noteScan s),
    (sum_toNat_frequencies hlt).trans (length_srcBytes s)⟩

/-! ## ESINGLE (R109) -/

theorem exec_esingle {s : State} (hm : s.mode = .write) (hf : s.freqV = true) (h1 : s.leafCount = 1)
    (h0 : s.curBit = 0) : exec .esingle s =
      .next (writeBytes (singleFrame s.params.countEndian (soleSymbol s.draw s.freq)
        (entry s.freq (soleSymbol s.draw s.freq))) s) :=
  if_neg (by simp [hm, hf, h1, h0])

theorem mem_usedSymbols {freq : Vector Word64 256} {sym : Byte} : sym ∈ usedSymbols freq ↔ entry freq sym ≠ 0 := by
  simp [usedSymbols, mem_allSymbols]

theorem soleSymbol_eq (draw : Nat) {freq : Vector Word64 256} {sym : Byte} (h : entry freq sym ≠ 0)
    (hothers : ∀ x, x ≠ sym → entry freq x = 0) : soleSymbol draw freq = sym := by
  have hmem : sym ∈ usedSymbols freq := mem_usedSymbols.mpr h
  rw [soleSymbol]
  cases hused : usedSymbols freq with
  | nil => simp [hused] at hmem
  | cons x xs =>
    by_contra hx
    exact mem_usedSymbols.mp (hused ▸ List.mem_cons_self) (hothers x hx)

theorem length_singleFrame (e : Config.CountEndian) (sym : Byte) (count : Word64) :
    (singleFrame e sym count).length = 10 := by simp [singleFrame]

/-- With one used symbol ESINGLE appends the ten bytes of its frame. -/
theorem esingle_appends {s : State} {sym : Byte} (hm : s.mode = .write) (hf : s.freqV = true) (h1 : s.leafCount = 1)
    (h0 : s.curBit = 0) (h : s.CursorInv) (hsym : entry s.freq sym ≠ 0)
    (hothers : ∀ x, x ≠ sym → entry s.freq x = 0) :
    ∃ t, exec .esingle s = .next t ∧
      Appended s t ((singleFrame s.params.countEndian sym (entry s.freq sym)).flatMap bitsMsb) := by
  refine ⟨_, exec_esingle hm hf h1 h0, ?_⟩
  rw [soleSymbol_eq s.draw hsym hothers]
  exact appended_writeBytes _ hm h h0

/-- Settles O24: the frame's bytes are written one after the other, the count's in the order of COUNT_ENDIAN. -/
theorem esingleWritesTheFrame : Obligations.EsingleWritesTheFrame := by
  refine ⟨rfl, fun s => ⟨fun hrefused => if_pos hrefused, fun sym hm hf h1 h0 h hsym hothers => ?_⟩⟩
  intro lsbFirst
  obtain ⟨t, ht, happ⟩ := esingle_appends hm hf h1 h0 h hsym hothers
  refine ⟨t, ht, ?_, fun he => ?_, fun he => ?_⟩
  · apply BitVec.eq_of_toNat_eq
    rw [happ.curBit, h0, length_flatMap_bitsMsb, length_singleFrame]
    rfl
  · rw [he] at happ
    exact happ
  · rw [he] at happ
    exact happ

/-! ## EPAY (R110) -/

theorem exec_epay {s : State} (hm : s.mode = .write) (hc : s.codeV = true) :
    exec .epay s = .next (writeBits (s.srcBytes.flatMap (codeBits s)) (noteScan s)) :=
  if_neg (by simp [hm, hc])

theorem take_topBits (v : Word64) {m n : Nat} (h : m ≤ n) : (topBits v n).take m = topBits v m := by
  rw [topBits, topBits, ← List.map_take, List.take_range, Nat.min_eq_left h]

/-- The entry that CGEN made for a symbol gives back its code; a symbol without a code has no bits (R104, R110). -/
theorem codeBits_eq_codeOf {s : State} {t : CodeTree}
    (h : codeWalk t 0 0 CodeTable.zero = some (s.codeVal, s.codeLen)) (b : Byte) :
    codeBits s b = (t.codeOf b).getD [] := by
  obtain ⟨hnone, hsome⟩ := codeWalk_entries h b
  rw [codeBits]
  cases hcode : t.codeOf b with
  | none =>
    rw [(hnone hcode).1]
    rfl
  | some p =>
    obtain ⟨hlen, hbits⟩ := hsome p hcode
    have hle : p.length ≤ 64 := by
      have hlength := congrArg List.length hbits
      simp only [topBits, List.length_append, List.length_map, List.length_range, List.length_replicate] at hlength
      omega
    rw [hlen, ← take_topBits _ hle, hbits, List.take_left, Option.getD_some]

/-- With the tables valid EPAY's bits are the payload of the tree. -/
theorem State.TablesInv.flatMap_codeBits {s : State} {tr : CodeTree} (h : s.TablesInv) (hc : s.codeV = true)
    (ht : s.tree = some tr) : s.srcBytes.flatMap (codeBits s) = tr.payload s.srcBytes := by
  obtain ⟨-, tr', ht', hwalk⟩ := h.code_valid hc
  obtain rfl : tr' = tr := Option.some.inj (ht'.symm.trans ht)
  exact congrArg s.srcBytes.flatMap (funext (codeBits_eq_codeOf hwalk))

/-- Settles O25: the bits are those of the Code Table, which CGEN filled from the tree. -/
theorem epayWritesTheCodes : Obligations.EpayWritesTheCodes := by
  refine ⟨rfl, fun s => ⟨fun hrefused => if_pos hrefused, fun hm hc h => ?_⟩⟩
  have happ : Appended (noteScan s) _ (s.srcBytes.flatMap (codeBits s)) := appended_writeBits _ hm (h.congr rfl)
  refine ⟨_, exec_epay hm hc, happ, fun hinv tr ht => ?_⟩
  exact hinv.flatMap_codeBits hc ht ▸ happ

/-! ## ETRAIL (R112) -/

/-- ETRAIL is the run of WriteBits of the trailer; the zero byte is at a byte-aligned cursor, after the padding. -/
theorem exec_etrail {s : State} (hm : s.mode = .write) :
    exec .etrail s = .next (writeBits (trailerBits s.curBit.toNat) s) := by
  simp only [exec, execEtrail, hm, ne_eq, not_true_eq_false, if_false, trailerBits]
  split
  case isTrue hu => rw [BitVec.ofNat_toNat, BitVec.setWidth_eq]
  case isFalse hu => rw [writeByte_eq_writeBits 0 (writeBits_padding_curBit s), ← writeBits_append]; rfl

/-- The used bits of the last byte and the trailer are a whole number of bytes (R65, R66). -/
theorem add_length_trailerBits_mod {u : Nat} (h : u < 8) : (u + (trailerBits u).length) % 8 = 0 := by
  unfold trailerBits
  split
  case isTrue hu =>
    rw [List.length_append, List.length_replicate, length_bitsMsb]
    omega
  case isFalse hu =>
    rw [List.length_append, List.length_replicate, List.length_replicate]
    omega

theorem writeBits_trailerBits_curBit (s : State) : (writeBits (trailerBits s.curBit.toNat) s).curBit = 0 := by
  apply BitVec.eq_of_toNat_eq
  rw [writeBits_curBit, BitVec.toNat_add, BitVec.toNat_ofNat, Nat.add_mod_mod]
  exact add_length_trailerBits_mod s.curBit.isLt

/-- Settles O26: the two trailers, by the number of used bits in the last byte. -/
theorem etrailAppendsTheTrailer : Obligations.EtrailAppendsTheTrailer := by
  refine ⟨rfl, fun s => ⟨fun hm => if_pos hm, fun hm h => ?_⟩⟩
  intro u
  have happ : Appended s _ (trailerBits u.toNat) := appended_writeBits _ hm h
  refine ⟨_, exec_etrail hm, writeBits_trailerBits_curBit s, fun hu => ?_, fun hu => ?_⟩
  · have hbits : trailerBits u.toNat =
        List.replicate (5 - u.toNat) false ++ [u.getLsbD 2, u.getLsbD 1, u.getLsbD 0] := by
      rw [trailerBits, if_pos hu, BitVec.ofNat_toNat, BitVec.setWidth_eq]
      rfl
    exact hbits.subst (motive := Appended s _) happ
  · have hbits : trailerBits u.toNat = List.replicate (8 - u.toNat) false ++ List.replicate 8 false :=
      if_neg (Nat.not_le.mpr hu)
    exact hbits.subst (motive := Appended s _) happ

/-! ## The session of ENCODE (R113) -/

/-- `u` differs from `s` only in MODE and in what a session owns: its sink is the one of `s`. -/
def SessionFrame (s u : State) : Prop :=
  u = { s with
    mode := u.mode
    freqV := u.freqV, treeV := u.treeV, codeV := u.codeV, eof := u.eof, mark := u.mark, leafCount := u.leafCount
    curByte := u.curByte, curBit := u.curBit, bufLen := u.bufLen, rdBase := u.rdBase
    nodes := u.nodes, root := u.root, wl := u.wl, walk := u.walk
    buf := u.buf, freq := u.freq, codeVal := u.codeVal, codeLen := u.codeLen
    srcReads := u.srcReads, draw := u.draw }

/-- An error releases what the session did before it. -/
theorem Raised.of_sessionFrame {e : ErrKind} {s u t : State} (h : Raised e u t) (k : SessionFrame s u) :
    Raised e s t where
  errCode := h.errCode
  mode := h.mode
  closed := h.closed
  frame := by
    rw [h.frame]
    conv_lhs => rw [k]

/-- What the session did before its first write belongs to it. -/
theorem SessionEnded.of_sessionFrame {s u t : State} (h : SessionEnded u t) (k : SessionFrame s u) :
    SessionEnded s t where
  mode := h.mode
  closed := h.closed
  stores := by
    have hstores := h.stores
    rwa [k] at hstores
  frame := by
    rw [h.frame]
    conv_lhs => rw [k]

theorem ne_fault_of_write {s : State} (hm : s.mode = .write) : s.mode ≠ .fault := hm.trans_ne nofun

/-- A command that raises ends the sequence (R59). -/
theorem runCommands_cons_fault {i : Instr} {s t : State} (h : exec i s = .next t) (hm : t.mode = .fault)
    (is : List Instr) : runCommands (i :: is) s = .next t :=
  andThen_next.mpr ⟨t, h, .inl ⟨hm, rfl⟩⟩

/-- WFLUSH ends a session that has appended `bits` at the start of BUF: the sink has them packed (R81, R82). -/
theorem wflush_packs {s u : State} {bits : List Bool} (hm : s.mode = .write) (h0 : s.bitPlace = 0)
    (happ : Appended s u bits) :
    ∃ t, exec .wflush u = .next t ∧ SessionEnded s t ∧ t.sinkBytes = s.sinkBytes ++ packBits bits := by
  have hu : u.mode = .write := happ.mode.trans hm
  have hfl := flushed_closeSession hu happ.inv
  exact ⟨_, exec_wflush hu, hfl.ended.of_writerFrame happ.frame, sinkBytes_packed hu h0 happ hfl⟩

theorem packBits_flatMap_bitsMsb (vs : List Byte) : packBits (vs.flatMap bitsMsb) = vs :=
  (packBits_eq_map (length_flatMap_bitsMsb vs)).trans (map_byteOfBits vs)

theorem cursorInv_encodeScanned {s : State} (hm : s.mode = .idle) (ha : s.allocOk = true) (hB : 1 ≤ s.params.bufSize) :
    (encodeScanned s).CursorInv := by
  obtain ⟨-, hinv, -, -, -⟩ := cursorInv_wopen (exec_wopen hm ha) hm ha hB
  exact hinv.congr rfl

theorem tablesInv_encodeScanned (s : State) : (encodeScanned s).TablesInv := ⟨fun _ => ⟨rfl, rfl, rfl⟩, nofun, nofun⟩

/-- The forms of ENCODE are chosen by the number of distinct bytes (R113). -/
theorem leafCount_encodeScanned_eq_iff (s : State) (n : BitVec 9) : (encodeScanned s).leafCount = n ↔
    (allSymbols.filter fun sym => sym ∈ s.srcBytes).length = n.toNat := by
  rw [← BitVec.toNat_inj, leafCount_encodeScanned]

/-- No byte value occurs exactly in the empty source. -/
theorem distinct_eq_zero_iff (s : State) :
    (allSymbols.filter fun sym => sym ∈ s.srcBytes).length = 0 ↔ s.srcLen = 0 := by
  have hempty : s.srcBytes = [] ↔ s.srcLen = 0 := by
    rw [← List.length_eq_zero_iff, length_srcBytes, ← BitVec.toNat_inj]
    rfl
  rw [List.length_eq_zero_iff, List.filter_eq_nil_iff, ← hempty, List.eq_nil_iff_forall_not_mem]
  simp only [mem_allSymbols, forall_const, decide_eq_true_eq]

/-! ## The single-symbol form (R61, R113) -/

/-- The one byte value of the source makes all of it. -/
theorem eq_of_distinct_eq_one {bytes : List Byte} {sym : Byte}
    (h : (allSymbols.filter fun x => x ∈ bytes).length = 1) (hsym : sym ∈ bytes) : ∀ x ∈ bytes, x = sym := by
  obtain ⟨y, hy⟩ := List.length_eq_one_iff.mp h
  have key {x : Byte} (hx : x ∈ bytes) : x = y := by
    have hmem : x ∈ allSymbols.filter fun x => x ∈ bytes := by simpa [mem_allSymbols] using hx
    rwa [hy, List.mem_singleton] at hmem
  exact fun x hx => (key hx).trans (key hsym).symm

/-- The frequencies of a source of one byte value (R108). -/
theorem entry_frequencies_of_const {s : State} {sym : Byte} (hsym : sym ∈ s.srcBytes) (h : ∀ x ∈ s.srcBytes, x = sym) :
    entry (frequencies s.srcBytes) sym = s.srcLen ∧ s.srcLen ≠ 0 ∧
      ∀ x, x ≠ sym → entry (frequencies s.srcBytes) x = 0 := by
  have hcount : s.srcBytes.count sym = s.srcBytes.length := List.count_eq_length.mpr fun x hx => (h x hx).symm
  refine ⟨?_, fun h0 => ?_, fun x hx => ?_⟩
  · rw [entry_frequencies, hcount, length_srcBytes, BitVec.ofNat_toNat, BitVec.setWidth_eq]
  · have hpos := List.length_pos_of_mem hsym
    rw [length_srcBytes, h0] at hpos
    exact absurd hpos (lt_irrefl 0)
  · rw [entry_frequencies, List.count_eq_zero.mpr fun hmem => hx (h x hmem)]
    rfl

section
variable {s : State} (hm : s.mode = .idle) (ha : s.allocOk = true) (hB : 1 ≤ s.params.bufSize)
include hm ha hB

/-- ENCODE on a source of one byte value (R61, R113). -/
theorem encode_single {sym : Byte} (h1 : (encodeScanned s).leafCount = 1) (hsym : sym ∈ s.srcBytes)
    (hsame : ∀ x ∈ s.srcBytes, x = sym) :
    ∃ t, exec .encode s = .next t ∧ SessionEnded s t ∧
      t.sinkBytes = s.sinkBytes ++ singleFrame s.params.countEndian sym s.srcLen := by
  obtain ⟨hcount, hne, hothers⟩ := entry_frequencies_of_const hsym hsame
  obtain ⟨u, hu, happ⟩ := esingle_appends (s := encodeScanned s) rfl rfl h1 rfl (cursorInv_encodeScanned hm ha hB)
    (hcount.trans_ne hne) hothers
  obtain ⟨t, ht, hended, hbytes⟩ := wflush_packs rfl rfl happ
  have humode : u.mode = .write := happ.mode
  refine ⟨t, ?_, hended.of_sessionFrame rfl, ?_⟩
  · rw [exec_encode hm ha, if_neg (by simp [h1]), if_pos h1, runCommands_cons hu (ne_fault_of_write humode),
      runCommands_singleton, ht]
  · rw [packBits_flatMap_bitsMsb, show entry (encodeScanned s).freq sym = s.srcLen from hcount] at hbytes
    exact hbytes

end

/-! ## The general form (R62, R113) -/

/-- What CGEN leaves (R104). -/
def codesFilled (tab : CodeTable) (s : State) : State := { s with codeVal := tab.1, codeLen := tab.2, codeV := true }

/-- The writer does not look at the noted reads. -/
theorem Appended.noteScan {s t : State} {bs : List Bool} (h : Appended s t bs) :
    Appended (noteScan s) (noteScan t) bs where
  stream := h.stream
  cursor := h.cursor
  sinkLen := h.sinkLen
  writes := h.writes
  inv := h.inv.congr rfl
  frame := by
    refine ⟨h.frame.1, ?_⟩
    conv_lhs => rw [h.frame.2]
    rfl

/-- With a tree and its codes, TSER, EPAY and ETRAIL append the general form of the source (R62). -/
theorem runCommands_generalForm {s : State} {tr : CodeTree} (hm : s.mode = .write) (h : s.CursorInv)
    (h0 : s.curBit = 0) (hinv : s.TablesInv) (hc : s.codeV = true) (ht : s.tree = some tr) :
    ∃ t, runCommands [.tser, .epay, .etrail] s = .next t ∧ Appended (noteScan s) t (generalForm tr s.srcBytes) := by
  obtain ⟨hv, -⟩ := hinv.code_valid hc
  have htree : Appended s (writeBits tr.ser s) tr.ser := appended_writeBits _ hm h
  set u := writeBits tr.ser s
  have hu : u.mode = .write := htree.mode.trans hm
  have huc : u.codeV = true := by rw [htree.frame.2]; exact hc
  have hut : u.tree = some tr := by rw [htree.frame.2]; exact ht
  have husrc : u.srcBytes = s.srcBytes := by rw [htree.frame.2]; rfl
  have hbits := (hinv.congr htree.frame.tablesPart).flatMap_codeBits huc hut
  rw [husrc] at hbits
  have hexec := exec_epay hu huc
  rw [husrc, hbits] at hexec
  have hbody := htree.noteScan.trans (appended_writeBits (tr.payload s.srcBytes) hu (htree.inv.congr rfl))
  set v := writeBits (tr.payload s.srcBytes) (noteScan u)
  have hvm : v.mode = .write := hbody.mode.trans hm
  have hplace : v.curBit.toNat = (tr.ser ++ tr.payload s.srcBytes).length % 8 := by
    rw [hbody.curBit, noteScan_curBit, h0]
    simp
  have hform := hbody.trans (appended_writeBits (trailerBits v.curBit.toNat) hvm hbody.inv)
  refine ⟨_, ?_, hplace ▸ hform⟩
  rw [runCommands_cons (exec_tser hm hv ht) (ne_fault_of_write hu), runCommands_cons hexec (ne_fault_of_write hvm),
    runCommands_singleton, exec_etrail hvm, hplace]

/-- The deepest leaf's code is as long as the tree is deep. -/
theorem exists_code_of_depth (t : CodeTree) : ∃ c ∈ t.codes, c.2.length = t.depth := by
  induction t with
  | leaf sym => exact ⟨(sym, []), List.mem_singleton.mpr rfl, rfl⟩
  | internal l r ihl ihr =>
    obtain ⟨c, hc, hcl⟩ := ihl
    obtain ⟨d, hd, hdl⟩ := ihr
    rcases le_total l.depth r.depth with hle | hle
    · refine ⟨(d.1, true :: d.2), List.mem_append_right _ (List.mem_map_of_mem hd), ?_⟩
      rw [CodeTree.depth, max_eq_right hle, List.length_cons, hdl, Nat.add_comm]
    · refine ⟨(c.1, false :: c.2), List.mem_append_left _ (List.mem_map_of_mem hc), ?_⟩
      rw [CodeTree.depth, max_eq_left hle, List.length_cons, hcl, Nat.add_comm]

/-- The walk of CGEN succeeds where the tree is at most 64 deep (R104). -/
theorem codeWalk_of_depth_le {t : CodeTree} (h : t.depth ≤ 64) : ∃ tab, codeWalk t 0 0 CodeTable.zero = some tab :=
  ⟨_, (codeWalk_zero t).trans (if_pos fun c hc => (length_code_le_depth c hc).trans h)⟩

theorem codeWalk_of_lt_depth {t : CodeTree} (h : 64 < t.depth) : codeWalk t 0 0 CodeTable.zero = none := by
  obtain ⟨c, hc, hlen⟩ := exists_code_of_depth t
  rw [codeWalk_zero, if_neg fun hall => absurd (hall c hc) (by omega)]

section
variable {s : State} (hm : s.mode = .idle) (ha : s.allocOk = true)
  (h2 : 2 ≤ (encodeScanned s).leafCount.toNat)
include hm ha h2

/-- With two or more byte values ENCODE builds the tree and goes on from there (R113). -/
theorem exec_encode_general : exec .encode s =
    runCommands [.cgen, .tser, .epay, .etrail, .wflush] (treeBuilt (encodeScanned s)) := by
  have h0 : (encodeScanned s).leafCount ≠ 0 := fun h0 => by simp [h0] at h2
  have h1 : (encodeScanned s).leafCount ≠ 1 := fun h1 => by simp [h1] at h2
  have hbuild : exec .tbuild (encodeScanned s) = .next (treeBuilt (encodeScanned s)) := by
    rw [exec_tbuild rfl rfl, if_neg h0, if_neg h1]
  rw [exec_encode hm ha, if_neg h0, if_neg h1, runCommands_cons hbuild (encodeScanned_ne_fault s)]

/-- ENCODE with a tree too deep for the Code Table (R106, R113). -/
theorem encode_overflow {tr : CodeTree} (ht : (treeBuilt (encodeScanned s)).tree = some tr) (hdeep : 64 < tr.depth) :
    ∃ t, exec .encode s = .next t ∧ Raised .codeOverflow s t := by
  have hcgen := exec_cgen rfl (.inl rfl) ht
  rw [codeWalk_of_lt_depth hdeep, Option.elim_none] at hcgen
  exact ⟨_, (exec_encode_general hm ha h2).trans (runCommands_cons_fault hcgen rfl _),
    (raised_raise .codeOverflow _).of_sessionFrame rfl⟩

/-- ENCODE in the general form (R62, R113). -/
theorem encode_general (hB : 1 ≤ s.params.bufSize) {tr : CodeTree}
    (ht : (treeBuilt (encodeScanned s)).tree = some tr) (hle : tr.depth ≤ 64) :
    ∃ t, exec .encode s = .next t ∧ SessionEnded s t ∧
      t.sinkBytes = s.sinkBytes ++ packBits (generalForm tr s.srcBytes) := by
  obtain ⟨tab, hwalk⟩ := codeWalk_of_depth_le hle
  set u := codesFilled tab (treeBuilt (encodeScanned s))
  have hcgen : exec .cgen (treeBuilt (encodeScanned s)) = .next u := by
    rw [exec_cgen rfl (.inl rfl) ht, hwalk]
    rfl
  have hbuilt : (treeBuilt (encodeScanned s)).TablesInv :=
    tablesInv_treeBuilt (tablesInv_encodeScanned s) rfl fun h0 => by simp [h0] at h2
  have hinv : u.TablesInv := ⟨hbuilt.freq_valid, hbuilt.tree_valid, fun _ => ⟨rfl, tr, ht, hwalk⟩⟩
  obtain ⟨v, hv, happ⟩ := runCommands_generalForm (s := u) rfl ((cursorInv_encodeScanned hm ha hB).congr rfl) rfl hinv
    rfl ht
  obtain ⟨t, hflush, hended, hbytes⟩ := wflush_packs rfl rfl happ
  have hvm : v.mode = .write := happ.mode
  refine ⟨t, ?_, hended.of_sessionFrame rfl, hbytes⟩
  have hrun := runCommands_append (js := [.wflush]) hv (ne_fault_of_write hvm)
  rw [exec_encode_general hm ha h2, runCommands_cons hcgen (ne_fault_of_write rfl)]
  exact hrun.trans ((runCommands_singleton .wflush v).trans hflush)

end

/-- Settles O27: the number of distinct source bytes chooses the form, and the depth of the tree whether CGEN raises. -/
theorem encodeProducesTheWireFormat : Obligations.EncodeProducesTheWireFormat := by
  refine ⟨rfl, fun s => ⟨fun hm => if_pos hm, fun hm ha => ?_, fun hm ha hB => ?_⟩⟩
  · have hopen := exec_wopen_unallocated hm ha
    exact ⟨_, (composites_unallocated hm ha).1.trans ((runCommands_singleton .wopen s).trans hopen), raised_raise _ s⟩
  intro distinct
  refine ⟨distinct_eq_zero_iff s, fun h0 => ?_, fun sym h1 hsym => ?_, fun h2 => ?_⟩
  · have hleaf := (leafCount_encodeScanned_eq_iff s 0).mpr h0
    exact ⟨_, (exec_encode hm ha).trans (if_pos hleaf), (raised_raise .emptyInput _).of_sessionFrame rfl⟩
  · exact encode_single hm ha hB ((leafCount_encodeScanned_eq_iff s 1).mpr h1) hsym (eq_of_distinct_eq_one h1 hsym)
  · have hleaf : 2 ≤ (encodeScanned s).leafCount.toNat := (leafCount_encodeScanned s).symm ▸ h2
    obtain ⟨tr, ht, hhuffman, -, -⟩ := tree_treeBuilt (tablesInv_encodeScanned s) rfl hleaf
    exact ⟨tr, hhuffman, encode_overflow hm ha hleaf ht, encode_general hm ha hleaf hB ht⟩

end Sys2Proof.Machine

/-! PROOF. R116 to R120: the decoder's commands. DSINGLE reads the ten bytes of its frame and then emits. DPAY's walk
changes only what ReadBit does not look at, so its bits may all be read before the walk along them begins. -/

namespace Sys2Proof.Machine

/-! ## DSINGLE (R117) -/

/-- Byte `j` of the source, from its bits (R60). -/
theorem byteOfBits_srcBits {s : State} {j : Nat} (hj : j < s.srcLen.toNat) : byteOfBits s.srcBits j = s.src.read j := by
  have hbytes : ((List.range s.srcBytes.length).map (byteOfBits s.srcBits))[j]? = s.srcBytes[j]? :=
    congrArg (·[j]?) (map_byteOfBits s.srcBytes)
  simpa [length_srcBytes, State.srcBytes, Memory.readBytes, hj] using hbytes

/-- The count bytes of a frame, from its bits (R61). -/
theorem countBytes_srcBits {s : State} (h10 : s.srcLen.toNat = 10) :
    ((List.range 8).map fun j => byteOfBits s.srcBits (2 + j)) = s.src.readBytes 2 8 := by
  refine List.map_congr_left fun j hj => byteOfBits_srcBits ?_
  have hj : j < 8 := List.mem_range.mp hj
  omega

/-- Eight bytes side by side, the most significant first, are the count under BIG (R42). -/
theorem countOfBytes_big_eq_append (b0 b1 b2 b3 b4 b5 b6 b7 : Byte) :
    countOfBytes .big [b0, b1, b2, b3, b4, b5, b6, b7] = b0 ++ b1 ++ b2 ++ b3 ++ b4 ++ b5 ++ b6 ++ b7 := by
  have hbits : [b0, b1, b2, b3, b4, b5, b6, b7].flatMap bitsMsb =
      bitsMsb (b0 ++ b1 ++ b2 ++ b3 ++ b4 ++ b5 ++ b6 ++ b7) := by
    simp only [bitsMsb_append, List.flatMap_cons, List.flatMap_nil, List.append_assoc, List.append_nil]
  rw [countOfBytes_big, hbits, ofBitsMsb_bitsMsb]

theorem unread_of_pos_zero {s : State} (hpos : s.pos = 0) : s.unread = s.srcBits := by
  rw [State.unread, hpos, List.drop_zero]

section
variable {s : State} (hm : s.mode = .read) (hpos : s.pos = 0) (hmark : s.mark = true)
include hm hpos hmark

/-- DSINGLE on a source that is no frame (R117, R69). -/
theorem exec_dsingle_of_length_ne (h0 : s.srcLen ≠ 0) (h10 : s.srcLen ≠ 10) :
    exec .dsingle s = .next (raise .invalidFormat s) := by
  have hlen : s.srcLen.toNat ≠ Config.frame1Len := fun e => h10 (BitVec.eq_of_toNat_eq e)
  simp only [exec, execDsingle, hm, hpos, h0, hmark, hlen, ne_eq, not_true_eq_false, not_false_eq_true,
    Bool.true_eq_false, or_self, if_false, if_true]

/-- DSINGLE on ten bytes reads them all and emits the symbol (R117). -/
theorem exec_dsingle_of_length_eq (h10 : s.srcLen = 10) (h : s.CursorInv) :
    ∃ t, exec .dsingle s = .next t ∧
      Emitted s t (List.replicate (countOfBytes s.params.countEndian (s.src.readBytes 2 8)).toNat (s.src.read 1)) ∧
      Consumed { s with sink := t.sink, sinkLen := t.sinkLen, sinkWrites := t.sinkWrites } t 80 ∧ t.eof = s.eof := by
  have hlen : s.srcLen.toNat = 10 := congrArg BitVec.toNat h10
  have h0 : s.srcLen ≠ 0 := by simp [h10]
  have hunread : s.unread = s.srcBits ++ [] := by rw [unread_of_pos_zero hpos, List.append_nil]
  obtain ⟨u, hu, hc, he, -⟩ := readBitsN_append hm h hunread
  rw [length_srcBits, hlen] at hu hc
  set n := (countOfBytes s.params.countEndian (s.src.readBytes 2 8)).toNat with hn
  obtain ⟨hf, hwalk⟩ := outputFrame_emitTimes (s.src.read 1) n u
  refine ⟨emitTimes (s.src.read 1) n u, ?_, (emitted_emitTimes _ n u).congr hc.frame.memoryPart.symm rfl, ?_, ?_⟩
  · simp only [exec, execDsingle, hm, hpos, h0, hmark, hlen, hu, countBytes_srcBits hlen,
      byteOfBits_srcBits (show 1 < s.srcLen.toNat by omega), ne_eq, not_true_eq_false, Bool.true_eq_false, or_self,
      if_false, hn]
  · have hout := hc.output hf
    rw [hwalk, show u.walk = s.walk by rw [hc.frame]] at hout
    exact hout
  · rw [hf]
    exact he

end

/-- Settles O30: the length decides between the error and the ten bytes, and the count is its bytes side by side. -/
theorem dsingleEmitsTheCount : Obligations.DsingleEmitsTheCount := by
  refine ⟨rfl, fun s => ⟨fun hrefused => if_pos hrefused, fun hm hpos h0 hmark h10 => ?_,
    fun hm hpos hmark h10 h => ?_⟩⟩
  · exact ⟨_, exec_dsingle_of_length_ne hm hpos hmark h0 h10, raised_raise .invalidFormat s, rfl⟩
  · intro b
    obtain ⟨t, ht, hemit, hread, heof⟩ := exec_dsingle_of_length_eq hm hpos hmark h10 h
    refine ⟨_, t, ht, fun hlittle => ?_, fun hbig => ?_, hemit, hread, heof⟩
    · rw [hlittle]
      exact countOfBytes_big_eq_append (b 9) (b 8) (b 7) (b 6) (b 5) (b 4) (b 3) (b 2)
    · rw [hbig]
      exact countOfBytes_big_eq_append (b 2) (b 3) (b 4) (b 5) (b 6) (b 7) (b 8) (b 9)

/-! ## The payload walk, after its bits are read (R119) -/

/-- ReadBit does not look at the decoder's output side, and leaves it alone. -/
theorem readBit_output (s : State) (sink : Memory) (len : Nat) (writes : List Nat) (walk : PoolIx) :
    readBit { s with sink := sink, sinkLen := len, sinkWrites := writes, walk := walk } =
      ((readBit s).1, { (readBit s).2 with sink := sink, sinkLen := len, sinkWrites := writes, walk := walk }) := by
  have hstep (u : State) :
      stepBit { u with sink := sink, sinkLen := len, sinkWrites := writes, walk := walk } =
        { stepBit u with sink := sink, sinkLen := len, sinkWrites := writes, walk := walk } := by
    unfold stepBit
    split <;> rfl
  have hrefill : refill { s with sink := sink, sinkLen := len, sinkWrites := writes, walk := walk } =
        { refill s with sink := sink, sinkLen := len, sinkWrites := writes, walk := walk } := rfl
  simp only [readBit, hrefill, hstep]
  split
  · split <;> rfl
  · rfl

/-- The child that a payload bit leads to (R119). -/
def State.walkChild (s : State) (b : Bool) : PoolIx :=
  if b then (nodeAt s.nodes s.walk).right else (nodeAt s.nodes s.walk).left

/-- The walk's step, by the kind of the child (R119). -/
theorem walkBit_eq (b : Bool) (s : State) : walkBit b s =
    if (nodeAt s.nodes (s.walkChild b)).kind then { emit (nodeAt s.nodes (s.walkChild b)).sym s with walk := s.root }
    else { s with walk := s.walkChild b } := rfl

theorem walkBit_outputFrame (b : Bool) (s : State) : OutputFrame s (walkBit b s) := by
  rw [walkBit_eq]
  split <;> rfl

/-- What the walk's step puts out does not depend on the reader. -/
theorem walkBit_of_readerFrame (b : Bool) {s t : State} (h : ReaderFrame s t) :
    walkBit b t = { t with
      sink := (walkBit b s).sink, sinkLen := (walkBit b s).sinkLen, sinkWrites := (walkBit b s).sinkWrites
      walk := (walkBit b s).walk } := by
  have hnodes : t.nodes = s.nodes := by rw [h]
  have hchild : t.walkChild b = s.walkChild b := by rw [h]; rfl
  rw [walkBit_eq, walkBit_eq, hnodes, hchild]
  unfold ReaderFrame at h
  rw [h]
  split <;> rfl

/-- ReadBit may come before the walk's step. -/
theorem readBit_walkBit {s t : State} {o : Option Bool} (b : Bool) (e : readBit s = (o, t)) :
    readBit (walkBit b s) = (o, walkBit b t) := by
  obtain rfl : (readBit s).1 = o := congrArg Prod.fst e
  obtain rfl : (readBit s).2 = t := congrArg Prod.snd e
  rw [walkBit_of_readerFrame b (readBit_readerFrame s), ← readBit_output]
  exact congrArg readBit (walkBit_outputFrame b s)

/-- A run of ReadBits that answers is a ReadBit that answers and a run that answers. -/
theorem readBitsN_succ_some {n : Nat} {s t : State} {bs : List Bool} (e : readBitsN (n + 1) s = (some bs, t)) :
    ∃ b u cs, readBit s = (some b, u) ∧ readBitsN n u = (some cs, t) ∧ bs = b :: cs := by
  rw [readBitsN] at e
  split at e
  case h_1 => cases e
  case h_2 b u hb =>
    split at e
    case h_1 => cases e
    case h_2 cs v hcs =>
      cases e
      exact ⟨b, u, cs, hb, hcs, rfl⟩

theorem readBitsN_walkBit {n : Nat} {s t : State} {bs : List Bool} (b : Bool) (e : readBitsN n s = (some bs, t)) :
    readBitsN n (walkBit b s) = (some bs, walkBit b t) := by
  induction n generalizing s bs with
  | zero =>
    cases e
    rfl
  | succ n ih =>
    obtain ⟨c, u, cs, hc, hcs, rfl⟩ := readBitsN_succ_some e
    simp only [readBitsN, readBit_walkBit b hc, ih hcs]

/-- The payload walk is a read of all its bits and then the walk along them (R119). -/
theorem walkPayload_of_readBitsN {n : Nat} {s t : State} {bs : List Bool} (e : readBitsN n s = (some bs, t)) :
    walkPayload n s = some (bs.foldl (fun u b => walkBit b u) t) := by
  induction n generalizing s t bs with
  | zero =>
    cases e
    rfl
  | succ n ih =>
    obtain ⟨c, u, cs, hc, hcs, rfl⟩ := readBitsN_succ_some e
    simp only [walkPayload, hc, ih (readBitsN_walkBit c hcs), List.foldl_cons]

/-- The walk never rests on a Leaf (R30). -/
theorem walkBits_kind (bits : List Bool) {s : State} (hroot : (nodeAt s.nodes s.root).kind = false)
    (hwalk : (nodeAt s.nodes s.walk).kind = false) :
    let t := bits.foldl (fun u b => walkBit b u) s
    (nodeAt t.nodes t.walk).kind = false := by
  induction bits generalizing s with
  | nil => exact hwalk
  | cons b bs ih =>
    rw [List.foldl_cons, walkBit_eq]
    split
    case isTrue => exact ih hroot hroot
    case isFalse hk => exact ih hroot (Bool.eq_false_iff.mpr hk)

/-! ## DPAY (R118 to R120) -/

/-- The count in the low three bits of the last source byte (R118). -/
def State.trailerCount (s : State) : BitVec 3 := (s.src.read (s.srcLen.toNat - 1)).extractLsb' 0 3

/-- END as the source's own trailer marks it (R118). -/
def State.payloadEnd (s : State) : Nat := endPos s s.trailerCount

/-- A count of at most 5 marks no place beyond the last byte. -/
theorem payloadEnd_le {s : State} (h0 : s.srcLen ≠ 0) (hc : s.trailerCount.toNat ≤ 5) :
    s.payloadEnd ≤ 8 * s.srcLen.toNat := by
  have hpos : s.srcLen.toNat ≠ 0 := fun e => h0 (BitVec.eq_of_toNat_eq e)
  rw [State.payloadEnd, endPos]
  omega

/-- The trailer checks fail (R118, R119). -/
theorem checkTrailer_of_lt {s : State} (h : 5 < s.trailerCount.toNat ∨ s.payloadEnd < s.pos) :
    checkTrailer s = (none, noteRead (s.srcLen.toNat - 1) 1 s) := by
  rcases Nat.lt_or_ge 5 s.trailerCount.toNat with hc | hc
  · exact if_pos hc
  · have hpos : s.payloadEnd < s.pos := h.resolve_left (Nat.not_lt.mpr hc)
    exact (if_neg (Nat.not_lt.mpr hc)).trans (if_pos hpos)

/-- The source bits that DPAY walks along, from POS up to END (R119). -/
def State.payloadBits (s : State) : List Bool := (s.srcBits.take s.payloadEnd).drop s.pos

/-- What DPAY's walk starts from: the last byte has been peeked at and WALK is ROOT (R119). -/
def payloadStart (s : State) : State := { noteRead (s.srcLen.toNat - 1) 1 s with walk := s.root }

theorem consumed_payloadStart {s : State} (h : s.CursorInv) :
    Consumed { s with walk := s.root } (payloadStart s) 0 := consumed_noteRead _ _ (h.congr rfl)

/-- With the trailer checks passed, the payload is the next source bits. -/
theorem unread_payloadStart {s : State} (h0 : s.srcLen ≠ 0) (hc : s.trailerCount.toNat ≤ 5)
    (hpos : s.pos ≤ s.payloadEnd) :
    (payloadStart s).unread = s.payloadBits ++ s.srcBits.drop s.payloadEnd ∧
      s.payloadBits.length = s.payloadEnd - s.pos := by
  have hlen : (s.srcBits.take s.payloadEnd).length = s.payloadEnd :=
    List.length_take_of_le (length_srcBits s ▸ payloadEnd_le h0 hc)
  constructor
  · show s.srcBits.drop s.pos = _
    conv_lhs => rw [← List.take_append_drop s.payloadEnd s.srcBits]
    exact List.drop_append_of_le_length (hlen.symm ▸ hpos)
  · rw [State.payloadBits, List.length_drop, hlen]

section
variable {s : State} (hm : s.mode = .read) (hv : s.treeV = true) (h0 : s.srcLen ≠ 0) {l r : CodeTree}
  (ht : s.tree = some (.internal l r))
include hm hv h0 ht

/-- DPAY on a malformed trailer (R119). -/
theorem dpay_raises (hbad : 5 < s.trailerCount.toNat ∨ s.payloadEnd < s.pos) :
    ∃ t, exec .dpay s = .next t ∧ Raised .invalidFormat s t := by
  refine ⟨raise .invalidFormat (noteRead (s.srcLen.toNat - 1) 1 s), ?_, (raised_raise _ _).of_sessionFrame rfl⟩
  simp only [exec, execDpay, hm, hv, h0, treeAt_internal_kind ht, ne_eq, not_true_eq_false, Bool.true_eq_false,
    Bool.false_eq_true, or_self, if_false, checkTrailer_of_lt hbad]

/-- DPAY with the trailer checks passed is the walk (R119). -/
theorem exec_dpay_of_walk (hc : s.trailerCount.toNat ≤ 5) (hpos : s.pos ≤ s.payloadEnd) {t : State}
    (e : walkPayload (s.payloadEnd - s.pos) (payloadStart s) = some t) : exec .dpay s = .next t := by
  rw [State.payloadEnd, payloadStart] at e
  simp only [exec, execDpay, hm, hv, h0, treeAt_internal_kind ht, ne_eq, not_true_eq_false, Bool.true_eq_false,
    Bool.false_eq_true, or_self, if_false, checkTrailer_of_le (c := s.trailerCount) rfl hc hpos, e]

/-- DPAY emits what the bits up to END decode to (R119, R120). -/
theorem dpay_emits (h : s.CursorInv) (hc : s.trailerCount.toNat ≤ 5) (hpos : s.pos ≤ s.payloadEnd) :
    ∃ t, exec .dpay s = .next t ∧ Emitted s t ((CodeTree.internal l r).dec s.payloadBits) ∧
      Consumed { s with
        sink := t.sink, sinkLen := t.sinkLen, sinkWrites := t.sinkWrites, walk := t.walk } t (s.payloadEnd - s.pos) ∧
      t.eof = s.eof ∧ (nodeAt t.nodes t.walk).kind = false := by
  obtain ⟨hunread, hlen⟩ := unread_payloadStart h0 hc hpos
  have hstart := consumed_payloadStart h
  obtain ⟨u, hu, hcons, heof, -⟩ := readBitsN_append (s := payloadStart s) hm hstart.inv hunread
  rw [hlen] at hu hcons
  have hread : Consumed { s with walk := s.root } u (s.payloadEnd - s.pos) :=
    Nat.zero_add (s.payloadEnd - s.pos) ▸ hstart.trans hcons
  have hroot : treeAt u.nodes (Config.depthMax + 1) u.root = some (.internal l r) := by
    rw [hread.frame]
    exact ht
  have hwalk : treeAt u.nodes (Config.depthMax + 1) u.walk = some (.internal l r) := by
    rw [hread.frame]
    exact ht
  obtain ⟨hemit, hframe⟩ := walkBits_decFrom s.payloadBits hroot hwalk
  refine ⟨_, exec_dpay_of_walk hm hv h0 ht hc hpos (walkPayload_of_readBitsN hu),
    hemit.congr hread.frame.memoryPart.symm rfl, hread.output hframe, ?_,
    walkBits_kind s.payloadBits (treeAt_internal_kind hroot) (treeAt_internal_kind hwalk)⟩
  rw [hframe]
  exact heof

end

/-- Settles O31: the trailer checks, and the walk along the bits up to END. -/
theorem dpayWalksThePayload : Obligations.DpayWalksThePayload :=
  ⟨rfl, fun _ => ⟨fun hrefused => if_pos hrefused, fun _ _ hm hv h0 ht h =>
    ⟨dpay_raises hm hv h0 ht, dpay_emits hm hv h0 ht h⟩⟩⟩

end Sys2Proof.Machine

/-! PROOF. R121, R122: DECODE. It runs the decoder's commands in a session that ROPEN opens and RCLOSE ends. What
ENCODE wrote is the general form, whose bits up to END are the tree, the payload and at most two bits of padding. -/

namespace Sys2Proof.Machine

/-! ## The session of DECODE (R121) -/

/-- A source with a first bit has a byte, and ROPEN latches that bit as MARK (R86). -/
theorem markOf_of_head? {s : State} {b : Bool} (h : s.srcBits.head? = some b) : s.srcLen ≠ 0 ∧ markOf s = b := by
  have hlt : 0 < s.srcBits.length := List.length_pos_iff.mpr fun e => by simp [e] at h
  have h0 : s.srcLen ≠ 0 := fun e => by simp [length_srcBits, e] at hlt
  rw [List.head?_eq_getElem?, List.getElem?_eq_getElem hlt, Option.some_inj, srcBits_getElem] at h
  exact ⟨h0, (markOf_of_srcLen h0).trans h⟩

theorem SessionFrame.trans {s u v : State} (h : SessionFrame s u) (k : SessionFrame u v) : SessionFrame s v := by
  unfold SessionFrame at *
  rw [k]
  conv_lhs => rw [h]

/-- What TDES does to the block belongs to the session. -/
theorem SessionFrame.of_planted {s u : State} (h : ReaderFrame
    { s with nodes := u.nodes, root := 0, treeV := true, codeV := false } u) : SessionFrame s u := by
  unfold SessionFrame ReaderFrame at *
  rw [h]

/-- The session has the source it opened with. -/
theorem SessionFrame.source {s u : State} (h : SessionFrame s u) :
    u.srcLen = s.srcLen ∧ u.srcBits = s.srcBits ∧ u.trailerCount = s.trailerCount ∧ u.payloadEnd = s.payloadEnd := by
  rw [h]
  exact ⟨rfl, rfl, rfl, rfl⟩

/-- What the decoder read and emitted before the end belongs to the session. -/
theorem SessionEnded.of_emitted {s u v t : State} {bytes : List Byte} {n : Nat} (h : SessionEnded v t)
    (hu : SessionFrame s u) (hemit : Emitted u v bytes)
    (hread : Consumed { u with
      sink := v.sink, sinkLen := v.sinkLen, sinkWrites := v.sinkWrites, walk := v.walk } v n) : SessionEnded s t where
  mode := h.mode
  closed := h.closed
  stores := by
    have hstores := hemit.stores.trans h.stores
    rwa [hu] at hstores
  frame := by
    have hframe := hread.frame
    unfold ReaderFrame at hframe
    rw [h.frame]
    conv_lhs => rw [hframe, hu]

/-- RCLOSE ends a session that has read and emitted since it was `u` (R88). -/
theorem rclose_emitted {s u v : State} {bytes : List Byte} {n : Nat} (hm : v.mode = .read) (hu : SessionFrame s u)
    (hemit : Emitted u v bytes)
    (hread : Consumed { u with
      sink := v.sink, sinkLen := v.sinkLen, sinkWrites := v.sinkWrites, walk := v.walk } v n) :
    ∃ t, exec .rclose v = .next t ∧ SessionEnded s t ∧ t.sinkBytes = s.sinkBytes ++ bytes := by
  refine ⟨closeSession v, if_neg (not_not.mpr hm), (sessionEnded_closeSession v).of_emitted hu hemit hread, ?_⟩
  have hbytes := hemit.bytes
  rwa [hu] at hbytes

/-- A tree that stands where the first bit is 0 is not a Leaf (R63). -/
theorem internal_of_head? {tr : CodeTree} {bits rest : List Bool} (h : bits = tr.ser ++ rest)
    (hhead : bits.head? = some false) : ∃ l r, tr = .internal l r := by
  subst h
  cases tr with
  | leaf sym => cases hhead
  | internal l r => exact ⟨l, r, rfl⟩

section
variable {s : State} (hm : s.mode = .idle) (ha : s.allocOk = true)
include hm ha

/-- DECODE of a source whose first bit is 1 (R121). -/
theorem exec_decode_of_true (h : s.srcBits.head? = some true) :
    exec .decode s = runCommands [.dsingle, .rclose] (readOpened s) := by
  obtain ⟨h0, hmark⟩ := markOf_of_head? h
  rw [exec_decode hm ha, if_neg h0, if_pos hmark]

/-- DECODE of a source whose first bit is 0 (R121). -/
theorem exec_decode_of_false (h : s.srcBits.head? = some false) :
    exec .decode s = runCommands [.tdes, .dpay, .rclose] (readOpened s) := by
  obtain ⟨h0, hmark⟩ := markOf_of_head? h
  rw [exec_decode hm ha, if_neg h0, if_neg (Bool.eq_false_iff.mp hmark)]

/-- DECODE of a source that begins as a frame and has not its length (R69, R121). -/
theorem decode_single_raises (h : s.srcBits.head? = some true) (h10 : s.srcLen ≠ 10) :
    ∃ t, exec .decode s = .next t ∧ Raised .invalidFormat s t := by
  obtain ⟨h0, hmark⟩ := markOf_of_head? h
  have hdsingle : exec .dsingle (readOpened s) = .next (raise .invalidFormat (readOpened s)) :=
    exec_dsingle_of_length_ne rfl rfl hmark h0 h10
  exact ⟨_, (exec_decode_of_true hm ha h).trans (runCommands_cons_fault hdsingle rfl _),
    (raised_raise _ _).of_sessionFrame rfl⟩

variable (hB : 1 ≤ s.params.bufSize)
include hB

theorem cursorInv_readOpened : (readOpened s).CursorInv := (cursorInv_ropen (exec_ropen hm ha) hm ha hB).2.1

/-- DECODE of a single-symbol frame (R117, R121). -/
theorem decode_single (h : s.srcBits.head? = some true) (h10 : s.srcLen = 10) :
    ∃ t, exec .decode s = .next t ∧ SessionEnded s t ∧ t.sinkBytes = s.sinkBytes ++
      List.replicate (countOfBytes s.params.countEndian (s.src.readBytes 2 8)).toNat (s.src.read 1) := by
  obtain ⟨-, hmark⟩ := markOf_of_head? h
  obtain ⟨v, hv, hemit, hread, -⟩ :=
    exec_dsingle_of_length_eq (s := readOpened s) rfl rfl hmark h10 (cursorInv_readOpened hm ha hB)
  have hvm : v.mode = .read := hread.mode
  have hwalk : v.walk = 0 := by
    rw [hread.frame]
    rfl
  obtain ⟨t, ht, hended, hbytes⟩ := rclose_emitted (s := s) (u := readOpened s) (n := 80) hvm rfl hemit (by
    rw [hwalk]
    exact hread)
  refine ⟨t, ?_, hended, hbytes⟩
  rw [exec_decode_of_true hm ha h, runCommands_cons hv (hvm.trans_ne nofun), runCommands_singleton, ht]

/-- What TDES leaves in the session of DECODE where a tree stands first (R100, R121). -/
theorem tdes_readOpened {tr : CodeTree} {rest : List Bool} (hbits : s.srcBits = tr.ser ++ rest)
    (hsize : tr.size ≤ 511) :
    ∃ u, exec .tdes (readOpened s) = .next u ∧ u.mode = .read ∧ u.CursorInv ∧ u.treeV = true ∧ u.tree = some tr ∧
      u.pos = tr.ser.length ∧ SessionFrame s u := by
  obtain ⟨u, hu, htree, -, -, hread, -⟩ :=
    exec_tdes_of_ser (s := readOpened s) rfl (cursorInv_readOpened hm ha hB) hbits hsize
  refine ⟨u, hu, hread.mode, hread.inv, ?_, htree, hread.pos.trans (Nat.zero_add _),
    SessionFrame.trans (u := readOpened s) rfl (.of_planted hread.frame)⟩
  rw [hread.frame]

/-- DECODE of a file in the general form (R62, R121). -/
theorem decode_general {l r : CodeTree} {rest : List Bool} (hbits : s.srcBits = (CodeTree.internal l r).ser ++ rest)
    (hsize : (CodeTree.internal l r).size ≤ 511) (hc : s.trailerCount.toNat ≤ 5)
    (hend : (CodeTree.internal l r).ser.length ≤ s.payloadEnd) :
    ∃ t, exec .decode s = .next t ∧ SessionEnded s t ∧ t.sinkBytes = s.sinkBytes ++
      (CodeTree.internal l r).dec ((s.srcBits.take s.payloadEnd).drop (CodeTree.internal l r).ser.length) := by
  have hhead : s.srcBits.head? = some false := hbits ▸ rfl
  obtain ⟨h0, -⟩ := markOf_of_head? hhead
  obtain ⟨u, hu, hum, hinv, huv, htree, hpos, hframe⟩ := tdes_readOpened hm ha hB hbits hsize
  obtain ⟨hlen, hsrcBits, hcount, hstop⟩ := hframe.source
  obtain ⟨v, hv, hemit, hread, -⟩ := dpay_emits hum huv (hlen.trans_ne h0) htree hinv
    (hcount ▸ hc) (hpos ▸ hstop ▸ hend)
  have hvm : v.mode = .read := hread.mode.trans hum
  obtain ⟨t, ht, hended, hbytes⟩ := rclose_emitted hvm hframe hemit hread
  refine ⟨t, ?_, hended, ?_⟩
  · rw [exec_decode_of_false hm ha hhead, runCommands_cons hu (hum.trans_ne nofun),
      runCommands_cons hv (hvm.trans_ne nofun), runCommands_singleton, ht]
  · rw [hbytes, State.payloadBits, hsrcBits, hstop, hpos]

/-- DECODE where the tree does not stand first, or the trailer is malformed (R69, R121). -/
theorem decode_general_raises (hhead : s.srcBits.head? = some false)
    (hbad : ∀ (tr : CodeTree) (rest : List Bool), s.srcBits = tr.ser ++ rest → tr.size ≤ 511 →
      5 < s.trailerCount.toNat ∨ s.payloadEnd < tr.ser.length) :
    ∃ t, exec .decode s = .next t ∧ Raised .invalidFormat s t := by
  by_cases hfits : ∃ (tr : CodeTree) (rest : List Bool), s.srcBits = tr.ser ++ rest ∧ tr.size ≤ 511
  · obtain ⟨tr, rest, hbits, hsize⟩ := hfits
    obtain ⟨l, r, rfl⟩ := internal_of_head? hbits hhead
    obtain ⟨u, hu, hum, hinv, huv, htree, hpos, hframe⟩ := tdes_readOpened hm ha hB hbits hsize
    obtain ⟨hlen, -, hcount, hstop⟩ := hframe.source
    obtain ⟨t, ht, hraised⟩ := dpay_raises hum huv (hlen.trans_ne (markOf_of_head? hhead).1) htree (by
      rw [hcount, hstop, hpos]
      exact hbad _ rest hbits hsize)
    refine ⟨t, ?_, hraised.of_sessionFrame hframe⟩
    rw [exec_decode_of_false hm ha hhead, runCommands_cons hu (hum.trans_ne nofun),
      runCommands_cons_fault ht hraised.mode]
  · obtain ⟨t, ht, hraised⟩ := exec_tdes_of_no_ser (s := readOpened s) rfl (cursorInv_readOpened hm ha hB)
      fun tr rest hbits => Nat.lt_of_not_le fun hsize => hfits ⟨tr, rest, hbits, hsize⟩
    exact ⟨t, (exec_decode_of_false hm ha hhead).trans (runCommands_cons_fault ht hraised.mode _),
      hraised.of_sessionFrame rfl⟩

end

/-- Settles O32: the length and the first bit choose the form; the tree that stands first is the only one that can. -/
theorem decodeInterpretsTheFile : Obligations.DecodeInterpretsTheFile := by
  refine ⟨rfl, fun s => ⟨fun hm => if_pos hm, fun hm ha => ?_, fun hm ha hB => ?_⟩⟩
  · have hopen := exec_ropen_unallocated hm ha
    exact ⟨_, (composites_unallocated hm ha).2.trans ((runCommands_singleton .ropen s).trans hopen), raised_raise _ s⟩
  refine ⟨fun h0 => ?_, decode_single_raises hm ha, decode_single hm ha hB, fun tr rest hhead hbits => ?_,
    decode_general_raises hm ha hB⟩
  · exact ⟨_, (exec_decode hm ha).trans (if_pos h0), (raised_raise .emptyInput _).of_sessionFrame rfl⟩
  · obtain ⟨l, r, rfl⟩ := internal_of_head? hbits hhead
    exact decode_general hm ha hB hbits

/-! ## The padding that the walk follows (R122) -/

/-- The leftmost leaf's code goes left all the way. -/
theorem leftmost_mem_codes (t : CodeTree) : (t.leftmost.1, List.replicate t.leftmost.2 false) ∈ t.codes := by
  induction t with
  | leaf sym => exact List.mem_singleton.mpr rfl
  | internal l r ihl _ => exact List.mem_append_left _ (List.mem_map_of_mem ihl)

/-- Zeros decode to copies of the leftmost leaf's symbol, one for each time they spell its code (R122). -/
theorem dec_replicate_false (l r : CodeTree) (n : Nat) :
    (CodeTree.internal l r).dec (List.replicate n false) =
      List.replicate (n / (CodeTree.internal l r).leftmost.2) (CodeTree.internal l r).leftmost.1 := by
  have hcode := leftmost_mem_codes (.internal l r)
  have hpos : 0 < (CodeTree.internal l r).leftmost.2 := Nat.succ_pos _
  set d := (CodeTree.internal l r).leftmost.2
  induction n using Nat.strong_induction_on with
  | _ n ih =>
    rcases Nat.lt_or_ge n d with hn | hn
    · have htake := decFrom_take_code (.internal l r) hcode (k := n) (by simpa using hn)
      rw [List.take_replicate, Nat.min_eq_left hn.le] at htake
      rw [Nat.div_eq_of_lt hn]
      exact htake
    · obtain ⟨m, rfl⟩ : ∃ m, n = d + m := ⟨n - d, by omega⟩
      rw [List.replicate_add, CodeTree.dec, decFrom_code _ hcode, Nat.add_div_left m hpos, List.replicate_succ]
      exact congrArg _ (ih m (by omega))

/-! ## What ENCODE wrote (R61, R62, R122) -/

/-- The padding bits before END, for `u` used bits in the last data byte: those of the zero-byte trailer (R66, R118). -/
def walkedPadding (u : Nat) : Nat := if u ≤ 5 then 0 else 8 - u

/-- The number of bits before the trailer, modulo a byte: the used bits of the last data byte (R65, R66). -/
def usedInLast (tr : CodeTree) (bytes : List Byte) : Nat := (tr.ser.length + (tr.payload bytes).length) % 8

/-- The general form up to END is the tree, the payload and the padding that is walked. -/
theorem take_generalForm (tr : CodeTree) (bytes : List Byte) :
    (generalForm tr bytes).take (tr.ser.length + (tr.payload bytes).length + walkedPadding (usedInLast tr bytes)) =
      tr.ser ++ (tr.payload bytes ++ List.replicate (walkedPadding (usedInLast tr bytes)) false) := by
  have htrailer : trailerBits (usedInLast tr bytes) = List.replicate (walkedPadding (usedInLast tr bytes)) false ++
      (trailerBits (usedInLast tr bytes)).drop (walkedPadding (usedInLast tr bytes)) := by
    unfold trailerBits walkedPadding
    split
    · rfl
    · rw [List.drop_left' (by simp)]
  have hform : generalForm tr bytes = (tr.ser ++ tr.payload bytes) ++ trailerBits (usedInLast tr bytes) := by
    rw [generalForm, usedInLast, ← List.length_append]
  rw [hform, htrailer, ← List.append_assoc, ← List.append_assoc]
  exact List.take_left' (by simp [Nat.add_assoc])

/-- The last source byte. -/
theorem getLastD_srcBytes {s : State} (h0 : s.srcBytes ≠ []) :
    s.srcBytes.getLastD 0 = s.src.read (s.srcLen.toNat - 1) := by
  have hpos : 0 < s.srcLen.toNat := length_srcBytes s ▸ List.length_pos_iff.mpr h0
  rw [List.getLastD_eq_getLast?, List.getLast?_eq_getElem?, length_srcBytes]
  simp [State.srcBytes, Memory.readBytes, hpos]

/-- A source in the general form, and what its trailer says (R62, R67, R118). -/
theorem source_of_generalForm {d : State} {tr : CodeTree} {bytes : List Byte}
    (h : d.srcBytes = packBits (generalForm tr bytes)) :
    d.srcBits = generalForm tr bytes ∧ d.trailerCount.toNat ≤ 5 ∧
      d.payloadEnd = tr.ser.length + (tr.payload bytes).length + walkedPadding (usedInLast tr bytes) := by
  obtain ⟨hbits, hc, hpacked, hzero⟩ := generalFormLength tr bytes
  have hlen : (packBits (generalForm tr bytes)).length ≠ 0 := by
    rcases Nat.lt_or_ge 5 (usedInLast tr bytes) with hu | hu
    · exact (hzero hu).1.trans_ne (Nat.succ_ne_zero _)
    · exact (hpacked hu).1.trans_ne (Nat.succ_ne_zero _)
  have hne : d.srcBytes ≠ [] := fun e => hlen (h ▸ congrArg List.length e)
  rw [← h, getLastD_srcBytes hne] at hc hpacked hzero
  refine ⟨(congrArg (·.flatMap bitsMsb) h).trans hbits, hc, ?_⟩
  rw [length_srcBytes] at hpacked hzero
  rcases Nat.lt_or_ge 5 (usedInLast tr bytes) with hu | hu
  · rw [walkedPadding, if_neg (Nat.not_le.mpr hu)]
    exact (hzero hu).2
  · rw [walkedPadding, if_pos hu]
    exact (hpacked hu).2

/-- A symbol with a leaf has a code. -/
theorem codeOf_isSome {t : CodeTree} {sym : Byte} (h : sym ∈ t.codes.map fun c => c.1) :
    (t.codeOf sym).isSome = true := by
  obtain ⟨c, hc, rfl⟩ := List.mem_map.mp h
  rw [CodeTree.codeOf, Option.isSome_map, List.find?_isSome]
  exact ⟨c, List.mem_reverse.mpr hc, beq_self_eq_true _⟩

section
variable {d : State} (hm : d.mode = .idle) (ha : d.allocOk = true) (hB : 1 ≤ d.params.bufSize)
include hm ha hB

/-- DECODE of a single-symbol form (R61, R122). -/
theorem decode_singleFrame {sym : Byte} {count : Word64}
    (h : d.srcBytes = singleFrame d.params.countEndian sym count) :
    ∃ e, exec .decode d = .next e ∧ SessionEnded d e ∧ e.sinkBytes = d.sinkBytes ++ List.replicate count.toNat sym := by
  have h10 : d.srcLen.toNat = 10 := by
    rw [← length_srcBytes, h, length_singleFrame]
  have hhead : d.srcBits.head? = some true := by
    rw [State.srcBits, h]
    rfl
  have hread : d.srcBytes = d.src.read 0 :: d.src.read 1 :: d.src.readBytes 2 8 := by
    rw [State.srcBytes, h10]
    rfl
  obtain ⟨-, hsym, hcount⟩ : _ ∧ _ ∧ _ := by simpa only [singleFrame, List.cons.injEq] using hread.symm.trans h
  obtain ⟨e, he, hended, hbytes⟩ := decode_single hm ha hB hhead (BitVec.eq_of_toNat_eq h10)
  rw [hcount, hsym, countOfBytes_countBytes] at hbytes
  exact ⟨e, he, hended, hbytes⟩

/-- DECODE of the general form: the payload's bytes, and what the walk makes of the padding (R62, R122). -/
theorem decode_generalForm {l r : CodeTree} {bytes : List Byte} (hsize : (CodeTree.internal l r).size ≤ 511)
    (hcodes : ∀ b ∈ bytes, ((CodeTree.internal l r).codeOf b).isSome = true)
    (h : d.srcBytes = packBits (generalForm (.internal l r) bytes)) :
    ∃ e, exec .decode d = .next e ∧ SessionEnded d e ∧ e.sinkBytes = d.sinkBytes ++ bytes ++
      List.replicate (walkedPadding (usedInLast (.internal l r) bytes) / (CodeTree.internal l r).leftmost.2)
        (CodeTree.internal l r).leftmost.1 := by
  obtain ⟨hbits, hc, hend⟩ := source_of_generalForm h
  obtain ⟨e, he, hended, hbytes⟩ := decode_general hm ha hB
    (hbits.trans (List.append_assoc ..)) hsize hc (by omega)
  refine ⟨e, he, hended, ?_⟩
  rw [hbytes, hbits, hend, take_generalForm, List.drop_left, dec_payload _ _ hcodes, dec_replicate_false,
    List.append_assoc]

end

section
variable {s t : State} (hm : s.mode = .idle) (ha : s.allocOk = true) (he : exec .encode s = .next t)
include hm ha he

/-- ENCODE of the empty source does not end in IDLE (R113). -/
theorem distinct_ne_zero_of_encoded (ht : t.mode = .idle) :
    (allSymbols.filter fun sym => sym ∈ s.srcBytes).length ≠ 0 := fun h0 => by
  rw [exec_encode hm ha, if_pos ((leafCount_encodeScanned_eq_iff s 0).mpr h0)] at he
  cases he
  cases ht

variable (hB : 1 ≤ s.params.bufSize)
include hB

/-- What ENCODE wrote for one byte value (R61). -/
theorem encoded_single (h1 : (allSymbols.filter fun sym => sym ∈ s.srcBytes).length = 1) :
    ∃ sym, s.srcBytes = List.replicate s.srcLen.toNat sym ∧
      t.sinkBytes = s.sinkBytes ++ singleFrame s.params.countEndian sym s.srcLen := by
  obtain ⟨sym, hmem⟩ := List.exists_mem_of_length_pos (h1.symm ▸ Nat.one_pos)
  have hsym : sym ∈ s.srcBytes := by simpa using (List.mem_filter.mp hmem).2
  have hsame := eq_of_distinct_eq_one h1 hsym
  obtain ⟨u, hu, -, hbytes⟩ := encode_single hm ha hB ((leafCount_encodeScanned_eq_iff s 1).mpr h1) hsym hsame
  obtain rfl : u = t := Host.Outcome.next.inj (hu.symm.trans he)
  exact ⟨sym, List.eq_replicate_iff.mpr ⟨length_srcBytes s, hsame⟩, hbytes⟩

/-- What ENCODE wrote for two or more byte values (R62). -/
theorem encoded_general (h2 : 2 ≤ (allSymbols.filter fun sym => sym ∈ s.srcBytes).length) (ht : t.mode = .idle) :
    ∃ l r, huffmanTree s.params s.srcBytes = some (.internal l r) ∧ (CodeTree.internal l r).size ≤ 511 ∧
      (∀ b ∈ s.srcBytes, ((CodeTree.internal l r).codeOf b).isSome = true) ∧
      t.sinkBytes = s.sinkBytes ++ packBits (generalForm (.internal l r) s.srcBytes) := by
  have hleaf : 2 ≤ (encodeScanned s).leafCount.toNat := (leafCount_encodeScanned s).symm ▸ h2
  obtain ⟨tr, htree, hhuffman, hsyms, -⟩ := tree_treeBuilt (tablesInv_encodeScanned s) rfl hleaf
  have hused : usedSymbols (encodeScanned s).freq = allSymbols.filter fun sym => sym ∈ s.srcBytes :=
    usedSymbols_frequencies (length_srcBytes_lt s)
  have hleaves : tr.leaves = (allSymbols.filter fun sym => sym ∈ s.srcBytes).length := by
    rw [← hused, ← hsyms.length_eq, List.length_map, length_codes]
  have hsize : tr.size ≤ 511 := by
    have hle : (allSymbols.filter fun sym => sym ∈ s.srcBytes).length ≤ 256 :=
      (List.length_filter_le ..).trans_eq (by rw [allSymbols, List.length_map, List.length_range])
    have hcount := size_succ tr
    omega
  have hcodes : ∀ b ∈ s.srcBytes, (tr.codeOf b).isSome = true := fun b hb =>
    codeOf_isSome (hsyms.mem_iff.mpr (hused ▸ List.mem_filter.mpr ⟨mem_allSymbols b, decide_eq_true hb⟩))
  have hdepth : tr.depth ≤ 64 := by
    by_contra hdeep
    obtain ⟨u, hu, hraised⟩ := encode_overflow hm ha hleaf htree (Nat.lt_of_not_le hdeep)
    obtain rfl : u = t := Host.Outcome.next.inj (hu.symm.trans he)
    exact absurd (hraised.mode.symm.trans ht) nofun
  obtain ⟨u, hu, -, hbytes⟩ := encode_general hm ha hleaf hB htree hdepth
  obtain rfl : u = t := Host.Outcome.next.inj (hu.symm.trans he)
  cases tr with
  | leaf sym => exact absurd (h2.trans_eq hleaves.symm : 2 ≤ 1) (by decide)
  | internal l r => exact ⟨l, r, hhuffman, hsize, hcodes, hbytes⟩

end

/-- Settles O33: the form that ENCODE wrote is the one that DECODE reads, and zeros decode to the leftmost leaf. -/
theorem decodeOfEncode : Obligations.DecodeOfEncode := by
  intro s t d hm ha hB he ht hdm hda hdB hendian hsink distinct
  have hdistinct := distinct_ne_zero_of_encoded hm ha he ht
  rcases Nat.lt_or_ge distinct 2 with hlt | h2
  · have h1 : distinct = 1 := by omega
    obtain ⟨sym, hsrc, hbytes⟩ := encoded_single hm ha he hB h1
    have hfile := List.append_cancel_left (hsink.trans hbytes)
    rw [← hendian] at hfile
    obtain ⟨e, hd, hended, hout⟩ := decode_singleFrame hdm hda hdB hfile
    exact ⟨e, hd, hended.mode, fun _ => hsrc ▸ hout, fun h2 => by omega⟩
  · obtain ⟨l, r, hhuffman, hsize, hcodes, hbytes⟩ := encoded_general hm ha he hB h2 ht
    have hfile := List.append_cancel_left (hsink.trans hbytes)
    obtain ⟨e, hd, hended, hout⟩ := decode_generalForm hdm hda hdB hsize hcodes hfile
    refine ⟨e, hd, hended.mode, fun h1 => by omega, fun _ =>
      ⟨_, hhuffman, Nat.le_add_left 1 _, fun hu => ?_, fun hu => ?_⟩⟩
    · have hpad : walkedPadding (usedInLast (.internal l r) s.srcBytes) = 0 := if_pos hu
      rw [hout, hpad, Nat.zero_div, List.replicate_zero, List.append_nil]
    · have hpad : walkedPadding (usedInLast (.internal l r) s.srcBytes) =
          8 - usedInLast (.internal l r) s.srcBytes := if_neg (Nat.not_le.mpr hu)
      rw [hout, hpad]
      rfl

end Sys2Proof.Machine

/-! PROOF. R123, R126, R129, R131, R147, R149: what the host does to the block, and the error it acknowledges. Each is one
operation of the model; STATUS outside a session is a matter of MODE, CMDERR and ERRCODE alone. -/

namespace Sys2Proof.Machine

/-! ## One step of the host (R123) -/

theorem step_of_host {s : State} {a : HostAccess} {rest : List HostAccess} (h : s.host = a :: rest) :
    step s = takeAccess a { s with host := rest } := by rw [step, h]

/-- A word that decodes runs its command. -/
theorem runWord_of_decode {w : CmdWord} {i : Instr} (h : decode (.word w) = .ok i) (s : State) :
    runWord w s = exec i s := by rw [runWord, h]

/-- Settles O42: a write of CMD runs its word, which either decodes or is refused. -/
theorem stepRunsTheDecodedCommand : Obligations.StepRunsTheDecodedCommand := by
  intro s v rest h
  have hword : step s = runWord (v.setWidth 16) { s with host := rest } :=
    (hostRegisterAccess s 0 v rest).2.1 h rfl
  exact ⟨fun i hi => hword.trans (runWord_of_decode hi _), fun hi => hword.trans (runWord_of_decode_none hi _), rfl⟩

/-! ## CLRERR (R126) -/

theorem exec_clrerr (s : State) : exec .clrerr s = .next (acknowledge s) := rfl

theorem acknowledge_of_fault {s : State} (hm : s.mode = .fault) :
    acknowledge s = { s with cmdErr := false, errCode := .none, mode := .idle } := if_pos hm

theorem acknowledge_of_ne_fault {s : State} (hm : s.mode ≠ .fault) : acknowledge s = { s with cmdErr := false } :=
  if_neg hm

/-- Settles O35: the two cases of `acknowledge`. -/
theorem clrerrAcknowledges : Obligations.ClrerrAcknowledges := by
  refine ⟨rfl, fun s => ⟨fun hm => ?_, fun hm => ?_⟩⟩
  · rw [exec_clrerr, acknowledge_of_fault hm]
  · rw [exec_clrerr, acknowledge_of_ne_fault hm]

/-! ## Raising an error (R129, R131) -/

/-- Settles O37: `raise` sets MODE and ERRCODE, and STATUS shows both. -/
theorem raiseEntersFault : Obligations.RaiseEntersFault := by
  intro e s
  obtain ⟨hmode, -, -, -, -, -, -, herr, -⟩ := statusFields (raise e s)
  exact ⟨raised_raise e s, rfl, hmode, herr, rfl, rfl, rfl, rfl, rfl⟩

/-! ## Hardware reset (R33, R147) -/

/-- Where nothing is held, STATUS is its MODE, CMDERR and ERRCODE (R15, R32). -/
theorem State.Closed.status_eq {s t : State} (hs : s.Closed) (ht : t.Closed) (hm : t.mode = s.mode)
    (hc : t.cmdErr = s.cmdErr) (he : t.errCode = s.errCode) : t.status = s.status := by
  simp only [State.status, hm, hc, he, hs.leafCount, hs.curBit, hs.codeV, hs.treeV, hs.freqV, hs.mark, hs.eof,
    ht.leafCount, ht.curBit, ht.codeV, ht.treeV, ht.freqV, ht.mark, ht.eof]

theorem closed_reset : State.reset.Closed := invariantsHoldAtReset.2.1.closed_outside rfl

theorem status_reset : State.reset.status = 0 := by decide

theorem closed_hardwareReset (s : State) : (hardwareReset s).Closed := (closed_release s).congr rfl

theorem status_hardwareReset (s : State) : (hardwareReset s).status = 0 :=
  (closed_reset.status_eq (closed_hardwareReset s) rfl rfl rfl).trans status_reset

/-- Settles O45: hardware reset releases the session and sets the other scalars; it leaves STATUS as after reset. -/
theorem hardwareResetSetsTheScalars : Obligations.HardwareResetSetsTheScalars := by
  refine ⟨fun s rest h => ?_, closed_reset, rfl, rfl, rfl, rfl, rfl, status_reset⟩
  exact ⟨_, step_of_host h, closed_hardwareReset _, rfl, rfl, rfl, rfl, rfl, status_hardwareReset _,
    rfl, rfl, rfl, rfl, rfl⟩

/-! ## Attaching a source or a sink (R149, R153, R154) -/

section
variable {s : State} {bytes : List Byte}

theorem attachSource_outside (hs : s.sessionOpen = false) (hl : bytes.length < 2 ^ 64) : attachSource bytes s =
    .next { s with src := Memory.ofBytes bytes, srcLen := BitVec.ofNat 64 bytes.length, srcReads := [] } :=
  (if_neg (by simp [hs])).trans (if_neg (Nat.not_le.mpr hl))

theorem attachSink_outside (hs : s.sessionOpen = false) : attachSink bytes s =
    .next { s with sink := Memory.ofBytes bytes, sinkLen := bytes.length, sinkWrites := [] } := if_neg (by simp [hs])

theorem attachSource_tooLong (hs : s.sessionOpen = false) (hl : 2 ^ 64 ≤ bytes.length) :
    attachSource bytes s = .refused .sourceTooLong := (if_neg (by simp [hs])).trans (if_pos hl)

theorem readBytes_ofBytes_srcLen (hl : bytes.length < 2 ^ 64) :
    (Memory.ofBytes bytes).readBytes 0 (BitVec.ofNat 64 bytes.length).toNat = bytes := by
  rw [BitVec.toNat_ofNat, Nat.mod_eq_of_lt hl, Memory.readBytes_ofBytes]

end

/-- Settles O49: between sessions the space holds exactly the attached bytes; the other cases are the model's stops. -/
theorem attachedBytesReadBack : Obligations.AttachedBytesReadBack := by
  intro s bytes rest
  refine ⟨fun h hs hl => ?_, fun h hs => ?_, fun h hs => ?_, fun h hs => ?_, fun h hs hl => ?_⟩
  · exact ⟨_, (step_of_host h).trans (attachSource_outside (s := { s with host := rest }) hs hl),
      readBytes_ofBytes_srcLen hl, rfl⟩
  · exact ⟨_, (step_of_host h).trans (attachSink_outside (s := { s with host := rest }) hs),
      Memory.readBytes_ofBytes bytes, rfl⟩
  · exact (step_of_host h).trans (if_pos hs)
  · exact (step_of_host h).trans (if_pos hs)
  · exact (step_of_host h).trans (attachSource_tooLong (s := { s with host := rest }) hs hl)

end Sys2Proof.Machine

/-! PROOF. R160, R121, R113: how ENCODE and DECODE end. The ending is one of the listed errors or the bytes that the
sink gets; it is the source's alone, whatever BUF_SIZE and the contents of BUF are. -/

namespace Sys2Proof.Machine

/-! ## BUF_SIZE -/

/-- The same block built with another BUF_SIZE, and with other contents of BUF (R7, R19). -/
def State.resized (s : State) (n : Nat) (buf : List Byte) : State :=
  { s with params := { s.params with bufSize := n }, buf := buf }

/-- The merges of TBUILD look at CHILD_ORDER and TIE only (R92, R93). -/
theorem mergeOnce_bufSize (draw : Nat) (p : Config.Params) (n : Nat) :
    mergeOnce draw { p with bufSize := n } = mergeOnce draw p := rfl

theorem huffmanTree_bufSize (p : Config.Params) (n : Nat) (bytes : List Byte) :
    huffmanTree { p with bufSize := n } bytes = huffmanTree p bytes := by
  simp only [huffmanTree, buildTree_eq_iterate, mergeOnce_bufSize]

/-! ## Endings -/

/-- How a command that opens and ends its own session completes: with an error the table lists for it, or with bytes
appended to the sink (R113, R121, R128). -/
def Ends (i : Instr) (s : State) : Except ErrKind (List Byte) → Prop
  | .error e => e ∈ mayRaise i ∧ ∃ t, exec i s = .next t ∧ Raised e s t
  | .ok bytes => ∃ t, exec i s = .next t ∧ SessionEnded s t ∧ t.sinkBytes = s.sinkBytes ++ bytes

section
variable {s : State} (hm : s.mode = .idle)
include hm

theorem composites_ending_unallocated {i : Instr} (hi : i = .encode ∨ i = .decode) (ha : s.allocOk = false) :
    Ends i s (.error .allocation) := by
  obtain ⟨hencode, hdecode⟩ := composites_unallocated hm ha
  obtain rfl | rfl := hi
  · exact ⟨by decide, _, (hencode.trans (runCommands_singleton ..)).trans (exec_wopen_unallocated hm ha),
      raised_raise _ s⟩
  · exact ⟨by decide, _, (hdecode.trans (runCommands_singleton ..)).trans (exec_ropen_unallocated hm ha),
      raised_raise _ s⟩

/-- ENCODE's ending, by the number of distinct source bytes and the depth of their tree (R113). -/
theorem encode_ending : ∃ r, ∀ n buf, 1 ≤ n → Ends .encode (s.resized n buf) r := by
  cases ha : s.allocOk with
  | false => exact ⟨_, fun n buf _ => composites_ending_unallocated (s := s.resized n buf) hm (.inl rfl) ha⟩
  | true =>
    have hforms (n : Nat) (buf : List Byte) (hn : 1 ≤ n) :=
      (encodeProducesTheWireFormat.2 (s.resized n buf)).2.2 hm ha hn
    obtain h0 | h1 | h2 : (allSymbols.filter fun sym => sym ∈ s.srcBytes).length = 0 ∨
        (allSymbols.filter fun sym => sym ∈ s.srcBytes).length = 1 ∨
        2 ≤ (allSymbols.filter fun sym => sym ∈ s.srcBytes).length := by omega
    · refine ⟨.error .emptyInput, fun n buf hn => ⟨by decide, ?_⟩⟩
      obtain ⟨-, hempty, -, -⟩ := hforms n buf hn
      exact hempty h0
    · obtain ⟨sym, hsym⟩ := List.length_pos_iff_exists_mem.mp (h1.symm ▸ Nat.one_pos)
      have hmem : sym ∈ s.srcBytes := by simpa using (List.mem_filter.mp hsym).2
      refine ⟨.ok (0x80 :: sym :: countBytes s.params.countEndian s.srcLen), fun n buf hn => ?_⟩
      obtain ⟨-, -, hsingle, -⟩ := hforms n buf hn
      exact hsingle sym h1 hmem
    · obtain ⟨-, -, -, hgeneral⟩ := hforms 1 [] le_rfl
      obtain ⟨tr, htr, -⟩ := hgeneral h2
      have hsame (n : Nat) (buf : List Byte) (hn : 1 ≤ n) :
          (64 < tr.depth → Ends .encode (s.resized n buf) (.error .codeOverflow)) ∧
          (tr.depth ≤ 64 → Ends .encode (s.resized n buf) (.ok (packBits (generalForm tr s.srcBytes)))) := by
        obtain ⟨-, -, -, hgeneral⟩ := hforms n buf hn
        obtain ⟨tr', htr', hend⟩ := hgeneral h2
        have htree : huffmanTree s.params s.srcBytes = some tr := (huffmanTree_bufSize s.params 1 _).symm.trans htr
        have htree' : huffmanTree s.params s.srcBytes = some tr' := (huffmanTree_bufSize s.params n _).symm.trans htr'
        obtain rfl : tr = tr' := Option.some.inj (htree.symm.trans htree')
        exact ⟨fun hdeep => ⟨by decide, hend.1 hdeep⟩, hend.2⟩
      obtain hdeep | hle := Nat.lt_or_ge 64 tr.depth
      · exact ⟨.error .codeOverflow, fun n buf hn => (hsame n buf hn).1 hdeep⟩
      · exact ⟨.ok (packBits (generalForm tr s.srcBytes)), fun n buf hn => (hsame n buf hn).2 hle⟩

/-- A source without a first bit is empty (R22). -/
theorem decode_ending_empty (ha : s.allocOk = true) (hhead : s.srcBits.head? = none) :
    Ends .decode s (.error .emptyInput) := by
  have hlen : 8 * s.srcLen.toNat = 0 := by
    rw [← length_srcBits, List.head?_eq_none_iff.mp hhead, List.length_nil]
  have h0 : s.srcLen = 0 := BitVec.eq_of_toNat_eq (by simpa using hlen)
  exact ⟨by decide, _, (exec_decode hm ha).trans (if_pos h0), (raised_raise .emptyInput _).of_sessionFrame rfl⟩

/-- DECODE's ending, by the source's length, its first bit and the tree that stands first (R69, R121). -/
theorem decode_ending : ∃ r, ∀ n buf, 1 ≤ n → Ends .decode (s.resized n buf) r := by
  cases ha : s.allocOk with
  | false => exact ⟨_, fun n buf _ => composites_ending_unallocated (s := s.resized n buf) hm (.inr rfl) ha⟩
  | true =>
    cases hhead : s.srcBits.head? with
    | none => exact ⟨_, fun n buf _ => decode_ending_empty (s := s.resized n buf) hm ha hhead⟩
    | some b =>
      cases b with
      | true =>
        by_cases h10 : s.srcLen = 10
        · exact ⟨.ok (List.replicate (countOfBytes s.params.countEndian (s.src.readBytes 2 8)).toNat (s.src.read 1)),
            fun n buf hn => decode_single (s := s.resized n buf) hm ha hn hhead h10⟩
        · exact ⟨.error .invalidFormat, fun n buf hn =>
            ⟨by decide, decode_single_raises (s := s.resized n buf) hm ha hhead h10⟩⟩
      | false =>
        by_cases hgood : ∃ (tr : CodeTree) (rest : List Bool), s.srcBits = tr.ser ++ rest ∧ tr.size ≤ 511 ∧
            s.trailerCount.toNat ≤ 5 ∧ tr.ser.length ≤ s.payloadEnd
        · obtain ⟨tr, rest, hbits, hsize, hc, hstop⟩ := hgood
          obtain ⟨l, r, rfl⟩ := internal_of_head? hbits hhead
          exact ⟨.ok ((CodeTree.internal l r).dec
              ((s.srcBits.take s.payloadEnd).drop (CodeTree.internal l r).ser.length)),
            fun n buf hn => decode_general (s := s.resized n buf) hm ha hn hbits hsize hc hstop⟩
        · have hbad (tr : CodeTree) (rest : List Bool) (hbits : s.srcBits = tr.ser ++ rest) (hsize : tr.size ≤ 511) :
              5 < s.trailerCount.toNat ∨ s.payloadEnd < tr.ser.length := by
            by_contra! hok
            exact hgood ⟨tr, rest, hbits, hsize, hok⟩
          exact ⟨.error .invalidFormat, fun n buf hn =>
            ⟨by decide, decode_general_raises (s := s.resized n buf) hm ha hn hhead hbad⟩⟩

theorem composite_ending {i : Instr} (hi : i = .encode ∨ i = .decode) :
    ∃ r, ∀ n buf, 1 ≤ n → Ends i (s.resized n buf) r := by
  obtain rfl | rfl := hi
  · exact encode_ending hm
  · exact decode_ending hm

end

/-! ## What the host sees of an ending -/

theorem length_sinkBytes (s : State) : s.sinkBytes.length = s.sinkLen := Memory.length_readBytes ..

theorem Raised.cmdErr {e : ErrKind} {s t : State} (h : Raised e s t) : t.cmdErr = s.cmdErr := by rw [h.frame]
theorem Raised.res {e : ErrKind} {s t : State} (h : Raised e s t) : t.res = s.res := by rw [h.frame]
theorem Raised.sinkBytes {e : ErrKind} {s t : State} (h : Raised e s t) : t.sinkBytes = s.sinkBytes := by
  rw [h.frame]
  rfl

theorem SessionEnded.cmdErr {s t : State} (h : SessionEnded s t) : t.cmdErr = s.cmdErr := by rw [h.frame]
theorem SessionEnded.errCode {s t : State} (h : SessionEnded s t) : t.errCode = s.errCode := by rw [h.frame]
theorem SessionEnded.res {s t : State} (h : SessionEnded s t) : t.res = s.res := by rw [h.frame]

/-- Two states with nothing held, told apart by nothing a host reads. -/
theorem observed_eq {t t' : State} (hc : t.Closed) (hc' : t'.Closed) (hsink : t'.sinkBytes = t.sinkBytes)
    (hm : t'.mode = t.mode) (hcmd : t'.cmdErr = t.cmdErr) (herr : t'.errCode = t.errCode) (hres : t'.res = t.res) :
    t'.sinkBytes = t.sinkBytes ∧ t'.sinkLen = t.sinkLen ∧ t'.status = t.status ∧ t'.res = t.res := by
  refine ⟨hsink, ?_, hc.status_eq hc' hm hcmd herr, hres⟩
  rw [← length_sinkBytes, hsink, length_sinkBytes]

/-- Settles O34: both runs have the same ending, and after it the sink, STATUS and RES are a matter of that alone. -/
theorem bufSizeIsNotObservable : Obligations.BufSizeIsNotObservable := by
  intro s n buf i hm hi hB hn
  obtain ⟨r, hr⟩ := composite_ending hm hi
  have hs : Ends i s r := hr s.params.bufSize s.buf hB
  have hs' : Ends i (s.resized n buf) r := hr n buf hn
  cases r with
  | error e =>
    obtain ⟨-, t, ht, h⟩ := hs
    obtain ⟨-, t', ht', h'⟩ := hs'
    exact ⟨t, t', ht, ht', observed_eq h.closed h'.closed (h'.sinkBytes.trans h.sinkBytes.symm)
      (h'.mode.trans h.mode.symm) (h'.cmdErr.trans h.cmdErr.symm) (h'.errCode.trans h.errCode.symm)
      (h'.res.trans h.res.symm)⟩
  | ok bytes =>
    obtain ⟨t, ht, h, hbytes⟩ := hs
    obtain ⟨t', ht', h', hbytes'⟩ := hs'
    exact ⟨t, t', ht, ht', observed_eq h.closed h'.closed (hbytes'.trans hbytes.symm)
      (h'.mode.trans h.mode.symm) (h'.cmdErr.trans h.cmdErr.symm) (h'.errCode.trans h.errCode.symm)
      (h'.res.trans h.res.symm)⟩

end Sys2Proof.Machine

/-! PROOF. R124, R125, R128, R134: the table of the commands. A command whose precondition fails is refused; an accepted
one leaves CMDERR and ERRCODE alone in an open session, or ends its session, or raises an error of its row. -/

namespace Sys2Proof.Machine

/-! ## Refusal (R125) -/

theorem one_le_toNat_iff {n : Nat} (v : BitVec n) : 1 ≤ v.toNat ↔ v ≠ 0 := by
  simp [Nat.one_le_iff_ne_zero, ← BitVec.toNat_inj]

/-- Each command tests its precondition first (R124, R125). -/
theorem exec_of_not_accepts {i : Instr} {s : State} (hc : i.isCommand = true) (h : ¬ accepts i s) :
    exec i s = .next (refuse s) := by
  have guard {c p : Prop} [Decidable c] {o : Host.Outcome State Fault Refusal} (hp : ¬ p) (hcp : ¬ c → p) :
      (if c then .next (refuse s) else o) = .next (refuse s) := if_pos (not_not.mp (mt hcp hp))
  cases i with
  | wopen | wbit | wflush | ropen | rbit | rclose | tdes | fscan | etrail | encode | decode =>
    exact guard h not_not.mp
  | wbits | wbyte | tbuild | tser | epay | esingle => exact guard h fun hg => by simpa [accepts] using hg
  | cgen => exact guard h fun hg => by simp [accepts] at hg ⊢; tauto
  | dsingle | dpay => exact guard h fun hg => by simpa [accepts, one_le_toNat_iff] using hg
  | clrerr => exact absurd trivial h
  | _ => cases hc

/-! ## Completion (R124, R128) -/

/-- MODE, CMDERR and ERRCODE are as they were. -/
structure StaysOpen (s t : State) : Prop where
  mode    : t.mode = s.mode
  cmdErr  : t.cmdErr = s.cmdErr
  errCode : t.errCode = s.errCode

theorem StaysOpen.refl (s : State) : StaysOpen s s := ⟨rfl, rfl, rfl⟩

theorem WriterFrame.staysOpen {s t : State} (h : WriterFrame s t) : StaysOpen s t := by
  rw [h.2]
  exact ⟨rfl, rfl, rfl⟩

theorem ReaderFrame.staysOpen {s t : State} (h : ReaderFrame s t) : StaysOpen s t := by
  rw [h]
  exact ⟨rfl, rfl, rfl⟩

/-- The command completes as its row of the table says (R124, R128). -/
def Completes (i : Instr) (s : State) : Prop :=
  ∃ t, exec i s = .next t ∧ t.cmdErr = (if i = .clrerr then false else s.cmdErr) ∧
    ((t.mode = modeAfter s.mode i ∧ t.errCode = .none) ∨ ∃ e ∈ mayRaise i, Raised e s t)

section
variable {i : Instr} {s t : State} (ht : exec i s = .next t)
include ht

theorem Completes.of_raised {e : ErrKind} (hi : i ≠ .clrerr) (he : e ∈ mayRaise i) (h : Raised e s t) :
    Completes i s :=
  ⟨t, ht, by rw [if_neg hi, h.cmdErr], .inr ⟨e, he, h⟩⟩

theorem Completes.of_staysOpen (hs : s.errCode = .none) (hi : i ≠ .clrerr) (hmode : modeAfter s.mode i = s.mode)
    (h : StaysOpen s t) : Completes i s :=
  ⟨t, ht, by rw [if_neg hi, h.cmdErr], .inl ⟨h.mode.trans hmode.symm, h.errCode.trans hs⟩⟩

theorem Completes.of_sessionEnded (hs : s.errCode = .none) (hi : i ≠ .clrerr) (hmode : modeAfter s.mode i = .idle)
    (h : SessionEnded s t) : Completes i s :=
  ⟨t, ht, by rw [if_neg hi, h.cmdErr], .inl ⟨h.mode.trans hmode.symm, h.errCode.trans hs⟩⟩

end

section
variable {s : State}

theorem completes_composite {i : Instr} (hi : i = .encode ∨ i = .decode) (hm : s.mode = .idle)
    (hs : s.errCode = .none) (hB : 1 ≤ s.params.bufSize) : Completes i s := by
  have hne : i ≠ .clrerr := by
    obtain rfl | rfl := hi <;> nofun
  have hmode : modeAfter s.mode i = .idle := by
    obtain rfl | rfl := hi <;> rfl
  obtain ⟨r, hr⟩ := composite_ending hm hi
  have hends : Ends i s r := hr s.params.bufSize s.buf hB
  cases r with
  | error e =>
    obtain ⟨he, t, ht, hraised⟩ := hends
    exact .of_raised ht hne he hraised
  | ok bytes =>
    obtain ⟨t, ht, hended, -⟩ := hends
    exact .of_sessionEnded ht hs hne hmode hended

/-! ### bit_stream_writer and bit_stream_reader -/

theorem completes_wopen (hm : s.mode = .idle) (hs : s.errCode = .none) : Completes .wopen s := by
  cases ha : s.allocOk with
  | false => exact .of_raised (exec_wopen_unallocated hm ha) nofun (by decide) (raised_raise .allocation s)
  | true => exact ⟨_, exec_wopen hm ha, rfl, .inl ⟨rfl, hs⟩⟩

theorem completes_ropen (hm : s.mode = .idle) (hs : s.errCode = .none) : Completes .ropen s := by
  cases ha : s.allocOk with
  | false => exact .of_raised (exec_ropen_unallocated hm ha) nofun (by decide) (raised_raise .allocation s)
  | true => exact ⟨_, exec_ropen hm ha, rfl, .inl ⟨rfl, hs⟩⟩

theorem completes_wbyte (v : Byte) (hm : s.mode = .write) (h0 : s.curBit = 0) (hs : s.errCode = .none) :
    Completes (.wbyte v) s := by
  refine .of_staysOpen (exec_wbyte hm h0 v) hs nofun rfl ?_
  rw [writeByte_eq_writeBits v h0]
  exact (writeBits_writerFrame _ s).staysOpen

theorem completes_wflush (hm : s.mode = .write) (hs : s.errCode = .none) : Completes .wflush s :=
  .of_sessionEnded (exec_wflush hm) hs nofun rfl
    ((sessionEnded_closeSession (flushBuf s)).of_writerFrame (flushBuf_writerFrame s))

theorem completes_rbit (hm : s.mode = .read) (hs : s.errCode = .none) : Completes .rbit s := by
  rcases hb : readBit s with ⟨o, t⟩
  have hframe := readBit_readerFrame s
  rw [hb] at hframe
  obtain ⟨hmode, hcmd, herr⟩ := hframe.staysOpen
  cases o with
  | none => exact .of_staysOpen (exec_rbit_of_none hm hb) hs nofun rfl ⟨hmode, hcmd, herr⟩
  | some b => exact .of_staysOpen (exec_rbit_of_some hm hb) hs nofun rfl ⟨hmode, hcmd, herr⟩

/-! ### The tree and the Code Table -/

theorem completes_tbuild (hm : s.mode = .write) (hf : s.freqV = true) (hs : s.errCode = .none) :
    Completes .tbuild s := by
  have hexec := exec_tbuild hm hf
  split_ifs at hexec with h0 h1
  · exact .of_raised hexec nofun (by decide) (raised_raise .emptyInput s)
  · exact .of_staysOpen hexec hs nofun rfl (.refl s)
  · exact .of_staysOpen hexec hs nofun rfl ⟨rfl, rfl, rfl⟩

theorem completes_tdes (hm : s.mode = .read) (hs : s.errCode = .none) : Completes .tdes s := by
  rcases he : desNode (Config.poolN + 1) (dropTree s) with ⟨o, t⟩
  cases o with
  | none => exact .of_raised (exec_tdes_of_none hm he) nofun (by decide) (raised_of_desNode he)
  | some root =>
    have hframe : StaysOpen { s with nodes := t.nodes, root := root, treeV := true, codeV := false } _ :=
      (desFrame_desNode he).planted.staysOpen
    exact .of_staysOpen (exec_tdes_of_some hm he) hs nofun rfl ⟨hframe.mode, hframe.cmdErr, hframe.errCode⟩

theorem completes_cgen {tr : CodeTree} (hm : s.mode = .write ∨ s.mode = .read) (hv : s.treeV = true)
    (ht : s.tree = some tr) (hs : s.errCode = .none) : Completes .cgen s := by
  have hexec := exec_cgen hv hm ht
  cases hwalk : codeWalk tr 0 0 CodeTable.zero with
  | none =>
    rw [hwalk] at hexec
    exact .of_raised hexec nofun (by decide) (raised_raise .codeOverflow s)
  | some tab =>
    rw [hwalk] at hexec
    exact .of_staysOpen hexec hs nofun rfl ⟨rfl, rfl, rfl⟩

/-! ### huffman_encoder and huffman_decoder -/

theorem completes_esingle (hm : s.mode = .write) (hf : s.freqV = true) (h1 : s.leafCount = 1) (h0 : s.curBit = 0)
    (hs : s.errCode = .none) : Completes .esingle s := by
  refine .of_staysOpen (exec_esingle hm hf h1 h0) hs nofun rfl ?_
  rw [writeBytes_eq_writeBits _ h0]
  exact (writeBits_writerFrame _ s).staysOpen

theorem completes_epay (hm : s.mode = .write) (hc : s.codeV = true) (hs : s.errCode = .none) :
    Completes .epay s := by
  have hframe := (writeBits_writerFrame (s.srcBytes.flatMap (codeBits s)) (noteScan s)).staysOpen
  exact .of_staysOpen (exec_epay hm hc) hs nofun rfl ⟨hframe.mode, hframe.cmdErr, hframe.errCode⟩

/-- Reading and emitting leave MODE, CMDERR and ERRCODE alone. -/
theorem Consumed.staysOpen_output {t : State} {w : PoolIx} {n : Nat}
    (h : Consumed { s with sink := t.sink, sinkLen := t.sinkLen, sinkWrites := t.sinkWrites, walk := w } t n) :
    StaysOpen s t :=
  have hframe := h.frame.staysOpen
  ⟨hframe.mode, hframe.cmdErr, hframe.errCode⟩

theorem completes_dsingle (hm : s.mode = .read) (hpos : s.pos = 0) (h0 : s.srcLen ≠ 0) (hmark : s.mark = true)
    (hs : s.errCode = .none) (h : s.CursorInv) : Completes .dsingle s := by
  by_cases h10 : s.srcLen = 10
  · obtain ⟨t, ht, -, hread, -⟩ := exec_dsingle_of_length_eq hm hpos hmark h10 h
    exact .of_staysOpen ht hs nofun rfl hread.staysOpen_output
  · exact .of_raised (exec_dsingle_of_length_ne hm hpos hmark h0 h10) nofun (by decide)
      (raised_raise .invalidFormat s)

/-- A tree whose root is no Leaf (R27). -/
theorem internal_of_kind {nodes : List Node} {f : Nat} {i : PoolIx} {tr : CodeTree} (h : treeAt nodes f i = some tr)
    (hk : (nodeAt nodes i).kind = false) : ∃ l r, tr = .internal l r := by
  cases tr with
  | leaf sym => simp [(treeAt_leaf h).1] at hk
  | internal l r => exact ⟨l, r, rfl⟩

theorem completes_dpay {tr : CodeTree} (hm : s.mode = .read) (hv : s.treeV = true) (h0 : s.srcLen ≠ 0)
    (hk : (nodeAt s.nodes s.root).kind = false) (ht : s.tree = some tr) (hs : s.errCode = .none) (h : s.CursorInv) :
    Completes .dpay s := by
  obtain ⟨l, r, rfl⟩ := internal_of_kind ht hk
  by_cases hgood : s.trailerCount.toNat ≤ 5 ∧ s.pos ≤ s.payloadEnd
  · obtain ⟨t, hexec, -, hread, -⟩ := dpay_emits hm hv h0 ht h hgood.1 hgood.2
    exact .of_staysOpen hexec hs nofun rfl hread.staysOpen_output
  · obtain ⟨t, hexec, hraised⟩ := dpay_raises hm hv h0 ht (by omega)
    exact .of_raised hexec nofun (by decide) hraised

/-! ### All commands -/

theorem completes_clrerr (h : s.SessionInv) : Completes .clrerr s := by
  by_cases hm : s.mode = .fault
  · refine ⟨_, exec_clrerr s, ?_, .inl ⟨?_, ?_⟩⟩ <;> simp [acknowledge_of_fault hm, modeAfter, hm]
  · refine ⟨_, exec_clrerr s, ?_, .inl ⟨?_, ?_⟩⟩ <;>
      simp [acknowledge_of_ne_fault hm, modeAfter, hm, h.errCode_none hm]

end

theorem completes_of_accepts {i : Instr} {s : State} (h : accepts i s) (hsession : s.SessionInv) (hcursor : s.CursorInv)
    (htables : s.TablesInv) : Completes i s := by
  have idle (hm : s.mode = .idle) : s.errCode = .none := hsession.errCode_none (hm.trans_ne nofun)
  have write (hm : s.mode = .write) : s.errCode = .none := hsession.errCode_none (hm.trans_ne nofun)
  have read (hm : s.mode = .read) : s.errCode = .none := hsession.errCode_none (hm.trans_ne nofun)
  cases i with
  | wopen => exact completes_wopen h (idle h)
  | wbit b => exact .of_staysOpen (exec_wbit h b) (write h) nofun rfl (writeBit_writerFrame b s).staysOpen
  | wbits n =>
    exact .of_staysOpen (exec_wbits h.1 h.2) (write h.1) nofun rfl (writeBits_writerFrame _ s).staysOpen
  | wbyte v => exact completes_wbyte v h.1 h.2 (write h.1)
  | wflush => exact completes_wflush h (write h)
  | ropen => exact completes_ropen h (idle h)
  | rbit => exact completes_rbit h (read h)
  | rclose =>
    exact .of_sessionEnded (if_neg (not_not.mpr h)) (read h) nofun rfl (sessionEnded_closeSession s)
  | tbuild => exact completes_tbuild h.1 h.2 (write h.1)
  | tser =>
    obtain ⟨hm, hv⟩ := h
    obtain ⟨-, -, ⟨tr, ht⟩, -⟩ := htables.tree_valid hv
    exact .of_staysOpen (exec_tser hm hv ht) (write hm) nofun rfl (writeBits_writerFrame _ s).staysOpen
  | tdes => exact completes_tdes h (read h)
  | cgen =>
    obtain ⟨hm, hv⟩ := h
    obtain ⟨-, -, ⟨tr, ht⟩, -⟩ := htables.tree_valid hv
    exact completes_cgen hm hv ht (hm.elim write read)
  | fscan => exact .of_staysOpen (exec_fscan h) (write h) nofun rfl ⟨rfl, rfl, rfl⟩
  | esingle =>
    obtain ⟨hm, hf, h1, h0⟩ := h
    exact completes_esingle hm hf h1 h0 (write hm)
  | epay => exact completes_epay h.1 h.2 (write h.1)
  | etrail => exact .of_staysOpen (exec_etrail h) (write h) nofun rfl (writeBits_writerFrame _ s).staysOpen
  | encode => exact completes_composite (.inl rfl) h (idle h) hcursor.bufSize_pos
  | dsingle =>
    obtain ⟨hm, hpos, hlen, hmark⟩ := h
    exact completes_dsingle hm hpos ((one_le_toNat_iff _).mp hlen) hmark (read hm) hcursor
  | dpay =>
    obtain ⟨hm, hv, hlen, hk⟩ := h
    obtain ⟨-, -, ⟨tr, ht⟩, -⟩ := htables.tree_valid hv
    exact completes_dpay hm hv ((one_le_toNat_iff _).mp hlen) hk ht (read hm) hcursor
  | decode => exact completes_composite (.inr rfl) h (idle h) hcursor.bufSize_pos
  | clrerr => exact completes_clrerr hsession
  | _ => exact h.elim

/-- Settles O36: the precondition decides between the refusal and a completion of the command's row. -/
theorem commandsFollowTheTable : Obligations.CommandsFollowTheTable :=
  fun _ _ hc => ⟨exec_of_not_accepts hc, completes_of_accepts⟩

/-! ## MODE FAULT (R134) -/

/-- CLRERR alone is accepted in MODE FAULT (R124, R134). -/
theorem not_accepts_of_fault {i : Instr} {s : State} (hm : s.mode = .fault) (hi : i ≠ .clrerr) : ¬ accepts i s := by
  cases i with
  | clrerr => exact absurd rfl hi
  | _ => simp [accepts, hm]

theorem exec_of_fault {i : Instr} {s : State} (hm : s.mode = .fault) (hc : i.isCommand = true) (hi : i ≠ .clrerr) :
    exec i s = .next (refuse s) := exec_of_not_accepts hc (not_accepts_of_fault hm hi)

/-- What the outside world can do to a block in MODE FAULT. -/
theorem taken_of_fault {a : HostAccess} {s t : State} (hm : s.mode = .fault) (hclosed : s.Closed) (ht : Taken s a t) :
    (t.mode = .fault ∧ t.errCode = s.errCode) ∨
    (t.mode = .idle ∧ t.errCode = .none ∧ t.Closed ∧
      (a = .reset ∨ ∃ v : Word64, a = .write 0 v ∧ v.setWidth 16 = (0xF000 : CmdWord))) := by
  cases ht with
  | command v i t hi hc hexec =>
    by_cases hclr : i = .clrerr
    · subst hclr
      rw [exec_clrerr, acknowledge_of_fault hm, Host.Outcome.next.injEq] at hexec
      subst hexec
      have hword : Image.word (0xF000 : CmdWord) = .word (v.setWidth 16) := encode_of_decodeCmd hi
      exact .inr ⟨rfl, rfl, hclosed.congr rfl, .inr ⟨v, rfl, (Image.word.inj hword).symm⟩⟩
    · rw [exec_of_fault hm hc hclr, Host.Outcome.next.injEq] at hexec
      subst hexec
      exact .inl ⟨hm, rfl⟩
  | reset => exact .inr ⟨rfl, rfl, closed_hardwareReset s, .inl rfl⟩
  | _ => exact .inl ⟨hm, rfl⟩

/-- Settles O40: of the commands only CLRERR is accepted, and of the other host accesses only reset sets MODE. -/
theorem faultModeAcceptsOnlyClrerr : Obligations.FaultModeAcceptsOnlyClrerr := by
  refine ⟨fun i s => exec_of_fault, fun s t hm h hstep => ?_⟩
  have hclosed : s.Closed := h.closed_outside (by simp [State.sessionOpen, hm])
  obtain ⟨-, rfl⟩ | ⟨a, rest, hhost, htaken⟩ := step_cases hstep
  · exact .inl ⟨hm, rfl⟩
  · rw [hhost, List.head?_cons]
    simpa only [Option.some_inj] using
      taken_of_fault (s := { s with host := rest }) hm (hclosed.congr rfl) htaken

end Sys2Proof.Machine

/-! PROOF. R132: a failed ENCODE or DECODE leaves the sink as it was. A command that raises does so before it has written,
and behind the first command of a sequence that writes stand only commands that never raise. This holds in every state;
no invariant is needed. -/

namespace Sys2Proof.Machine

/-! ## Commands that never raise -/

/-- A command that does not enter MODE FAULT. -/
def NeverRaises (i : Instr) : Prop :=
  ∀ s : State, s.mode ≠ .fault → EveryNext (fun t => t.mode ≠ .fault) (exec i s)

/-- A guarded command that keeps MODE, or leaves it for IDLE, where it is not refused. -/
theorem ne_fault_guarded {s t : State} (hm : s.mode ≠ .fault) {c : Prop} [Decidable c]
    (ht : t.mode = s.mode ∨ t.mode = .idle) :
    EveryNext (fun t => t.mode ≠ .fault) (if c then .next (refuse s) else .next t) :=
  .ite (fun _ => .next hm) fun _ => .next (ht.elim (fun e => e ▸ hm) fun e => e.trans_ne nofun)

theorem writeByte_mode (v : Byte) (s : State) : (writeByte v s).mode = s.mode := (nextByte_writerFrame _).mode

theorem writeBytes_mode (vs : List Byte) (s : State) : (writeBytes vs s).mode = s.mode :=
  List.foldlRecOn (motive := fun t => t.mode = s.mode) vs _ rfl fun t ht v _ => (writeByte_mode v t).trans ht

theorem neverRaises_esingle : NeverRaises .esingle := fun _ hm => ne_fault_guarded hm (.inl (writeBytes_mode ..))

theorem neverRaises_epay : NeverRaises .epay := fun _ hm => ne_fault_guarded hm (.inl (writeBits_writerFrame ..).mode)

theorem neverRaises_wflush : NeverRaises .wflush := fun _ hm => ne_fault_guarded hm (.inr rfl)

theorem neverRaises_rclose : NeverRaises .rclose := fun _ hm => ne_fault_guarded hm (.inr rfl)

theorem neverRaises_tser : NeverRaises .tser := by
  refine fun s hm => .ite (fun _ => .next hm) fun _ => ?_
  split
  case h_1 => exact .fault _
  case h_2 tr _ => exact .next ((writeBits_writerFrame tr.ser s).mode.trans_ne hm)

theorem neverRaises_etrail : NeverRaises .etrail := by
  intro s hm
  by_cases hw : s.mode = .write
  · rw [exec_etrail hw]
    exact .next ((writeBits_writerFrame _ s).mode.trans_ne hm)
  · rw [exec_of_not_accepts (i := .etrail) rfl hw]
    exact .next hm

theorem runCommands_neverRaises {is : List Instr} (his : ∀ i ∈ is, NeverRaises i) {s : State} (hm : s.mode ≠ .fault) :
    EveryNext (fun t => t.mode ≠ .fault) (runCommands is s) := by
  induction is generalizing s with
  | nil => exact .next hm
  | cons i is ih =>
    exact .andThen (his i List.mem_cons_self s hm) fun u hu => ih (fun j hj => his j (List.mem_cons_of_mem i hj)) hu

/-! ## Failures that leave the sink alone -/

/-- If `t` is a failure, the sink is as it was in `s` (R132). -/
def FailsClean (s t : State) : Prop := t.mode = .fault → t.memoryPart = s.memoryPart

/-- A sequence whose later commands never raise fails only at its first command. -/
theorem failsClean_runCommands {i : Instr} {is : List Instr} {s : State} (hi : EveryNext (FailsClean s) (exec i s))
    (his : ∀ j ∈ is, NeverRaises j) : EveryNext (FailsClean s) (runCommands (i :: is) s) := by
  intro t ht
  obtain ⟨u, hu, ⟨-, rfl⟩ | ⟨hne, hrest⟩⟩ := andThen_next.mp ht
  · exact hi t hu
  · exact fun hm => absurd hm (runCommands_neverRaises his hne t hrest)

section
variable {s : State}

theorem failsClean_cgen : EveryNext (FailsClean s) (exec .cgen s) := by
  refine .ite (fun _ => .next fun _ => rfl) fun _ => ?_
  split
  case h_1 => exact .fault _
  case h_2 => split <;> exact .next fun _ => rfl

theorem failsClean_dsingle : EveryNext (FailsClean s) (exec .dsingle s) := by
  refine .ite (fun _ => .next fun _ => rfl) fun hc => .ite (fun _ => .next fun _ => rfl) fun _ => ?_
  have hm : s.mode = .read := by
    by_contra hm
    exact hc (.inl hm)
  split
  case h_1 => exact .fault _
  case h_2 bits u hbits =>
    have hu : u.mode = .read := (stays_readBitsN (i := .dsingle) hm hbits).mode.trans hm
    refine .next fun hfault => absurd hfault ?_
    exact ((stays_emitTimes (i := .dsingle) hu _ _).mode.trans hu).trans_ne nofun

theorem failsClean_dpay : EveryNext (FailsClean s) (exec .dpay s) := by
  refine .ite (fun _ => .next fun _ => rfl) fun hc => ?_
  have hm : s.mode = .read := by
    by_contra hm
    exact hc (.inl hm)
  have hstate := checkTrailer_state s
  split
  case h_1 u hu =>
    rw [hu] at hstate
    obtain rfl := hstate
    exact .next fun _ => rfl
  case h_2 stop u hu =>
    rw [hu] at hstate
    obtain rfl := hstate
    split
    case h_1 => exact .fault _
    case h_2 v hv =>
      have hvm := (stays_walkPayload (i := .dpay) (s := payloadStart s) hm hv).mode.trans hm
      exact .next fun hfault => absurd hfault (hvm.trans_ne nofun)

theorem DesFrame.memoryPart {t : State} (h : DesFrame (dropTree s) t) : t.memoryPart = s.memoryPart :=
  ReaderFrame.memoryPart (s := { dropTree s with nodes := t.nodes }) h

/-- TDES writes nothing, whether it raises or not. -/
theorem tdes_memoryPart : EveryNext (fun t => t.memoryPart = s.memoryPart) (exec .tdes s) := by
  by_cases hm : s.mode = .read
  · rcases he : desNode (Config.poolN + 1) (dropTree s) with ⟨o, t⟩
    have hframe : t.memoryPart = s.memoryPart := (desFrame_desNode he).memoryPart
    cases o with
    | none =>
      rw [exec_tdes_of_none hm he]
      exact .next hframe
    | some root =>
      rw [exec_tdes_of_some hm he]
      exact .next hframe
  · rw [exec_of_not_accepts (i := .tdes) rfl hm]
    exact .next rfl

/-! ## The composite commands -/

variable (hm : s.mode = .idle)
include hm

theorem failsClean_encode : EveryNext (FailsClean s) (exec .encode s) := by
  cases ha : s.allocOk with
  | false =>
    rw [(composites_unallocated hm ha).1, runCommands_singleton, exec_wopen_unallocated hm ha]
    exact .next fun _ => rfl
  | true =>
    rw [exec_encode hm ha]
    refine .ite (fun _ => .next fun _ => rfl) fun h0 => .ite (fun _ => ?_) fun h1 => ?_
    · have hrun := runCommands_neverRaises (is := [.esingle, .wflush])
        (by simp [neverRaises_esingle, neverRaises_wflush]) (encodeScanned_ne_fault s)
      exact fun t ht hfault => absurd hfault (hrun t ht)
    · have hbuild : exec .tbuild (encodeScanned s) = .next (treeBuilt (encodeScanned s)) := by
        rw [exec_tbuild rfl rfl, if_neg h0, if_neg h1]
      rw [runCommands_cons hbuild (encodeScanned_ne_fault s)]
      exact failsClean_runCommands (s := treeBuilt (encodeScanned s)) failsClean_cgen
        (by simp [neverRaises_tser, neverRaises_epay, neverRaises_etrail, neverRaises_wflush])

theorem failsClean_decode : EveryNext (FailsClean s) (exec .decode s) := by
  have hrclose : ∀ j ∈ [Instr.rclose], NeverRaises j := by simp [neverRaises_rclose]
  cases ha : s.allocOk with
  | false =>
    rw [(composites_unallocated hm ha).2, runCommands_singleton, exec_ropen_unallocated hm ha]
    exact .next fun _ => rfl
  | true =>
    rw [exec_decode hm ha]
    refine .ite (fun _ => .next fun _ => rfl) fun _ => .ite (fun _ => ?_) fun _ => ?_
    · exact failsClean_runCommands (s := readOpened s) failsClean_dsingle hrclose
    · intro t ht hfault
      obtain ⟨u, hu, ⟨-, rfl⟩ | ⟨-, hrest⟩⟩ := andThen_next.mp ht
      · exact tdes_memoryPart (s := readOpened s) t hu
      · have hdpay : t.memoryPart = u.memoryPart := failsClean_runCommands failsClean_dpay hrclose t hrest hfault
        exact hdpay.trans (tdes_memoryPart (s := readOpened s) u hu)

end

/-- Settles O39: every failure of a composite command comes before its first sink write. -/
theorem failedCompositesLeaveTheSink : Obligations.FailedCompositesLeaveTheSink := by
  intro i s t hi hm ht hfault
  have hsink : t.memoryPart = s.memoryPart := by
    obtain rfl | rfl := hi
    · exact failsClean_encode hm t ht hfault
    · exact failsClean_decode hm t ht hfault
  have field {α : Type} (f : State → α) : f t.memoryPart = f s.memoryPart := congrArg f hsink
  exact ⟨field State.sink, field State.sinkLen, field State.sinkWrites⟩

end Sys2Proof.Machine
